-- ==== Sys2Proof/Word.lean ====
section
/-!
DEFINITION. The words of the AZ-H9 and their plainest arithmetic: bytes, 32-bit lanes, 64-bit
scalars, little-endian assembly of bytes (00_scope.md R3).
-/

namespace Sys2Proof

/-- A byte, the smallest addressable unit. -/
abbrev Byte := BitVec 8

/-- A 32-bit lane of a vector register, a tile-store element, a cell register. -/
abbrev Word32 := BitVec 32

/-- A scalar register, a syllable, an address while it is computed. -/
abbrev Word64 := BitVec 64

/-- A register number as a syllable carries it (R261). -/
abbrev Reg := BitVec 6

/-- The little-endian value of a list of bytes: the first byte is the least significant (R3). -/
def bytesToNat : List Byte → Nat
  | [] => 0
  | b :: bs => b.toNat + 256 * bytesToNat bs

/-- The `n` little-endian bytes of a number, the least significant first (R3). -/
def natToBytes : Nat → Nat → List Byte
  | 0, _ => []
  | n + 1, v => BitVec.ofNat 8 v :: natToBytes n (v / 256)

end Sys2Proof
end

