-- ==== Sys2Proof/Syntax.lean ====
section
/-!
DEFINITION. The instructions of the AZ-H9, one constructor of `Instr` for each row of
spec/opcode_table.json: the syllables of R285 to R291 with their operands named, and the
events of the device (95_what_each_step_holds.md) with what each needs to be told.
-/

namespace Sys2Proof

/-! ## Codes that operand fields carry -/

/-- The element types of R260, in the order of their codes. -/
inductive Ty
  | i8 | i16 | i32 | i64 | n8 | n16 | n32 | n64
  | f32 | bf16 | f16 | e4m3 | e5m2 | e3m2 | e2m3 | e2m1
  deriving DecidableEq, Repr

/-- The rounding codes of R242. -/
inductive Rm
  | rne | rtz | rup | rdn | sr
  deriving DecidableEq, Repr

/-- The integer conditions of R297. -/
inductive Cond
  | eq | ne | lt | ge | ltu | geu | le | leu
  deriving DecidableEq, Repr

/-- The floating-point conditions of VFCMP (R320). -/
inductive FCond
  | eq | ne | lt | ge | le | gt | uo | or
  deriving DecidableEq, Repr

/-- The ordering codes of form M (R259). -/
inductive Ord
  | plain | acquire | release
  deriving DecidableEq, Repr

/-- The fold operators of VRED and VSCAN (R323). -/
inductive Fold
  | add | min | max | and | or | xor
  deriving DecidableEq, Repr

/-- The values LVID writes (R305). -/
inductive LvidSel
  | coord | rank | size | fan
  deriving DecidableEq, Repr

/-- The values PHYID writes (R306). -/
inductive PhyidSel
  | module | die | ppod | lpod | core | ctx | mep | win
  deriving DecidableEq, Repr

/-- The offset-register forms of a vector memory syllable (OFS of R259). -/
inductive Ofs
  | none | vec (b : Reg) | index (b : Reg) | pair (b : Reg)
  deriving DecidableEq, Repr

/-- The four engine queues of R360, in MSTAT's order of ENG. -/
inductive Engine
  | matrix | copy | fabric | text
  deriving DecidableEq, Repr

/-- A context of a core, c0 to c3 (R261). -/
abbrev CtxNo := Fin 4

/-! ## Operand records -/

/-- Operands of a form R scalar operation: destination, two sources, type (R292). -/
structure SArgs where
  d : Reg
  a : Reg
  b : Reg
  ty : Ty
  deriving DecidableEq, Repr

/-- Operands of a form I scalar operation; `ext` is the IMM syllable's EXT when one follows (R293). -/
structure IArgs where
  d : Reg
  a : Reg
  imm : BitVec 32
  ext : Option (BitVec 32)
  deriving DecidableEq, Repr

/-- Destination, source and count of SHLI, SHRI, SARI (R292). -/
structure ShArgs where
  d : Reg
  a : Reg
  cnt : BitVec 6
  deriving DecidableEq, Repr

/-- Operands of PAND, POR, PXOR (R299). -/
structure PArgs where
  d : Reg
  a : Reg
  b : Reg
  na : Bool
  nb : Bool
  deriving DecidableEq, Repr

/-- Group mask, lane predicate and chain-in bit of form V (R259, R262). -/
structure VHdr where
  gm : BitVec 8
  q : BitVec 3
  ch : Bool
  deriving DecidableEq, Repr

/-- Operands of a two-source vector operation (R315). -/
structure VArgs where
  h : VHdr
  d : Reg
  a : Reg
  b : Reg
  bs : Bool
  ty : Ty
  deriving DecidableEq, Repr

/-- Operands of an untyped two-source vector operation (R315). -/
structure VBitArgs where
  h : VHdr
  d : Reg
  a : Reg
  b : Reg
  bs : Bool
  deriving DecidableEq, Repr

/-- Operands of a rounding vector operation; `key` is EXT of the IMM syllable SR needs (R262). -/
structure VFArgs where
  h : VHdr
  d : Reg
  a : Reg
  b : Reg
  bs : Bool
  c : Reg
  ty : Ty
  rm : Rm
  key : Option (BitVec 32)
  deriving DecidableEq, Repr

/-- Operands of VFABS and VFNEG. -/
structure VUnArgs where
  h : VHdr
  d : Reg
  a : Reg
  ty : Ty
  deriving DecidableEq, Repr

/-- Operands of VCMP and VFCMP over a condition type: the pair q[2K], q[2K+1] (R320). -/
structure VCmpArgs (γ : Type) where
  h : VHdr
  k : BitVec 2
  cond : γ
  a : Reg
  b : Reg
  bs : Bool
  deriving DecidableEq, Repr

/-- Operands of VCVT (R321). -/
structure VCvtArgs where
  h : VHdr
  d : Reg
  a : Reg
  sty : Ty
  ty : Ty
  pos : BitVec 3
  rm : Rm
  key : Option (BitVec 32)
  deriving DecidableEq, Repr

/-- Operands of VRED and VSCAN (R323); `excl` is false for VRED. -/
structure VFoldArgs where
  h : VHdr
  d : Reg
  a : Reg
  excl : Bool
  op : Fold
  ty : Ty
  deriving DecidableEq, Repr

/-- Operands of VRNG (R327). -/
structure VRngArgs where
  h : VHdr
  d : Reg
  a : Reg
  k : Reg
  unit : Bool
  word : BitVec 2
  deriving DecidableEq, Repr

/-- Operands of the lane-predicate operations of R328. -/
structure QArgs where
  h : VHdr
  d : Reg
  a : Reg
  b : Reg
  deriving DecidableEq, Repr

/-- Operands of a special function (R329). -/
structure FArgs where
  h : VHdr
  d : Reg
  a : Reg
  deriving DecidableEq, Repr

/-- Base scalar, displacement, and the IMM displacement when one follows (R259, R263). -/
structure MAddr where
  a : Reg
  disp : BitVec 6
  ext : Option (BitVec 32)
  deriving DecidableEq, Repr

/-- Operands of a scalar memory access (R338). -/
structure MArgs where
  d : Reg
  m : MAddr
  ty : Ty
  deriving DecidableEq, Repr

/-- Operands of a vector memory access (R338). -/
structure VMArgs where
  d : Reg
  m : MAddr
  gm : BitVec 8
  q : BitVec 3
  ofs : Ofs
  ty : Ty
  deriving DecidableEq, Repr

/-- Operands of PST, scalar or vector (R344). -/
structure PstArgs where
  d : Reg
  m : MAddr
  vec : Bool
  gm : BitVec 8
  q : BitVec 3
  ty : Ty
  deriving DecidableEq, Repr

/-- Operands of an atomic (R348). -/
structure AtomArgs where
  d : Reg
  a : Reg
  b : Reg
  disp : BitVec 6
  ty : Ty
  ord : Ord
  deriving DecidableEq, Repr

/-- Operands of MCALL (R359, R366). -/
structure McallArgs where
  d : Reg
  a : Reg
  b : Reg
  c : Reg
  slot : BitVec 8
  pod : Bool
  lsel : BitVec 2
  accm : Bool
  deriving DecidableEq, Repr

/-- Operands of an index instruction with up to four registers (R331). -/
structure XArgs where
  d : Reg
  a : Reg
  b : Reg
  c : Reg
  ty : Ty
  deriving DecidableEq, Repr

/-! ## What events are told -/

/-- How a request that left the core ended (R35, R144). -/
inductive Reply
  | ok | refused | dead | timeout | poolError | uncorrectable
  deriving DecidableEq, Repr, Inhabited

/-- The operations of a home atomic unit (R36, R348). -/
inductive AtomOp
  | add | min | max | and | or | xor | swap | cas
  deriving DecidableEq, Repr

/-- The kinds of access Translate judges (R134). -/
inductive AccKind
  | read | write | atomic
  deriving DecidableEq, Repr

/-- A boot image as the security processor meets it (R78): its bytes, its security version, its signature, the
firmware public key it carries (stage 1), and whether it is well formed. -/
structure BootImage where
  bytes : List Byte
  version : Nat
  signature : List Byte
  key : List Byte
  wellFormed : Bool
  deriving DecidableEq, Repr

/-- A contribution to an in-network operation (R39, R46): the operator and format that its participant names, and its
bytes. -/
structure Contribution where
  accop : Nat
  fmt : Nat
  data : List Byte
  deriving DecidableEq, Repr

/-- What a master writes to the state window: 4 bytes or 8 (R56). -/
inductive WindowWord
  | four (v : BitVec 32)
  | eight (v : Word64)
  deriving DecidableEq, Repr

/-- What a control flit carries (R93, R97, R44). -/
inductive ControlMsg
  /-- A member module announces a group and its tree digest. -/
  | announce (group : Nat) (modId : Nat) (digest : List Byte)
  /-- The leader tells the members to start. -/
  | go (group : Nat)
  /-- The leader tells the members to release their bindings and try again. -/
  | retry (group : Nat)
  /-- A member reports that it waits for contexts, or has released its binding. -/
  | waiting (group : Nat) (modId : Nat)
  /-- A member withdraws its announcement. -/
  | withdraw (group : Nat) (modId : Nat)
  /-- A member has freed contexts. -/
  | freed (group : Nat) (modId : Nat)
  /-- A member refused with a cause. -/
  | refusedBy (group : Nat) (modId : Nat)
  /-- A member reports that it has bound its subtrees. -/
  | bound (group : Nat) (modId : Nat)
  /-- A participant of a print announces READY: its launch group, level and node, the graph slot and the
  print's sequence, its rank and its bases. -/
  | ready (group level node : Nat) (slot : BitVec 2) (seq : BitVec 32) (rank : Nat) (bases : List Word64)
  /-- A participant's announcement is withdrawn, because its gang stops (R47). -/
  | unready (group level node : Nat) (slot : BitVec 2) (seq : BitVec 32) (rank : Nat)
  /-- A participant of an exchange declares its command block (R33, R378): launch group, level and node, the kind of
  the exchange, its rank. -/
  | declare (group level node kind rank : Nat) (block : List Byte)
  /-- A declaration is withdrawn, because the gang stops (R47, R378). -/
  | undeclare (group level node kind rank : Nat)
  /-- A barrier arrival from another module: launch group, level, node and barrier number. -/
  | arrive (group : Nat) (level : Nat) (node : Nat) (number : BitVec 7)
  deriving DecidableEq, Repr

/-- How a host port came out of training (R13, R14). -/
inductive TrainResult
  | trained (width : Nat) (rate : Nat) (cxl : Bool)
  | failed
  deriving DecidableEq, Repr

/-- The SPDM transports of R81. -/
inductive Transport
  | doeH0 | doeH1 | mctp
  deriving DecidableEq, Repr

/-- One instruction or event: a row of spec/opcode_table.json each. -/
inductive Instr
  -- S space: arithmetic and logic (R294, R295)
  | add (la ld : Bool) (o : SArgs)
  | sub (o : SArgs) | and (o : SArgs) | or (o : SArgs) | xor (o : SArgs) | andn (o : SArgs)
  | shl (o : SArgs) | shr (o : SArgs) | sar (o : SArgs) | rol (o : SArgs)
  | min (o : SArgs) | max (o : SArgs) | mul (o : SArgs) | mulh (o : SArgs)
  | clz (d a : Reg) (ty : Ty) | popc (d a : Reg) (ty : Ty)
  | addi (o : IArgs) | subi (o : IArgs) | andi (o : IArgs) | ori (o : IArgs) | xori (o : IArgs)
  | shli (o : ShArgs) | shri (o : ShArgs) | sari (o : ShArgs)
  | mini (o : IArgs) | maxi (o : IArgs)
  | movi (d : Reg) (imm : BitVec 32) (ext : Option (BitVec 32))
  | muli (o : IArgs)
  -- S space: compare, select, bit fields, predicates (R297 to R299)
  | cmp (k : BitVec 3) (cond : Cond) (a b : Reg) (ty : Ty)
  | cmpi (k : BitVec 3) (cond : Cond) (a : Reg) (imm : BitVec 32) (ext : Option (BitVec 32))
  | sel (d a b p : Reg)
  | ext (d a : Reg) (pos w1 : BitVec 6) (sgn : Bool)
  | dep (d a b : Reg) (pos w1 : BitVec 6)
  | addsc (d a b : Reg) (sh : BitVec 3)
  | pand (o : PArgs) | por (o : PArgs) | pxor (o : PArgs)
  -- branches, calls, loops (R300, R301)
  | br (disp : BitVec 32) | brC (disp : BitVec 32) | call (disp : BitVec 32)
  | jmpi (a : Reg) | calli (a : Reg)
  | loop (d a : Reg) (len : BitVec 32)
  -- control registers, tree and physical identity (R304 to R306)
  | crd (d : Reg) (idx : Reg)
  | cwr (a : Reg) (idx : Reg)
  | cwrBindb (a : Reg) | cwrSeqtb (a : Reg)
  | mupcAbort (c : CtxNo) | ecmdDisct (c : CtxNo) | ecmdDiscx (c : CtxNo)
  | lvid (d : Reg) (lv : BitVec 6) (sel : LvidSel)
  | phyid (d : Reg) (sel : PhyidSel)
  -- C space (R307 to R311, R353 to R357)
  | spawn (c : CtxNo) (a b : Reg)
  | trap (code : BitVec 16)
  | waitc (d t b c : Reg)
  | bara (d : Reg) (lv : BitVec 6) (n : BitVec 7)
  | barw (a : Reg) (lv : BitVec 6) (n : BitVec 7)
  | bar (d : Reg) (lv : BitVec 6) (n : BitVec 7)
  | qput (a b : Reg)
  | qget (d a b : Reg)
  -- V space (R315)
  | vadd (o : VArgs) | vsub (o : VArgs) | vmul (o : VArgs) | vmulh (o : VArgs)
  | vand (o : VBitArgs) | vor (o : VBitArgs) | vxor (o : VBitArgs) | vandn (o : VBitArgs)
  | vshl (o : VArgs) | vshr (o : VArgs) | vsar (o : VArgs) | vmin (o : VArgs) | vmax (o : VArgs)
  | vadds (o : VArgs) | vsubs (o : VArgs)
  | vsel (o : VBitArgs) (qc : BitVec 3)
  | vfadd (o : VFArgs) | vfsub (o : VFArgs) | vfmul (o : VFArgs)
  | vfma (o : VFArgs) | vfms (o : VFArgs) | vfnma (o : VFArgs)
  | vfmin (o : VArgs) | vfmax (o : VArgs) | vfminp (o : VArgs) | vfmaxp (o : VArgs)
  | vfabs (o : VUnArgs) | vfneg (o : VUnArgs)
  | vcmp (o : VCmpArgs Cond) | vfcmp (o : VCmpArgs FCond)
  | vcvt (o : VCvtArgs)
  | vperm (o : VBitArgs)
  | vbcast (h : VHdr) (d a : Reg) (lane : BitVec 4)
  | vred (o : VFoldArgs) | vscan (o : VFoldArgs)
  | vqcnt (h : VHdr) (d : Reg) (all : Bool) (qc : BitVec 3)
  | vmov (h : VHdr) (d b : Reg) (bs : Bool)
  | gxfer (h : VHdr) (d a : Reg) (fix : Bool) (g : BitVec 3)
  | vdot2 (o : VFArgs) | vdot4 (o : VFArgs) | vdot8 (o : VFArgs)
  | vrng (o : VRngArgs)
  | qand (o : QArgs) | qor (o : QArgs) | qxor (o : QArgs) | qandn (o : QArgs)
  | vmovi (h : VHdr) (d : Reg) (imm : BitVec 32)
  -- F space (R329)
  | rcp (o : FArgs) | rsq (o : FArgs) | sqrt (o : FArgs) | exp2 (o : FArgs) | log2 (o : FArgs)
  | sinpi (o : FArgs) | cospi (o : FArgs) | tanh (o : FArgs) | sigm (o : FArgs)
  -- X space (R331)
  | xcad (d a b : Reg) (ty : Ty)
  | xpopc (d a b : Reg)
  | xexp (d a b : Reg) (sh : BitVec 3) (half : Bool)
  | xmps (o : XArgs)
  | xins (d a : Reg) (idx : BitVec 4) (ty : Ty)
  | xget (d a : Reg) (idx : BitVec 4) (ty : Ty)
  | xsplat (d a : Reg) (ty : Ty)
  | xadds (d a b : Reg) (ty : Ty)
  | xscan (d a : Reg) (excl : Bool) (ty : Ty)
  | xcmp (d a b : Reg) (cond : Cond) (ty : Ty)
  | xtoq (d a : Reg) (hi : Bool)
  -- M space (R338)
  | ld (o : MArgs) | st (o : MArgs)
  | vld (o : VMArgs) | vst (o : VMArgs) | vstPk6 (o : VMArgs)
  | vgath (o : VMArgs) | vscat (o : VMArgs) | vldb (o : VMArgs)
  | pst (o : PstArgs)
  | ldg (o : MArgs) | ldgAcq (o : MArgs) | stg (o : MArgs) | stgRel (o : MArgs)
  | vldg (o : VMArgs) | vstg (o : VMArgs)
  | atomgAdd (o : AtomArgs) | atomgMin (o : AtomArgs) | atomgMax (o : AtomArgs)
  | atomgAnd (o : AtomArgs) | atomgOr (o : AtomArgs) | atomgXor (o : AtomArgs)
  | atomgSwap (o : AtomArgs) | atomgCas (o : AtomArgs)
  | fence (d : Reg) (lv : BitVec 6)
  | fencex (d : Reg) (lv : BitVec 6) (paths : BitVec 5)
  | waita (d a b : Reg) (disp : BitVec 6) (ty : Ty) (acq : Bool)
  | linv (a : Reg) (disp : BitVec 6) (len : Option Reg)
  -- E space (R359)
  | mcall (o : McallArgs)
  | mstat (d : Reg) (eng : Engine)
  | mput (d a : Reg) | mget (d a : Reg)
  | cellld (d a b c : Reg)
  | flowset (d a : Reg) | xwin (d a : Reg)
  | tsld (d a : Reg) | tsst (d a : Reg)
  | xcopy (d a : Reg) | xgather (d a : Reg) | embpool (d a : Reg) | xcvt (d a : Reg)
  | cgload (d a : Reg) (g : BitVec 2)
  | cgrun (d a b : Reg) (lv : BitVec 6) (g : BitVec 2)
  -- events of a print (R44)
  | printOpStart (c : CtxNo) (g : BitVec 2) (op : Nat)
  | printOpDone (c : CtxNo) (g : BitVec 2) (op : Nat) (r : Reply)
  -- E space, continued
  | a2aDisp (d a : Reg) (lv : BitVec 6) | a2aComb (d a : Reg) (lv : BitVec 6)
  | repart (d a : Reg) (lv : BitVec 6)
  | txtEnc (d a : Reg) | txtDec (d a : Reg) | txtMask (d a : Reg)
  -- events of a core (95_what_each_step_holds.md)
  | engineCommandStart (e : Engine) (c : CtxNo)
  | engineFaultDelivery (c : CtxNo)
  | pendingArrival (c : CtxNo)
  | registerCacheFill (c : CtxNo) (line : Nat)
  | holdEnd (c : CtxNo)
  | nullifierSkip (n : Nat)
  | trapEntry (c : CtxNo) (cause : Byte) (epc eaddr einfo : Word64)
  | waitaWake (word : Nat) (space : Bool)
  | waitaTimeout (c : CtxNo) | waitcTimeout (c : CtxNo)
  | qgetTimeout (c : CtxNo) | qputTimeout (c : CtxNo)
  | fenceComplete (c : CtxNo)
  | releasePerform (c : CtxNo)
  | translationWalk (lslot : Nat) (va : Word64) (kind : AccKind)
  | lineWritebackFail (lslot : Nat) (line : Word64) (r : Reply)
  -- events of the fabric
  | remoteRequestTimeout (tag : BitVec 12)
  | readRequestReceive (src : Nat) (tag : BitVec 12) (addr : BitVec 56) (len : Nat)
  | writeRequestReceive (src : Nat) (tag : BitVec 12) (addr : BitVec 56) (data : List Byte)
  | atomicRequestReceive (src : Nat) (tag : BitVec 12) (addr : BitVec 56) (op : AtomOp) (ty : Ty)
      (operand cmp : Word64)
  | responseReceive (io : Bool) (tag : BitVec 12) (r : Reply) (data : List Byte)
  | collectiveDataReceive (src : Nat) (c : CtxNo) (g : BitVec 2) (seq : BitVec 32) (op off : Nat)
      (data : List Byte)
  | switchReduce (c : CtxNo) (g : BitVec 2) (op : Nat) (contributions : List Contribution)
  | controlFlitReceive (msg : ControlMsg)
  | fabricPortDegrade (port : Nat) (lanes : Nat)
  | planeLoss (port : Nat)
  -- events of the hub and its boot
  | hostLinkTrain (port : Nat) (r : TrainResult)
  | measuredBoot (images : List BootImage)
  | spdmGetMeasurements (t : Transport) (nonce : List Byte)
  | spdmChunkGet (t : Transport) (seq : Nat)
  | spdmRespondIfReady (t : Transport)
  | ownClaim (m : Nat) (epoch lease : BitVec 16)
  | ownRenew (m : Nat) (epoch lease : BitVec 16)
  | ownRelease (m : Nat) (epoch : BitVec 16)
  | ownHandover (m : Nat) (epoch : BitVec 16) (tgt : BitVec 2)
  | ownAccept (m : Nat) (epoch lease : BitVec 16)
  | stateWindowWrite (m : Nat) (off : Nat) (value : WindowWord)
  | deviceMemoryWrite (m : Nat) (pa : Nat) (data : List Byte)
  | lqtailWrite (m : Nat) (q : Fin 8) (value : Word64)
  | lqctlDisable (m : Nat) (q : Fin 8) (value : Word64)
  | launchRecordTake (q : Fin 8) | waitWordsMet (q : Fin 8)
  | treeBind (q : Fin 8)
  | launchEnd (slot : Nat)
  | launchAbort (m : Nat) (slot : Nat)
  | gangPreempt (m : Nat) (slot : Nat) (gang : BitVec 32)
  | gangResume (m : Nat) (slot : Nat) (gang : BitVec 32)
  | gangStop (slot : Nat)
  | podFailure (die pod : Nat)
  | xlinvcWrite (m : Nat) (value : Word64)
  | queueDisable (m : Nat) (q : Nat)
  | islctlWrite (m : Nat) (island : Nat) (value : BitVec 32)
  | islandTransition (island : Nat)
  | powerManagerTick (meas : BitVec 16) (hot cool : List Nat)
  | trshutWrite (m : Nat) (core : Nat) (value : Word64)
  | trdumpWrite (m : Nat) (core : Nat) (value : Word64)
  | rowSparing (row : Nat)
  | pseudoChannelFailure (stack channel : Nat) (lost : List Nat)
  | commandFinished (e : Engine) (c : CtxNo)
  | poolLinkFault (port : Nat)
  | crcFailFlitReceive (port : Nat) (vc : BitVec 2)
  | trdumpCopyDone (core : Nat)
  | spdmGetCertificate (t : Transport)
  | spdmChallenge (t : Transport) (nonce : List Byte)
  -- rows of any space or kind without operands
  | nop | ret | seqsel | yield | halt | tret
  | resultLanding | timesliceExpiry | leaseExpiry | handoverTimeout | bindRetry
  | xlatInvalidateDone | hbmPatrolScrub | sramPatrolScrub
  deriving DecidableEq, Repr

/-- A syllable as a bundle holds it (R256): the slot code, its guard and its instruction. The STOP
bit is the bundle's, not the instruction's, and is not kept here. -/
structure Syllable where
  slot : BitVec 4
  gn : Bool
  gp : BitVec 4
  instr : Instr
  deriving DecidableEq, Repr

end Sys2Proof
end

