-- ==== Sys2Proof/Config.lean ====
section
/-!
DEFINITION. What an implementation of the AZ-H9 fixes and the specification does not: the free
values (each an opaque constant with no body, applied to a plain counter of State or to the operands
it depends on), the two hash and signature functions that the specification takes from other
standards, and the fused constants of the module. No value of any of them can be computed or proved.
-/

namespace Sys2Proof.Config

/-- R156: whether a read of a register with a result in flight gets that result or the older value.
Counter of State, syllable index, register class, register number, position of the result. -/
opaque inFlight : Nat → Nat → Nat → Nat → Nat → Bool

/-- R254: the value a special function gives inside its bound, by function and input bits. -/
opaque special : Nat → BitVec 32 → BitVec 32

/-- A value the specification leaves open: counter of State and a place. -/
opaque freeWord : Nat → Nat → BitVec 32

/-- The bytes that an engine reads from memory outside the module (R134 TGT 001 to 101). -/
opaque extByte : Nat → Nat → BitVec 8

/-- How an engine's access to memory outside the module ends (R144, R365). -/
opaque extReply : Nat → Nat → Reply

/-- The micro-address, 0 to 1,023, at which the stage-4 image put a vendor routine (R185). -/
opaque vendorEntry : Nat → BitVec 10

/-- The row of its stack that a 32-byte unit of HBM lies in, and the pseudo-channel (R24). -/
opaque rowOf : Nat → Nat
opaque channelOf : Nat → Nat

/-- The 32-byte units of HBM, and the other places as a kind of array with the numbers that name a place in it, at which
an error is met and corrected (R22): counter of State; 0 by a scrubber, 1 by an access. -/
opaque corrected : Nat → Nat → List Nat
opaque correctedSram : Nat → Nat → List (Nat × List Nat)

/-- SHAKE256 with the given number of output bytes (R78, R79, R93). -/
opaque shake256 : List Byte → Nat → List Byte

/-- SHA3-512, the digest of SPDM transcripts and certificates (R81). -/
opaque sha3 : List Byte → List Byte

/-- SLH-DSA-SHAKE-256s verification by FIPS 205: key, message, signature (R78). -/
opaque slhDsaVerify : List Byte → List Byte → List Byte → Bool

/-- SLH-DSA-SHAKE-256s signing with the device identity key (R81): the message. -/
opaque slhDsaSign : List Byte → List Byte

/-- The X.509 chain of certificate slot 0 (R81). -/
opaque certificate : List Byte

/-- How SPDM names SLH-DSA-SHAKE-256s among the extended asymmetric algorithms (R81). -/
opaque extAsym : BitVec 32

/-- How many bytes of a large SPDM response one CHUNK_GET carries (R81). -/
opaque chunkSize : Nat

/-- The fused hash of Vavin's firmware public key (R78). -/
opaque fusedKeyHash : List Byte

/-- The fused digest of the boot ROM (R78). -/
opaque romDigest : List Byte

/-- The fused minimum security version of a boot stage (R78). -/
opaque minVersion : Nat → Nat

/-- The module's own id, 0 to 143, given by its rack position (R27). -/
opaque rackPosition : Fin 144

end Sys2Proof.Config
end

