-- ==== Sys2Proof/Machine/State.lean ====
section
/-!
DEFINITION. The state of one AZ-H9 module as plain data: its contexts, cores, pods, dies, hub,
memories and fabric ports (00 to 16), with what the model itself needs to say which agent moves next.
-/

namespace Sys2Proof.Machine

/-! ## Sparse tables and memory -/

/-- A sparse table: keys strictly rising, no entry equal to the value an unlisted key has. -/
abbrev Tab (α : Type) := List (Nat × α)

/-- A byte memory in canonical form: addresses strictly rising, no entry 0 (an unlisted address
reads as 0: DESIGN CHOICE, log entry 1). -/
abbrev Memory := List Host.Cell

/-- Keys strictly rise from a lower bound and no entry is the default. -/
def Tab.wfFrom {α : Type} [DecidableEq α] (d : α) : Nat → List (Nat × α) → Bool
  | _, [] => true
  | lo, (k, v) :: rest => decide (lo ≤ k) && !decide (v = d) && Tab.wfFrom d (k + 1) rest

/-- The canonical form of a table with default `d`. -/
def Tab.wf {α : Type} [DecidableEq α] (d : α) (t : List (Nat × α)) : Bool := Tab.wfFrom d 0 t

/-- The canonical form of a byte memory. -/
def Memory.wf (m : Memory) : Bool := Tab.wf (0 : Byte) m

/-! ## A context -/

/-- Context states (R101). -/
inductive CtxState
  | free | idle | ready | running | waiting | preempted | halted
  deriving DecidableEq, Repr

/-- Reasons for a held bundle, in the order of CTXHDR.HOLD (R103). -/
inductive Hold
  | none | waita | waitc | barrier | qput | qget | pending
  deriving DecidableEq, Repr

/-- Freeze causes, each with its counter (R159). -/
inductive FreezeCause
  | bank | fill | pending | tag | scoreboard | table
  deriving DecidableEq, Repr

/-- What the bubbles of a context follow: a taken branch, a nullifier skip or a trap (R159, R169, R222). -/
inductive BubbleWhy
  | branch | skip | trap
  deriving DecidableEq, Repr

/-- Where a result lands: KIND of R225 (a v or q result group by group, with the lanes it writes), a
control register write in flight (R304), or flags to be ORed into FPFLAGS (R249). -/
inductive Dest
  | s (r : Reg) | p (r : Reg)
  | v (r : Reg) (g : Fin 8) (lanes : BitVec 16)
  | q (r : Reg) (g : Fin 8) (lanes : BitVec 16)
  | x (r : Reg) | lc (r : Reg) | m (r : Reg)
  | cr (idx : Reg) | flags
  deriving DecidableEq, Repr

/-- A result in flight (R156): `rem` non-freeze cycles are left; `seq` is its bundle's issue order. -/
structure Flight where
  dest : Dest
  value : BitVec 512
  rem : Nat
  seq : Nat
  slot : BitVec 4
  pc : Word64
  deriving DecidableEq, Repr

/-- An entry of the latent-image buffer (R225): a captured result, by a trap or by pre-emption, and its V bit. -/
structure Latent where
  flight : Flight
  byTrap : Bool
  valid : Bool
  /-- Its value slot holds an uncorrectable error (R22, R233). -/
  bad : Bool
  deriving DecidableEq, Repr

/-- A pending load, atomic, fence status or compatibility-mode load: its destinations with their
values so far, how many replies are outstanding, the clock cycles left when they are known, and
whether the value met an uncorrectable error (R163, R233). -/
structure Pending where
  id : Nat
  parts : List (Dest × BitVec 512)
  long : Bool
  due : Option Nat
  left : Nat
  addr : Word64
  bad : Bool
  /-- Of a compatibility-mode load, one more than its bundle's issue order; 0 of any other (R167). -/
  seq : Nat
  deriving DecidableEq, Repr

/-- A hardware loop entry (R303); `order` is the rank among active entries. -/
structure LoopEntry where
  active : Bool
  order : Nat
  start : Word64
  exit : Word64
  deriving DecidableEq, Repr

/-- A binding entry (R146). -/
structure BindEntry where
  sync : Word64
  rbase : Word64
  rlen : Word64
  level : BitVec 6
  paths : BitVec 5
  deriving DecidableEq, Repr

/-- A failure record of one path (R144): the bits 5:1 of the status word and the count. -/
structure FailRec where
  bits : BitVec 6
  nfail : Nat
  deriving DecidableEq, Repr

/-- A word that the wait monitor can watch (R151): of a core's scratchpad or of local HBM. -/
inductive WatchWord
  | spad (core : Nat) (addr : Nat)
  | hbm (pa : Nat)
  deriving DecidableEq, Repr

/-- An armed WAITA (R152): its memory slot, the word and its width, the wake cause once there is one, its
timeout in cycles (0 never) and the cycles it has lasted. -/
structure WaitRec where
  m1 : Bool
  word : WatchWord
  width : Nat
  cause : Option Nat
  timeout : Nat
  age : Nat
  deriving DecidableEq, Repr

/-- A trap that has been judged and waits to enter its handler (R222). -/
structure TrapRec where
  cause : Byte
  epc : Word64
  eaddr : Word64
  einfo : Word64
  deriving DecidableEq, Repr

/-- An outstanding fence (R142, R143): the number of its pending status, its paths and level, where
it stands among the context's accesses and the core's commands, and whether it has sent the line
cache's dirty bytes home. -/
structure Fence where
  id : Nat
  paths : BitVec 5
  level : BitVec 6
  num : Nat
  cmd : Nat
  flushed : Bool
  deriving DecidableEq, Repr

/-- An acquire whose value has not returned (R147): its pending number, its word, the paths of the
entries it heads, and where it stands among the context's accesses and the core's commands. -/
structure Acquire where
  id : Nat
  va : Nat
  paths : BitVec 5
  num : Nat
  cmd : Nat
  /-- Its value has returned, and it waits for the write-backs up to this number (R144, R147). -/
  upTo : Option Nat
  deriving DecidableEq, Repr

/-- A release whose bound writes are not yet known to be performed (R148): its access, its entries as
(paths, base, length), and where it stands among the context's accesses and the core's commands.
`atom` is `none` for a store of `operand`; `id` is the pending number of an atomic's destination. -/
structure Release where
  id : Nat
  va : Nat
  tgt : BitVec 3
  modId : Nat
  pa : Nat
  atom : Option (AtomOp × Ty)
  operand : Word64
  compare : Word64
  width : Nat
  cached : Bool
  entries : List (BitVec 5 × Nat × Nat)
  num : Nat
  cmd : Nat
  /-- The dirty bytes of its regions have been sent home, after every earlier store had entered the line cache. -/
  cleaned : Bool
  deriving DecidableEq, Repr

/-- A lane of a global load: its pending number, where its value goes (part, bit, size, first bit of the
value), its bytes and signedness, its address and page, and whether it is an acquire. -/
structure GLoad where
  id : Nat
  places : List (Nat × Nat × Nat × Nat)
  w : Nat
  signed : Bool
  va : Nat
  tgt : BitVec 3
  modId : Nat
  pa : Nat
  cached : Bool
  acq : Bool
  deriving DecidableEq, Repr

/-- An access on path C that leaves the core's own registers and scratchpad (R140). -/
inductive Access
  | load (l : GLoad)
  | store (va : Nat) (tgt : BitVec 3) (modId pa : Nat) (cached : Bool) (data : List Byte)
  | atomic (id va : Nat) (tgt : BitVec 3) (modId pa : Nat) (op : AtomOp) (ty : Ty)
      (operand compare : Word64) (acq : Bool)
  | release (r : Release)
  | peer (modId core off : Nat) (addr : Word64) (data : List Byte)
  | linv (lo hi : Nat)
  deriving DecidableEq, Repr

/-- An engine fault waiting for delivery (R229, R230). -/
structure EngFault where
  detail : BitVec 32
  eaddr : Word64
  deriving DecidableEq, Repr

/-- The window nest of the enlarger (R196, R371). -/
structure Nest where
  base : BitVec 32
  klev : Nat
  counts : List Nat
  strides : List (BitVec 32)
  deriving DecidableEq, Repr

/-- A context's registers in the register space (R160, R261). -/
structure Regs where
  s : Vector Word64 64
  p : Vector Bool 16
  v : Vector (Vector Word32 128) 32
  q : Vector (BitVec 128) 8
  x : Vector (BitVec 256) 16
  lc : Vector Word32 4
  m : Vector Word64 8
  deriving DecidableEq, Repr

/-- The control registers that hold state of their own (R269). LPROF is the pod's, CYC the core's,
and MUPC, RPROG and ECMD show the suspended commands, so they are read from there. -/
structure Ctrl where
  status : Word64
  epc : Word64
  ecause : Word64
  eaddr : Word64
  einfo : Word64
  tvec : Word64
  rsb : Word64
  fmtb : Word64
  bindb : Word64
  seqtb : Word64
  occ : Word64
  dlen : Word64
  fpflags : Word64
  trcctl : Word64
  deriving DecidableEq, Repr

/-- The four engine queues' commands of a context, by their issue counts and finish counts (R360). -/
structure Tickets where
  issued : Vector Word32 4
  done : Vector Word32 4
  deriving DecidableEq, Repr

/-- What the launch unit gave a context when it bound it (R88, R104): launch slot, gang node index,
coordinates from L0 to LCL. -/
structure Binding where
  lslot : Nat
  gang : Nat
  coords : List Nat
  deriving DecidableEq, Repr

/-- What a context's waiting and trapping hold (R106, R152, R222, R230, R355). -/
structure Waits where
  hold : Hold
  /-- Whether the syllable of the C slot has been among those that hold the present bundle, and the cycles that its hold
  has lasted (R120, R122, R354). -/
  heldC : Bool
  cycles : Nat
  waita : List WaitRec
  /-- The bundle at which a BAR has made its arrival, and the generation it returned (R355). -/
  bar : Option (Word64 × BitVec 16)
  /-- A trap that waits for pending registers before it enters its handler (R222). -/
  entering : Option TrapRec
  /-- Engine faults waiting for delivery, oldest first (R230). -/
  faults : List EngFault
  /-- Bytes charged to the context's spill quota (R121). -/
  quota : Nat
  /-- Captured results go back to flight when the next bundle issues: those captured by a trap, after
  a TRET, and those captured at a stop, after a resume (R226). -/
  replayTrap : Bool
  replayStop : Bool
  /-- The state in which a pre-empted context was stopped (R102). -/
  prior : CtxState
  /-- The lowest buffer entry whose value could not be read back at a resume, and its address (R233). -/
  lateErr : Option (Nat × Word64)
  deriving DecidableEq, Repr

/-- A hardware context (R101 to R104, R160 to R163, R217 to R228). -/
structure Ctx where
  state : CtxState
  readySince : Nat
  bind : Binding
  pc : Word64
  regs : Regs
  ctrl : Ctrl
  flight : List Flight
  pend : List Pending
  /-- Destinations whose value met an uncorrectable error, with the number of their load and the address it came
  from: the first bundle that touches one of a load raises DATAERR (R233). -/
  poison : List (Nat × Dest × Word64)
  /-- Results that have landed on a register line that is not resident: they go into the line when it comes
  (R156, R161, R226). -/
  overlay : List (Dest × BitVec 512)
  latent : List Latent
  /-- Bubble cycles of the context still to pass (R157, R166, R222). -/
  bubbles : Nat
  bubbleWhy : BubbleWhy
  resident : BitVec 69
  dirty : BitVec 69
  /-- The 64-bit units of resident register lines that hold an uncorrectable error, as 32 × line + unit (R22, R23). -/
  badRegs : List Nat
  /-- Register lines whose space was written while the context was live and they were not resident: what they hold is
  unpredictable (R126). -/
  spoiled : BitVec 69
  retStack : List Word64
  spilled : Nat
  loops : Vector LoopEntry 4
  bindStore : List BindEntry
  seqCache : List Word64
  /-- The tables that a CWR to BINDB or SEQTB in flight has read: they stand in the binding store and the sequence cache
  once it lands (R124, R145, R304). -/
  newBind : Option (List BindEntry)
  newSeq : Option (List Word64)
  fail : Vector FailRec 5
  tickets : Tickets
  fences : List Fence
  acquires : List Acquire
  releases : List Release
  /-- Accesses that wait for a fence, an acquire or an earlier access to the same bytes, in issue order
  with their numbers (R140, R143, R147). -/
  behind : List (Nat × Access)
  /-- What failed and no fence has reported yet (R144, R148): on path C the writes not performed, as (0, address,
  length); on an engine's path the commands that ended with their error value, as (path, command, 0). -/
  lost : List (Nat × Nat × Nat)
  waits : Waits
  nest : Nest
  /-- Issue order of the next bundle, and the number of the next pending request. -/
  seq : Nat
  nextId : Nat
  deriving DecidableEq, Repr

/-! ## A core -/

/-- One cell of the systolic array (R171). The input latches are the values held for the current
step; the index counter and the block accumulator are as the manual names them. -/
structure Cell where
  acc : Word32
  aux : Word32
  /-- The BF16 scale that came with AUX from the pipe that loaded it; 1.0 where none did (R177, R188; log entry 42). -/
  scale : BitVec 16
  block : BitVec 96
  kix : Word32
  n : Word32
  w : Word32
  dg : Word32
  kn : Word32
  kw : Word32
  deriving DecidableEq, Repr

/-- The four flow patterns (R179). -/
inductive Flow
  | os | ws | wavefront | pass
  deriving DecidableEq, Repr

/-- A slot of the routine store (R185). -/
structure RoutineSlot where
  entry : Nat
  len : Nat
  lslot : Nat
  deriving DecidableEq, Repr

/-- The commands of R359. -/
inductive CmdOp
  | mcall | cellld | flowset | xwin
  | tsld | tsst | xcopy | xgather | embpool | xcvt
  | cgload | cgrun | a2aDisp | a2aComb | repart
  | txtEnc | txtDec | txtMask
  deriving DecidableEq, Repr

/-- Where a command stands in its queue (R168, R192, R229, R360). -/
inductive CmdRun
  | queued | running | suspended
  deriving DecidableEq, Repr

/-- Progress of a matrix routine: the fields of MUPC and RPROG, the loop counters and the edge
buffers (R191, R192). -/
structure Progress where
  upc : Nat
  /-- The place in the routine of the word at `upc`, counted from the routine's entry. -/
  ix : Int
  pipe : BitVec 2
  kdone : Nat
  rc : List Word32
  ncol : Nat
  wrow : Nat
  drow : Nat
  west : List (List Byte)
  north : List (List Byte)
  /-- What the last step drove out of the south of the last row (R179). -/
  edge : List Word32
  started : Bool
  fmt : Word64
  deriving DecidableEq, Repr

/-- A command in an engine queue (R359 to R366). `args` are the scalars read at issue, `params` the
parameter registers m0 to m7, `block` the command block. -/
structure Cmd where
  id : Nat
  op : CmdOp
  ctx : CtxNo
  core : Nat
  ticket : Word32
  args : List Word64
  params : List Word64
  block : List Byte
  slot : BitVec 8
  pod : Bool
  accm : Bool
  fmtIx : Nat
  level : BitVec 6
  graph : BitVec 2
  run : CmdRun
  /-- PROG and PHASE of R231, and the counts gathered so far (R365). -/
  prog : Nat
  phase : Nat
  counts : List Nat
  routine : Progress
  /-- The command has been discarded or abandoned: what is left is its error value (R150, R231). -/
  dying : Bool
  /-- The program has written the command's stream record while it was queued (R199). -/
  spoilt : Bool
  deriving DecidableEq, Repr

/-- A region of the range-overlap scoreboard (R168). -/
inductive Region
  | spad (lo hi : Nat)
  | ts (row0 row1 col0 col1 : Nat)
  | counter (t : Nat)
  deriving DecidableEq, Repr

/-- A scoreboard entry: the command that holds it, its region, whether it writes. -/
structure SbEntry where
  cmd : Nat
  region : Region
  write : Bool
  deriving DecidableEq, Repr

/-- An operation of a chunk graph (R42). -/
structure GraphOp where
  opk : Nat
  deps : Nat
  succ : List Nat
  accop : Nat
  fmt : Nat
  peer : BitVec 16
  pabs : Bool
  srcb : Nat
  dstb : Nat
  dstsp : Nat
  tctr : Nat
  ctrv : Bool
  len : Nat
  srcoff : Word64
  dstoff : Word64
  deriving DecidableEq, Repr

/-- A chunk graph (R41). -/
structure Graph where
  level : Nat
  nbase : Nat
  tmask : Word64
  ops : List GraphOp
  deriving DecidableEq, Repr

/-- The state of an operation of a print (R44, R46). -/
inductive OpState
  | waiting | started | done | failed | never
  deriving DecidableEq, Repr

/-- A running print (R44): its CGRUN command, its graph's slot and sequence, its bases, the
predecessors each operation still waits for, each operation's state, and the bytes that its in-network operations
have sent to the switch, by operation (R39). -/
structure Print where
  cmd : Cmd
  seq : Word32
  bases : List Word64
  left : List Nat
  ops : List OpState
  sent : List (Nat × List Byte)
  deriving DecidableEq, Repr

/-- A line of the global line cache (R138), looked up by launch slot and virtual line address. -/
structure Line where
  lslot : Nat
  va : Nat
  remote : Option Nat
  pa : Nat
  bytes : List Byte
  valid : BitVec 128
  dirty : BitVec 128
  /-- Its 64-bit units that hold an uncorrectable error (R22, R23). -/
  bad : BitVec 16
  deriving DecidableEq, Repr

/-- A hardware barrier b0 to b127 (R356). -/
structure Barrier where
  lslot : Nat
  gen : BitVec 16
  count : Nat
  deriving DecidableEq, Repr

/-- The per-core counters (R169, R170), in the order of their offsets. -/
structure Counters where
  cycles : Word64
  issued : Word64
  bubblecy : Word64
  freezecy : Word64
  bankstall : Word64
  rcfillcy : Word64
  pendcy : Word64
  tagcy : Word64
  sbcy : Word64
  nullcy : Word64
  nullbun : Word64
  idlecy : Word64
  mxbusy : Word64
  mxstep : Word64
  mxpipew : Word64
  mxsusp : Word64
  deriving DecidableEq, Repr

/-- The trace buffer and its shutter (R234, R236). -/
structure Trace where
  entries : Tab (Word64 × Word64)
  trshut : Word64
  frozen : Bool
  fired : Bool
  trig : Nat
  lost : Nat
  next : Nat
  /-- Entries still to be recorded after the trigger entry. -/
  post : Nat
  trmatch : Word64
  dumpBase : Word64
  dumpBusy : Bool
  /-- Entries recorded in the present cycle: at most four (R234). -/
  inCycle : Nat
  /-- The entries as they stood when the copy to memory began. -/
  atDump : Tab (Word64 × Word64)
  deriving DecidableEq, Repr

/-- The systolic array and its stores (R170 to R196). -/
structure SysArray where
  cells : Tab Cell
  progs : Tab (List Word32)
  flow : Flow
  sr : Nat
  sc : Nat
  store : Tab (BitVec 128)
  slots : Tab (Option RoutineSlot)
  deriving DecidableEq, Repr

/-- A core (R10, R113, R169). Scratchpad and tile store are byte memories; element ts(r, c) is the
32-bit word at 1,024 × r + 4 × c (R366). -/
structure Core where
  ctxs : Vector Ctx 4
  spad : Memory
  tile : Memory
  /-- Scratchpad and tile-store words that hold an uncorrectable error (R23, R233). -/
  badWords : List Nat
  badTile : List Nat
  array : SysArray
  mqueue : List Cmd
  cqueue : List Cmd
  fqueue : List Cmd
  nextCmd : Nat
  sb : List SbEntry
  graphs : Vector (Option Graph) 4
  printSeq : Vector Word32 4
  prints : List Print
  lines : List Line
  barriers : Vector Barrier 128
  tcnt : Vector Word32 64
  counters : Counters
  trace : Trace
  /-- Freeze cycles of the core still to pass, with their cause (R159). -/
  freeze : Nat
  freezeWhy : FreezeCause
  /-- A table read of a CWR to SEQTB or BINDB has not completed (R124, R145). -/
  tableRead : Bool
  /-- Register lines being fetched: context and line (R161). -/
  fills : List (CtxNo × Nat)
  /-- The context that issued most recently: j of R107. -/
  last : CtxNo
  /-- The rounds of clock cycles that the core's counters have counted (R169). -/
  seen : Nat
  deriving DecidableEq, Repr

/-! ## Pods, dies -/

/-- An entry of a pod's wait monitor (R153): the word and its width. The pod lists its entries in the order
of their creation. -/
structure Monitor where
  word : WatchWord
  width : Nat
  deriving DecidableEq, Repr

/-- A cached leaf translation (R135): launch slot, first virtual address and size of the page, and
the leaf entry it came from. -/
structure Xlat where
  lslot : Nat
  va : Nat
  size : Nat
  entry : Word64
  deriving DecidableEq, Repr

/-- The scratchpad words that a bundle of pooled-profile code reached in a round (R165): M1?, core, word. -/
structure BankUse where
  round : Nat
  core : Nat
  words : List (Bool × Nat × Nat)
  deriving DecidableEq, Repr

/-- A logical pod (R10, R11, R25, R89): its profile, the built pod it lies on, whether the binder may use it,
whether it has failed and waits for its spare (R118), and what its cores reach in the present round (R165). -/
structure Pod where
  lprof : Bool
  phys : Nat
  active : Bool
  failed : Bool
  monitor : List Monitor
  xlat : List Xlat
  banks : List BankUse
  deriving DecidableEq, Repr

/-- A barrier of a level bound at pod or above (R356): one per launch, level, node and number. -/
structure UpperBarrier where
  lslot : Nat
  level : Nat
  node : Nat
  number : Nat
  gen : BitVec 16
  count : Nat
  deriving DecidableEq, Repr

/-! ## The hub -/

/-- The ownership states (R58). -/
inductive OwnState
  | free | owned | handover
  deriving DecidableEq, Repr

/-- Ownership (R58 to R60): OWNSTAT, the acceptance timer in ms, the three copies of OWNRES and the
three words of WSTAT (R66). -/
structure Owner where
  state : OwnState
  owner : BitVec 2
  epoch : BitVec 16
  lease : BitVec 16
  htgt : BitVec 2
  accept : Nat
  res : Vector Word64 3
  wstat : Vector Word64 3
  deriving DecidableEq, Repr

/-- An island's ISLCTL (R16), and the step and cause that the power manager has given it and that wait for a bundle
boundary of its cores (R17). -/
structure Island where
  pin : Bool
  cause : BitVec 2
  cur : Nat
  tgt : Nat
  due : Option (Nat × BitVec 2)
  deriving DecidableEq, Repr

/-- Power (R16 to R21): PWRCAP, the islands and the pod islands whose junction is at its limit. -/
structure Power where
  meas : BitVec 16
  cap : BitVec 16
  islands : Tab Island
  hot : List Nat
  deriving DecidableEq, Repr

/-- How far the head of a launch queue has gone (R70, R93): it waits for a launch slot, for its wait words, for
its group's announcements, for its binding, or holds its binding until the group's go; one that has its go may
still be held back by a queue before it. -/
inductive HeadStage
  | none | waitSlot | waitWords | announced | bind | bound | going
  deriving DecidableEq, Repr

/-- A wait word on another module (R69): not asked for, asked for, read, or unreadable. -/
inductive PeerWord
  | unread | asked
  | value (x : Word64)
  | unreadable
  deriving DecidableEq, Repr

/-- A launch queue (R67): its registers, how far its head has gone, the launch slot the head holds, and what is
known of its wait words on other modules (R69, R70). -/
structure LQueue where
  base : Word64
  ctl : Word64
  tail : Word32
  head : Word32
  wait : Byte
  stage : HeadStage
  slot : Nat
  peer : List PeerWord
  deriving DecidableEq, Repr

/-- A tree (R83, R87). -/
structure Tree where
  gang : Nat
  modules : Nat
  fan : List Nat
  phys : List Nat
  deriving DecidableEq, Repr

/-- What LSTAT.STATE shows (R73). -/
inductive LaunchState
  | empty | waiting | running | ending | ended
  deriving DecidableEq, Repr

/-- An entry of a relocation table (R76). -/
structure Reloc where
  off : Nat
  sect : Nat
  kind : Nat
  lsb : Nat
  width : Nat
  addend : Word64
  deriving DecidableEq, Repr

/-- What the record and code object of a launch say (R68, R74, R76). -/
structure LaunchInfo where
  record : List Byte
  ptroot : Word64
  instArea : Word64
  instLen : Word64
  spillq : Nat
  avoid : Byte
  rsvpod : Bool
  group : Nat
  code : Nat
  profile : Bool
  codeOff : Nat
  codeLen : Nat
  dataOff : Nat
  dataLen : Nat
  instSize : Nat
  codeSize : Nat
  entry : Nat
  relocs : List Reloc
  tree : Tree
  section_ : List Byte
  deriving DecidableEq, Repr

/-- A core image in a save slot (R113): the core it comes from, the commands of its contexts that were queued in the
die's text engine, with their places there (R208), and the gangs of its pre-emption set, as launch slot and gang, which
are resumed together (R116). -/
structure SavedImage where
  slot : Nat
  coreIx : Nat
  image : Core
  text : List (Nat × Cmd)
  set : List (Nat × Nat)
  deriving DecidableEq, Repr

/-- A launch slot (R73, R112): LSTAT, USER, the gang registers, the launch's move epoch, the gangs whose resume
waits for room, and what it runs. -/
structure LSlot where
  state : LaunchState
  status : Byte
  cause : Byte
  queue : Nat
  nctx : Nat
  user : Word64
  gangCmd : Word64
  gangRes : Word64
  mep : Byte
  /-- Resumes that could not be placed and are tried again (R112, R116). -/
  resuming : List (BitVec 32)
  /-- The round in which the launch got its end status: of several causes in one cycle the lowest stands (R72). -/
  endRound : Nat
  info : LaunchInfo
  deriving DecidableEq, Repr

/-- A launch group as this module knows it (R93): the members announced, in order, with their tree digests, the
members that have reported bound and waiting, and the contexts that this module holds bound for it, with their
coordinates; how many members its tree counts, 0 while this module has not announced itself; and what members that
have started have sent before this one has (R44, R97). -/
structure Group where
  id : Nat
  members : List (Nat × List Byte)
  bound : List Nat
  waiting : List Nat
  held : List (Nat × List Nat)
  modules : Nat
  early : List ControlMsg
  deriving DecidableEq, Repr

/-- A message of a hardware queue (R120, R121): its bytes and its producer, the context of a launch with these
coordinates, which stay its own wherever it moves. -/
structure QMsg where
  data : List Byte
  coords : List Nat
  lslot : Nat
  /-- The 64-bit units of its place in the queue's on-chip buffer that hold an uncorrectable error (R22, R23). -/
  bad : BitVec 16
  deriving DecidableEq, Repr

/-- A hardware queue (R119): its registers, the on-chip messages, the messages in its spill ring
(their bytes are in HBM), the ring position of the oldest, and the held QGETs in order. -/
structure HQueue where
  cfg : Word64
  ring : Word64
  tmo : Word64
  putn : Word64
  getn : Word64
  onchip : List QMsg
  spilled : List QMsg
  head : Nat
  getters : List (Nat × CtxNo)
  deriving DecidableEq, Repr

/-- Boot (R78 to R80): BOOTSTAT's fields and the log of (stage, version, D, C). -/
structure Boot where
  stage : Byte
  reason : BitVec 4
  phase : BitVec 4
  log : List (Nat × Nat × List Byte × List Byte)
  deriving DecidableEq, Repr

/-- One SPDM connection (R81): a deferred response, the response being sent in chunks, its position,
and the transcript so far. -/
structure Spdm where
  deferred : List Byte
  chunks : List Byte
  next : Nat
  transcript : List Byte
  deriving DecidableEq, Repr

/-- A host port's link status (R14). -/
structure LinkStat where
  up : Bool
  width : Nat
  rate : Nat
  cxl : Bool
  deriving DecidableEq, Repr

/-- Translation invalidation (R136). -/
structure XlInv where
  va : Word64
  ctl : Word64
  busy : Bool
  deriving DecidableEq, Repr

/-- A place of a storage array that ECC protects (R22): a 32-byte unit of HBM, a word of a core's scratchpad or tile
store or of the die buffers, and a 64-bit unit of a context's register lines (32 × line + unit), of a line of a core's
line cache (launch slot, address and unit), of an entry of a latent-image buffer, or of a message in a hardware queue's
buffer. -/
inductive EccPlace
  | hbm (unit : Nat)
  | spad (core word : Nat)
  | tile (core word : Nat)
  | die (word : Nat)
  | regs (core : Nat) (c : CtxNo) (unit : Nat)
  | line (core lslot va unit : Nat)
  | latent (core : Nat) (c : CtxNo) (entry unit : Nat)
  | queue (q message unit : Nat)
  deriving DecidableEq, Repr

/-- Error correction and sparing (R22 to R25): the uncorrectable places logged, the corrected errors logged with the
millisecond in which each was met, the milliseconds since reset, the rows spared, the pseudo-channels rebuilt as
(stack, channel), and the built pods that have failed as 32 × die + pod. -/
structure Ecc where
  logged : List EccPlace
  corrected : List (Nat × EccPlace)
  now : Nat
  spared : List Nat
  channels : List (Nat × Nat)
  pods : List Nat
  deriving DecidableEq, Repr

/-- What the launch unit is asked to do with gangs (R112, R118): pre-empt, resume, or move a failed pod's gangs
to the spare. -/
inductive GangOp
  | preempt (gang : BitVec 32)
  | resume (gang : BitVec 32)
  | takeover (pod : Nat)
  deriving DecidableEq, Repr

/-- A request of the launch unit, which performs one at a time (R112): its launch slot, and what it asks. -/
structure GangReq where
  slot : Nat
  op : GangOp
  deriving DecidableEq, Repr

/-- A pre-emption in progress (R113, R114): the request, the set's gangs as launch slot and gang, how many contexts they
have (NSET), and the cores whose registers or lines could not be flushed (R25). -/
structure Stop where
  req : GangReq
  gangs : List (Nat × Nat)
  nset : Nat
  lost : List Nat
  deriving DecidableEq, Repr

/-- The hub (R10): ownership, power, launch queues and slots, groups, hardware queues, the save area,
invalidation, boot, SPDM, ports. -/
structure Hub where
  own : Owner
  power : Power
  queues : Vector LQueue 8
  slots : Tab LSlot
  groups : List Group
  hqueues : Tab HQueue
  psaveb : Word64
  psaven : Word64
  saved : List SavedImage
  gangs : List GangReq
  stop : Option Stop
  xlinv : XlInv
  xlat : List Xlat
  boot : Boot
  spdm : Vector Spdm 3
  hosts : Vector LinkStat 2
  ecc : Ecc
  deriving DecidableEq, Repr

/-! ## The fabric -/

/-- Whose request left the module, and what its reply completes (R34, R69, R144). -/
inductive ReqFor
  | load (core : Nat) (ctx : CtxNo) (l : GLoad)
  | store (core : Nat) (ctx : CtxNo)
  | peerStore (core : Nat) (ctx : CtxNo)
  | atomic (core : Nat) (ctx : CtxNo) (id : Nat) (signed acq : Bool)
  | writeback (core : Nat) (lslot : Nat)
  | waitWord (queue : Nat) (index : Nat)
  | signal
  deriving DecidableEq, Repr

/-- What a request asks (R30, R36). -/
inductive ReqKind
  | read (len : Nat)
  | write (data : List Byte)
  | atomic (op : AtomOp) (ty : Ty) (operand compare : Word64)
  deriving DecidableEq, Repr

/-- An outstanding request (R34, R154): `io` for pool and host memory, whether it has been sent, its
tag and the plane it went out on, its TGT and module, its address there and the virtual address it came
from, its number among the accesses of the module, and whether it reads a line that has been dropped since, so that its
answer must not stand in the line cache (R138, R142, R147). -/
structure Request where
  io : Bool
  sent : Bool
  tag : BitVec 12
  plane : Nat
  tgt : BitVec 3
  modId : Nat
  addr : Nat
  va : Nat
  kind : ReqKind
  who : ReqFor
  num : Nat
  stale : Bool
  deriving DecidableEq, Repr

/-- A write or an atomic of another module that has been performed (R29): who sent it, on which plane it last came, its
tag, its address there, what it asked and how it was answered. -/
structure Served where
  src : Nat
  plane : Nat
  tag : BitVec 12
  addr : Nat
  kind : ReqKind
  reply : Reply
  data : List Byte
  deriving DecidableEq, Repr

/-- An SPDM response (R81): not ready yet, a large response that CHUNK_GET fetches, one of its chunks, or the
response itself. -/
inductive SpdmOut
  | notReady (rdtExponent : Nat)
  | large (size : Nat)
  | chunk (seq : Nat) (last : Bool) (data : List Byte)
  | whole (data : List Byte)
  | refused
  deriving DecidableEq, Repr

/-- The in-network operation that a contribution belongs to, as the switch knows it (R39, R46): the launch group, the
node, the print, the operation with its operator and format, and the contributor's rank. -/
structure Reduction where
  group : Nat
  level : Nat
  node : Nat
  graph : BitVec 2
  seq : Word32
  op : Nat
  accop : Nat
  fmt : Nat
  rank : Nat
  deriving DecidableEq, Repr

/-- What leaves the module: requests, responses, collective data, reduction data, control flits,
posted writes' completion codes and SPDM responses (R30, R57, R81). Of collective and reduction data `off` is the
place in the chunk operation. -/
inductive Out
  | request (r : Request)
  | response (dst : Nat) (tag : BitVec 12) (r : Reply) (data : List Byte)
  | collective (dst : Nat) (seq : Word32) (op : Nat) (off : Nat) (data : List Byte)
  | reduction (r : Reduction) (off : Nat) (data : List Byte)
  | control (msg : ControlMsg)
  | mctp (code : Byte)
  | spdm (t : Transport) (m : SpdmOut)
  | replay (port : Nat) (vc : BitVec 2)
  deriving DecidableEq, Repr

/-- A readiness announcement of a print (R44): launch, level and node, graph slot, sequence, rank,
bases. -/
structure ReadyMsg where
  lslot : Nat
  level : Nat
  node : Nat
  graph : BitVec 2
  seq : Word32
  rank : Nat
  bases : List Word64
  deriving DecidableEq, Repr

/-- A declaration of an exchange by a participant on another module (R33, R378): launch, level and node, the kind, its
rank and its command block. -/
structure Decl where
  lslot : Nat
  level : Nat
  node : Nat
  kind : Nat
  rank : Nat
  block : List Byte
  deriving DecidableEq, Repr

/-- A flit of 256 bytes by its fields (R30). -/
structure Flit where
  kind : BitVec 4
  vc : BitVec 2
  plen : Nat
  src : Nat
  dst : Nat
  tag : BitVec 12
  addr : Word64
  payload : List Byte
  seq : Word32
  ack : BitVec 28
  stop : BitVec 4
  deriving DecidableEq, Repr

/-- One port's link (R30, R32): the sequence number of the next flit, the messages sent and not acknowledged with the
flits that carried them, the STOP bits last received, the number of the last flit received in order, whether one has
been dropped since, the flits in each virtual channel's receive buffer, and the STOP bits that this port sends. -/
structure Link where
  next : Word32
  replay : List (Out × List Flit)
  stopped : BitVec 4
  got : Word32
  gap : Bool
  held : Vector Nat 4
  stopping : BitVec 4
  deriving DecidableEq, Repr

/-- The fabric ports (R26 to R34): the active planes, the lanes of each port, the outstanding
requests, the requests of other modules already performed whose answers are not acknowledged (R29), the announcements
received, what the module has given its ports to send, the flits still expected again after a drop (R30), and the
links. -/
structure Fabric where
  planes : List Nat
  lanes : Vector Nat 18
  reqs : List Request
  seen : List Served
  ready : List ReadyMsg
  decls : List Decl
  out : List Out
  dropped : Nat
  /-- The contexts whose bundles wait for request tags, in the order in which they froze (R34). -/
  tagWait : List (Nat × CtxNo)
  links : Vector Link 18
  /-- The number of the next access that may leave a core. -/
  next : Nat
  deriving DecidableEq, Repr

/-! ## What the model adds -/

/-- How a syllable was judged in its bundle. -/
inductive Verdict
  | proceed | trapped
  | held (h : Hold)
  | frozen (c : FreezeCause)
  deriving DecidableEq, Repr

/-- A memory effect that a bundle performs after its loads have read (R164, R341). -/
inductive Deferred
  | spad (core addr : Nat) (data : List Byte)
  | access (num : Nat) (a : Access)
  deriving DecidableEq, Repr

/-- What a vector syllable of the bundle computed: its slot, its groups, its stage in each group's chain,
and the lanes of its destination as they will be (R158, R314). -/
structure ChainOut where
  slot : BitVec 4
  gm : BitVec 8
  stage : Nat
  out : Vector Word32 128
  deriving DecidableEq, Repr

/-- A trace event of the present cycle, kept until the cycle's events are recorded in R234's order: its
rank, its context, the TRCCTL bit that selects it, and KIND, A and B. -/
structure Note where
  rank : Nat
  ctx : CtxNo
  bit : Nat
  kind : Nat
  a : Nat
  b : Word64
  deriving DecidableEq, Repr

/-- The issue frame of the bundle being issued: the model's own, not the spec's. It says whose bundle
it is, where it stands, which syllable is being performed, how it was judged, what the winning branch
of the bundle is, what the chain carries and which effects come after the loads. -/
structure Frame where
  ctx : CtxNo
  pc : Word64
  next : Word64
  syl : Nat
  slot : BitVec 4
  word : Word64
  /-- The accesses are the fabric engine's, on path F: they use the hub's translations (R135). -/
  pathF : Bool
  /-- The bundle's syllables are being judged: freezes and holds are looked for. A bundle that is being
  performed has none. -/
  judging : Bool
  verdict : Verdict
  /-- Slot and target of the branch syllable that wins, judged before any syllable is performed. -/
  branch : Option (BitVec 4 × Word64)
  /-- Whether some branch syllable of the bundle is taken (R301). -/
  anyBranch : Bool
  /-- The place execution goes on from, when a LOOP of count 0 or a loop end sends it there. -/
  goto : Option Word64
  /-- What the vector slots have computed, for the chain (R158, R314). -/
  chain : List ChainOut
  deferred : List Deferred
  /-- The loop counters that a syllable of the bundle writes (R302). -/
  lcWritten : List Reg
  /-- The 4-byte words each memory slot touches: M1?, core, word (R165). -/
  touched : List (Bool × Nat × Nat)
  /-- Request tags that the bundle's syllables need (R346). -/
  tags : Nat
  /-- Trace events of this cycle, and the shutter's match: context and B (R234, R236). -/
  notes : List Note
  shut : Option (CtxNo × Word64)
  /-- A TRAP of the bundle to be entered after it (R310). -/
  trapAfter : Option (BitVec 16 × Nat)
  /-- The context has yielded or halted in this bundle (R110). -/
  leaves : Option CtxState
  /-- The context as it stood before the landings of this cycle: a trap at a bundle that does not
  issue captures those results unlanded (R222). -/
  preland : Option Ctx
  /-- The cause of the trap that has been taken at this bundle (R218). -/
  trapCode : Byte
  /-- Pending values that have arrived in this cycle: they stand over results issued before them (R156). -/
  arrived : List (CtxNo × Dest × BitVec 512)
  deriving DecidableEq, Repr

/-- An event and the core it is about. -/
structure Event where
  core : Nat
  what : Instr
  deriving DecidableEq, Repr

/-- The module. -/
structure State where
  /-- The selected core, its number (4 × pod + core of R169), and the others; an unlisted core is as
  after reset. -/
  core : Core
  coreIx : Nat
  others : Tab Core
  pods : Tab Pod
  /-- The text engines' queues, by die (R198). -/
  text : Tab (List Cmd)
  upper : List UpperBarrier
  hbm : Memory
  /-- The 32-byte units of HBM that hold an uncorrectable error (R22, R23). -/
  badHbm : List Nat
  /-- Die buffers: byte b of die d at 2^24 × d + b (R126). -/
  dieBuf : Memory
  badDie : List Nat
  hub : Hub
  fabric : Fabric
  fr : Frame
  /-- The model's own: events that happen next, whose turn it is, and the counter of free values. -/
  agenda : List Event
  turn : Bool
  free : Nat
  /-- Rounds of clock cycles: in each, every core that is in use has one cycle of its own. -/
  round : Nat
  deriving DecidableEq, Repr

/-- Why the machine stops. -/
inductive Fault
  /-- Raised by a write of device memory through BAR2 and by a trace dump, to addresses beyond the
  768 GiB of HBM: the specification gives such a write no effect. Safe. -/
  | beyondHbm
  deriving DecidableEq, Repr

/-- Why an instruction is refused. -/
inductive Refusal
  /-- An instruction without a meaning yet, by its mnemonic. Safe. -/
  | notModelled (mnemonic : String)
  deriving DecidableEq, Repr

/-! ## Reset -/

/-- Registers after reset (R70, R156): zero, but for p0 and q0, which are fixed. -/
def Regs.reset : Regs where
  s := Vector.replicate 64 0
  p := (Vector.replicate 16 false).set 0 true
  v := Vector.replicate 32 (Vector.replicate 128 0)
  q := (Vector.replicate 8 0).set 0 (BitVec.allOnes 128)
  x := Vector.replicate 16 0
  lc := Vector.replicate 4 0
  m := Vector.replicate 8 0

/-- Control registers at the reset values of R145, R215, R219, R220, R235, R248, R273, R274. -/
def Ctrl.reset : Ctrl := ⟨0, 0, 0, 0, 0, 0, 0, 0, 0, 0, 0, 0, 0, 0⟩

/-- No failure (R144). -/
def FailRec.none : FailRec := ⟨0, 0⟩

/-- An inactive loop entry (R303). -/
def LoopEntry.inactive : LoopEntry := ⟨false, 0, 0, 0⟩

/-- A nest that has not been set: one element. -/
def Nest.reset : Nest := ⟨0, 1, [], []⟩

/-- A context that belongs to no launch (R101). -/
def Ctx.reset : Ctx where
  state := .free
  readySince := 0
  bind := ⟨0, 0, []⟩
  pc := 0
  regs := Regs.reset
  ctrl := Ctrl.reset
  flight := []
  pend := []
  poison := []
  overlay := []
  latent := []
  bubbles := 0
  bubbleWhy := .branch
  resident := 0
  dirty := 0
  badRegs := []
  spoiled := 0
  retStack := []
  spilled := 0
  loops := Vector.replicate 4 LoopEntry.inactive
  bindStore := []
  seqCache := []
  newBind := none
  newSeq := none
  fail := Vector.replicate 5 FailRec.none
  tickets := ⟨Vector.replicate 4 0, Vector.replicate 4 0⟩
  fences := []
  acquires := []
  releases := []
  behind := []
  lost := []
  waits := ⟨.none, false, 0, [], none, none, [], 0, false, false, .idle, none⟩
  nest := Nest.reset
  seq := 0
  nextId := 0

/-- A cell after reset (DESIGN CHOICE, log entry 2). -/
def Cell.reset : Cell := ⟨0, 0, 0x3F80, 0, 0, 0, 0, 0, 0, 0⟩

/-- A progress that has not begun. -/
def Progress.reset : Progress := ⟨0, 0, 0, 0, [0, 0, 0, 0], 0, 0, 0, [], [], [], false, 0⟩

/-- The counters of R169 and R170 at 0. -/
def Counters.reset : Counters := ⟨0, 0, 0, 0, 0, 0, 0, 0, 0, 0, 0, 0, 0, 0, 0, 0⟩

/-- TRSHUT resets with CODE 0xFF (R236). -/
def Trace.reset : Trace :=
  ⟨[], 0x00FF000000000000, false, false, 0, 0, 0, 0, 0, 0, false, 0, []⟩

/-- The array after reset: every cell, program and routine slot 64 to 255 empty, output-stationary
flow with skews 1 (DESIGN CHOICE, log entry 2). -/
def SysArray.reset : SysArray := ⟨[], [], .os, 1, 1, [], []⟩

/-- A core after reset. -/
def Core.reset : Core where
  ctxs := Vector.replicate 4 Ctx.reset
  spad := []
  tile := []
  badWords := []
  badTile := []
  array := SysArray.reset
  mqueue := []
  cqueue := []
  fqueue := []
  nextCmd := 0
  sb := []
  graphs := Vector.replicate 4 none
  printSeq := Vector.replicate 4 0
  prints := []
  lines := []
  barriers := Vector.replicate 128 ⟨0, 0, 0⟩
  tcnt := Vector.replicate 64 0
  counters := Counters.reset
  trace := Trace.reset
  freeze := 0
  freezeWhy := .bank
  tableRead := false
  fills := []
  last := 3
  seen := 0

/-- A logical pod after reset: active, near profile, on the built pod of its own index (DESIGN
CHOICE, log entry 3). -/
def Pod.reset (ix : Nat) : Pod := ⟨false, ix % 28, true, false, [], [], []⟩

/-- No owner (R58). -/
def Owner.reset : Owner := ⟨.free, 3, 0, 0, 3, 0, Vector.replicate 3 0, Vector.replicate 3 0⟩

/-- An island at step 18 (R16). -/
def Island.reset : Island := ⟨false, 0, 18, 18, none⟩

/-- A launch queue after reset: LOG2N 4 (R67). -/
def LQueue.reset : LQueue := ⟨0, 0x400, 0, 0, 0, .none, 0, []⟩

/-- No launch's record. -/
def LaunchInfo.none : LaunchInfo where
  record := []
  ptroot := 0
  instArea := 0
  instLen := 0
  spillq := 0
  avoid := 0
  rsvpod := false
  group := 0
  code := 0
  profile := false
  codeOff := 0
  codeLen := 0
  dataOff := 0
  dataLen := 0
  instSize := 0
  codeSize := 0
  entry := 0
  relocs := []
  tree := ⟨0, 1, [], []⟩
  section_ := []

/-- An empty launch slot (R73). -/
def LSlot.reset : LSlot :=
  ⟨.empty, 0, 0, 0, 0, 0, 0, 0, 0, [], 0, LaunchInfo.none⟩

/-- A hardware queue after reset: RLOG2 8 (R119). -/
def HQueue.reset : HQueue := ⟨0x800, 0, 0, 0, 0, [], [], 0, []⟩

/-- The hub after reset. Host ports have not trained and boot has not begun (R14, R80). -/
def Hub.reset : Hub where
  own := Owner.reset
  power := ⟨0, 640, [], []⟩
  queues := Vector.replicate 8 LQueue.reset
  slots := []
  groups := []
  hqueues := []
  psaveb := 0
  psaven := 0
  saved := []
  gangs := []
  stop := none
  xlinv := ⟨0, 0, false⟩
  xlat := []
  boot := ⟨0, 0, 0, []⟩
  spdm := Vector.replicate 3 ⟨[], [], 0, []⟩
  hosts := Vector.replicate 2 ⟨false, 0, 0, false⟩
  ecc := ⟨[], [], 0, [], [], []⟩

/-- A link on which nothing has passed. -/
def Link.reset : Link := ⟨0, [], 0, 0, false, Vector.replicate 4 0, 0⟩

/-- Every plane active on four lanes (R28). -/
def Fabric.reset : Fabric :=
  ⟨List.range 18, Vector.replicate 18 4, [], [], [], [], [], 0, [], Vector.replicate 18 Link.reset, 0⟩

/-- No bundle is being issued. -/
def Frame.reset : Frame :=
  ⟨0, 0, 8, 0, 0, 0, false, false, .proceed, none, false, none, [], [], [], [], 0, [], none, none, none, none, 0, []⟩

/-- The module right after reset: no launch, every context FREE, memory with nothing listed. -/
def State.reset : State where
  core := Core.reset
  coreIx := 0
  others := []
  pods := []
  text := []
  upper := []
  hbm := []
  badHbm := []
  dieBuf := []
  badDie := []
  hub := Hub.reset
  fabric := Fabric.reset
  fr := Frame.reset
  agenda := []
  turn := false
  free := 0
  round := 0

end Sys2Proof.Machine
end

