-- ==== Sys2Proof/Machine/Ops.lean ====
section
/-!
DEFINITION. The named operations over tables, memories, registers and contexts; results in flight
and their landing; taking an exception and returning from one; ending a launch.
-/

namespace Sys2Proof.Machine

/-! ## Tables and memory -/

/-- The entry of a key, or the default. -/
def tget {α : Type} (d : α) : List (Nat × α) → Nat → α
  | [], _ => d
  | (k, v) :: rest, a => if k = a then v else tget d rest a

/-- Setting an entry, in canonical form: an entry equal to the default is removed. -/
def tset {α : Type} [DecidableEq α] (d : α) : List (Nat × α) → Nat → α → List (Nat × α)
  | [], a, b => if b = d then [] else [(a, b)]
  | (k, v) :: rest, a, b =>
    if a < k then (if b = d then (k, v) :: rest else (a, b) :: (k, v) :: rest)
    else if k = a then (if b = d then rest else (a, b) :: rest)
    else (k, v) :: tset d rest a b

/-- One byte of memory; an unlisted address reads as 0. -/
def memRead (m : Memory) (a : Nat) : Byte := tget 0 m a

/-- Writing one byte of memory. -/
def memWrite (m : Memory) (a : Nat) (b : Byte) : Memory := tset 0 m a b

/-- `n` bytes from an address upward. -/
def readBytes (m : Memory) (a : Nat) : Nat → List Byte
  | 0 => []
  | n + 1 => memRead m a :: readBytes m (a + 1) n

/-- Writing bytes from an address upward. -/
def writeBytes (m : Memory) (a : Nat) : List Byte → Memory
  | [] => m
  | b :: bs => writeBytes (memWrite m a b) (a + 1) bs

/-- The little-endian value of `n` bytes at an address (R3). -/
def readNat (m : Memory) (a n : Nat) : Nat := bytesToNat (readBytes m a n)

/-- A 64-bit word at an address. -/
def read64 (m : Memory) (a : Nat) : Word64 := BitVec.ofNat 64 (readNat m a 8)

/-- A 32-bit word at an address. -/
def read32 (m : Memory) (a : Nat) : Word32 := BitVec.ofNat 32 (readNat m a 4)

/-- Writing a value of `n` bytes. -/
def writeNat (m : Memory) (a n v : Nat) : Memory := writeBytes m a (natToBytes n v)

/-- The little-endian value of `n` bytes of a list, from a position. -/
def fieldNat (l : List Byte) (off n : Nat) : Nat := bytesToNat ((l.drop off).take n)

/-- Bytes of HBM: 768 GiB (R2). -/
def hbmSize : Nat := 768 * 2 ^ 30

/-- The stack that holds an address: HBM is interleaved in units of 2 KiB (R12). -/
def stackOf (pa : Nat) : Nat := pa / 2048 % 12

/-- Bytes of a core's scratchpad (R127). -/
def spadSize : Nat := 0xC0000

/-! ## Lists and vectors -/

/-- The entry of a vector of lanes, 0 outside it. -/
def lane (v : Vector Word32 128) (i : Nat) : Word32 := if h : i < 128 then v[i] else 0

/-- A vector of lanes from its positions. -/
def lanes (f : Nat → Word32) : Vector Word32 128 := ⟨⟨(List.range 128).map f⟩, by simp⟩

/-- Concatenation of values of width `w`, the first lowest. -/
def packNat (w : Nat) : List Nat → Nat
  | [] => 0
  | x :: xs => x % 2 ^ w + 2 ^ w * packNat w xs

/-- Replacing the entry at a position of a list. -/
def setAt {α : Type} (l : List α) (i : Nat) (x : α) : List α := l.set i x

/-- A bit field of a word. -/
def bits (w : Word64) (lo n : Nat) : Nat := (w.extractLsb' lo n).toNat

/-! ## Contexts of the selected core -/

/-- The issuing context. -/
def State.ctx (s : State) : Ctx := s.core.ctxs.get s.fr.ctx

/-- Setting a context of the selected core. -/
def State.setCtxAt (s : State) (c : CtxNo) (x : Ctx) : State :=
  { s with core := { s.core with ctxs := s.core.ctxs.set c.val x c.isLt } }

/-- A context of the selected core. -/
def State.ctxAt (s : State) (c : CtxNo) : Ctx := s.core.ctxs.get c

/-- Changing a context of the selected core. -/
def State.modCtxAt (s : State) (c : CtxNo) (f : Ctx → Ctx) : State := s.setCtxAt c (f (s.ctxAt c))

/-- Changing the issuing context. -/
def State.modCtx (s : State) (f : Ctx → Ctx) : State := s.modCtxAt s.fr.ctx f

/-- Changing the selected core. -/
def State.modCore (s : State) (f : Core → Core) : State := { s with core := f s.core }

/-- Changing the issue frame. -/
def State.modFr (s : State) (f : Frame → Frame) : State := { s with fr := f s.fr }

/-- Changing the hub. -/
def State.modHub (s : State) (f : Hub → Hub) : State := { s with hub := f s.hub }

/-- Changing the fabric ports. -/
def State.modFabric (s : State) (f : Fabric → Fabric) : State := { s with fabric := f s.fabric }

/-- Something leaves the module. -/
def State.emit (s : State) (o : Out) : State := s.modFabric fun f => { f with out := f.out ++ [o] }

/-- A core by its number; the selected one stands apart. -/
def State.coreAt (s : State) (n : Nat) : Core :=
  if n = s.coreIx then s.core else tget Core.reset s.others n

/-- Changing a core by its number. -/
def State.modCoreAt (s : State) (n : Nat) (f : Core → Core) : State :=
  if n = s.coreIx then s.modCore f
  else { s with others := tset Core.reset s.others n (f (tget Core.reset s.others n)) }

/-- Another core becomes the selected one. -/
def State.select (s : State) (n : Nat) : State :=
  if n = s.coreIx then s
  else { s with
    core := tget Core.reset s.others n
    coreIx := n
    others := tset Core.reset (tset Core.reset s.others n Core.reset) s.coreIx s.core }

/-- The contexts and the groups, listed. -/
def allCtxs : List CtxNo := [0, 1, 2, 3]
def allGroups : List (Fin 8) := [0, 1, 2, 3, 4, 5, 6, 7]

/-- Changing every context of a core. -/
def Core.mapCtxs (k : Core) (f : Ctx → Ctx) : Core :=
  allCtxs.foldl (fun k c => { k with ctxs := k.ctxs.set c.val (f (k.ctxs.get c)) c.isLt }) k

/-- Changing a context of some core. -/
def State.modCtxOf (s : State) (n : Nat) (c : CtxNo) (f : Ctx → Ctx) : State :=
  s.modCoreAt n fun k => { k with ctxs := k.ctxs.set c.val (f (k.ctxs.get c)) c.isLt }

/-- Cores of the module that can hold something: the selected one and the listed ones. -/
def State.coreNumbers (s : State) : List Nat :=
  let ks := s.others.map Prod.fst
  ks.filter (· < s.coreIx) ++ [s.coreIx] ++ ks.filter (s.coreIx < ·)

/-- The pod, die and core-in-pod of a core number (R169). -/
def podOf (core : Nat) : Nat := core / 4
def dieOf (core : Nat) : Nat := core / 112

/-- A logical pod. -/
def State.podAt (s : State) (p : Nat) : Pod := tget (Pod.reset p) s.pods p

/-- Changing a logical pod. -/
def State.modPod (s : State) (p : Nat) (f : Pod → Pod) : State :=
  { s with pods := tset (Pod.reset p) s.pods p (f (s.podAt p)) }

/-- The pod of the selected core. -/
def State.pod (s : State) : Pod := s.podAt (podOf s.coreIx)

/-- A launch slot. -/
def State.lslot (s : State) (n : Nat) : LSlot := tget LSlot.reset s.hub.slots n

/-- Changing a launch slot. -/
def State.modSlot (s : State) (n : Nat) (f : LSlot → LSlot) : State :=
  s.modHub fun h => { h with slots := tset LSlot.reset h.slots n (f (tget LSlot.reset h.slots n)) }

/-- The launch of the issuing context. -/
def State.launch (s : State) : LSlot := s.lslot s.ctx.bind.lslot

/-- The tree of the issuing context's launch. -/
def State.tree (s : State) : Tree := s.launch.info.tree

/-- The free value of this step at a place. -/
def State.freeWord (s : State) (place : Nat) : Word32 := Config.freeWord s.free place

/-! ## Waking (R152) and writing memory -/

/-- What an exec answers. -/
abbrev Res := Host.Outcome State Fault Refusal

/-- Contexts of the module, as core and context numbers. -/
def State.allContexts (s : State) : List (Nat × CtxNo) :=
  s.coreNumbers.flatMap fun n => allCtxs.map fun c => (n, c)

/-- A context of the module. -/
def State.ctxOf (s : State) (n : Nat) (c : CtxNo) : Ctx := (s.coreAt n).ctxs.get c

/-- Whether a context belongs to a launch. -/
def Ctx.bound (c : Ctx) : Bool := c.state != .free

/-- Whether a core holds a context of a launch. -/
def Core.holds (k : Core) (slot : Nat) : Bool :=
  allCtxs.any fun c => (k.ctxs.get c).bound && (k.ctxs.get c).bind.lslot == slot

/-- The core's clock as READY times count it. -/
def Core.now (k : Core) : Nat := k.counters.cycles.toNat

/-- A hold ends: the context leaves WAITING for READY in this cycle (R102, R107). -/
def Ctx.ready (c : Ctx) (now : Nat) : Ctx :=
  if c.state = .waiting then { c with state := .ready, readySince := now } else c

/-- The parked WAITAs that meet a condition wake with a cause (R152). -/
def Ctx.wake (c : Ctx) (p : WaitRec → Bool) (cause now : Nat) : Ctx :=
  let hit : WaitRec → Bool := fun w => w.cause.isNone && p w
  if c.waits.waita.any hit then
    Ctx.ready { c with waits := { c.waits with
      waita := c.waits.waita.map fun w => if hit w then { w with cause := some cause } else w } } now
  else c

/-- Whether a watched word shares a byte with a written range. -/
def WatchWord.overlaps (w : WatchWord) (width : Nat) (where_ : WatchWord) (len : Nat) : Bool :=
  match w, where_ with
  | .spad c a, .spad d b => c == d && a < b + len && b < a + width
  | .hbm a, .hbm b => a < b + len && b < a + width
  | _, _ => false

/-- Whether a context is parked on a word that a write touches. -/
def Ctx.parkedOn (c : Ctx) (w : WatchWord) (len : Nat) : Bool :=
  c.waits.waita.any fun r => r.cause.isNone && r.word.overlaps r.width w len

/-- Every waiter on a written word wakes, whatever the value written (R152). -/
def State.wakeWord (s : State) (w : WatchWord) (len : Nat) : State :=
  (s.allContexts.filter fun (n, c) => (s.ctxOf n c).parkedOn w len).foldl
    (fun s (n, c) => s.modCtxOf n c
      (·.wake (fun r => r.word.overlaps r.width w len) 0 (s.coreAt n).now)) s

/-- A write lands in a core's scratchpad. A whole word that is replaced loses its uncorrectable
error (R343). -/
def State.writeSpad (s : State) (core off : Nat) (data : List Byte) : State :=
  let clears : Nat → Bool := fun w => off ≤ 4 * w && 4 * w + 4 ≤ off + data.length
  (s.modCoreAt core fun k =>
    { k with
      spad := writeBytes k.spad off data
      badWords := k.badWords.filter fun w => !clears w }).wakeWord (.spad core off) data.length

/-- A write lands in local HBM. -/
def State.writeHbm (s : State) (pa : Nat) (data : List Byte) : State :=
  { s with hbm := writeBytes s.hbm pa data }.wakeWord (.hbm pa) data.length

/-- A write lands in a die buffer. -/
def State.writeDie (s : State) (die off : Nat) (data : List Byte) : State :=
  { s with dieBuf := writeBytes s.dieBuf (2 ^ 24 * die + off) data }

/-- Where an address of a context's scratchpad space leads (R128); `none` outside it. -/
def State.spadWhere (s : State) (core slot a : Nat) : Option (Nat × Nat) :=
  if (s.lslot slot).info.profile then
    let k := 4 * podOf core + a / spadSize
    if a < 4 * spadSize && (s.coreAt k).holds slot then some (k, a % spadSize) else none
  else if a < spadSize then some (core, a) else none

/-! ## Finishing an engine command (R365) -/

/-- The engine whose queue holds a command. -/
def CmdOp.engine : CmdOp → Engine
  | .mcall | .cellld | .flowset | .xwin => .matrix
  | .tsld | .tsst | .xcopy | .xgather | .embpool | .xcvt => .copy
  | .cgload | .cgrun | .a2aDisp | .a2aComb | .repart => .fabric
  | .txtEnc | .txtDec | .txtMask => .text

/-- The path of an engine (R360). -/
def enginePath : Engine → Fin 5
  | .matrix => 2
  | .copy => 1
  | .fabric => 3
  | .text => 4

/-- The order of the queues in MSTAT's ENG (R359). -/
def engIx : Engine → Fin 4
  | .matrix => 0
  | .copy => 1
  | .fabric => 2
  | .text => 3

/-- The completion word's address of a command, if it writes one (R363, R366). -/
def Cmd.completionWord (m : Cmd) : Option Nat :=
  match m.op with
  | .mcall =>
    let p := m.params.getD 4 0
    if p.getLsbD 20 then some (bits p 34 2 * 2 ^ 20 + bits p 0 20) else none
  | .cellld | .flowset | .xwin => none
  | _ =>
    let cw := fieldNat m.block 0 4
    if cw.testBit 31 then some (cw % 2 ^ 22) else none

/-- The completion value and the error value. -/
def Cmd.endValue (m : Cmd) (good : Bool) : Nat :=
  match m.op with
  | .mcall =>
    let p := m.params.getD 5 0
    if good then bits p 0 32 else bits p 32 32
  | _ => if good then fieldNat m.block 4 4 else fieldNat m.block 8 4

/-- Whether two commands are the same entry of a queue. -/
def Cmd.is (a b : Cmd) : Bool := a.core == b.core && a.id == b.id

/-- A queue without a command. -/
def dropCmd (q : List Cmd) (m : Cmd) : List Cmd := q.filter fun x => !(x.is m)

/-- A queue with a command replaced by its new form. -/
def putCmd (q : List Cmd) (m : Cmd) : List Cmd := q.map fun x => if x.is m then m else x

/-- Changing the queue that holds a command. -/
def State.modQueue (s : State) (m : Cmd) (f : List Cmd → List Cmd) : State :=
  match m.op.engine with
  | .matrix => s.modCoreAt m.core fun k => { k with mqueue := f k.mqueue }
  | .copy => s.modCoreAt m.core fun k => { k with cqueue := f k.cqueue }
  | .fabric => s.modCoreAt m.core fun k => { k with fqueue := f k.fqueue }
  | .text =>
    let d := dieOf m.core
    { s with text := tset [] s.text d (f (tget [] s.text d)) }

/-- A command leaves its queue: its scoreboard entries are freed, the finish count of its context
rises (R360), and its completion or error value is written where it has a completion word. A command that
failed is remembered for the releases after it (R148). -/
def State.finishCmd (s : State) (m : Cmd) (good : Bool) : State :=
  let slot := (s.ctxOf m.core m.ctx).bind.lslot
  let s := match m.completionWord with
    | none => s
    | some a =>
      match s.spadWhere m.core slot a with
      | some (k, off) => s.writeSpad k off (natToBytes 4 (m.endValue good))
      | none => s
  let s := s.modQueue m (dropCmd · m)
  let s := s.modCoreAt m.core fun k => { k with sb := k.sb.filter fun e => e.cmd != m.id }
  let i := engIx m.op.engine
  s.modCtxOf m.core m.ctx fun c =>
    { c with
      tickets := { c.tickets with done := c.tickets.done.set i.val (c.tickets.done.get i + 1) i.isLt }
      lost := if good then c.lost else c.lost ++ [((enginePath m.op.engine).val, m.id, 0)] }

/-- The queue of an engine, as the selected core's contexts use it. -/
def State.queueOf (s : State) : Engine → List Cmd
  | .matrix => s.core.mqueue
  | .copy => s.core.cqueue
  | .fabric => s.core.fqueue
  | .text => tget [] s.text (dieOf s.coreIx)

/-- The suspended command of a context of the selected core on an engine (R191, R231). -/
def State.suspended (s : State) (e : Engine) (c : CtxNo) : Option Cmd :=
  (s.queueOf e).find? fun m => m.ctx == c && m.core == s.coreIx && m.run == .suspended

/-- A command is given up: a matrix command ends with its error value at once; the others' engine leaves
their payload unpredictable and then writes it (R150, R191, R231). -/
def State.giveUp (s : State) (m : Cmd) : State :=
  if m.op.engine = .matrix then s.finishCmd m false
  else s.modQueue m fun q => putCmd q { m with run := .running, dying := true }

/-- A suspended command is discarded: it writes its error value (R191, R231). -/
def State.discard (s : State) (e : Engine) (c : CtxNo) : State :=
  match s.suspended e c with
  | some m => s.giveUp m
  | none => s

/-! ## Register numbers -/

/-- A register number within a class of `n` registers; a well-formed syllable's is (R261). -/
def ix16 (r : Reg) : Fin 16 := ⟨r.toNat % 16, Nat.mod_lt _ (by decide)⟩
def ix8 (r : Reg) : Fin 8 := ⟨r.toNat % 8, Nat.mod_lt _ (by decide)⟩
def ix4 (r : Reg) : Fin 4 := ⟨r.toNat % 4, Nat.mod_lt _ (by decide)⟩
def ix32 (r : Reg) : Fin 32 := ⟨r.toNat % 32, Nat.mod_lt _ (by decide)⟩
def ix64 (r : Reg) : Fin 64 := ⟨r.toNat, r.isLt⟩

/-- The 32-bit lane `l` of the 512-bit value of a group. -/
def groupLane (v : BitVec 512) (l : Nat) : Word32 := v.extractLsb' (32 * l) 32

/-- The 512-bit value of a group of a vector. -/
def groupValue (v : Vector Word32 128) (g : Nat) : BitVec 512 :=
  BitVec.ofNat 512 (packNat 32 ((List.range 16).map fun l => (lane v (16 * g + l)).toNat))

/-- Writing the lanes of a mask in a group of a vector. -/
def writeGroup (v : Vector Word32 128) (g : Fin 8) (mask : BitVec 16) (x : BitVec 512) :
    Vector Word32 128 :=
  lanes fun i => if i / 16 = g.val ∧ mask.getLsbD (i % 16) then groupLane x (i % 16) else lane v i

/-- Writing the bits of a mask in a group of a lane predicate. -/
def writeBits (v : BitVec 128) (g : Fin 8) (mask : BitVec 16) (x : BitVec 512) : BitVec 128 :=
  let m : BitVec 128 := (mask.setWidth 128) <<< (16 * g.val)
  (v &&& ~~~m) ||| (((x.setWidth 16).setWidth 128 <<< (16 * g.val)) &&& m)

/-- A result reaches its register (R156): writes to s0, p0 and q0 are discarded. -/
def Regs.land (r : Regs) (d : Dest) (x : BitVec 512) : Regs :=
  match d with
  | .s n => if n = 0 then r else { r with s := r.s.set n.toNat (x.setWidth 64) n.isLt }
  | .p n => if (ix16 n) = 0 then r
      else { r with p := r.p.set (ix16 n).val (x.getLsbD 0) (ix16 n).isLt }
  | .v n g l =>
      { r with v := r.v.set (ix32 n).val (writeGroup (r.v.get (ix32 n)) g l x) (ix32 n).isLt }
  | .q n g l => if (ix8 n) = 0 then r
      else { r with q := r.q.set (ix8 n).val (writeBits (r.q.get (ix8 n)) g l x) (ix8 n).isLt }
  | .x n => { r with x := r.x.set (ix16 n).val (x.setWidth 256) (ix16 n).isLt }
  | .lc n => { r with lc := r.lc.set (ix4 n).val (x.setWidth 32) (ix4 n).isLt }
  | .m n => { r with m := r.m.set (ix8 n).val (x.setWidth 64) (ix8 n).isLt }
  | .cr _ => r
  | .flags => r

/-! ## Reading registers (R156) -/

/-- A read of a register with results in flight: each of them is seen or not, unpredictably; the last
one seen stands. `cls` is the KIND of R225. -/
def pick {α : Type} (s : State) (cls : Nat) (r : Reg) (old : α) (news : List α) : α :=
  (news.zipIdx).foldl
    (fun v (n, k) => if Config.inFlight s.free s.fr.syl cls r.toNat k then n else v) old

/-- A scalar register as the issuing syllable reads it. -/
def State.rdS (s : State) (r : Reg) : Word64 :=
  pick s 0 r (s.ctx.regs.s.get (ix64 r))
    (s.ctx.flight.filterMap fun f =>
      match f.dest with
      | .s n => if n = r ∧ r ≠ 0 then some (f.value.setWidth 64) else none
      | _ => none)

/-- A predicate. -/
def State.rdP (s : State) (r : Reg) : Bool :=
  pick s 1 r (s.ctx.regs.p.get (ix16 r))
    (s.ctx.flight.filterMap fun f =>
      match f.dest with
      | .p n => if n = r ∧ r ≠ 0 then some (f.value.getLsbD 0) else none
      | _ => none)

/-- An index register. -/
def State.rdX (s : State) (r : Reg) : BitVec 256 :=
  pick s 4 r (s.ctx.regs.x.get (ix16 r))
    (s.ctx.flight.filterMap fun f =>
      match f.dest with
      | .x n => if n = r then some (f.value.setWidth 256) else none
      | _ => none)

/-- A loop counter. -/
def State.rdLc (s : State) (r : Reg) : Word32 :=
  pick s 5 r (s.ctx.regs.lc.get (ix4 r))
    (s.ctx.flight.filterMap fun f =>
      match f.dest with
      | .lc n => if n = r then some (f.value.setWidth 32) else none
      | _ => none)

/-- A matrix parameter register. -/
def State.rdM (s : State) (r : Reg) : Word64 :=
  pick s 6 r (s.ctx.regs.m.get (ix8 r))
    (s.ctx.flight.filterMap fun f =>
      match f.dest with
      | .m n => if n = r then some (f.value.setWidth 64) else none
      | _ => none)

/-- A lane with results in flight, old or new element by element: elements of `w` bits (R156, R313). -/
def State.pickLane (s : State) (r : Reg) (w i : Nat) (old : Word32) (news : List Word32) : Word32 :=
  if w = 32 then pick s (8 + i) r old news
  else
    let el (x : Word32) (k : Nat) : Nat := x.toNat / 2 ^ (w * k) % 2 ^ w
    BitVec.ofNat 32 (packNat w ((List.range (32 / w)).map fun k =>
      pick s (512 + 8 * i + k) r (el old k) (news.map (el · k))))

/-- A vector register as a syllable with elements of `w` bits reads it; old or new element by element. -/
def State.rdVE (s : State) (w : Nat) (r : Reg) : Vector Word32 128 :=
  let fs := s.ctx.flight.filterMap fun f =>
    match f.dest with
    | .v n g l => if n = r then some (g, l, f.value) else none
    | _ => none
  match fs with
  | [] => s.ctx.regs.v.get (ix32 r)
  | _ => lanes fun i =>
      s.pickLane r w i (lane (s.ctx.regs.v.get (ix32 r)) i)
        (fs.filterMap fun (g, l, x) =>
          if i / 16 = g.val ∧ l.getLsbD (i % 16) then some (groupLane x (i % 16)) else none)

/-- A vector register of whole lanes. -/
def State.rdV (s : State) (r : Reg) : Vector Word32 128 := s.rdVE 32 r

/-- A lane predicate; old or new lane by lane. -/
def State.rdQ (s : State) (r : Reg) : BitVec 128 :=
  let fs := s.ctx.flight.filterMap fun f =>
    match f.dest with
    | .q n g l => if n = r ∧ r ≠ 0 then some (g, l, f.value) else none
    | _ => none
  match fs with
  | [] => s.ctx.regs.q.get (ix8 r)
  | _ => BitVec.ofNat 128 (packNat 1 ((List.range 128).map fun i =>
      (pick s (136 + i) r ((s.ctx.regs.q.get (ix8 r)).getLsbD i)
        (fs.filterMap fun (g, l, x) =>
          if i / 16 = g.val ∧ l.getLsbD (i % 16) then some (x.getLsbD (i % 16)) else none)).toNat))

/-! ## Results in flight -/

/-- Whether a write to a destination is discarded (R156). -/
def Dest.discarded : Dest → Bool
  | .s r => r == 0
  | .p r => r == 0
  | .q r _ _ => r == 0
  | _ => false

/-- The register line of a destination in the register space (R160, R161); none for a control
register and for flags. -/
def Dest.line : Dest → Option Nat
  | .s r => some (r.toNat / 32)
  | .x r => some (2 + (ix16 r).val / 8)
  | .p _ | .lc _ | .m _ | .q _ _ _ => some 4
  | .v r g _ => some (5 + 2 * (ix32 r).val + g.val / 4)
  | .cr _ | .flags => none

/-- The 64-bit units of the register space that a result replaces whole, as 32 × line + unit (R160): their errors go
with what stood there (R23). -/
def Dest.whole : Dest → List Nat
  | .s r => [r.toNat]
  | .x r => (List.range 4).map (64 + 4 * (ix16 r).val + ·)
  | .lc r => [129 + (ix4 r).val]
  | .m r => [136 + (ix8 r).val]
  | .v r g l => ((List.range 8).filter fun i => l.getLsbD (2 * i) && l.getLsbD (2 * i + 1)).map
      (160 + 64 * (ix32 r).val + 8 * g.val + ·)
  | .p _ | .q _ _ _ | .cr _ | .flags => []

/-- A result goes into flight with its latency (R156, R157). -/
def State.put (s : State) (d : Dest) (x : BitVec 512) (lat : Nat) : State :=
  if d.discarded then s
  else s.modCtx fun c =>
    { c with flight := c.flight ++ [⟨d, x, lat, c.seq, s.fr.slot, s.fr.pc⟩] }

/-- A scalar result. -/
def State.putS (s : State) (r : Reg) (x : Word64) (lat : Nat) : State :=
  s.put (.s r) (x.setWidth 512) lat

/-- A predicate result, with the latency of a scalar operation. -/
def State.putP (s : State) (r : Reg) (b : Bool) : State :=
  s.put (.p r) (BitVec.ofNat 512 b.toNat) 1

/-- Flags to be ORed into FPFLAGS when their result lands (R249); none when no flag is set. -/
def State.putFlags (s : State) (fl : BitVec 7) (lat : Nat) : State :=
  if fl = 0 then s else s.put .flags (fl.setWidth 512) lat

/-! ## Ending a launch (R72) -/

/-- A context of a launch goes to HALTED (R102). -/
def Ctx.haltFor (c : Ctx) (slot : Nat) : Ctx :=
  if c.bound && c.bind.lslot == slot then { c with state := .halted } else c

/-- A launch gets its end status; the first cause stands, and of those of one cycle the lowest status (R72). Saved
contexts are HALTED at once (R118), and where it ends with DONE all of its contexts are (R110); the others go to HALTED
at the boundary at which they stop (R72). -/
def State.endLaunch (s : State) (slot : Nat) (status cause : Byte) : State :=
  let l := s.lslot slot
  if l.state = .running then
    let s := s.modSlot slot fun l =>
      { l with state := .ending, status := status, cause := cause, resuming := [], endRound := s.round }
    let s := s.modHub fun h =>
      { h with saved := h.saved.map fun (i : SavedImage) => { i with image := i.image.mapCtxs (·.haltFor slot) } }
    if status = 0 then s.coreNumbers.foldl (fun s n => s.modCoreAt n fun k => k.mapCtxs (·.haltFor slot)) s else s
  else if l.state = .ending ∧ l.endRound = s.round ∧ status < l.status then
    s.modSlot slot fun l => { l with status := status, cause := cause }
  else s

/-- Whether a print, a dispatch, a combine, a pool or a repartition of a gang's contexts is moving data (R47). -/
def State.movingData (s : State) (slot gang : Nat) : Bool :=
  s.allContexts.any fun (n, c) =>
    let x := s.ctxOf n c
    let k := s.coreAt n
    x.bound && x.bind.lslot == slot && x.bind.gang == gang
      && ((k.prints.any fun p => p.cmd.ctx == c && p.ops.contains .started)
        || k.cqueue.any fun m => m.ctx == c && m.run == .running && !m.dying && m.op == .embpool)

/-- The contexts of a launch on this module, in cores and in saved images. -/
def State.launchCtxs (s : State) (slot : Nat) : List Ctx :=
  ((s.coreNumbers.map s.coreAt) ++ s.hub.saved.map SavedImage.image).flatMap fun k =>
    (allCtxs.map k.ctxs.get).filter fun c => c.bound && c.bind.lslot == slot

/-! ## Control register writes at their landing (R219, R304) -/

/-- STATUS after a write: bits 63:32 as given, SSTEP as given, MOVED cleared by a 0; HM and EPEND
keep (R219). -/
def statusWrite (old new : Word64) : Word64 :=
  let keep : Word64 := old &&& 0x5
  let moved : Word64 := old &&& new &&& 0x2
  (new &&& 0xFFFFFFFF00000008) ||| keep ||| moved

/-- The value a control register takes when a write lands. A write of a register whose side effects
lie outside the context's own words (MUPC, ECMD) changes nothing here. -/
def Ctrl.write (k : Ctrl) (idx : Reg) (x : Word64) : Ctrl :=
  match idx.toNat with
  | 0 => { k with status := statusWrite k.status x }
  | 1 => { k with epc := x }
  | 5 => { k with tvec := x }
  | 8 => { k with fmtb := x }
  | 9 => { k with bindb := x }
  | 10 => { k with seqtb := x }
  | 11 => { k with occ := x }
  | 12 => { k with dlen := x }
  | 13 => { k with fpflags := x }
  | 14 => { k with trcctl := x }
  | _ => k

/-- Flags are ORed into FPFLAGS (R249). -/
def Ctrl.orFlags (k : Ctrl) (x : BitVec 512) : Ctrl :=
  { k with fpflags := k.fpflags ||| (x.setWidth 7).setWidth 64 }

/-- The table that a CWR to BINDB or SEQTB has read stands once the CWR has landed (R124, R145, R304). -/
def Ctx.landTable (c : Ctx) (i : Reg) : Ctx :=
  match i.toNat with
  | 9 => { c with bindStore := c.newBind.getD c.bindStore, newBind := none }
  | 10 => { c with seqCache := c.newSeq.getD c.seqCache, newSeq := none }
  | _ => c

/-- A result lands in a context: its register, control register or flags; its line is dirty. On a line that is not
resident it waits for the line. -/
def Ctx.land (c : Ctx) (d : Dest) (x : BitVec 512) : Ctx :=
  match d with
  | .cr i => { c with ctrl := c.ctrl.write i (x.setWidth 64) }.landTable i
  | .flags => { c with ctrl := c.ctrl.orFlags x }
  | _ =>
    match d.line with
    | some n =>
      if c.resident.getLsbD n then
        { c with
          regs := c.regs.land d x, dirty := c.dirty ||| (1 <<< n)
          badRegs := c.badRegs.filter fun u => !d.whole.contains u }
      else { c with overlay := c.overlay ++ [(d, x)] }
    | none => c

/-- The issue order in which results that land together take effect: a CWR of FPFLAGS before the
flags of its cycle (R249). -/
def Ctx.landAll (c : Ctx) (fs : List Flight) : Ctx :=
  let isFlags : Flight → Bool := fun f => f.dest == .flags
  let c := (fs.filter fun f => !isFlags f).foldl (fun c f => c.land f.dest f.value) c
  (fs.filter isFlags).foldl (fun c f => c.land f.dest f.value) c

/-- Insertion by issue order, keeping equal orders in their given order. -/
def insertFlight (f : Flight) : List Flight → List Flight
  | [] => [f]
  | g :: rest => if f.seq < g.seq then f :: g :: rest else g :: insertFlight f rest

/-- Results in ascending issue order (R156, R226). -/
def sortFlights (l : List Flight) : List Flight := l.foldl (fun acc f => insertFlight f acc) []

/-- The side effects of control-register writes that land now: the discards through MUPC and ECMD
(R191, R231, R304). -/
def State.landEffects (s : State) (c : CtxNo) (fs : List Flight) : State :=
  fs.foldl
    (fun s f =>
      match f.dest with
      | .cr i =>
        if i = 15 ∧ f.value.getLsbD 63 then s.discard .matrix c
        else if i = 17 then
          let s := if f.value.getLsbD 63 then s.discard .copy c else s
          if f.value.getLsbD 62 then s.discard .text c else s
        else s
      | _ => s) s

/-- One non-freeze cycle of a context's results in flight: those with one cycle left land, in
ascending issue order, so that the later-issued stands (R156). -/
def Ctx.advance (c : Ctx) : Ctx :=
  let landing := sortFlights (c.flight.filter fun f => f.rem ≤ 1)
  let rest := (c.flight.filter fun f => 1 < f.rem).map fun f => { f with rem := f.rem - 1 }
  { c.landAll landing with flight := rest }

/-! ## The trace (R234 to R236) -/

/-- Recording an entry: the ring takes it unless it is frozen; at most four in a cycle. -/
def Trace.record (t : Trace) (word0 word1 : Word64) : Trace :=
  if t.frozen then t
  else if 4 ≤ t.inCycle then { t with lost := Nat.min (t.lost + 1) 65535 }
  else
    let t' := { t with
      entries := tset (0, 0) t.entries t.next (word0, word1)
      next := (t.next + 1) % 16384
      inCycle := t.inCycle + 1 }
    if t.fired then
      if t.post ≤ 1 then { t' with post := 0, frozen := true } else { t' with post := t.post - 1 }
    else t'

/-- The second word of an entry (R234): TIME, KIND, CTX, A. -/
def traceWord (cycles : Word64) (kind : Nat) (c : CtxNo) (a : Nat) : Word64 :=
  (cycles.setWidth 40) ++ (BitVec.ofNat 4 kind) ++ (BitVec.ofNat 2 c.val) ++ 0#2 ++
    (BitVec.ofNat 16 a)

/-- Recording an event of a context when its TRCCTL bit selects it (R235). -/
def State.traceAt (s : State) (c : CtxNo) (bit kind a : Nat) (b : Word64) : State :=
  if (s.ctxAt c).ctrl.trcctl.getLsbD bit then
    s.modCore fun k =>
      { k with trace := k.trace.record b (traceWord k.counters.cycles kind c a) }
  else s

/-- Whether the shutter watches: armed, not fired, the sheet not frozen. -/
def Trace.watches (t : Trace) : Bool := t.trshut.getLsbD 63 && !t.fired && !t.frozen

/-- The shutter fires: FIRED, a KIND 9 entry at TRIG, POST further entries (R236). -/
def State.fireShutter (s : State) (c : CtxNo) (b : Word64) : State :=
  s.modCore fun k =>
    let t := k.trace
    if t.watches then
      let at_ := t.next
      let t := t.record b (traceWord k.counters.cycles 9 c (bits t.trshut 60 2))
      let post := bits t.trshut 0 14
      { k with trace := { t with
          fired := true, trig := at_, post := post, frozen := post == 0 } }
    else k

/-- The shutter's condition for a trap entry (MODE 1). -/
def State.shutterTrap (s : State) (c : CtxNo) (cause : Byte) : State :=
  let t := s.core.trace.trshut
  if bits t 60 2 = 1 ∧ (bits t 48 8 = 0xFF ∨ bits t 48 8 = cause.toNat) ∧ s.fr.shut.isNone then
    s.modFr fun f => { f with shut := some (c, cause.setWidth 64) }
  else s

/-- A trace event of a context in this cycle. -/
def State.noteAt (s : State) (c : CtxNo) (rank bit kind a : Nat) (b : Word64) : State :=
  s.modFr fun f => { f with notes := f.notes ++ [⟨rank, c, bit, kind, a, b⟩] }

/-- A trace event of the issuing context in this cycle. -/
def State.note (s : State) (rank bit kind a : Nat) (b : Word64) : State :=
  s.noteAt s.fr.ctx rank bit kind a b

/-- The shutter matches an issued bundle (MODE 2) or the line of a path-C access (MODE 3). -/
def State.noteShutter (s : State) (mode : Nat) (hit : Bool) (b : Word64) : State :=
  if bits s.core.trace.trshut 60 2 = mode ∧ hit ∧ s.fr.shut.isNone then
    s.modFr fun f => { f with shut := some (f.ctx, b) }
  else s

/-- The order in which the events of one cycle are recorded (R234): ENG, M0, M1, p-write, branch, then
the others. -/
def rankEng : Nat := 0
def rankM0 : Nat := 1
def rankM1 : Nat := 2
def rankPred : Nat := 3
def rankBranch : Nat := 4
def rankOther : Nat := 5

/-- How many entries the selected core has recorded in the present cycle. -/
def State.countTrace (s : State) (f : Nat → Nat) : State :=
  s.modCore fun k => { k with trace := { k.trace with inCycle := f k.trace.inCycle } }

/-- The cycle's trace events are recorded, and the shutter fires where it matched: its entry is the last, and one of the
cycle's four (R234, R236; log entry 85). -/
def State.flushNotes (s : State) : State :=
  let fires := s.fr.shut.isSome && s.core.trace.watches
  let s0 := if fires then s.countTrace (· + 1) else s
  let s' := ([0, 1, 2, 3, 4, 5].flatMap fun r => s.fr.notes.filter (·.rank == r)).foldl
    (fun s n => s.traceAt n.ctx n.bit n.kind n.a n.b) s0
  let s'' := match s.fr.shut with
    | some (c, b) => if fires then (s'.countTrace (· - 1)).fireShutter c b else s'
    | none => s'
  s''.modFr fun f => { f with notes := [], shut := none }

/-! ## Trap entry (R222, R223) and return (R224) -/

/-- Control-register writes and flags in flight are performed at a boundary (R249, R304). -/
def Ctx.performCtrl (c : Ctx) : Ctx :=
  let isCtrl : Flight → Bool := fun f =>
    match f.dest with
    | .cr _ => true
    | .flags => true
    | _ => false
  let now := sortFlights (c.flight.filter isCtrl)
  { c.landAll now with flight := c.flight.filter fun f => !isCtrl f }

/-- The bits 55:3 of a bundle address, as EPC and the loop entries hold it (R220, R303). -/
def bundleBits (a : Word64) : Word64 := a &&& 0x00FFFFFFFFFFFFF8

/-- The trap is recorded in ECAUSE, EPC, EADDR and EINFO (R222). EPC has bits 55:3 of the bundle's address only (R220). -/
def Ctx.recordTrap (c : Ctx) (t : TrapRec) : Ctx :=
  { c with ctrl := { c.ctrl with
      ecause := t.cause.setWidth 64, epc := bundleBits t.epc, eaddr := t.eaddr, einfo := t.einfo } }

/-- The group of a result; 0 for one that has none. -/
def Dest.group : Dest → Nat
  | .v _ g _ => g.val
  | .q _ g _ => g.val
  | _ => 0

/-- The order of the buffer's entries: issue order, slot code, group. -/
def Flight.place (f : Flight) : Nat := (f.seq * 16 + f.slot.toNat) * 8 + f.dest.group

/-- Insertion in that order. -/
def insertPlaced (f : Flight) : List Flight → List Flight
  | [] => [f]
  | g :: rest => if f.place < g.place then f :: g :: rest else g :: insertPlaced f rest

/-- Results in flight move into the latent-image buffer: SEQ counts the bundles that made them, in issue order after
what the buffer holds (R222, R225). -/
def Ctx.capture (c : Ctx) (byTrap : Bool) : Ctx :=
  let fs := c.flight.foldl (fun acc f => insertPlaced f acc) []
  let base := (c.latent.filter Latent.valid).foldl (fun m l => max m (l.flight.seq + 1)) 0
  let rank (f : Flight) : Nat := ((fs.map Flight.seq).eraseDups.filter (· < f.seq)).length
  { c with latent := c.latent ++ fs.map fun f => ⟨{ f with seq := base + rank f }, byTrap, true, false⟩, flight := [] }

/-- A context that may enter its handler does: results in flight are captured, STATUS changes, the pc
goes to TVEC and two bubble cycles follow (R222). -/
def Ctx.enterHandler (c : Ctx) : Ctx :=
  let c := c.performCtrl.capture true
  let st := c.ctrl.status
  let sstep : Word64 := (st >>> 3) &&& 1
  { c with
    ctrl := { c.ctrl with status := (sstep <<< 32) ||| (st &&& 0x6) ||| 1 }
    pc := c.ctrl.tvec
    bubbles := 2
    bubbleWhy := .trap
    waits := { c.waits with
      entering := none, hold := .none, heldC := false, cycles := 0, waita := [], replayTrap := false } }

/-- Whether a context's handler entry must wait: a register is pending, or more than 64 results are
in flight (R222). -/
def Ctx.mustWait (c : Ctx) : Bool :=
  !c.pend.isEmpty || 64 < (c.flight.filter fun f =>
    match f.dest with
    | .cr _ => false
    | .flags => false
    | _ => true).length

/-- Handler mode (R219). -/
def Ctx.hm (c : Ctx) : Bool := c.ctrl.status.getLsbD 0

/-- A context leaves the lines of held QGETs. -/
def State.leaveQueues (s : State) (n : Nat) (c : CtxNo) : State :=
  if s.hub.hqueues.any fun (_, x) => x.getters.contains (n, c) then
    s.modHub fun h => { h with hqueues := h.hqueues.map fun ((q, x) : Nat × HQueue) =>
      (q, { x with getters := x.getters.filter (· != (n, c)) }) }
  else s

/-- TrapEntry of R222 on a context of the selected core, which no longer stands in line at a queue, ending the launch by R223 where it must. -/
def State.trapEntryAt (s : State) (c : CtxNo) (t : TrapRec) : State :=
  let s := (s.leaveQueues s.coreIx c).landEffects c (s.ctxAt c).flight
  let s := s.modCtxAt c Ctx.performCtrl
  let x := s.ctxAt c
  if x.hm then (s.shutterTrap c t.cause).endLaunch x.bind.lslot 9 t.cause
  else
    let s := s.modCtxAt c (·.recordTrap t)
    let s := (s.noteAt c 5 3 4 t.cause.toNat t.epc).shutterTrap c t.cause
    if x.ctrl.tvec = 0 then s.endLaunch x.bind.lslot 9 t.cause
    else if x.mustWait then
      s.modCtxAt c fun x => { x with waits := { x.waits with entering := some t, hold := .pending } }
    else s.modCtxAt c Ctx.enterHandler

/-- EINFO: SYL, SLOT and DETAIL (R220). -/
def einfo (syl : Nat) (slot : BitVec 4) (detail : BitVec 32) : Word64 :=
  (BitVec.ofNat 4 syl) ++ slot ++ 0#24 ++ detail

/-- A context's registers, control registers, results in flight and captured results go back to
what stood before this cycle's landings (R222, R226). -/
def Ctx.unlandTo (c old : Ctx) : Ctx :=
  { c with
    regs := old.regs, ctrl := old.ctrl, flight := old.flight, latent := old.latent
    dirty := old.dirty, overlay := old.overlay, badRegs := old.badRegs
    bindStore := old.bindStore, seqCache := old.seqCache, newBind := old.newBind, newSeq := old.newSeq
    waits := { c.waits with
      replayTrap := old.waits.replayTrap, replayStop := old.waits.replayStop } }

/-- The KIND 2 entries of a context's landings in this cycle are not recorded: the landings are undone. -/
def State.dropPredNotes (s : State) (c : CtxNo) : State :=
  s.modFr fun f => { f with notes := f.notes.filter fun n => !(n.kind == 2 && n.ctx == c) }

/-- The issuing context's results go back to what stood before this cycle's landings. -/
def State.unland (s : State) : State :=
  match s.fr.preland with
  | none => s
  | some old => (s.modCtx fun c => c.unlandTo old).dropPredNotes s.fr.ctx

/-- An execution cause at the issuing syllable (R218): the trap is taken at this bundle, precisely. -/
def State.trapWith (s : State) (cause : Byte) (epc eaddr info : Word64) : State :=
  let s := s.unland
  let s := s.trapEntryAt s.fr.ctx ⟨cause, epc, eaddr, info⟩
  s.modFr fun f => { f with verdict := .trapped, trapCode := cause }

/-- A trap raised by the issuing syllable, with EPC at this bundle. -/
def State.trap (s : State) (cause : Byte) (eaddr : Word64) (detail : BitVec 32) : State :=
  s.trapWith cause s.fr.pc eaddr (einfo s.fr.syl s.fr.slot detail)

/-- The bundle is held (R106). -/
def State.holdFor (s : State) (h : Hold) : State := s.modFr fun f => { f with verdict := .held h }

/-- The bundle freezes before issue (R159). -/
def State.freezeFor (s : State) (c : FreezeCause) : State :=
  s.modFr fun f => { f with verdict := .frozen c }

/-- Cause codes of R221. -/
def cILLOP : Byte := 1
def cILLENC : Byte := 2
def cRSVD : Byte := 3
def cBUNDLE : Byte := 4
def cILLSTATE : Byte := 5
def cBADSTATUS : Byte := 6
def cXLATE : Byte := 7
def cPERM : Byte := 8
def cALIGN : Byte := 9
def cDATAERR : Byte := 10
def cSPILL : Byte := 11
def cSPAWNBUSY : Byte := 12
def cLEVEL : Byte := 13
def cSTALEWIN : Byte := 14
def cQUOTA : Byte := 15
def cENGFAULT : Byte := 16
def cSWTRAP : Byte := 17
def cSTEP : Byte := 18

/-- Captured results that are due go back to flight (R226). A result already in flight counts as issued later than
any of them, so that in one cycle the handler's own result stands (R224). -/
def Ctx.replay (c : Ctx) : Ctx :=
  let due : Latent → Bool := fun l => !l.valid || if l.byTrap then c.waits.replayTrap else c.waits.replayStop
  let back := (c.latent.filter fun l => l.valid && due l).map Latent.flight
  let later : Nat := if back.isEmpty then 0 else 64
  { c with
    latent := c.latent.filter fun l => !due l
    flight := back ++ c.flight.map fun (f : Flight) => { f with seq := f.seq + later }
    seq := c.seq + later
    waits := { c.waits with replayTrap := false, replayStop := false } }

/-- The state changes of a TRET that is performed (R224), apart from the engines: SSTEP from SAVSTEP,
the saved status cleared, handler mode left, the captured results due again. -/
def Ctx.leaveHandler (c : Ctx) : Ctx :=
  let st := c.ctrl.status
  let savstep : Word64 := (st >>> 32) &&& 1
  { c with
    ctrl := { c.ctrl with status := (st &&& 0x6) ||| (savstep <<< 3) }
    waits := { c.waits with replayTrap := true } }

/-! ## The end of a bundle's syllables -/

/-- A syllable that was judged and let proceed. -/
def State.proceeds (s : State) : Bool := s.fr.verdict == .proceed

end Sys2Proof.Machine
end

