-- ==== Sys2Proof/WellFormed.lean ====
section
/-!
DEFINITION. Which operands a syllable may carry (R259 to R263, R292, R315, R329, R331, R338, R350,
R353, R359): everything whose breach raises RSVD. A syllable that breaks one of these is not
well-formed; an event is no syllable and is not well-formed either.
-/

namespace Sys2Proof

/-! ## Types and register classes (R260, R261) -/

namespace Ty

/-- The code of a type in field TY (R260). -/
def code : Ty → BitVec 4
  | .i8 => 0 | .i16 => 1 | .i32 => 2 | .i64 => 3
  | .n8 => 4 | .n16 => 5 | .n32 => 6 | .n64 => 7
  | .f32 => 8 | .bf16 => 9 | .f16 => 10 | .e4m3 => 11
  | .e5m2 => 12 | .e3m2 => 13 | .e2m3 => 14 | .e2m1 => 15

/-- An integer type. -/
def isInt : Ty → Bool
  | .i8 | .i16 | .i32 | .i64 | .n8 | .n16 | .n32 | .n64 => true
  | _ => false

/-- A signed integer type: `.i8` to `.i64`. -/
def isSigned : Ty → Bool
  | .i8 | .i16 | .i32 | .i64 => true
  | _ => false

/-- A 64-bit type. -/
def is64 : Ty → Bool
  | .i64 | .n64 => true
  | _ => false

/-- An integer type a vector lane may hold (R313). -/
def isVecInt (t : Ty) : Bool := t.isInt && !t.is64

/-- A type the vector arithmetic of R318 accepts. -/
def isVecFloat : Ty → Bool
  | .f32 | .bf16 | .f16 => true
  | _ => false

/-- A type a form M syllable accepts (R259: codes 1101 to 1111 raise RSVD). -/
def isMem : Ty → Bool
  | .e3m2 | .e2m3 | .e2m1 => false
  | _ => true

/-- The two views of an index register (R330). -/
def isIndex : Ty → Bool
  | .n16 | .n32 => true
  | _ => false

/-- The bytes a scalar access of the type moves (R339); 0 where form M has no such type. -/
def size : Ty → Nat
  | .i8 | .n8 | .e4m3 | .e5m2 => 1
  | .i16 | .n16 | .bf16 | .f16 => 2
  | .i32 | .n32 | .f32 => 4
  | .i64 | .n64 => 8
  | .e3m2 | .e2m3 | .e2m1 => 0

/-- The bytes each lane of a vector access moves: packed 8- and 16-bit floats move whole lanes (R339). -/
def laneSize : Ty → Nat
  | .bf16 | .f16 | .e4m3 | .e5m2 => 4
  | t => t.size

/-- Elements per 32-bit lane (R313). -/
def elems : Ty → Nat
  | .i32 | .n32 | .f32 => 1
  | .i16 | .n16 | .bf16 | .f16 => 2
  | .i8 | .n8 | .e4m3 | .e5m2 | .e3m2 | .e2m3 => 4
  | .e2m1 => 8
  | .i64 | .n64 => 0

end Ty

/-- Classes of registers smaller than the field that names them (R261). -/
def Reg.isVec (r : Reg) : Bool := r.toNat < 32
@[inherit_doc Reg.isVec] def Reg.isPred (r : Reg) : Bool := r.toNat < 16
@[inherit_doc Reg.isVec] def Reg.isIdx (r : Reg) : Bool := r.toNat < 16
@[inherit_doc Reg.isVec] def Reg.isLane (r : Reg) : Bool := r.toNat < 8
@[inherit_doc Reg.isVec] def Reg.isMat (r : Reg) : Bool := r.toNat < 8
@[inherit_doc Reg.isVec] def Reg.isLc (r : Reg) : Bool := r.toNat < 4
@[inherit_doc Reg.isVec] def Reg.isCr (r : Reg) : Bool := r.toNat < 19
/-- The first of eight consecutive scalars: 0, 8, … 56 (R292, R359). -/
def Reg.isOctet (r : Reg) : Bool := r.toNat % 8 == 0

/-- The control register indexes whose CWR has a row of its own (R269). -/
def crBindb : Reg := 9
@[inherit_doc crBindb] def crSeqtb : Reg := 10

/-! ## Operand records -/

/-- A scalar arithmetic operation takes any integer type (R292). -/
def SArgs.wf (o : SArgs) : Bool := o.ty.isInt

/-- Form I operands are always in range: every code of every field has a meaning (R292). -/
def IArgs.wf (_ : IArgs) : Bool := true

def PArgs.wf (o : PArgs) : Bool := o.d.isPred && o.a.isPred && o.b.isPred

/-- A form V syllable selects some group (R262), and with CH = 1 field A is 0 (R259). -/
def VHdr.wf (h : VHdr) (a : Reg) : Bool := h.gm != 0 && (!h.ch || a == 0)

/-- Operand b names a vector, or any scalar when BS = 1 (R262). -/
def opBWf (b : Reg) (bs : Bool) : Bool := bs || b.isVec

/-- Only the instructions marked in R315 take a chain; on any other CH must be 0. -/
def VHdr.noChain (h : VHdr) : Bool := !h.ch

/-- The IMM syllable of a rounding instruction: present exactly under SR, with EXT[31:6] 0 and an
even key register (R262, R243). -/
def keyWf (rm : Rm) (key : Option (BitVec 32)) : Bool :=
  match rm, key with
  | .sr, some e => e.toNat < 64 && e.toNat % 2 == 0
  | .sr, none => false
  | _, none => true
  | _, some _ => false

def VArgs.wf (o : VArgs) (tyOk : Ty → Bool) : Bool :=
  o.h.wf o.a && o.d.isVec && o.a.isVec && opBWf o.b o.bs && tyOk o.ty

def VBitArgs.wf (o : VBitArgs) : Bool :=
  o.h.wf o.a && o.d.isVec && o.a.isVec && opBWf o.b o.bs

/-- Two-source rounding forms have field C = 0 (R315). -/
def VFArgs.wf2 (o : VFArgs) : Bool :=
  o.h.wf o.a && o.d.isVec && o.a.isVec && opBWf o.b o.bs && o.c == 0 && o.ty.isVecFloat
    && keyWf o.rm o.key

def VFArgs.wf3 (o : VFArgs) (tyOk : Ty → Bool) : Bool :=
  o.h.wf o.a && o.d.isVec && o.a.isVec && opBWf o.b o.bs && o.c.isVec && tyOk o.ty
    && keyWf o.rm o.key

/-- VDOT4 takes signed bytes without rounding, and the 8- and 6-bit floats (R315). -/
def VFArgs.wfDot4 (o : VFArgs) : Bool :=
  o.wf3 (fun t => match t with
    | .i8 | .e4m3 | .e5m2 | .e3m2 | .e2m3 => true
    | _ => false) && (o.ty != .i8 || o.rm == .rne)

def VUnArgs.wf (o : VUnArgs) : Bool :=
  o.h.wf o.a && o.d.isVec && o.a.isVec && o.ty.isVecFloat

def VCmpArgs.wf {γ : Type} (o : VCmpArgs γ) : Bool :=
  o.h.wf o.a && o.a.isVec && opBWf o.b o.bs

/-- A conversion is a widening of R245 when every value of the source type is a value of the
destination type (R245, R321). -/
def Ty.widensTo : Ty → Ty → Bool
  | .bf16, .f32 | .f16, .f32 | .e4m3, .f32 | .e5m2, .f32 | .e3m2, .f32 | .e2m3, .f32
  | .e2m1, .f32 => true
  | .e4m3, .bf16 | .e5m2, .bf16 | .e3m2, .bf16 | .e2m3, .bf16 | .e2m1, .bf16 => true
  | .e4m3, .f16 | .e5m2, .f16 | .e3m2, .f16 | .e2m3, .f16 | .e2m1, .f16 => true
  | .e3m2, .e4m3 | .e2m3, .e4m3 | .e2m1, .e4m3 => true
  | .e3m2, .e5m2 | .e2m1, .e5m2 => true
  | .e2m1, .e3m2 | .e2m1, .e2m3 => true
  | _, _ => false

/-- The number of positions POS selects among (R321). -/
def cvtPositions (sty ty : Ty) : Nat :=
  if sty.elems ≤ ty.elems then ty.elems / sty.elems else sty.elems / ty.elems

/-- R321's cases of RSVD. -/
def VCvtArgs.wf (o : VCvtArgs) : Bool :=
  o.h.wf o.a && o.d.isVec && o.a.isVec && o.sty != o.ty && !o.sty.is64 && !o.ty.is64
    && decide (o.pos.toNat < cvtPositions o.sty o.ty)
    && (o.rm == .rne || !((o.sty.isInt && o.ty.isInt) || o.sty.widensTo o.ty))
    && keyWf o.rm o.key

/-- The folds of R323: bitwise ones on integers only. -/
def VFoldArgs.wf (o : VFoldArgs) : Bool :=
  o.h.wf o.a && o.d.isVec && o.a.isVec
    && (match o.ty with | .i32 | .n32 | .f32 => true | _ => false)
    && (match o.op with | .and | .or | .xor => o.ty != .f32 | _ => true)

def VRngArgs.wf (o : VRngArgs) : Bool :=
  o.h.wf o.a && o.d.isVec && o.a.isVec && o.k.toNat % 2 == 0

def QArgs.wf (o : QArgs) : Bool :=
  o.h.gm != 0 && o.h.noChain && o.d.isLane && o.a.isLane && o.b.isLane

def FArgs.wf (o : FArgs) : Bool := o.h.wf o.a && o.h.noChain && o.d.isVec && o.a.isVec

/-- With an IMM displacement DISP is 0 (R263). -/
def MAddr.wf (m : MAddr) : Bool := m.ext.isNone || m.disp == 0

def MArgs.wf (o : MArgs) : Bool := o.m.wf && o.ty.isMem

/-- R338's limits on a vector memory access with `ofsOk` saying which OFS forms it takes. -/
def VMArgs.wf (o : VMArgs) (ofsOk : Ofs → Bool) (tyOk : Ty → Bool) : Bool :=
  o.m.wf && o.d.isVec && o.gm != 0 && ofsOk o.ofs && tyOk o.ty
    && (match o.ofs with
        | .none => !o.ty.is64
        | .vec b => b.isVec && !o.ty.is64
        | .index b => b.isIdx && !o.ty.is64
        | .pair b => b.isVec && b != o.d && o.ty.is64)

/-- VLD and VST: consecutive lanes, or a register pair (R338). -/
def Ofs.straight : Ofs → Bool
  | .none | .pair _ => true
  | _ => false

/-- VGATH and VSCAT: an offset register (R338). -/
def Ofs.offset : Ofs → Bool
  | .vec _ | .index _ => true
  | _ => false

/-- VLDB and the packed store: no offset register. -/
def Ofs.isNone : Ofs → Bool
  | .none => true
  | _ => false

def PstArgs.wf (o : PstArgs) : Bool :=
  o.m.wf && o.ty.isMem && (if o.vec then o.d.isVec && o.gm != 0 && !o.ty.is64
    else o.gm == 0 && o.q == 0)

/-- The types an atomic accepts (R348). -/
def AtomArgs.wf (o : AtomArgs) (tyOk : Ty → Bool) : Bool := tyOk o.ty

def Ty.isAtomAdd : Ty → Bool
  | .i32 | .n32 | .i64 | .n64 | .f32 | .bf16 => true
  | _ => false

def Ty.isAtomMinMax : Ty → Bool
  | .i32 | .i64 | .f32 => true
  | _ => false

def Ty.isAtomBits : Ty → Bool
  | .n32 | .n64 => true
  | _ => false

/-! ## Instructions -/

/-- The checks R266 makes on a syllable's fields, and the limits of its owner's chapter. -/
def Instr.wf : Instr → Bool
  | .nop => true
  | .add fromLc toLc o => o.wf && (!fromLc || o.a.isLc) && (!toLc || o.d.isLc)
  | .sub o | .and o | .or o | .xor o | .andn o | .shl o | .shr o | .sar o | .rol o
  | .min o | .max o | .mul o | .mulh o => o.wf
  | .clz _ _ ty | .popc _ _ ty => ty.isInt
  | .addi o | .subi o | .andi o | .ori o | .xori o | .mini o | .maxi o | .muli o => o.wf
  | .shli _ | .shri _ | .sari _ => true
  | .movi _ _ _ => true
  | .cmp _ _ _ _ ty => ty.isSigned
  | .cmpi _ _ _ _ _ => true
  | .sel _ _ _ p => p.isPred
  | .ext _ _ pos w1 _ | .dep _ _ _ pos w1 => decide (pos.toNat + w1.toNat + 1 ≤ 64)
  | .addsc _ _ _ _ => true
  | .pand o | .por o | .pxor o => o.wf
  | .br _ | .brC _ | .call _ | .ret | .jmpi _ | .calli _ => true
  | .loop d _ len => d.isLc && decide (1 ≤ len.toNat) && decide (len.toNat ≤ 65536)
  | .crd _ idx => idx.isCr
  | .cwr _ idx => idx.isCr && idx != crBindb && idx != crSeqtb
  | .cwrBindb _ | .cwrSeqtb _ => true
  | .lvid _ _ _ | .phyid _ _ => true
  | .seqsel | .yield | .halt | .trap _ | .tret => true
  | .spawn _ _ b => b.isOctet
  | .waitc _ _ _ _ | .bara _ _ _ | .barw _ _ _ | .bar _ _ _ | .qput _ _ => true
  | .qget d _ _ => d.isPred
  | .vadd o | .vsub o | .vmul o | .vmulh o | .vshl o | .vshr o | .vsar o | .vmin o | .vmax o
  | .vadds o | .vsubs o => o.wf Ty.isVecInt
  | .vand o | .vor o | .vxor o | .vandn o | .vperm o => o.wf
  | .vsel o _ => o.wf
  | .vfadd o | .vfsub o | .vfmul o => o.wf2
  | .vfma o | .vfms o | .vfnma o => o.wf3 Ty.isVecFloat
  | .vfmin o | .vfmax o | .vfminp o | .vfmaxp o => o.wf Ty.isVecFloat
  | .vfabs o | .vfneg o => o.wf
  | .vcmp o => o.wf
  | .vfcmp o => o.wf
  | .vcvt o => o.wf
  | .vbcast h d a _ => h.wf a && d.isVec && a.isVec
  | .vred o => o.wf && !o.excl
  | .vscan o => o.wf
  | .vqcnt h d _ _ => h.gm != 0 && h.noChain && d.isVec
  | .vmov h d b bs => h.gm != 0 && h.noChain && d.isVec && opBWf b bs
  | .gxfer h d a _ _ => h.gm != 0 && h.noChain && d.isVec && a.isVec
  | .vdot2 o => o.wf3 (fun t => t == .bf16 || t == .f16)
  | .vdot4 o => o.wfDot4
  | .vdot8 o => o.wf3 (fun t => t == .e2m1)
  | .vrng o => o.wf
  | .qand o | .qor o | .qxor o | .qandn o => o.wf
  | .vmovi h d _ => h.gm != 0 && h.noChain && d.isVec
  | .rcp o | .rsq o | .sqrt o | .exp2 o | .log2 o | .sinpi o | .cospi o | .tanh o | .sigm o => o.wf
  | .xcad _ a b ty => a.isIdx && b.isIdx && ty.isIndex
  | .xpopc _ a _ => a.isIdx
  | .xexp d a _ _ _ => d.isIdx && a.isIdx
  | .xmps o => o.a.isIdx && o.ty.isIndex
  | .xins d _ idx ty => d.isIdx && ty.isIndex && (ty != .n32 || decide (idx.toNat < 8))
  | .xget _ a idx ty => a.isIdx && ty.isIndex && (ty != .n32 || decide (idx.toNat < 8))
  | .xsplat d _ ty => d.isIdx && ty.isIndex
  | .xadds d a _ ty => d.isIdx && a.isIdx && ty.isIndex
  | .xscan d a _ ty => d.isIdx && a.isIdx && ty.isIndex
  | .xcmp _ a _ _ ty => a.isIdx && ty.isIndex
  | .xtoq d a _ => d.isLane && a.isIdx
  | .ld o | .st o | .ldg o | .ldgAcq o | .stg o | .stgRel o => o.wf
  | .vld o => o.wf Ofs.straight Ty.isMem
  | .vst o => o.wf Ofs.straight (fun t => t.isMem && t != .i8)
  | .vstPk6 o => o.wf Ofs.isNone (fun t => t == .i8)
  | .vgath o | .vscat o => o.wf Ofs.offset Ty.isMem
  | .vldb o => o.wf Ofs.isNone (fun t => t == .n8)
  | .pst o => o.wf
  | .vldg o | .vstg o => o.wf (fun _ => true) Ty.isMem
  | .atomgAdd o => o.wf Ty.isAtomAdd
  | .atomgMin o | .atomgMax o => o.wf Ty.isAtomMinMax
  | .atomgAnd o | .atomgOr o | .atomgXor o | .atomgSwap o | .atomgCas o => o.wf Ty.isAtomBits
  | .fence _ _ => true
  | .fencex _ _ paths => paths != 0
  | .waita d _ b _ ty _ => d != b && (ty == .n32 || ty == .n64)
  | .linv _ _ _ => true
  | .mcall _ | .mstat _ _ => true
  | .mput d _ => d.isMat
  | .mget _ a => a.isMat
  | .cellld _ _ _ _ | .flowset _ _ | .xwin _ _ | .tsld _ _ | .tsst _ _ => true
  | .xcopy _ _ | .xgather _ _ | .embpool _ _ | .xcvt _ _ => true
  | .cgload _ _ _ => true
  | .cgrun _ _ b _ _ => b.isOctet
  | .a2aDisp _ _ _ | .a2aComb _ _ _ | .repart _ _ _ => true
  | .txtEnc _ _ | .txtDec _ _ | .txtMask _ _ => true
  -- events are no syllables
  | .mupcAbort _ | .ecmdDisct _ | .ecmdDiscx _ => false
  | .printOpStart _ _ _ | .printOpDone _ _ _ _ => false
  | .engineCommandStart _ _ | .engineFaultDelivery _ | .resultLanding | .pendingArrival _ => false
  | .registerCacheFill _ _ | .holdEnd _ | .timesliceExpiry | .nullifierSkip _ => false
  | .trapEntry _ _ _ _ _ | .waitaWake _ _ | .waitaTimeout _ | .waitcTimeout _ => false
  | .qgetTimeout _ | .qputTimeout _ | .fenceComplete _ | .releasePerform _ => false
  | .translationWalk _ _ _ | .lineWritebackFail _ _ _ | .remoteRequestTimeout _ => false
  | .readRequestReceive _ _ _ _ | .writeRequestReceive _ _ _ _ => false
  | .atomicRequestReceive _ _ _ _ _ _ _ | .responseReceive _ _ _ _ => false
  | .collectiveDataReceive _ _ _ _ _ _ _ | .switchReduce _ _ _ _ | .controlFlitReceive _ => false
  | .fabricPortDegrade _ _ | .planeLoss _ | .hostLinkTrain _ _ | .measuredBoot _ => false
  | .spdmGetMeasurements _ _ | .spdmChunkGet _ _ | .spdmRespondIfReady _ => false
  | .ownClaim _ _ _ | .ownRenew _ _ _ | .ownRelease _ _ | .ownHandover _ _ _ => false
  | .ownAccept _ _ _ | .leaseExpiry | .handoverTimeout | .stateWindowWrite _ _ _ => false
  | .deviceMemoryWrite _ _ _ | .lqtailWrite _ _ _ | .lqctlDisable _ _ _ => false
  | .launchRecordTake _ | .waitWordsMet _ | .treeBind _ | .bindRetry | .launchEnd _ => false
  | .launchAbort _ _ | .gangPreempt _ _ _ | .gangResume _ _ _ | .gangStop _ => false
  | .podFailure _ _ | .xlinvcWrite _ _ | .xlatInvalidateDone | .queueDisable _ _ => false
  | .islctlWrite _ _ _ | .islandTransition _ | .powerManagerTick _ _ _ => false
  | .trshutWrite _ _ _ | .trdumpWrite _ _ _ | .hbmPatrolScrub | .sramPatrolScrub => false
  | .rowSparing _ | .pseudoChannelFailure _ _ _ | .commandFinished _ _ => false
  | .poolLinkFault _ | .crcFailFlitReceive _ _ | .trdumpCopyDone _ => false
  | .spdmGetCertificate _ | .spdmChallenge _ _ => false

/-- A well-formed syllable: its instruction is, and it stands in a slot of the instruction's opcode
space (`Instr.inSpace`, with the encodings in Decode.lean). -/
def Syllable.instrWf (s : Syllable) : Bool := s.instr.wf

end Sys2Proof
end

