-- ==== Sys2Proof/Machine/Operands.lean ====
section
/-!
DEFINITION. Operand forms: levels of the tree, scratchpad and peer addresses, translation, effective
addresses of form M, and active lanes.
-/

namespace Sys2Proof.Machine

/-- What a check says: a value, or a cause with its EADDR and DETAIL (R218). -/
inductive Judged (α : Type) where
  | ok (a : α)
  | bad (cause : Byte) (eaddr : Word64) (detail : BitVec 32)
  deriving DecidableEq, Repr

/-! ## Levels (R84, R88, R95, R96) -/

/-- The context level: the deepest level with PHYS at context or above (R84). -/
def Tree.cl (t : Tree) : Nat := (t.phys.takeWhile (2 ≤ ·)).length - 1

/-- F(k). -/
def Tree.fanAt (t : Tree) (k : Nat) : Nat := t.fan.getD k 1

/-- PHYS(k). -/
def Tree.physAt (t : Tree) (k : Nat) : Nat := t.phys.getD k 0

/-- SIZE(l): the contexts under one node of level l (R88). -/
def Tree.size (t : Tree) (l : Nat) : Nat :=
  ((t.fan.take (t.cl + 1)).drop (l + 1)).foldl (· * ·) 1

/-- Mixed radix over coordinates and fan-outs, the first most significant (R88). -/
def mixedRadix : List Nat → List Nat → Nat
  | cs, fs => (cs.zip fs).foldl (fun r (c, f) => r * f + c) 0

/-- RANK(l) of a context with these coordinates (R88). -/
def Tree.rank (t : Tree) (coords : List Nat) (l : Nat) : Nat :=
  mixedRadix ((coords.take (t.cl + 1)).drop (l + 1)) ((t.fan.take (t.cl + 1)).drop (l + 1))

/-- The linear index of the context's node of level l (R88). -/
def Tree.node (t : Tree) (coords : List Nat) (l : Nat) : Nat :=
  mixedRadix ((coords.take (l + 1)).drop 1) ((t.fan.take (l + 1)).drop 1)

/-- Whether a level code is one an operation accepts (R95, R96). -/
def Tree.levelOk (t : Tree) (code : BitVec 6) (sys : Bool) : Bool :=
  (code.toNat < 32 && code.toNat < t.phys.length && code.toNat ≤ t.cl) || (sys && code == 63)

/-- LEVEL, with the offending code (R96). -/
def State.trapLevel (s : State) (code : BitVec 6) : State := s.trap cLEVEL 0 (code.setWidth 32)

/-! ## Scratchpad addresses (R127, R128) -/

/-- The core and offset that a scratchpad address of the issuing context reaches, or its PERM reason
(R128, R343). -/
def State.spadTarget (s : State) (a : Word64) : Judged (Nat × Nat) :=
  if s.launch.info.profile then
    if a.toNat < 4 * spadSize then
      let core := 4 * podOf s.coreIx + a.toNat / spadSize
      if (s.coreAt core).holds s.ctx.bind.lslot then .ok (core, a.toNat % spadSize)
      else .bad cPERM a 4
    else .bad cPERM a 3
  else if a.toNat < spadSize then .ok (s.coreIx, a.toNat)
  else .bad cPERM a 3

/-- The first bytes of the further cores of a pod that a range reaches. -/
def spadBorders (a n : Nat) : List Nat :=
  [spadSize, 2 * spadSize, 3 * spadSize].filter fun b => a < b && b + 1 < a + n

/-- Whether every one of `n` bytes lies in the context's space; the reason of the first that does not otherwise. It
is enough to ask of the first byte, the last, and the first of every core between them. -/
def State.spadSpan (s : State) (a : Word64) (n : Nat) : Judged (Nat × Nat) :=
  match s.spadTarget a with
  | .bad c _ d => .bad c a d
  | .ok x =>
    let inner := (spadBorders a.toNat n).map fun b => s.spadTarget (BitVec.ofNat 64 b)
    match (inner ++ [s.spadTarget (a + BitVec.ofNat 64 (n - 1))]).find? fun j =>
        match j with
        | .bad _ _ _ => true
        | .ok _ => false with
    | some (.bad c _ d) => .bad c a d
    | _ => .ok x

/-- Bytes cut where a core's part of the pod space ends (R128): each piece's address and bytes. -/
def spadCut : Nat → Nat → List Byte → List (Nat × List Byte)
  | 0, a, data => [(a, data)]
  | k + 1, a, data =>
    let n := spadSize - a % spadSize
    if data.length ≤ n then [(a, data)] else (a, data.take n) :: spadCut k (a + n) (data.drop n)

/-- The pieces of some bytes at an address of the context's space: core, offset and bytes of each. -/
def State.spadPieces (s : State) (a : Word64) (data : List Byte) : List (Nat × Nat × List Byte) :=
  (spadCut 4 a.toNat data).filterMap fun (x, d) =>
    match s.spadTarget (BitVec.ofNat 64 x) with
    | .ok (core, off) => some (core, off, d)
    | .bad _ _ _ => none

/-- A byte of the context's scratchpad space; 0 outside it. -/
def State.spadByte (s : State) (a : Nat) : Byte :=
  match s.spadTarget (BitVec.ofNat 64 a) with
  | .ok (core, off) => memRead (s.coreAt core).spad off
  | .bad _ _ _ => 0

/-- Bytes of the context's scratchpad space. -/
def State.spadBytes (s : State) (a n : Nat) : List Byte :=
  (List.range n).map fun i => s.spadByte (a + i)

/-! ## Peer addresses (R130, R131, R344) -/

/-- Where a peer address leads: a core of this module, or another module. -/
inductive PeerTarget
  | here (core : Nat)
  | there (modId : Nat)
  deriving DecidableEq, Repr

/-- The ADDR of a flit that carries an access to a core of another module, whose layout the specification does not
give: bit 55 with die, physical pod and core of a window above the offset, or bit 54 with LEVEL (bits 48:44) and RANK
(bits 43:20) of a logical address above it (log entry 99). -/
def peerFlit (addr : Word64) (off : Nat) : Nat :=
  if bits addr 62 2 = 2 then 2 ^ 55 + bits addr 36 10 * 2 ^ 36 + off
  else 2 ^ 54 + bits addr 56 5 * 2 ^ 44 + bits addr 32 24 * 2 ^ 20 + off

/-! ### The members of a launch group (R93) -/

/-- A unit: its physical level and its index. -/
abbrev Unit_ := Nat × Nat

/-- The highest module-bound level. -/
def Tree.moduleLevel (t : Tree) : Option Nat := t.phys.findIdx? (· == 6)

/-- The units of a level at module or above that lie in another: rack, node ids, module ids. -/
def upperUnits (members : List Nat) (phys : Nat) (u : Unit_) : List Unit_ :=
  let mine := (List.range 144).filter fun m =>
    members.contains m && (u.1 == 8 || (u.1 == 7 && m / 4 == u.2) || (u.1 == 6 && m == u.2))
  match phys with
  | 6 => mine.map fun m => (6, m)
  | 7 => ((List.range 36).filter fun n => mine.any fun m => m / 4 == n).map fun n => (7, n)
  | _ => [(8, 0)]

/-- The placement of the nodes at module or above: the module and coordinates of each node of level `h`. -/
def placeUpper (t : Tree) (members : List Nat) (h : Nat) :
    Nat → Nat → Unit_ → List Nat → Option (List (Nat × List Nat))
  | 0, _, _, _ => none
  | fuel + 1, k, u, cs =>
    if k = h then some [(u.2, cs)]
    else
      let packs := t.physAt (k + 1) == t.physAt k
      ((List.range (t.fanAt (k + 1))).foldl
        (fun (acc : Option (List (Nat × List Nat) × List Unit_)) j =>
          match acc with
          | none => none
          | some (done, used) =>
            let cand := if packs then [u]
              else (upperUnits members (t.physAt (k + 1)) u).filter fun v => !used.contains v
            cand.findSome? fun v =>
              (placeUpper t members h fuel (k + 1) v (cs ++ [j])).map fun m => (done ++ m, v :: used))
        (some ([], []))).map Prod.fst

/-- The coordinates of the nodes of the highest module-bound level that each member holds. -/
def moduleNodes (t : Tree) (members : List Nat) : Option (List (Nat × List Nat)) :=
  (upperUnits members (t.physAt 0) (8, 0)).findSome? fun u =>
    placeUpper t members (t.moduleLevel.getD 0) 33 0 u [0]

/-- The coordinates below a node of the context of a rank under it, over the fan-outs of the levels between (R88). -/
def unrank (fs : List Nat) (rank : Nat) : List Nat :=
  (fs.foldr (fun f (r : Nat × List Nat) => (r.1 / f, r.1 % f :: r.2)) (rank, [])).2

/-- The core that holds the context of a rank within the issuing context's node of a level. -/
def State.coreOfRank (s : State) (l rank : Nat) : Option Nat :=
  let me := s.ctx.bind
  let t := s.tree
  ((s.allContexts.find? fun (n, c) =>
    let x := s.ctxOf n c
    x.bound && x.bind.lslot == me.lslot
      && x.bind.coords.take (l + 1) == me.coords.take (l + 1)
      && t.rank x.bind.coords l == rank).map Prod.fst)

/-- The members that a group counts: the first MODULES that announced themselves, all of them while this module does
not know MODULES (R93). -/
def Group.counted (g : Group) : List (Nat × List Byte) := if g.modules = 0 then g.members else g.members.take g.modules

/-- The member modules of the context's launch group in ascending id, this module alone otherwise. -/
def State.members (s : State) : List Nat :=
  match s.hub.groups.find? (·.id == s.launch.info.group) with
  | some g => (List.range 144).filter fun m => g.counted.any (·.1 == m)
  | none => [Config.rackPosition.val]

/-- The member module that holds the context of a rank within the issuing context's node of a level: the one that
has the node of the highest module-bound level above it (R88, R93, R97). -/
def State.moduleOf (s : State) (lv rank : Nat) : Nat :=
  let t := s.tree
  let coords := s.ctx.bind.coords.take (lv + 1) ++ unrank ((t.fan.take (t.cl + 1)).drop (lv + 1)) rank
  let nodes := (moduleNodes t s.members).getD []
  ((nodes.find? fun (_, cs) => coords.take cs.length == cs).map Prod.fst).getD Config.rackPosition.val

/-- The checks of R131 but alignment, at an integer offset from the peer address. -/
def State.peerTarget (s : State) (a : Word64) (off : Int) : Judged PeerTarget :=
  let form := bits a 62 2
  let lv : BitVec 6 := a.extractLsb' 56 6
  let rank := bits a 32 24
  let t := s.tree
  if form = 0 ∨ form = 3 then .bad cPERM a 12
  else if form = 1 ∧ bits a 20 12 ≠ 0 then .bad cPERM a 12
  else if form = 2 ∧ bits a 20 16 ≠ 0 then .bad cPERM a 12
  else if form = 1 ∧ !t.levelOk lv false then .bad cLEVEL 0 (lv.setWidth 32)
  else if form = 2 ∧ bits a 54 8 ≠ s.launch.mep.toNat then
    .bad cSTALEWIN a (BitVec.ofNat 32 (bits a 54 8))
  else if form = 1 ∧ t.size lv.toNat ≤ rank then .bad cPERM a 5
  else if off < 0 ∨ (spadSize : Int) ≤ off then .bad cPERM a 3
  else if form = 1 then
    match s.coreOfRank lv.toNat rank with
    | some n => .ok (.here n)
    | none =>
      let m := s.moduleOf lv.toNat rank
      if 1 < t.modules ∧ m ≠ Config.rackPosition.val then .ok (.there m) else .bad cPERM a 4
  else if bits a 46 8 = Config.rackPosition.val then
    let die := bits a 43 3
    let pod? := (List.range 28).find? fun p => (s.podAt (28 * die + p)).phys == bits a 38 5
    match pod? with
    | some p =>
      let n := (28 * die + p) * 4 + bits a 36 2
      if (s.coreAt n).holds s.ctx.bind.lslot then .ok (.here n) else .bad cPERM a 4
    | none => .bad cPERM a 4
  else if s.members.contains (bits a 46 8) then .ok (.there (bits a 46 8))
  else .bad cPERM a 4

/-! ## Translation (R132 to R137) -/

/-- What Translate answers (R134). -/
inductive XRes
  | ok (tgt : BitVec 3) (modId pa : Nat) (nc : Bool)
  | xlate (reason lvl : Nat)
  | perm (reason : Nat)
  deriving DecidableEq, Repr

/-- Table sizes of R132. -/
def tableSize : Nat → Nat
  | 3 => 2 ^ 20
  | 2 => 4096
  | 1 => 4096
  | _ => 256

/-- Index bits of R132. -/
def tableIndex (va : Word64) : Nat → Nat
  | 3 => bits va 39 17
  | 2 => bits va 30 9
  | 1 => bits va 21 9
  | _ => bits va 16 5

/-- Leaf page sizes of R132. -/
def pageSize : Nat → Nat
  | 2 => 2 ^ 30
  | 1 => 2 ^ 21
  | _ => 2 ^ 16

/-- The judgement of a leaf entry (R134). -/
def leafResult (e va : Word64) (kind : AccKind) (lvl : Nat) : XRes :=
  let tgt : BitVec 3 := e.extractLsb' 59 3
  let size := pageSize lvl
  let pa := bits e 0 40 * 2 ^ 16 + va.toNat % size
  if bits e 48 3 ≠ 0 ∨ bits e 40 5 ≠ 0 ∨ tgt = 7 ∨ (tgt ≠ 1 ∧ bits e 51 8 ≠ 0) ∨ 143 < bits e 51 8 then
    .xlate 2 lvl
  else if bits e 0 40 * 2 ^ 16 % size ≠ 0 then .xlate 3 lvl
  else if kind = .write ∧ !e.getLsbD 47 then .perm 1
  else if kind = .atomic ∧ !(e.getLsbD 46 && e.getLsbD 47) then .perm 2
  else if (tgt = 0 ∧ hbmSize ≤ pa) ∨ (tgt = 6 ∧ 2 ^ 24 ≤ pa) then .perm 9
  else .ok tgt (bits e 51 8) pa (e.getLsbD 45)

/-- The walk of R134 from a level's table down; it also gives the leaf entry and its page size. -/
def walk (hbm : Memory) (va : Word64) (kind : AccKind) : Nat → Nat → XRes × Word64 × Nat
  | 0, base =>
    if hbmSize < base + tableSize 0 then (.xlate 6 0, 0, 0)
    else
      let e := read64 hbm (base + 8 * tableIndex va 0)
      if !e.getLsbD 63 then (.xlate 1 0, 0, 0)
      else if !e.getLsbD 62 then (.xlate 4 0, 0, 0)
      else (leafResult e va kind 0, e, pageSize 0)
  | l + 1, base =>
    if hbmSize < base + tableSize (l + 1) then (.xlate 6 (l + 1), 0, 0)
    else
      let e := read64 hbm (base + 8 * tableIndex va (l + 1))
      if !e.getLsbD 63 then (.xlate 1 (l + 1), 0, 0)
      else if !e.getLsbD 62 then
        if bits e 48 14 ≠ 0 then (.xlate 2 (l + 1), 0, 0)
        else walk hbm va kind l (bits e 0 48 * 256)
      else if l = 2 then (.xlate 4 3, 0, 0)
      else (leafResult e va kind (l + 1), e, pageSize (l + 1))

/-- Translate of R134 from a root, without a cache. -/
def translateFrom (hbm : Memory) (ptroot va : Word64) (kind : AccKind) : XRes × Word64 × Nat :=
  if bits va 56 8 ≠ 0 then (.xlate 5 0, 0, 0)
  else walk hbm va kind 3 (bits ptroot 8 48 * 256)

/-! ## Register spaces in memory (R126) -/

/-- Whether a context's registers live in its core: it is bound, and neither IDLE, PREEMPTED nor HALTED. -/
def Ctx.live (c : Ctx) : Bool :=
  match c.state with
  | .ready | .running | .waiting => true
  | _ => false

/-- The register spaces of live contexts that lie in local HBM: core, context, physical address. -/
def State.regSpaces (s : State) : List (Nat × CtxNo × Nat) :=
  s.allContexts.filterMap fun (n, c) =>
    let x := s.ctxOf n c
    if x.live then
      match (translateFrom s.hbm (s.lslot x.bind.lslot).info.ptroot x.ctrl.rsb .read).1 with
      | .ok tgt modId pa _ =>
        if tgt = 0 ∨ (tgt = 1 ∧ modId = Config.rackPosition.val) then some (n, c, pa) else none
      | _ => none
    else none

/-- Whether a range meets a register space. -/
def meetsSpace (pa len sp : Nat) : Bool := sp < pa + len && pa < sp + 0x8000

/-- Registers whose values are unpredictable: the free values of the step, but for what is fixed. -/
def Regs.scrambled (f : Nat → Word32) : Regs where
  s := (⟨⟨(List.range 64).map fun i => f (2 * i) ++ f (2 * i + 1)⟩, by simp⟩ : Vector Word64 64).set 0 0
  p := (⟨⟨(List.range 16).map fun i => (f (128 + i)).getLsbD 0⟩, by simp⟩ : Vector Bool 16).set 0 true
  v := ⟨⟨(List.range 32).map fun r => lanes fun i => f (1000 + 128 * r + i)⟩, by simp⟩
  q := (⟨⟨(List.range 8).map fun r => BitVec.ofNat 128
      (packNat 32 ((List.range 4).map fun i => (f (200 + 4 * r + i)).toNat))⟩, by simp⟩ :
      Vector (BitVec 128) 8).set 0 (BitVec.allOnes 128)
  x := ⟨⟨(List.range 16).map fun r => BitVec.ofNat 256
      (packNat 32 ((List.range 8).map fun i => (f (300 + 8 * r + i)).toNat))⟩, by simp⟩
  lc := ⟨⟨(List.range 4).map fun i => f (150 + i)⟩, by simp⟩
  m := ⟨⟨(List.range 8).map fun i => f (160 + 2 * i) ++ f (161 + 2 * i)⟩, by simp⟩

/-- A global write into the register space of a live context makes its register values unpredictable: those at hand at
once, and those of lines that are not resident as they come. -/
def State.scramble (s : State) (pa len : Nat) : State :=
  (s.regSpaces.filter fun (_, _, sp) => meetsSpace pa len sp).foldl
    (fun t (n, c, _) => t.modCtxOf n c fun x =>
      { x with
        regs := Regs.scrambled fun i => s.freeWord (10000 * (4 * n + c.val + 1) + i)
        dirty := x.dirty ||| x.resident
        spoiled := x.spoiled ||| ~~~x.resident }) s

/-- The 32-byte units of HBM that a range touches. -/
def hbmUnits (pa len : Nat) : List Nat :=
  (List.range ((pa % 32 + len + 31) / 32)).map (pa / 32 + ·)

/-- Whether a range of HBM holds an uncorrectable error (R23). -/
def State.hbmBad (s : State) (pa len : Nat) : Bool := (hbmUnits pa len).any s.badHbm.contains

/-- A write to one line of 128 bytes at memory (R23): a store smaller than the line, merged into a line that holds an
uncorrectable error, is not performed; a full-line write clears the error. The Bool says whether it
was performed. -/
def State.storeLine128 (s : State) (pa : Nat) (data : List Byte) : State × Bool :=
  if !s.hbmBad (pa / 128 * 128) 128 then ((s.scramble pa data.length).writeHbm pa data, true)
  else if pa % 128 = 0 ∧ data.length = 128 then
    (({ s with badHbm := s.badHbm.filter fun u => u / 4 != pa / 128 }.scramble pa 128).writeHbm pa data,
      true)
  else (s, false)

/-- Bytes cut where lines of 128 bytes end: each piece's address and bytes. -/
def lineCut (pa : Nat) (data : List Byte) : List (Nat × List Byte) :=
  (List.range ((pa % 128 + data.length + 127) / 128)).map fun i =>
    let lo := max pa (pa / 128 * 128 + 128 * i)
    (lo, (data.drop (lo - pa)).take (pa / 128 * 128 + 128 * (i + 1) - lo))

/-- A write to HBM at memory, line by line where one of its lines holds an error. The Bool says whether every line took
its part. -/
def State.storeHbm (s : State) (pa : Nat) (data : List Byte) : State × Bool :=
  if !s.hbmBad (pa / 128 * 128) ((pa % 128 + data.length + 127) / 128 * 128) then
    ((s.scramble pa data.length).writeHbm pa data, true)
  else (lineCut pa data).foldl
    (fun (r : State × Bool) (a, d) => let (t, ok) := r.1.storeLine128 a d; (t, r.2 && ok)) (s, true)

/-- A write to a die buffer, whose words are corrected each for itself (R22, R23): a store of a part of a word that
holds an uncorrectable error is not performed; a whole word that is replaced loses its error. The Bool says whether it
was performed. -/
def State.storeDie (s : State) (die off : Nat) (data : List Byte) : State × Bool :=
  let a := 2 ^ 24 * die + off
  let n := data.length
  let whole : Nat → Bool := fun w => a ≤ 4 * w && 4 * w + 4 ≤ a + n
  if s.badDie.any fun w => a < 4 * w + 4 && 4 * w < a + n && !whole w then (s, false)
  else ({ s with badDie := s.badDie.filter fun w => !whole w }.writeDie die off data, true)

/-- Whether a byte of HBM lies in a save slot that holds a core image (R113): how an image is laid out is open. -/
def State.inImage (s : State) (pa : Nat) : Bool :=
  let base := bits s.hub.psaveb 0 56
  s.hub.saved.any fun i => base + 2 ^ 21 * i.slot ≤ pa && pa < base + 2 ^ 21 * (i.slot + 1)

/-- Bytes of local HBM as an access through an address space has them: a byte of a live register space or of a saved
core image is unpredictable. -/
def State.seenAs (s : State) (pa : Nat) (data : List Byte) : List Byte :=
  let sps := (s.regSpaces.map fun (_, _, sp) => sp).filter (meetsSpace pa data.length)
  if sps.isEmpty && s.hub.saved.isEmpty then data
  else data.mapIdx fun i b =>
    if sps.any (meetsSpace (pa + i) 1) || s.inImage (pa + i) then (s.freeWord (2 ^ 60 + pa + i)).setWidth 8 else b

/-- Bytes of HBM as an access through an address space reads them. -/
def State.readHbm (s : State) (pa n : Nat) : List Byte := s.seenAs pa (readBytes s.hbm pa n)

/-! ## Translation caches (R135) -/

/-- A cached translation that covers an address (R135). -/
def Xlat.covers (x : Xlat) (slot : Nat) (va : Word64) : Bool :=
  x.lslot == slot && x.va ≤ va.toNat && va.toNat < x.va + x.size

/-- Translate with a translation cache: where a cached entry and the tables differ, either may be
used until an invalidation (R135). -/
def State.translateWith (s : State) (cache : List Xlat) (slot : Nat) (va : Word64) (kind : AccKind) :
    XRes :=
  let fresh := (translateFrom s.hbm (s.lslot slot).info.ptroot va kind).1
  if bits va 56 8 ≠ 0 then fresh
  else match cache.find? (·.covers slot va) with
    | none => fresh
    | some x =>
      let lvl := if x.size = 2 ^ 30 then 2 else if x.size = 2 ^ 21 then 1 else 0
      let old := leafResult x.entry va kind lvl
      if old = fresh then old
      else if Config.inFlight s.free s.fr.syl 7 0 0 then fresh else old

/-- Translate for the issuing context, through its pod's cache or, on path F, the hub's. -/
def State.translate (s : State) (va : Word64) (kind : AccKind) : XRes :=
  s.translateWith (if s.fr.pathF then s.hub.xlat else s.pod.xlat) s.ctx.bind.lslot va kind

/-- A cache takes a leaf translation; it holds at most 4,096 (R135). With all of them in use the oldest leaves (DESIGN
CHOICE, log entry 116: the specification names no replacement). -/
def cacheLeaf (cache : List Xlat) (x : Xlat) (va : Word64) : List Xlat :=
  if cache.any (·.covers x.lslot va) then cache
  else
    let more := cache ++ [x]
    more.drop (more.length - 4096)

/-- A walk that succeeds installs its leaf translation in the pod's cache (R135). -/
def State.installXlat (s : State) (slot : Nat) (va : Word64) (kind : AccKind) : State :=
  match translateFrom s.hbm (s.lslot slot).info.ptroot va kind with
  | (.ok _ _ _ _, e, size) =>
    s.modPod (podOf s.coreIx) fun p => { p with xlat := cacheLeaf p.xlat ⟨slot, va.toNat / size * size, size, e⟩ va }
  | _ => s

/-- The same for the hub's cache, which serves path F. -/
def State.installHubXlat (s : State) (slot : Nat) (va : Word64) (kind : AccKind) : State :=
  match translateFrom s.hbm (s.lslot slot).info.ptroot va kind with
  | (.ok _ _ _ _, e, size) =>
    s.modHub fun h => { h with xlat := cacheLeaf h.xlat ⟨slot, va.toNat / size * size, size, e⟩ va }
  | _ => s

/-- DETAIL of XLATE and PERM (R137), with FETCH in bit 31. -/
def XRes.detail (fetch : Bool) : XRes → BitVec 32
  | .xlate r l => BitVec.ofNat 32 (r + l * 256 + fetch.toNat * 2 ^ 31)
  | .perm r => BitVec.ofNat 32 (r + fetch.toNat * 2 ^ 31)
  | .ok _ _ _ _ => 0

/-- A translation as a check: XLATE or PERM with the address (R137). -/
def State.translateJudged (s : State) (va : Word64) (kind : AccKind) :
    Judged (BitVec 3 × Nat × Nat × Bool) :=
  match s.translate va kind with
  | .ok t m p n => .ok (t, m, p, n)
  | .xlate r l => .bad cXLATE va (XRes.detail false (.xlate r l))
  | .perm r => .bad cPERM va (XRes.detail false (.perm r))

/-! ## Requests (R28, R34, R154) -/

/-- The plane of a global address: the entry of the active list that R28 names. -/
def Fabric.planeOf (f : Fabric) (addr : Nat) : Nat :=
  f.planes.getD (addr / 256 % f.planes.length) 0

/-- The tags of requests that are out, to other modules or to pool and host memory. -/
def Fabric.tagsOut (f : Fabric) (io : Bool) : List Nat :=
  (f.reqs.filter fun r => r.io == io && r.sent).map fun r => r.tag.toNat

/-- The lowest free tag of 4,096, if there is one. -/
def Fabric.freeTag (f : Fabric) (io : Bool) : Option Nat :=
  let used := f.tagsOut io
  if 4096 ≤ used.length then none else (List.range (used.length + 1)).find? fun t => !used.contains t

/-- Whose request it is: core and context, for those of a context. -/
def ReqFor.owner : ReqFor → Option (Nat × CtxNo)
  | .load n c _ => some (n, c)
  | .store n c => some (n, c)
  | .peerStore n c => some (n, c)
  | .atomic n c _ _ _ => some (n, c)
  | .writeback _ _ | .waitWord _ _ | .signal => none

/-- Whether a request is a PST. -/
def Request.isPst (r : Request) : Bool :=
  match r.who with
  | .peerStore _ _ => true
  | _ => false

/-- Whether two PSTs may be to one core of another module: two physical windows say which core they name, and a logical
address does not. -/
def Request.mayShareCore (r q : Request) : Bool :=
  r.isPst && q.isPst && r.modId == q.modId
    && (!(r.addr.testBit 55 && q.addr.testBit 55) || r.addr / 2 ^ 20 == q.addr / 2 ^ 20)

/-- Whether a request waits for an earlier one of its context: to the same 64-byte line of pool or host memory (R154), or
a PST for an earlier PST that may be to the same core, since the two may go on different planes (R140, R345). -/
def Request.waitsFor (r q : Request) : Bool :=
  decide (q.num < r.num) && r.who.owner == q.who.owner
    && ((r.io && q.io && r.tgt == q.tgt && r.addr / 64 == q.addr / 64)
      || r.mayShareCore q)

/-- A request goes out: to another module, on a plane if one is left. -/
def State.sendOut (s : State) (r : Request) : State :=
  if !r.io && s.fabric.planes.isEmpty then s else s.emit (.request r)

/-- The first of a list that is equal to a request is replaced. -/
def setRequest (old new : Request) : List Request → List Request
  | [] => []
  | q :: qs => if q = old then new :: qs else q :: setRequest old new qs

/-- Requests that may go out do, in order, each with a tag of its own. -/
def State.pump (s : State) : State :=
  (s.fabric.reqs.filter fun r => !r.sent).foldl
    (fun s r =>
      match s.fabric.freeTag r.io with
      | none => s
      | some t =>
        if s.fabric.reqs.any r.waitsFor then s
        else
          let r' := { r with
            sent := true, tag := BitVec.ofNat 12 t, plane := s.fabric.planeOf r.addr }
          (s.modFabric fun f =>
            { f with reqs := setRequest r r' f.reqs }).sendOut r')
    s

/-- A request joins the outstanding ones. -/
def State.ask (s : State) (tgt : BitVec 3) (modId addr va : Nat) (kind : ReqKind) (who : ReqFor)
    (num : Nat) : State :=
  (s.modFabric fun f =>
    { f with reqs := f.reqs ++ [⟨tgt != 1, false, 0, 0, tgt, modId, addr, va, kind, who, num, false⟩] }).pump

/-! ## Homes (R139) -/

/-- Whether a target is this module's HBM. -/
def localHbm (tgt : BitVec 3) (modId : Nat) : Bool :=
  tgt == 0 || (tgt == 1 && modId == Config.rackPosition.val)

/-- A read at the home of a physical address, as an engine or the launch unit makes it; `place` tells
apart the free values of memory outside the module. -/
def State.homeRead (s : State) (die : Nat) (tgt : BitVec 3) (modId pa n place : Nat) :
    List Byte × Reply :=
  if localHbm tgt modId then
    if hbmSize < pa + n then ((List.range n).map fun _ => 0, .refused)
    else (s.readHbm pa n, if s.hbmBad pa n then .uncorrectable else .ok)
  else if tgt = 6 then
    (readBytes s.dieBuf (2 ^ 24 * die + pa) n,
      if (List.range n).any fun i => s.badDie.contains ((2 ^ 24 * die + pa + i) / 4)
      then .uncorrectable else .ok)
  else ((List.range n).map fun i => Config.extByte s.free (place + i), Config.extReply s.free place)

/-- A write at the home of a physical address, with its outcome. -/
def State.homeWrite (s : State) (die : Nat) (tgt : BitVec 3) (modId pa place : Nat)
    (data : List Byte) : State × Reply :=
  if localHbm tgt modId then
    if hbmSize < pa + data.length then (s, .refused)
    else
      let (s', ok) := s.storeHbm pa data
      (s', if ok then .ok else .uncorrectable)
  else if tgt = 6 then
    let (s', ok) := s.storeDie die pa data
    (s', if ok then .ok else .uncorrectable)
  else
    ((s.modFabric fun f => { f with next := f.next + 1 }).ask tgt modId pa 0 (.write data) .signal s.fabric.next,
      Config.extReply s.free place)

/-- The base of the gang node's instance: its code section (R75). -/
def State.instBase (s : State) : Word64 :=
  s.launch.info.instArea + BitVec.ofNat 64 (s.ctx.bind.gang * s.launch.info.instSize)

/-! ## Form M (R259, R339) -/

/-- W of R339: the bytes of a scalar access. -/
def scalarWidth (ty : Ty) : Nat :=
  match ty with
  | .i8 | .n8 | .e4m3 | .e5m2 => 1
  | .i16 | .n16 | .bf16 | .f16 => 2
  | .i32 | .n32 | .f32 => 4
  | .i64 | .n64 => 8
  | .e3m2 | .e2m3 | .e2m1 => 1

/-- W of R339: the bytes of one lane. -/
def laneWidth (ty : Ty) : Nat :=
  match ty with
  | .i8 | .n8 => 1
  | .i16 | .n16 => 2
  | .i64 | .n64 => 8
  | _ => 4

/-- The effective address of R339. -/
def State.ea (s : State) (m : MAddr) (w : Nat) : Word64 :=
  s.rdS m.a +
    match m.ext with
    | none => m.disp.signExtend 64 * BitVec.ofNat 64 w
    | some e => e.signExtend 64

/-- log2 of an access size, as ALIGN reports it (R221). -/
def log2Size : Nat → BitVec 32
  | 1 => 0
  | 2 => 1
  | 4 => 2
  | 8 => 3
  | 16 => 4
  | 64 => 6
  | _ => 0

/-- Extend of R340: sign for .i types, zero otherwise. -/
def extendTo (ty : Ty) (n w v : Nat) : Nat :=
  if ty.isSigned ∧ v.testBit (8 * w - 1) then v + 2 ^ n - 2 ^ (8 * w) else v

/-- The active lanes of a group mask and a lane predicate (R262). -/
def State.activeLanes (s : State) (gm : BitVec 8) (q : BitVec 3) : BitVec 128 :=
  let g : BitVec 128 := BitVec.ofNat 128
    (packNat 16 ((List.range 8).map fun i => if gm.getLsbD i then 0xFFFF else 0))
  g &&& s.rdQ (q.setWidth 6)

/-- The positions of the lanes set in a mask, ascending. -/
def activeList (m : BitVec 128) : List Nat := (List.range 128).filter (m.getLsbD ·)

/-- The address of each lane (R339). -/
def State.laneAddr (s : State) (ea : Word64) (ofs : Ofs) (w : Nat) : Nat → Word64 :=
  match ofs with
  | .none => fun p => ea + BitVec.ofNat 64 (w * p)
  | .pair _ => fun p => ea + BitVec.ofNat 64 (w * p)
  | .vec b =>
    let v := s.rdV b
    fun p => ea + (lane v p).setWidth 64
  | .index b =>
    let x := s.rdX b
    fun p => ea + (x.extractLsb' (32 * (p % 8)) 32).setWidth 64

end Sys2Proof.Machine
end

