-- ==== Sys2Proof/Machine/Link.lean ====
section
/-!
DEFINITION. The links of the fabric ports: planes and virtual channels (R28, R31), flits and their checks (R30), what
a link has sent and not yet seen acknowledged (R29, R30), and stop/go flow control (R32).
-/

namespace Sys2Proof.Machine

/-! ## Flits (R30) -/

/-- Bytes 0 to 247, the least significant byte of a field first; `rsv` are the reserved bits, bits 1:0 of byte 0 and the
four above TAG, which a sender leaves 0 (log entry 101). -/
def Flit.body (f : Flit) (rsv : Nat) : List Byte :=
  natToBytes 1 (f.kind.toNat * 16 + f.vc.toNat * 4 + rsv % 4) ++ natToBytes 1 f.plen ++ natToBytes 2 f.src
    ++ natToBytes 2 f.dst ++ natToBytes 2 (f.tag.toNat + rsv / 4 % 16 * 4096) ++ natToBytes 8 f.addr.toNat
    ++ (f.payload ++ List.replicate 224 0).take 224 ++ natToBytes 4 f.seq.toNat
    ++ natToBytes 4 (f.ack.toNat * 16 + f.stop.toNat)

/-- One bit of the CRC register with the ECMA-182 polynomial, most significant bit first (log entry 101). -/
def crcShift (c : Word64) : Word64 := if c.getLsbD 63 then (c <<< 1) ^^^ 0x42F0E1EBA9EA3693 else c <<< 1

/-- CRC-64 of some bytes. -/
def crc64 (bs : List Byte) : Word64 :=
  bs.foldl (fun (c : Word64) (b : Byte) =>
    (List.range 8).foldl (fun c _ => crcShift c) (c ^^^ ((b.setWidth 64 : Word64) <<< 56))) 0

/-- The flit as it stands on the link. -/
def Flit.bytes (f : Flit) (rsv : Nat) : List Byte := f.body rsv ++ natToBytes 8 (crc64 (f.body rsv)).toNat

/-- Whether a receiver takes 256 bytes as a flit: their CRC holds, and no reserved bit or code is set. -/
def flitAccepted (b : List Byte) : Bool :=
  b.length == 256 && fieldNat b 248 8 == (crc64 (b.take 248)).toNat
    && fieldNat b 0 1 % 4 == 0 && decide (fieldNat b 0 1 / 16 ≤ 6) && decide (fieldNat b 6 2 < 4096)

/-! ## Planes and virtual channels (R28, R31) -/

/-- The plane of a byte offset within a chunk operation: the entry of the active list that R28 names. -/
def Fabric.planeAt (f : Fabric) (off : Nat) : Option Nat := f.planes[off / 224 % f.planes.length]?

/-- Whether a message leaves through a fabric port: pool and host accesses, completion codes and SPDM responses do
not. -/
def Out.onFabric : Out → Bool
  | .request r => !r.io
  | .mctp _ | .spdm _ _ => false
  | .response _ _ _ _ | .collective _ _ _ _ _ | .reduction _ _ _ | .control _ | .replay _ _ => true

/-- The port by which a message leaves, none when no plane is left. A response, which R28 does not name, takes the
entry of its tag (log entry 100). -/
def Fabric.portOf (f : Fabric) : Out → Option Nat
  | .request r => if f.planes.contains r.plane then some r.plane else none
  | .response _ tag _ _ => f.planes[tag.toNat % f.planes.length]?
  | .collective _ _ _ off _ | .reduction _ off _ => f.planeAt off
  | .control _ => f.planes.head?
  | .replay port _ => some port
  | .mctp _ | .spdm _ _ => none

/-- The virtual channel of a message. Control flits have none of the four, and no STOP bit holds them (log entry
100). -/
def Out.vc : Out → Option (Fin 4)
  | .request _ => some 0
  | .response _ _ _ _ => some 1
  | .collective _ _ _ _ _ => some 2
  | .reduction _ _ _ => some 3
  | .control _ | .replay _ _ | .mctp _ | .spdm _ _ => none

/-- Data of a chunk operation cut into flits of 224 bytes, each with its offset (R28, R30). -/
def cutFlits (data : List Byte) : List (Nat × List Byte) :=
  (List.range ((data.length + 223) / 224)).map fun i => (224 * i, (data.drop (224 * i)).take 224)

/-- The number of an atomic operation. -/
def atomNumber : AtomOp → Nat
  | .add => 0 | .min => 1 | .max => 2 | .and => 3 | .or => 4 | .xor => 5 | .swap => 6 | .cas => 7

/-- The number of how a response says that its request ended. -/
def replyNumber : Reply → Nat
  | .ok => 0 | .refused => 1 | .dead => 2 | .timeout => 3 | .poolError => 4 | .uncorrectable => 5

/-- The payload of a request: R30 gives no place for a read's length nor for an atomic's operation and operands (log
entry 101). -/
def ReqKind.payload : ReqKind → List Byte
  | .read len => natToBytes 2 len
  | .write data => data
  | .atomic op ty operand cmp =>
    natToBytes 1 (atomNumber op) ++ natToBytes 1 (scalarWidth ty) ++ natToBytes 8 operand.toNat ++ natToBytes 8 cmp.toNat

/-- The payload of a message; that of a control flit is not given. -/
def Out.payload : Out → List Byte
  | .request r => r.kind.payload
  | .response _ _ _ data | .collective _ _ _ _ data | .reduction _ _ data => data
  | .control _ | .replay _ _ | .mctp _ | .spdm _ _ => []

/-- A message cut into its flits: the offset and the payload of each. -/
def Out.pieces (o : Out) : List (Nat × List Byte) := if o.payload.isEmpty then [(0, [])] else cutFlits o.payload

/-- How many flits a message takes. -/
def Out.flits (o : Out) : Nat := o.pieces.length

/-- TYPE of a request. -/
def ReqKind.type : ReqKind → BitVec 4
  | .read _ => 0
  | .write _ => 1
  | .atomic _ _ _ _ => 2

/-- TYPE, DST, TAG and, at an offset, ADDR of a message's flits (R30). The switch has no number in the specification:
0xFFFF stands for it. A response says in ADDR how its request ended, and a chunk operation's flits carry the print's
sequence and the operation (log entry 101). -/
def Out.head (off : Nat) : Out → BitVec 4 × Nat × BitVec 12 × Word64
  | .request r => (r.kind.type, r.modId, r.tag, BitVec.ofNat 64 (match r.kind with
    | .write _ => r.addr + off
    | .read _ | .atomic _ _ _ _ => r.addr))
  | .response dst tag r _ => (3, dst, tag, BitVec.ofNat 64 (replyNumber r))
  | .collective dst seq op _ _ => (4, dst, 0, BitVec.ofNat 64 (seq.toNat * 2 ^ 32 + op % 256))
  | .reduction r _ _ => (5, 0xFFFF, 0, BitVec.ofNat 64 (r.seq.toNat * 2 ^ 32 + r.op % 256))
  | .control _ | .replay _ _ | .mctp _ | .spdm _ _ => (6, 0xFFFF, 0, 0)

/-- The flits of a message as a link sends them now: their sequence numbers go on from its last, and they acknowledge
what has come and carry its STOP bits. -/
def Link.flitsOf (l : Link) (o : Out) : List Flit :=
  o.pieces.mapIdx fun i (off, d) =>
    let (kind, dst, tag, addr) := o.head off
    ⟨kind, (o.vc.map fun v => BitVec.ofNat 2 v.val).getD 0, d.length, Config.rackPosition.val, dst, tag, addr, d,
      l.next + BitVec.ofNat 32 i, l.got.setWidth 28, l.stopping⟩

/-! ## Sending (R30 to R32) -/

/-- A port's link, and changing it. -/
def Fabric.link (f : Fabric) (port : Nat) : Link := f.links.toList.getD port Link.reset
def State.modLink (s : State) (port : Nat) (g : Link → Link) : State :=
  s.modFabric fun f => { f with links := f.links.setIfInBounds port (g (f.link port)) }

/-- Whether a link takes a message: its channel is not stopped, and the replay buffer of 512 flits has room. -/
def Link.takes (l : Link) (o : Out) : Bool :=
  (o.vc.all fun v => !l.stopped.getLsbD v.val) && decide ((l.replay.map fun x => x.2.length).sum + o.flits ≤ 512)

/-- A message goes on the link, and its flits stay in the replay buffer. -/
def Link.send (l : Link) (o : Out) : Link :=
  { l with next := l.next + BitVec.ofNat 32 o.flits, replay := l.replay ++ [(o, l.flitsOf o)] }

/-- Whether two messages share a port and a channel, so that they keep their order. -/
def Fabric.sameWay (f : Fabric) (a b : Out) : Bool := f.portOf a == f.portOf b && a.vc == b.vc

/-- The messages that the ports may send go out; the others keep waiting, in order. -/
def State.transmit (s : State) : State :=
  s.fabric.out.foldl
    (fun s o =>
      let keep := s.modFabric fun f => { f with out := f.out ++ [o] }
      if !o.onFabric then s
      else match s.fabric.portOf o with
        | none => keep
        | some p =>
          if (s.fabric.out.any fun w => s.fabric.sameWay w o) || !(s.fabric.link p).takes o then keep
          else s.modLink p (·.send o))
    (s.modFabric fun f => { f with out := [] })

/-! ## Receiving (R29, R30, R32) -/

/-- Some flits enter a channel's receive buffer of 128, which sets its STOP bit at 96. -/
def Link.fill (l : Link) (v : Fin 4) (k : Nat) : Link :=
  let n := min 128 (l.held.get v + k)
  { l with
    held := l.held.set v.val n v.isLt
    stopping := if 96 ≤ n then l.stopping ||| ((1 : BitVec 4) <<< v.val) else l.stopping }

/-- Some flits leave a channel's receive buffer, which clears its STOP bit at 64. -/
def Link.empty (l : Link) (v : Fin 4) (k : Nat) : Link :=
  let n := l.held.get v - k
  { l with
    held := l.held.set v.val n v.isLt
    stopping := if n ≤ 64 then l.stopping &&& ~~~((1 : BitVec 4) <<< v.val) else l.stopping }

/-- What the far end puts into a flit that arrives, as a free value: its port, its acknowledgement and its STOP bits. -/
def State.farWord (s : State) : Nat := (s.freeWord 960).toNat

/-- The port by which a flit arrives. -/
def State.arrivalPort (s : State) : Nat := s.fabric.planes.getD (s.farWord / 2 ^ 16 % s.fabric.planes.length) 0

/-- What a message that comes by a fabric port carries: TYPE, channel, SRC, TAG, ADDR and payload (R30, R31). -/
structure Arrival where
  kind : BitVec 4
  vc : Option (Fin 4)
  src : Nat
  tag : BitVec 12
  addr : Nat
  data : List Byte
  deriving DecidableEq, Repr

/-- The flits of a message that arrives, the next in order on its port: their ACK and STOP are the far end's. -/
def State.flitsIn (s : State) (a : Arrival) : List Flit :=
  (if a.data.isEmpty then [(0, [])] else cutFlits a.data).mapIdx fun i (off, d) =>
    ⟨a.kind, (a.vc.map fun v => BitVec.ofNat 2 v.val).getD 0, d.length, a.src, Config.rackPosition.val, a.tag,
      BitVec.ofNat 64 (if a.kind = 1 then a.addr + off else a.addr), d,
      (s.fabric.link s.arrivalPort).got + 1 + BitVec.ofNat 32 i, BitVec.ofNat 28 (s.farWord / 16),
      BitVec.ofNat 4 s.farWord⟩

/-- Whether the receiver takes every flit of a message: whether their reserved bits are zero is the far end's. -/
def State.takesFlits (s : State) (a : Arrival) : Bool :=
  (s.flitsIn a).zipIdx.all fun (f, i) => flitAccepted (f.bytes (s.freeWord (2 ^ 64 + i)).toNat)

/-- The flits of a message arrive by a port in order, with the STOP bits and the acknowledgement they carry: how many
messages they acknowledge, and by which port they come, are the far end's. -/
def State.flitArrives (s : State) (a : Arrival) : State :=
  let n := (s.flitsIn a).length
  s.modLink s.arrivalPort fun l =>
    let l := { l with
      replay := l.replay.drop (s.farWord / 16 % (l.replay.length + 1)), stopped := BitVec.ofNat 4 s.farWord
      got := l.got + BitVec.ofNat 32 n, gap := false }
    match a.vc with
    | some v => l.fill v n
    | none => l

/-- A flit is dropped: ACK stops there, and the sender has to replay from it (R30). -/
def State.dropFlit (s : State) (port : Nat) (vc : BitVec 2) : State :=
  ((s.modFabric fun f => { f with dropped := f.dropped + 1 }).modLink port fun l => { l with gap := true }).emit
    (.replay port vc)

/-- The receive buffers of one port empty by some flits of each channel. -/
def State.drainLink (s : State) : State :=
  let word := s.freeWord 961
  s.modLink (word.toNat % 18) fun l =>
    ([0, 1, 2, 3] : List (Fin 4)).foldl (fun l v => l.empty v (word.toNat / 2 ^ (8 * v.val + 5) % 8)) l

/-- What the links do in a step. -/
def State.linkStep (s : State) : State := s.transmit.drainLink

end Sys2Proof.Machine
end

