-- ==== Sys2Proof/Decode.lean ====
section
/-!
DEFINITION. From syllables to instructions and back (12_isa_encoding.md R256 to R263, the opcode
maps R285 to R291, the operand fields of R292, R315, R331, R338, R350, R353, R359). Decoding is
total: a syllable gives its instruction, or is refused as ILLOP or RSVD by R266. The encoder is
written from the same tables.
-/

namespace Sys2Proof

/-! ## The fields of a syllable (R256, R259) -/

/-- Bit `n` of a word. -/
def bitAt (w : Word64) (n : Nat) : Bool := w.getLsbD n

def fStop (w : Word64) : Bool := bitAt w 63
def fSlot (w : Word64) : BitVec 4 := w.extractLsb' 59 4
def fGn (w : Word64) : Bool := bitAt w 58
def fGp (w : Word64) : BitVec 4 := w.extractLsb' 54 4
def fOpc (w : Word64) : BitVec 10 := w.extractLsb' 44 10
def fD (w : Word64) : Reg := w.extractLsb' 38 6
def fA (w : Word64) : Reg := w.extractLsb' 32 6
def fB (w : Word64) : Reg := w.extractLsb' 26 6
def fC (w : Word64) : Reg := w.extractLsb' 20 6
/-- MODH [19:8] of forms R and L. -/
def fModh (w : Word64) : BitVec 12 := w.extractLsb' 8 12
def fTy (w : Word64) : BitVec 4 := w.extractLsb' 4 4
/-- MODL [3:0] of forms R and L; RM and BS of form V; ORD and OFS of form M. -/
def fModl (w : Word64) : BitVec 4 := w.extractLsb' 0 4
def fImm (w : Word64) : BitVec 32 := w.extractLsb' 0 32
def fGm (w : Word64) : BitVec 8 := w.extractLsb' 12 8
def fQ (w : Word64) : BitVec 3 := w.extractLsb' 9 3
/-- CH of form V, VEC of form M. -/
def fCh (w : Word64) : Bool := bitAt w 8
def fRm (w : Word64) : BitVec 3 := w.extractLsb' 1 3
def fBs (w : Word64) : Bool := bitAt w 0
def fOrd (w : Word64) : BitVec 2 := w.extractLsb' 2 2
def fOfs (w : Word64) : BitVec 2 := w.extractLsb' 0 2

/-! ## Codes of operand types -/

/-- The type a TY code names (R260). -/
def Ty.ofCode (c : BitVec 4) : Ty :=
  match c.toNat with
  | 0 => .i8 | 1 => .i16 | 2 => .i32 | 3 => .i64 | 4 => .n8 | 5 => .n16 | 6 => .n32 | 7 => .n64
  | 8 => .f32 | 9 => .bf16 | 10 => .f16 | 11 => .e4m3 | 12 => .e5m2 | 13 => .e3m2 | 14 => .e2m3
  | _ => .e2m1

/-- The code of a rounding mode (R242). -/
def Rm.code : Rm → BitVec 3
  | .rne => 0 | .rtz => 1 | .rup => 2 | .rdn => 3 | .sr => 4

/-- The rounding mode of a code; 101 to 111 are reserved (R242). -/
def Rm.ofCode (c : BitVec 3) : Option Rm :=
  match c.toNat with
  | 0 => some .rne | 1 => some .rtz | 2 => some .rup | 3 => some .rdn | 4 => some .sr | _ => none

def Cond.code : Cond → BitVec 3
  | .eq => 0 | .ne => 1 | .lt => 2 | .ge => 3 | .ltu => 4 | .geu => 5 | .le => 6 | .leu => 7

def Cond.ofCode (c : BitVec 3) : Cond :=
  match c.toNat with
  | 0 => .eq | 1 => .ne | 2 => .lt | 3 => .ge | 4 => .ltu | 5 => .geu | 6 => .le | _ => .leu

def FCond.code : FCond → BitVec 3
  | .eq => 0 | .ne => 1 | .lt => 2 | .ge => 3 | .le => 4 | .gt => 5 | .uo => 6 | .or => 7

def FCond.ofCode (c : BitVec 3) : FCond :=
  match c.toNat with
  | 0 => .eq | 1 => .ne | 2 => .lt | 3 => .ge | 4 => .le | 5 => .gt | 6 => .uo | _ => .or

def Fold.code : Fold → BitVec 3
  | .add => 0 | .min => 1 | .max => 2 | .and => 3 | .or => 4 | .xor => 5

/-- OP 110 and 111 are reserved (R323). -/
def Fold.ofCode (c : BitVec 3) : Option Fold :=
  match c.toNat with
  | 0 => some .add | 1 => some .min | 2 => some .max | 3 => some .and | 4 => some .or
  | 5 => some .xor | _ => none

def LvidSel.code : LvidSel → BitVec 2
  | .coord => 0 | .rank => 1 | .size => 2 | .fan => 3

def LvidSel.ofCode (c : BitVec 2) : LvidSel :=
  match c.toNat with
  | 0 => .coord | 1 => .rank | 2 => .size | _ => .fan

def PhyidSel.code : PhyidSel → BitVec 3
  | .module => 0 | .die => 1 | .ppod => 2 | .lpod => 3 | .core => 4 | .ctx => 5 | .mep => 6
  | .win => 7

def PhyidSel.ofCode (c : BitVec 3) : PhyidSel :=
  match c.toNat with
  | 0 => .module | 1 => .die | 2 => .ppod | 3 => .lpod | 4 => .core | 5 => .ctx | 6 => .mep
  | _ => .win

def Ord.code : Ord → BitVec 2
  | .plain => 0 | .acquire => 1 | .release => 2

/-- ORD 11 is reserved (R259). -/
def Ord.ofCode (c : BitVec 2) : Option Ord :=
  match c.toNat with
  | 0 => some .plain | 1 => some .acquire | 2 => some .release | _ => none

/-- The OFS code and the B field of an offset form (R259). -/
def Ofs.code : Ofs → BitVec 2
  | .none => 0 | .vec _ => 1 | .index _ => 2 | .pair _ => 3

def Ofs.reg : Ofs → Reg
  | .none => 0 | .vec b | .index b | .pair b => b

/-- With OFS 00 field B must be 0 (R259). -/
def Ofs.ofCode (c : BitVec 2) (b : Reg) : Option Ofs :=
  match c.toNat with
  | 0 => if b = 0 then some .none else Option.none
  | 1 => some (.vec b) | 2 => some (.index b) | _ => some (.pair b)

def Engine.code : Engine → BitVec 2
  | .matrix => 0 | .copy => 1 | .fabric => 2 | .text => 3

def Engine.ofCode (c : BitVec 2) : Engine :=
  match c.toNat with
  | 0 => .matrix | 1 => .copy | 2 => .fabric | _ => .text

/-- The opcode spaces of R258. -/
inductive Space
  | s | v | f | m | x | e | c
  deriving DecidableEq, Repr

/-- The space of a slot code; none for IMM and the reserved codes (R258). -/
def slotSpace (slot : BitVec 4) : Option Space :=
  match slot.toNat with
  | 0 | 1 => some .s
  | 2 | 3 | 4 => some .v
  | 5 => some .f
  | 6 | 7 => some .m
  | 8 => some .x
  | 9 => some .e
  | 10 => some .c
  | _ => none

/-- The slot code of IMM syllables. -/
def slotImm : BitVec 4 := 11

/-- The slot code C. -/
def slotC : BitVec 4 := 10

/-! ## Decoding -/

/-- What a syllable decodes to (R266): an instruction, an unassigned opcode, or a reserved field or
value out of range. -/
inductive Decoded (α : Type)
  | ok (a : α)
  | illop
  | rsvd
  deriving DecidableEq, Repr

/-- An instruction whose reserved fields are zero and whose operands are in range, else RSVD. -/
def accept (fieldsOk : Bool) (i : Instr) : Decoded Instr :=
  if fieldsOk && i.wf then .ok i else .rsvd

/-- As `accept`, for an operand whose code may be reserved. -/
def acceptOpt (fieldsOk : Bool) (i : Option Instr) : Decoded Instr :=
  match i with
  | some i => accept fieldsOk i
  | none => .rsvd

/-- Operands of a form R scalar operation. -/
def argsS (w : Word64) : SArgs := ⟨fD w, fA w, fB w, .ofCode (fTy w)⟩

def argsI (w : Word64) (ext : Option (BitVec 32)) : IArgs := ⟨fD w, fA w, fImm w, ext⟩

def argsSh (w : Word64) : ShArgs := ⟨fD w, fA w, w.extractLsb' 0 6⟩

def argsP (w : Word64) : PArgs := ⟨fD w, fA w, fB w, bitAt w 1, bitAt w 0⟩

/-- Form R with only D, A, B and TY: C, MODH and MODL are 0. -/
def rDAB (w : Word64) : Bool := fC w == 0 && fModh w == 0 && fModl w == 0

/-- Form R with TY 0 as well. -/
def rDAB0 (w : Word64) : Bool := rDAB w && fTy w == 0

/-- Form R with D and A only. -/
def rDA0 (w : Word64) : Bool := rDAB0 w && fB w == 0

/-- Form R or L with all operand fields 0 but those of MODH. -/
def rTyModl0 (w : Word64) : Bool := fTy w == 0 && fModl w == 0

def noOperands (w : Word64) : Bool := rDA0 w && fD w == 0 && fA w == 0

def dA0 (w : Word64) : Bool := fD w == 0 && fA w == 0

/-- A shift count leaves IMM32[31:6] zero. -/
def shFields (w : Word64) : Bool := w.extractLsb' 6 26 == 0#26

/-- The S space (R285, R292). -/
def decodeS (w : Word64) (ext : Option (BitVec 32)) : Decoded Instr :=
  match (fOpc w).toNat with
  | 0x001 => accept (noOperands w) .nop
  | 0x010 => accept (fC w == 0 && w.extractLsb' 8 10 == 0#10 && fModl w == 0)
      (.add (bitAt w 19) (bitAt w 18) (argsS w))
  | 0x011 => accept (rDAB w) (.sub (argsS w))
  | 0x012 => accept (rDAB w) (.and (argsS w))
  | 0x013 => accept (rDAB w) (.or (argsS w))
  | 0x014 => accept (rDAB w) (.xor (argsS w))
  | 0x015 => accept (rDAB w) (.andn (argsS w))
  | 0x016 => accept (rDAB w) (.shl (argsS w))
  | 0x017 => accept (rDAB w) (.shr (argsS w))
  | 0x018 => accept (rDAB w) (.sar (argsS w))
  | 0x019 => accept (rDAB w) (.rol (argsS w))
  | 0x01A => accept (rDAB w) (.min (argsS w))
  | 0x01B => accept (rDAB w) (.max (argsS w))
  | 0x01C => accept (rDAB w) (.mul (argsS w))
  | 0x01D => accept (rDAB w) (.mulh (argsS w))
  | 0x01E => accept (rDAB w && fB w == 0) (.clz (fD w) (fA w) (.ofCode (fTy w)))
  | 0x01F => accept (rDAB w && fB w == 0) (.popc (fD w) (fA w) (.ofCode (fTy w)))
  | 0x020 => accept true (.addi (argsI w ext))
  | 0x021 => accept true (.subi (argsI w ext))
  | 0x022 => accept true (.andi (argsI w ext))
  | 0x023 => accept true (.ori (argsI w ext))
  | 0x024 => accept true (.xori (argsI w ext))
  | 0x025 => accept (shFields w) (.shli (argsSh w))
  | 0x026 => accept (shFields w) (.shri (argsSh w))
  | 0x027 => accept (shFields w) (.sari (argsSh w))
  | 0x028 => accept true (.mini (argsI w ext))
  | 0x029 => accept true (.maxi (argsI w ext))
  | 0x02A => accept (fA w == 0) (.movi (fD w) (fImm w) ext)
  | 0x02B => accept true (.muli (argsI w ext))
  | 0x030 => accept (rDAB w)
      (.cmp (w.extractLsb' 41 3) (.ofCode (w.extractLsb' 38 3)) (fA w) (fB w) (.ofCode (fTy w)))
  | 0x031 => accept true
      (.cmpi (w.extractLsb' 41 3) (.ofCode (w.extractLsb' 38 3)) (fA w) (fImm w) ext)
  | 0x032 => accept (fModh w == 0 && rTyModl0 w) (.sel (fD w) (fA w) (fB w) (fC w))
  | 0x033 => accept (fB w == 0 && fC w == 0 && fTy w == 0 && w.extractLsb' 1 3 == 0#3)
      (.ext (fD w) (fA w) (w.extractLsb' 14 6) (w.extractLsb' 8 6) (bitAt w 0))
  | 0x034 => accept (fC w == 0 && rTyModl0 w)
      (.dep (fD w) (fA w) (fB w) (w.extractLsb' 14 6) (w.extractLsb' 8 6))
  | 0x035 => accept (fC w == 0 && w.extractLsb' 11 9 == 0#9 && rTyModl0 w)
      (.addsc (fD w) (fA w) (fB w) (w.extractLsb' 8 3))
  | 0x036 => accept (fC w == 0 && fModh w == 0 && fTy w == 0 && w.extractLsb' 2 2 == 0#2)
      (.pand (argsP w))
  | 0x037 => accept (fC w == 0 && fModh w == 0 && fTy w == 0 && w.extractLsb' 2 2 == 0#2)
      (.por (argsP w))
  | 0x038 => accept (fC w == 0 && fModh w == 0 && fTy w == 0 && w.extractLsb' 2 2 == 0#2)
      (.pxor (argsP w))
  | 0x040 => accept (dA0 w) (.br (fImm w))
  | 0x041 => accept (dA0 w) (.call (fImm w))
  | 0x042 => accept (noOperands w) .ret
  | 0x043 => accept (fD w == 0 && rDA0 w) (.jmpi (fA w))
  | 0x044 => accept (fD w == 0 && rDA0 w) (.calli (fA w))
  | 0x045 => accept true (.loop (fD w) (fA w) (fImm w))
  | 0x050 => accept (fA w == 0 && fB w == 0 && fModh w == 0 && rTyModl0 w) (.crd (fD w) (fC w))
  | 0x051 => accept (fD w == 0 && fB w == 0 && fModh w == 0 && rTyModl0 w)
      (if fC w = crBindb then .cwrBindb (fA w)
       else if fC w = crSeqtb then .cwrSeqtb (fA w) else .cwr (fA w) (fC w))
  | 0x052 => accept (fA w == 0 && fB w == 0 && w.extractLsb' 10 10 == 0#10 && rTyModl0 w)
      (.lvid (fD w) (fC w) (.ofCode (w.extractLsb' 8 2)))
  | 0x053 => accept (fA w == 0 && fB w == 0 && fC w == 0 && w.extractLsb' 11 9 == 0#9 && rTyModl0 w)
      (.phyid (fD w) (.ofCode (w.extractLsb' 8 3)))
  | _ => .illop

/-- The C space (R286, R292, R353). -/
def decodeC (w : Word64) : Decoded Instr :=
  match (fOpc w).toNat with
  | 0x010 => accept (dA0 w) (.brC (fImm w))
  | 0x011 => accept (noOperands w) .seqsel
  | 0x020 => if h : (fD w).toNat < 4 then
      accept (rDAB0 w) (.spawn ⟨(fD w).toNat, h⟩ (fA w) (fB w)) else .rsvd
  | 0x021 => accept (noOperands w) .yield
  | 0x022 => accept (noOperands w) .halt
  | 0x023 => accept (dA0 w && w.extractLsb' 16 16 == 0#16) (.trap (w.extractLsb' 0 16))
  | 0x024 => accept (noOperands w) .tret
  | 0x030 => accept (fModh w == 0 && rTyModl0 w) (.waitc (fD w) (fA w) (fB w) (fC w))
  | 0x031 => accept (fA w == 0 && fB w == 0 && w.extractLsb' 15 5 == 0#5 && rTyModl0 w)
      (.bara (fD w) (fC w) (w.extractLsb' 8 7))
  | 0x032 => accept (fD w == 0 && fB w == 0 && w.extractLsb' 15 5 == 0#5 && rTyModl0 w)
      (.barw (fA w) (fC w) (w.extractLsb' 8 7))
  | 0x033 => accept (fA w == 0 && fB w == 0 && w.extractLsb' 15 5 == 0#5 && rTyModl0 w)
      (.bar (fD w) (fC w) (w.extractLsb' 8 7))
  | 0x040 => accept (fD w == 0 && rDAB0 w) (.qput (fA w) (fB w))
  | 0x041 => accept (rDAB0 w) (.qget (fD w) (fA w) (fB w))
  | _ => .illop

/-- Group mask, lane predicate and, for an instruction that chains, the chain-in bit. -/
def argsH (w : Word64) (chains : Bool) : VHdr := ⟨fGm w, fQ w, chains && fCh w⟩

def argsV (w : Word64) : VArgs := ⟨argsH w true, fD w, fA w, fB w, fBs w, .ofCode (fTy w)⟩

def argsVBit (w : Word64) : VBitArgs := ⟨argsH w true, fD w, fA w, fB w, fBs w⟩

/-- The key of a rounding instruction under SR; the bundle judges a missing IMM syllable (R263). -/
def argsKey (rm : Rm) (ext : Option (BitVec 32)) : Option (BitVec 32) :=
  if rm = .sr then some (ext.getD 0) else none

/-- A rounding instruction; none when RM is reserved. -/
def argsVF (w : Word64) (ext : Option (BitVec 32)) : Option VFArgs :=
  (Rm.ofCode (fRm w)).map fun rm =>
    ⟨argsH w true, fD w, fA w, fB w, fBs w, fC w, .ofCode (fTy w), rm, argsKey rm ext⟩

def argsVUn (w : Word64) : VUnArgs := ⟨argsH w true, fD w, fA w, .ofCode (fTy w)⟩

def argsQ (w : Word64) : QArgs := ⟨argsH w false, fD w, fA w, fB w⟩

def argsF (w : Word64) : FArgs := ⟨argsH w false, fD w, fA w⟩

/-- Field A is 0 when CH = 1, on every form V syllable (R259). -/
def chA (w : Word64) : Bool := !fCh w || fA w == 0

/-- RM must be 000 (R314). -/
def rm0 (w : Word64) : Bool := chA w && fRm w == 0

def c0rm0 (w : Word64) : Bool := rm0 w && fC w == 0

def ty0 (w : Word64) : Bool := fTy w == 0

/-- Field C holds a lane predicate in [22:20]. -/
def cHi0 (w : Word64) : Bool := w.extractLsb' 23 3 == 0#3

/-- The fold of VRED or VSCAN, none when OP is reserved. -/
def argsFold (w : Word64) : Option VFoldArgs :=
  (Fold.ofCode (w.extractLsb' 20 3)).map fun op =>
    ⟨argsH w true, fD w, fA w, bitAt w 23, op, .ofCode (fTy w)⟩

def argsCvt (w : Word64) (ext : Option (BitVec 32)) : Option VCvtArgs :=
  (Rm.ofCode (fRm w)).map fun rm =>
    ⟨argsH w true, fD w, fA w, .ofCode (w.extractLsb' 26 4), .ofCode (fTy w),
     w.extractLsb' 20 3, rm, argsKey rm ext⟩

/-- The V space (R287, R315). -/
def decodeV (w : Word64) (ext : Option (BitVec 32)) : Decoded Instr :=
  match (fOpc w).toNat with
  | 0x010 => accept (c0rm0 w) (.vadd (argsV w))
  | 0x011 => accept (c0rm0 w) (.vsub (argsV w))
  | 0x012 => accept (c0rm0 w) (.vmul (argsV w))
  | 0x013 => accept (c0rm0 w) (.vmulh (argsV w))
  | 0x014 => accept (c0rm0 w && ty0 w) (.vand (argsVBit w))
  | 0x015 => accept (c0rm0 w && ty0 w) (.vor (argsVBit w))
  | 0x016 => accept (c0rm0 w && ty0 w) (.vxor (argsVBit w))
  | 0x017 => accept (c0rm0 w && ty0 w) (.vandn (argsVBit w))
  | 0x018 => accept (c0rm0 w) (.vshl (argsV w))
  | 0x019 => accept (c0rm0 w) (.vshr (argsV w))
  | 0x01A => accept (c0rm0 w) (.vsar (argsV w))
  | 0x01B => accept (c0rm0 w) (.vmin (argsV w))
  | 0x01C => accept (c0rm0 w) (.vmax (argsV w))
  | 0x01D => accept (c0rm0 w) (.vadds (argsV w))
  | 0x01E => accept (c0rm0 w) (.vsubs (argsV w))
  | 0x01F => accept (rm0 w && ty0 w && cHi0 w) (.vsel (argsVBit w) (w.extractLsb' 20 3))
  | 0x020 => acceptOpt (chA w) ((argsVF w ext).map .vfadd)
  | 0x021 => acceptOpt (chA w) ((argsVF w ext).map .vfsub)
  | 0x022 => acceptOpt (chA w) ((argsVF w ext).map .vfmul)
  | 0x023 => acceptOpt (chA w) ((argsVF w ext).map .vfma)
  | 0x024 => acceptOpt (chA w) ((argsVF w ext).map .vfms)
  | 0x025 => acceptOpt (chA w) ((argsVF w ext).map .vfnma)
  | 0x026 => accept (c0rm0 w) (.vfmin (argsV w))
  | 0x027 => accept (c0rm0 w) (.vfmax (argsV w))
  | 0x028 => accept (c0rm0 w) (.vfminp (argsV w))
  | 0x029 => accept (c0rm0 w) (.vfmaxp (argsV w))
  | 0x02A => accept (c0rm0 w && fB w == 0 && !fBs w) (.vfabs (argsVUn w))
  | 0x02B => accept (c0rm0 w && fB w == 0 && !fBs w) (.vfneg (argsVUn w))
  | 0x030 => accept (c0rm0 w && fTy w == Ty.i32.code && !bitAt w 43)
      (.vcmp ⟨argsH w true, w.extractLsb' 41 2, .ofCode (w.extractLsb' 38 3), fA w, fB w, fBs w⟩)
  | 0x031 => accept (c0rm0 w && fTy w == Ty.f32.code && !bitAt w 43)
      (.vfcmp ⟨argsH w true, w.extractLsb' 41 2, .ofCode (w.extractLsb' 38 3), fA w, fB w, fBs w⟩)
  | 0x038 => acceptOpt (chA w && w.extractLsb' 30 2 == 0#2 && cHi0 w && !fBs w)
      ((argsCvt w ext).map .vcvt)
  | 0x040 => accept (c0rm0 w && ty0 w) (.vperm (argsVBit w))
  | 0x041 => accept (rm0 w && ty0 w && fB w == 0 && !fBs w && w.extractLsb' 24 2 == 0#2)
      (.vbcast (argsH w true) (fD w) (fA w) (w.extractLsb' 20 4))
  | 0x042 => acceptOpt (rm0 w && fB w == 0 && !fBs w && w.extractLsb' 24 2 == 0#2)
      ((argsFold w).map .vred)
  | 0x043 => acceptOpt (rm0 w && fB w == 0 && !fBs w && w.extractLsb' 24 2 == 0#2)
      ((argsFold w).map .vscan)
  | 0x044 => accept (rm0 w && ty0 w && fA w == 0 && fB w == 0 && !fBs w && w.extractLsb' 24 2 == 0#2)
      (.vqcnt (argsH w false) (fD w) (bitAt w 23) (w.extractLsb' 20 3))
  | 0x045 => accept (c0rm0 w && ty0 w && fA w == 0)
      (.vmov (argsH w false) (fD w) (fB w) (fBs w))
  | 0x046 => accept (rm0 w && ty0 w && fB w == 0 && !fBs w && w.extractLsb' 24 2 == 0#2)
      (.gxfer (argsH w false) (fD w) (fA w) (bitAt w 23) (w.extractLsb' 20 3))
  | 0x050 => acceptOpt (chA w) ((argsVF w ext).map .vdot2)
  | 0x051 => acceptOpt (chA w) ((argsVF w ext).map .vdot4)
  | 0x052 => acceptOpt (chA w) ((argsVF w ext).map .vdot8)
  | 0x058 => accept (rm0 w && ty0 w && fBs w && w.extractLsb' 24 2 == 0#2 && !bitAt w 22)
      (.vrng ⟨argsH w true, fD w, fA w, fB w, bitAt w 23, w.extractLsb' 20 2⟩)
  | 0x060 => accept (c0rm0 w && ty0 w && !fBs w) (.qand (argsQ w))
  | 0x061 => accept (c0rm0 w && ty0 w && !fBs w) (.qor (argsQ w))
  | 0x062 => accept (c0rm0 w && ty0 w && !fBs w) (.qxor (argsQ w))
  | 0x063 => accept (c0rm0 w && ty0 w && !fBs w) (.qandn (argsQ w))
  | 0x068 => accept (c0rm0 w && ty0 w && fA w == 0 && fB w == 0 && !fBs w)
      (.vmovi (argsH w false) (fD w) (ext.getD 0))
  | _ => .illop

/-- The fields every F syllable leaves 0, and TY .f32 (R329). -/
def fFields (w : Word64) : Bool := c0rm0 w && fB w == 0 && !fBs w && fTy w == Ty.f32.code

/-- The F space (R288, R329). -/
def decodeF (w : Word64) : Decoded Instr :=
  match (fOpc w).toNat with
  | 0x010 => accept (fFields w) (.rcp (argsF w))
  | 0x011 => accept (fFields w) (.rsq (argsF w))
  | 0x012 => accept (fFields w) (.sqrt (argsF w))
  | 0x013 => accept (fFields w) (.exp2 (argsF w))
  | 0x014 => accept (fFields w) (.log2 (argsF w))
  | 0x015 => accept (fFields w) (.sinpi (argsF w))
  | 0x016 => accept (fFields w) (.cospi (argsF w))
  | 0x017 => accept (fFields w) (.tanh (argsF w))
  | 0x018 => accept (fFields w) (.sigm (argsF w))
  | _ => .illop

/-- The X space (R289, R331). -/
def decodeX (w : Word64) : Decoded Instr :=
  match (fOpc w).toNat with
  | 0x010 => accept (rDAB w) (.xcad (fD w) (fA w) (fB w) (.ofCode (fTy w)))
  | 0x011 => accept (rDAB0 w) (.xpopc (fD w) (fA w) (fB w))
  | 0x012 => accept (fC w == 0 && w.extractLsb' 12 8 == 0#8 && fModl w == 0 && fTy w == Ty.n32.code)
      (.xexp (fD w) (fA w) (fB w) (w.extractLsb' 9 3) (bitAt w 8))
  | 0x013 => accept (fModh w == 0 && fModl w == 0)
      (.xmps ⟨fD w, fA w, fB w, fC w, .ofCode (fTy w)⟩)
  | 0x014 => accept (fB w == 0 && fC w == 0 && w.extractLsb' 12 8 == 0#8 && fModl w == 0)
      (.xins (fD w) (fA w) (w.extractLsb' 8 4) (.ofCode (fTy w)))
  | 0x015 => accept (fB w == 0 && fC w == 0 && w.extractLsb' 12 8 == 0#8 && fModl w == 0)
      (.xget (fD w) (fA w) (w.extractLsb' 8 4) (.ofCode (fTy w)))
  | 0x016 => accept (rDAB w && fB w == 0) (.xsplat (fD w) (fA w) (.ofCode (fTy w)))
  | 0x017 => accept (rDAB w) (.xadds (fD w) (fA w) (fB w) (.ofCode (fTy w)))
  | 0x018 => accept (fB w == 0 && fC w == 0 && w.extractLsb' 9 11 == 0#11 && fModl w == 0)
      (.xscan (fD w) (fA w) (bitAt w 8) (.ofCode (fTy w)))
  | 0x019 => accept (fC w == 0 && w.extractLsb' 11 9 == 0#9 && fModl w == 0)
      (.xcmp (fD w) (fA w) (fB w) (.ofCode (w.extractLsb' 8 3)) (.ofCode (fTy w)))
  | 0x01A => accept (fB w == 0 && fC w == 0 && w.extractLsb' 9 11 == 0#11 && fModl w == 0
        && fTy w == Ty.n16.code)
      (.xtoq (fD w) (fA w) (bitAt w 8))
  | _ => .illop

/-- Base and displacement of a form M syllable. -/
def argsMAddr (w : Word64) (ext : Option (BitVec 32)) : MAddr := ⟨fA w, fC w, ext⟩

def argsM (w : Word64) (ext : Option (BitVec 32)) : MArgs :=
  ⟨fD w, argsMAddr w ext, .ofCode (fTy w)⟩

def argsVM (w : Word64) (ext : Option (BitVec 32)) : Option VMArgs :=
  (Ofs.ofCode (fOfs w) (fB w)).map fun ofs =>
    ⟨fD w, argsMAddr w ext, fGm w, fQ w, ofs, .ofCode (fTy w)⟩

/-- A scalar access: VEC 0, GM 0, Q 0 (R262). -/
def mScal (w : Word64) : Bool := !fCh w && fGm w == 0 && fQ w == 0

/-- A scalar access without an offset register. -/
def mScal0 (w : Word64) : Bool := mScal w && fOfs w == 0 && fB w == 0

/-- A vector access with plain ordering. -/
def mVec (w : Word64) : Bool := fCh w && fOrd w == 0

/-- An atomic: OFS 11 names the operand scalar (R338). -/
def argsAtom (w : Word64) : Option AtomArgs :=
  (Ord.ofCode (fOrd w)).map fun ord => ⟨fD w, fA w, fB w, fC w, .ofCode (fTy w), ord⟩

def mAtom (w : Word64) : Bool := mScal w && fOfs w == 3

/-- The M space (R290, R338, R350). -/
def decodeM (w : Word64) (ext : Option (BitVec 32)) : Decoded Instr :=
  match (fOpc w).toNat with
  | 0x010 => accept (mScal0 w && fOrd w == 0) (.ld (argsM w ext))
  | 0x011 => accept (mScal0 w && fOrd w == 0) (.st (argsM w ext))
  | 0x012 => acceptOpt (mVec w) ((argsVM w ext).map .vld)
  | 0x013 => acceptOpt (mVec w)
      ((argsVM w ext).map fun o => if o.ty = .i8 then .vstPk6 o else .vst o)
  | 0x014 => acceptOpt (mVec w) ((argsVM w ext).map .vgath)
  | 0x015 => acceptOpt (mVec w) ((argsVM w ext).map .vscat)
  | 0x016 => acceptOpt (mVec w) ((argsVM w ext).map .vldb)
  | 0x017 => accept (fOfs w == 0 && fB w == 0 && fOrd w == 0)
      (.pst ⟨fD w, argsMAddr w ext, fCh w, fGm w, fQ w, .ofCode (fTy w)⟩)
  | 0x020 => if fOrd w = 1 then accept (mScal0 w) (.ldgAcq (argsM w ext))
      else accept (mScal0 w && fOrd w == 0) (.ldg (argsM w ext))
  | 0x021 => if fOrd w = 2 then accept (mScal0 w) (.stgRel (argsM w ext))
      else accept (mScal0 w && fOrd w == 0) (.stg (argsM w ext))
  | 0x022 => acceptOpt (mVec w) ((argsVM w ext).map .vldg)
  | 0x023 => acceptOpt (mVec w) ((argsVM w ext).map .vstg)
  | 0x030 => acceptOpt (mAtom w) ((argsAtom w).map .atomgAdd)
  | 0x031 => acceptOpt (mAtom w) ((argsAtom w).map .atomgMin)
  | 0x032 => acceptOpt (mAtom w) ((argsAtom w).map .atomgMax)
  | 0x033 => acceptOpt (mAtom w) ((argsAtom w).map .atomgAnd)
  | 0x034 => acceptOpt (mAtom w) ((argsAtom w).map .atomgOr)
  | 0x035 => acceptOpt (mAtom w) ((argsAtom w).map .atomgXor)
  | 0x036 => acceptOpt (mAtom w) ((argsAtom w).map .atomgSwap)
  | 0x037 => acceptOpt (mAtom w) ((argsAtom w).map .atomgCas)
  | 0x040 => accept (fA w == 0 && fB w == 0 && fModh w == 0 && rTyModl0 w) (.fence (fD w) (fC w))
  | 0x041 => accept (fA w == 0 && fB w == 0 && w.extractLsb' 13 7 == 0#7 && rTyModl0 w)
      (.fencex (fD w) (fC w) (w.extractLsb' 8 5))
  | 0x042 => accept (mAtom w && w.extractLsb' 3 1 == 0#1)
      (.waita (fD w) (fA w) (fB w) (fC w) (.ofCode (fTy w)) (bitAt w 2))
  | 0x043 => accept (mScal w && fD w == 0 && fTy w == 0 && fOrd w == 0
        && ((fOfs w == 0 && fB w == 0) || fOfs w == 3))
      (.linv (fA w) (fC w) (if fOfs w = 3 then some (fB w) else none))
  | _ => .illop

/-- The E space (R291, R359). -/
def decodeE (w : Word64) : Decoded Instr :=
  match (fOpc w).toNat with
  | 0x010 => accept (rTyModl0 w) (.mcall ⟨fD w, fA w, fB w, fC w, w.extractLsb' 12 8, bitAt w 11,
      w.extractLsb' 9 2, bitAt w 8⟩)
  | 0x011 => accept (fA w == 0 && fB w == 0 && fC w == 0 && w.extractLsb' 10 10 == 0#10 && rTyModl0 w)
      (.mstat (fD w) (.ofCode (w.extractLsb' 8 2)))
  | 0x012 => accept (rDA0 w) (.mput (fD w) (fA w))
  | 0x013 => accept (rDA0 w) (.mget (fD w) (fA w))
  | 0x014 => accept (fModh w == 0 && rTyModl0 w) (.cellld (fD w) (fA w) (fB w) (fC w))
  | 0x015 => accept (rDA0 w) (.flowset (fD w) (fA w))
  | 0x016 => accept (rDA0 w) (.xwin (fD w) (fA w))
  | 0x017 => accept (rDA0 w) (.tsld (fD w) (fA w))
  | 0x018 => accept (rDA0 w) (.tsst (fD w) (fA w))
  | 0x020 => accept (rDA0 w) (.xcopy (fD w) (fA w))
  | 0x021 => accept (rDA0 w) (.xgather (fD w) (fA w))
  | 0x022 => accept (rDA0 w) (.embpool (fD w) (fA w))
  | 0x023 => accept (rDA0 w) (.xcvt (fD w) (fA w))
  | 0x030 => accept (fB w == 0 && fC w == 0 && w.extractLsb' 10 10 == 0#10 && rTyModl0 w)
      (.cgload (fD w) (fA w) (w.extractLsb' 8 2))
  | 0x031 => accept (w.extractLsb' 10 10 == 0#10 && rTyModl0 w)
      (.cgrun (fD w) (fA w) (fB w) (fC w) (w.extractLsb' 8 2))
  | 0x032 => accept (fB w == 0 && fModh w == 0 && rTyModl0 w) (.a2aDisp (fD w) (fA w) (fC w))
  | 0x033 => accept (fB w == 0 && fModh w == 0 && rTyModl0 w) (.a2aComb (fD w) (fA w) (fC w))
  | 0x034 => accept (fB w == 0 && fModh w == 0 && rTyModl0 w) (.repart (fD w) (fA w) (fC w))
  | 0x040 => accept (rDA0 w) (.txtEnc (fD w) (fA w))
  | 0x041 => accept (rDA0 w) (.txtDec (fD w) (fA w))
  | 0x042 => accept (rDA0 w) (.txtMask (fD w) (fA w))
  | _ => .illop

/-- The instruction of a non-IMM syllable, with the EXT of the IMM syllable after it if any (R266):
a reserved slot raises RSVD, an unassigned opcode ILLOP, a bad field RSVD. -/
def decodeInstr (w : Word64) (ext : Option (BitVec 32)) : Decoded Instr :=
  match slotSpace (fSlot w) with
  | some .s => decodeS w ext
  | some .v => decodeV w ext
  | some .f => decodeF w
  | some .m => decodeM w ext
  | some .x => decodeX w
  | some .e => decodeE w
  | some .c => decodeC w
  | none => .rsvd

/-- A syllable with its header. -/
def decodeSyllable (w : Word64) (ext : Option (BitVec 32)) : Decoded Syllable :=
  match decodeInstr w ext with
  | .ok i => .ok ⟨fSlot w, fGn w, fGp w, i⟩
  | .illop => .illop
  | .rsvd => .rsvd

/-- An IMM syllable's bits 58:32 are 0 (R263). -/
def immFieldsOk (w : Word64) : Bool := w.extractLsb' 32 27 == 0#27

/-- Whether an instruction accepts an IMM syllable (R263, R293, R338). -/
def Instr.takesImm : Instr → Bool
  | .addi _ | .subi _ | .andi _ | .ori _ | .xori _ | .mini _ | .maxi _ | .movi _ _ _ | .muli _
  | .cmpi _ _ _ _ _ => true
  | .vmovi _ _ _ => true
  | .vfadd o | .vfsub o | .vfmul o | .vfma o | .vfms o | .vfnma o | .vdot2 o | .vdot4 o | .vdot8 o =>
      o.rm == .sr
  | .vcvt o => o.rm == .sr
  | .ld _ | .st _ | .vld _ | .vst _ | .vstPk6 _ | .vgath _ | .vscat _ | .vldb _ | .pst _
  | .ldg _ | .ldgAcq _ | .stg _ | .stgRel _ | .vldg _ | .vstg _ => true
  | _ => false

/-- Whether an instruction requires an IMM syllable: VMOVI, and every SR form (R262, R315). -/
def Instr.needsImm : Instr → Bool
  | .vmovi _ _ _ => true
  | .vfadd o | .vfsub o | .vfmul o | .vfma o | .vfms o | .vfnma o | .vdot2 o | .vdot4 o | .vdot8 o =>
      o.rm == .sr
  | .vcvt o => o.rm == .sr
  | _ => false

/-- Whether an instruction accepts a chain (R315, column CH). -/
def Instr.acceptsChain : Instr → Bool
  | .vadd _ | .vsub _ | .vmul _ | .vmulh _ | .vand _ | .vor _ | .vxor _ | .vandn _
  | .vshl _ | .vshr _ | .vsar _ | .vmin _ | .vmax _ | .vadds _ | .vsubs _ | .vsel _ _
  | .vfadd _ | .vfsub _ | .vfmul _ | .vfma _ | .vfms _ | .vfnma _
  | .vfmin _ | .vfmax _ | .vfminp _ | .vfmaxp _ | .vfabs _ | .vfneg _ | .vcmp _ | .vfcmp _
  | .vcvt _ | .vperm _ | .vbcast _ _ _ _ | .vred _ | .vscan _ | .vdot2 _ | .vdot4 _ | .vdot8 _
  | .vrng _ => true
  | _ => false

/-- Whether the chain-in bit of a lone syllable is one a bundle of it alone would refuse: set on an
instruction that takes no chain, or with no lower vector slot to feed it (R158, R262). -/
def chainRefused (w : Word64) : Bool :=
  (slotSpace (fSlot w) == some .v || slotSpace (fSlot w) == some .f) && fCh w

/-- The instruction of a table word: the first 64 bits are the syllable, the next 64 its IMM
syllable if the word is that long. STOP only frames the bundle and is not judged. A word that needs
an IMM syllable and has none, or has one it does not take, is refused (R263). -/
def decodeTableWord (nbits w : Nat) : Option Instr :=
  let w0 : Word64 := BitVec.ofNat 64 w
  let w1 : Word64 := BitVec.ofNat 64 (w / 2 ^ 64)
  let ext : Option (BitVec 32) :=
    if 64 < nbits && fSlot w1 == slotImm then some (fImm w1) else none
  match decodeInstr w0 ext with
  | .ok i =>
    if chainRefused w0 then none
    else if ext.isNone && i.needsImm then none
    else if ext.isSome && !(i.takesImm && immFieldsOk w1) then none
    else some i
  | _ => none

/-! ## Encoding -/

/-- Form R: D, A, B, C, MODH, TY, MODL (R259). -/
def formR (d a b c : Reg) (modh : BitVec 12) (ty modl : BitVec 4) : BitVec 44 :=
  d ++ a ++ b ++ c ++ modh ++ ty ++ modl

/-- Form I: D, A, IMM32. -/
def formI (d a : Reg) (imm : BitVec 32) : BitVec 44 := d ++ a ++ imm

/-- Form V: D, A, B, C, GM, Q, CH, TY, RM, BS. -/
def formV (d a b c : Reg) (h : VHdr) (ty : BitVec 4) (rm : BitVec 3) (bs : Bool) : BitVec 44 :=
  d ++ a ++ b ++ c ++ h.gm ++ h.q ++ BitVec.ofBool h.ch ++ ty ++ rm ++ BitVec.ofBool bs

/-- Form M: D, A, B, DISP, GM, Q, VEC, TY, ORD, OFS. -/
def formM (d a b disp : Reg) (gm : BitVec 8) (q : BitVec 3) (vec : Bool) (ty : BitVec 4)
    (ord ofs : BitVec 2) : BitVec 44 :=
  d ++ a ++ b ++ disp ++ gm ++ q ++ BitVec.ofBool vec ++ ty ++ ord ++ ofs

/-- A form R scalar operation. -/
def encS (o : SArgs) : BitVec 44 := formR o.d o.a o.b 0 0 o.ty.code 0

def encI (o : IArgs) : BitVec 44 := formI o.d o.a o.imm

def encSh (o : ShArgs) : BitVec 44 := formI o.d o.a (0#26 ++ o.cnt)

def encP (o : PArgs) : BitVec 44 :=
  formR o.d o.a o.b 0 0 0 (0#2 ++ BitVec.ofBool o.na ++ BitVec.ofBool o.nb)

/-- Form R with D, A and TY 0. -/
def encDA (d a : Reg) : BitVec 44 := formR d a 0 0 0 0 0

/-- POS and W − 1 in MODH (R292). -/
def encBits (d a b : Reg) (pos w1 : BitVec 6) (sgn : Bool) : BitVec 44 :=
  formR d a b 0 (pos ++ w1) 0 (0#3 ++ BitVec.ofBool sgn)

/-- A barrier operation: LV in C, the number in MODH [14:8] (R353). -/
def encBar (d a : Reg) (lv : BitVec 6) (n : BitVec 7) : BitVec 44 :=
  formR d a 0 lv (0#5 ++ n) 0 0

def encV (o : VArgs) : BitVec 44 := formV o.d o.a o.b 0 o.h o.ty.code 0 o.bs

def encVBit (o : VBitArgs) (c : Reg) : BitVec 44 := formV o.d o.a o.b c o.h 0 0 o.bs

def encVF (o : VFArgs) : BitVec 44 := formV o.d o.a o.b o.c o.h o.ty.code o.rm.code o.bs

def encVCmp {γ : Type} (o : VCmpArgs γ) (cond : BitVec 3) (ty : Ty) : BitVec 44 :=
  formV (0#1 ++ o.k ++ cond) o.a o.b 0 o.h ty.code 0 o.bs

def encFold (o : VFoldArgs) : BitVec 44 :=
  formV o.d o.a 0 (0#2 ++ BitVec.ofBool o.excl ++ o.op.code) o.h o.ty.code 0 false

def encQ (o : QArgs) : BitVec 44 := formV o.d o.a o.b 0 o.h 0 0 false

def encF (o : FArgs) : BitVec 44 := formV o.d o.a 0 0 o.h Ty.f32.code 0 false

def encM (o : MArgs) (ord : BitVec 2) : BitVec 44 :=
  formM o.d o.m.a 0 o.m.disp 0 0 false o.ty.code ord 0

def encVM (o : VMArgs) : BitVec 44 :=
  formM o.d o.m.a o.ofs.reg o.m.disp o.gm o.q true o.ty.code 0 o.ofs.code

def encAtom (o : AtomArgs) : BitVec 44 :=
  formM o.d o.a o.b o.disp 0 0 false o.ty.code o.ord.code 3

/-- The opcode and operand fields of an instruction; none for an event. -/
def Instr.fields : Instr → Option (BitVec 10 × BitVec 44)
  | .nop => some (0x001, 0)
  | .add fromLc toLc o => some (0x010,
      formR o.d o.a o.b 0 (BitVec.ofBool fromLc ++ BitVec.ofBool toLc ++ 0#10) o.ty.code 0)
  | .sub o => some (0x011, encS o)
  | .and o => some (0x012, encS o)
  | .or o => some (0x013, encS o)
  | .xor o => some (0x014, encS o)
  | .andn o => some (0x015, encS o)
  | .shl o => some (0x016, encS o)
  | .shr o => some (0x017, encS o)
  | .sar o => some (0x018, encS o)
  | .rol o => some (0x019, encS o)
  | .min o => some (0x01A, encS o)
  | .max o => some (0x01B, encS o)
  | .mul o => some (0x01C, encS o)
  | .mulh o => some (0x01D, encS o)
  | .clz d a ty => some (0x01E, formR d a 0 0 0 ty.code 0)
  | .popc d a ty => some (0x01F, formR d a 0 0 0 ty.code 0)
  | .addi o => some (0x020, encI o)
  | .subi o => some (0x021, encI o)
  | .andi o => some (0x022, encI o)
  | .ori o => some (0x023, encI o)
  | .xori o => some (0x024, encI o)
  | .shli o => some (0x025, encSh o)
  | .shri o => some (0x026, encSh o)
  | .sari o => some (0x027, encSh o)
  | .mini o => some (0x028, encI o)
  | .maxi o => some (0x029, encI o)
  | .movi d imm _ => some (0x02A, formI d 0 imm)
  | .muli o => some (0x02B, encI o)
  | .cmp k cond a b ty => some (0x030, formR (k ++ cond.code) a b 0 0 ty.code 0)
  | .cmpi k cond a imm _ => some (0x031, formI (k ++ cond.code) a imm)
  | .sel d a b p => some (0x032, formR d a b p 0 0 0)
  | .ext d a pos w1 sgn => some (0x033, encBits d a 0 pos w1 sgn)
  | .dep d a b pos w1 => some (0x034, encBits d a b pos w1 false)
  | .addsc d a b sh => some (0x035, formR d a b 0 (0#9 ++ sh) 0 0)
  | .pand o => some (0x036, encP o)
  | .por o => some (0x037, encP o)
  | .pxor o => some (0x038, encP o)
  | .br disp => some (0x040, formI 0 0 disp)
  | .brC disp => some (0x010, formI 0 0 disp)
  | .call disp => some (0x041, formI 0 0 disp)
  | .ret => some (0x042, 0)
  | .jmpi a => some (0x043, encDA 0 a)
  | .calli a => some (0x044, encDA 0 a)
  | .loop d a len => some (0x045, formI d a len)
  | .crd d idx => some (0x050, formR d 0 0 idx 0 0 0)
  | .cwr a idx => some (0x051, formR 0 a 0 idx 0 0 0)
  | .cwrBindb a => some (0x051, formR 0 a 0 crBindb 0 0 0)
  | .cwrSeqtb a => some (0x051, formR 0 a 0 crSeqtb 0 0 0)
  | .lvid d lv which => some (0x052, formR d 0 0 lv (0#10 ++ which.code) 0 0)
  | .phyid d which => some (0x053, formR d 0 0 0 (0#9 ++ which.code) 0 0)
  | .seqsel => some (0x011, 0)
  | .spawn c a b => some (0x020, formR (BitVec.ofNat 6 c.val) a b 0 0 0 0)
  | .yield => some (0x021, 0)
  | .halt => some (0x022, 0)
  | .trap code => some (0x023, formI 0 0 (0#16 ++ code))
  | .tret => some (0x024, 0)
  | .waitc d t b c => some (0x030, formR d t b c 0 0 0)
  | .bara d lv n => some (0x031, encBar d 0 lv n)
  | .barw a lv n => some (0x032, encBar 0 a lv n)
  | .bar d lv n => some (0x033, encBar d 0 lv n)
  | .qput a b => some (0x040, formR 0 a b 0 0 0 0)
  | .qget d a b => some (0x041, formR d a b 0 0 0 0)
  | .vadd o => some (0x010, encV o)
  | .vsub o => some (0x011, encV o)
  | .vmul o => some (0x012, encV o)
  | .vmulh o => some (0x013, encV o)
  | .vand o => some (0x014, encVBit o 0)
  | .vor o => some (0x015, encVBit o 0)
  | .vxor o => some (0x016, encVBit o 0)
  | .vandn o => some (0x017, encVBit o 0)
  | .vshl o => some (0x018, encV o)
  | .vshr o => some (0x019, encV o)
  | .vsar o => some (0x01A, encV o)
  | .vmin o => some (0x01B, encV o)
  | .vmax o => some (0x01C, encV o)
  | .vadds o => some (0x01D, encV o)
  | .vsubs o => some (0x01E, encV o)
  | .vsel o qc => some (0x01F, encVBit o (0#3 ++ qc))
  | .vfadd o => some (0x020, encVF o)
  | .vfsub o => some (0x021, encVF o)
  | .vfmul o => some (0x022, encVF o)
  | .vfma o => some (0x023, encVF o)
  | .vfms o => some (0x024, encVF o)
  | .vfnma o => some (0x025, encVF o)
  | .vfmin o => some (0x026, encV o)
  | .vfmax o => some (0x027, encV o)
  | .vfminp o => some (0x028, encV o)
  | .vfmaxp o => some (0x029, encV o)
  | .vfabs o => some (0x02A, formV o.d o.a 0 0 o.h o.ty.code 0 false)
  | .vfneg o => some (0x02B, formV o.d o.a 0 0 o.h o.ty.code 0 false)
  | .vcmp o => some (0x030, encVCmp o o.cond.code .i32)
  | .vfcmp o => some (0x031, encVCmp o o.cond.code .f32)
  | .vcvt o => some (0x038,
      formV o.d o.a (0#2 ++ o.sty.code) (0#3 ++ o.pos) o.h o.ty.code o.rm.code false)
  | .vperm o => some (0x040, encVBit o 0)
  | .vbcast h d a lane => some (0x041, formV d a 0 (0#2 ++ lane) h 0 0 false)
  | .vred o => some (0x042, encFold o)
  | .vscan o => some (0x043, encFold o)
  | .vqcnt h d all qc => some (0x044, formV d 0 0 (0#2 ++ BitVec.ofBool all ++ qc) h 0 0 false)
  | .vmov h d b bs => some (0x045, formV d 0 b 0 h 0 0 bs)
  | .gxfer h d a fix g => some (0x046, formV d a 0 (0#2 ++ BitVec.ofBool fix ++ g) h 0 0 false)
  | .vdot2 o => some (0x050, encVF o)
  | .vdot4 o => some (0x051, encVF o)
  | .vdot8 o => some (0x052, encVF o)
  | .vrng o => some (0x058,
      formV o.d o.a o.k (0#2 ++ BitVec.ofBool o.unit ++ 0#1 ++ o.word) o.h 0 0 true)
  | .qand o => some (0x060, encQ o)
  | .qor o => some (0x061, encQ o)
  | .qxor o => some (0x062, encQ o)
  | .qandn o => some (0x063, encQ o)
  | .vmovi h d _ => some (0x068, formV d 0 0 0 h 0 0 false)
  | .rcp o => some (0x010, encF o)
  | .rsq o => some (0x011, encF o)
  | .sqrt o => some (0x012, encF o)
  | .exp2 o => some (0x013, encF o)
  | .log2 o => some (0x014, encF o)
  | .sinpi o => some (0x015, encF o)
  | .cospi o => some (0x016, encF o)
  | .tanh o => some (0x017, encF o)
  | .sigm o => some (0x018, encF o)
  | .xcad d a b ty => some (0x010, formR d a b 0 0 ty.code 0)
  | .xpopc d a b => some (0x011, formR d a b 0 0 0 0)
  | .xexp d a b sh half => some (0x012,
      formR d a b 0 (0#8 ++ sh ++ BitVec.ofBool half) Ty.n32.code 0)
  | .xmps o => some (0x013, formR o.d o.a o.b o.c 0 o.ty.code 0)
  | .xins d a idx ty => some (0x014, formR d a 0 0 (0#8 ++ idx) ty.code 0)
  | .xget d a idx ty => some (0x015, formR d a 0 0 (0#8 ++ idx) ty.code 0)
  | .xsplat d a ty => some (0x016, formR d a 0 0 0 ty.code 0)
  | .xadds d a b ty => some (0x017, formR d a b 0 0 ty.code 0)
  | .xscan d a excl ty => some (0x018, formR d a 0 0 (0#11 ++ BitVec.ofBool excl) ty.code 0)
  | .xcmp d a b cond ty => some (0x019, formR d a b 0 (0#9 ++ cond.code) ty.code 0)
  | .xtoq d a hi => some (0x01A, formR d a 0 0 (0#11 ++ BitVec.ofBool hi) Ty.n16.code 0)
  | .ld o => some (0x010, encM o 0)
  | .st o => some (0x011, encM o 0)
  | .vld o => some (0x012, encVM o)
  | .vst o => some (0x013, encVM o)
  | .vstPk6 o => some (0x013, encVM o)
  | .vgath o => some (0x014, encVM o)
  | .vscat o => some (0x015, encVM o)
  | .vldb o => some (0x016, encVM o)
  | .pst o => some (0x017, formM o.d o.m.a 0 o.m.disp o.gm o.q o.vec o.ty.code 0 0)
  | .ldg o => some (0x020, encM o 0)
  | .ldgAcq o => some (0x020, encM o 1)
  | .stg o => some (0x021, encM o 0)
  | .stgRel o => some (0x021, encM o 2)
  | .vldg o => some (0x022, encVM o)
  | .vstg o => some (0x023, encVM o)
  | .atomgAdd o => some (0x030, encAtom o)
  | .atomgMin o => some (0x031, encAtom o)
  | .atomgMax o => some (0x032, encAtom o)
  | .atomgAnd o => some (0x033, encAtom o)
  | .atomgOr o => some (0x034, encAtom o)
  | .atomgXor o => some (0x035, encAtom o)
  | .atomgSwap o => some (0x036, encAtom o)
  | .atomgCas o => some (0x037, encAtom o)
  | .fence d lv => some (0x040, formR d 0 0 lv 0 0 0)
  | .fencex d lv paths => some (0x041, formR d 0 0 lv (0#7 ++ paths) 0 0)
  | .waita d a b disp ty acq => some (0x042,
      formM d a b disp 0 0 false ty.code (0#1 ++ BitVec.ofBool acq) 3)
  | .linv a disp len => some (0x043,
      formM 0 a (len.getD 0) disp 0 0 false 0 0 (if len.isSome then 3 else 0))
  | .mcall o => some (0x010, formR o.d o.a o.b o.c
      (o.slot ++ BitVec.ofBool o.pod ++ o.lsel ++ BitVec.ofBool o.accm) 0 0)
  | .mstat d eng => some (0x011, formR d 0 0 0 (0#10 ++ eng.code) 0 0)
  | .mput d a => some (0x012, encDA d a)
  | .mget d a => some (0x013, encDA d a)
  | .cellld d a b c => some (0x014, formR d a b c 0 0 0)
  | .flowset d a => some (0x015, encDA d a)
  | .xwin d a => some (0x016, encDA d a)
  | .tsld d a => some (0x017, encDA d a)
  | .tsst d a => some (0x018, encDA d a)
  | .xcopy d a => some (0x020, encDA d a)
  | .xgather d a => some (0x021, encDA d a)
  | .embpool d a => some (0x022, encDA d a)
  | .xcvt d a => some (0x023, encDA d a)
  | .cgload d a g => some (0x030, formR d a 0 0 (0#10 ++ g) 0 0)
  | .cgrun d a b lv g => some (0x031, formR d a b lv (0#10 ++ g) 0 0)
  | .a2aDisp d a lv => some (0x032, formR d a 0 lv 0 0 0)
  | .a2aComb d a lv => some (0x033, formR d a 0 lv 0 0 0)
  | .repart d a lv => some (0x034, formR d a 0 lv 0 0 0)
  | .txtEnc d a => some (0x040, encDA d a)
  | .txtDec d a => some (0x041, encDA d a)
  | .txtMask d a => some (0x042, encDA d a)
  | .mupcAbort _ | .ecmdDisct _ | .ecmdDiscx _ | .printOpStart _ _ _ | .printOpDone _ _ _ _ |
    .engineCommandStart _ _ | .engineFaultDelivery _ | .pendingArrival _ | .registerCacheFill _ _ | .holdEnd _ |
    .nullifierSkip _ | .trapEntry _ _ _ _ _ | .waitaWake _ _ | .waitaTimeout _ | .waitcTimeout _ | .qgetTimeout _ |
    .qputTimeout _ | .fenceComplete _ | .releasePerform _ | .translationWalk _ _ _ | .lineWritebackFail _ _ _ |
    .remoteRequestTimeout _ | .readRequestReceive _ _ _ _ | .writeRequestReceive _ _ _ _ |
    .atomicRequestReceive _ _ _ _ _ _ _ | .responseReceive _ _ _ _ | .collectiveDataReceive _ _ _ _ _ _ _ |
    .switchReduce _ _ _ _ | .controlFlitReceive _ | .fabricPortDegrade _ _ | .planeLoss _ | .hostLinkTrain _ _ |
    .measuredBoot _ | .spdmGetMeasurements _ _ | .spdmChunkGet _ _ | .spdmRespondIfReady _ | .ownClaim _ _ _ |
    .ownRenew _ _ _ | .ownRelease _ _ | .ownHandover _ _ _ | .ownAccept _ _ _ | .stateWindowWrite _ _ _ |
    .deviceMemoryWrite _ _ _ | .lqtailWrite _ _ _ | .lqctlDisable _ _ _ | .launchRecordTake _ | .waitWordsMet _ |
    .treeBind _ | .launchEnd _ | .launchAbort _ _ | .gangPreempt _ _ _ | .gangResume _ _ _ | .gangStop _ |
    .podFailure _ _ | .xlinvcWrite _ _ | .queueDisable _ _ | .islctlWrite _ _ _ | .islandTransition _ |
    .powerManagerTick _ _ _ | .trshutWrite _ _ _ | .trdumpWrite _ _ _ | .rowSparing _ |
    .pseudoChannelFailure _ _ _ | .commandFinished _ _ | .poolLinkFault _ | .crcFailFlitReceive _ _ |
    .trdumpCopyDone _ | .spdmGetCertificate _ | .spdmChallenge _ _ | .resultLanding | .timesliceExpiry |
    .leaseExpiry | .handoverTimeout | .bindRetry | .xlatInvalidateDone | .hbmPatrolScrub | .sramPatrolScrub => none

/-- The opcode space of an instruction; none for an event (R285 to R291). -/
def Instr.space : Instr → Option Space
  | .brC _ | .seqsel | .spawn _ _ _ | .yield | .halt | .trap _ | .tret | .waitc _ _ _ _
  | .bara _ _ _ | .barw _ _ _ | .bar _ _ _ | .qput _ _ | .qget _ _ _ => some .c
  | .vadd _ | .vsub _ | .vmul _ | .vmulh _ | .vand _ | .vor _ | .vxor _ | .vandn _ | .vshl _
  | .vshr _ | .vsar _ | .vmin _ | .vmax _ | .vadds _ | .vsubs _ | .vsel _ _ | .vfadd _ | .vfsub _
  | .vfmul _ | .vfma _ | .vfms _ | .vfnma _ | .vfmin _ | .vfmax _ | .vfminp _ | .vfmaxp _
  | .vfabs _ | .vfneg _ | .vcmp _ | .vfcmp _ | .vcvt _ | .vperm _ | .vbcast _ _ _ _ | .vred _
  | .vscan _ | .vqcnt _ _ _ _ | .vmov _ _ _ _ | .gxfer _ _ _ _ _ | .vdot2 _ | .vdot4 _ | .vdot8 _
  | .vrng _ | .qand _ | .qor _ | .qxor _ | .qandn _ | .vmovi _ _ _ => some .v
  | .rcp _ | .rsq _ | .sqrt _ | .exp2 _ | .log2 _ | .sinpi _ | .cospi _ | .tanh _ | .sigm _ => some .f
  | .xcad _ _ _ _ | .xpopc _ _ _ | .xexp _ _ _ _ _ | .xmps _ | .xins _ _ _ _ | .xget _ _ _ _
  | .xsplat _ _ _ | .xadds _ _ _ _ | .xscan _ _ _ _ | .xcmp _ _ _ _ _ | .xtoq _ _ _ => some .x
  | .ld _ | .st _ | .vld _ | .vst _ | .vstPk6 _ | .vgath _ | .vscat _ | .vldb _ | .pst _ | .ldg _
  | .ldgAcq _ | .stg _ | .stgRel _ | .vldg _ | .vstg _ | .atomgAdd _ | .atomgMin _ | .atomgMax _
  | .atomgAnd _ | .atomgOr _ | .atomgXor _ | .atomgSwap _ | .atomgCas _ | .fence _ _
  | .fencex _ _ _ | .waita _ _ _ _ _ _ | .linv _ _ _ => some .m
  | .mcall _ | .mstat _ _ | .mput _ _ | .mget _ _ | .cellld _ _ _ _ | .flowset _ _ | .xwin _ _
  | .tsld _ _ | .tsst _ _ | .xcopy _ _ | .xgather _ _ | .embpool _ _ | .xcvt _ _ | .cgload _ _ _
  | .cgrun _ _ _ _ _ | .a2aDisp _ _ _ | .a2aComb _ _ _ | .repart _ _ _ | .txtEnc _ _ | .txtDec _ _
  | .txtMask _ _ => some .e
  | .nop | .add _ _ _ | .sub _ | .and _ | .or _ | .xor _ | .andn _ | .shl _ | .shr _ | .sar _ | .rol _
  | .min _ | .max _ | .mul _ | .mulh _ | .clz _ _ _ | .popc _ _ _ | .addi _ | .subi _ | .andi _ | .ori _
  | .xori _ | .shli _ | .shri _ | .sari _ | .mini _ | .maxi _ | .movi _ _ _ | .muli _ | .cmp _ _ _ _ _
  | .cmpi _ _ _ _ _ | .sel _ _ _ _ | .ext _ _ _ _ _ | .dep _ _ _ _ _ | .addsc _ _ _ _ | .pand _ | .por _
  | .pxor _ | .br _ | .call _ | .ret | .jmpi _ | .calli _ | .loop _ _ _ | .crd _ _ | .cwr _ _ | .cwrBindb _
  | .cwrSeqtb _ | .lvid _ _ _ | .phyid _ _ => some .s
  | .mupcAbort _ | .ecmdDisct _ | .ecmdDiscx _ | .printOpStart _ _ _ | .printOpDone _ _ _ _ |
    .engineCommandStart _ _ | .engineFaultDelivery _ | .pendingArrival _ | .registerCacheFill _ _ | .holdEnd _ |
    .nullifierSkip _ | .trapEntry _ _ _ _ _ | .waitaWake _ _ | .waitaTimeout _ | .waitcTimeout _ | .qgetTimeout _ |
    .qputTimeout _ | .fenceComplete _ | .releasePerform _ | .translationWalk _ _ _ | .lineWritebackFail _ _ _ |
    .remoteRequestTimeout _ | .readRequestReceive _ _ _ _ | .writeRequestReceive _ _ _ _ |
    .atomicRequestReceive _ _ _ _ _ _ _ | .responseReceive _ _ _ _ | .collectiveDataReceive _ _ _ _ _ _ _ |
    .switchReduce _ _ _ _ | .controlFlitReceive _ | .fabricPortDegrade _ _ | .planeLoss _ | .hostLinkTrain _ _ |
    .measuredBoot _ | .spdmGetMeasurements _ _ | .spdmChunkGet _ _ | .spdmRespondIfReady _ | .ownClaim _ _ _ |
    .ownRenew _ _ _ | .ownRelease _ _ | .ownHandover _ _ _ | .ownAccept _ _ _ | .stateWindowWrite _ _ _ |
    .deviceMemoryWrite _ _ _ | .lqtailWrite _ _ _ | .lqctlDisable _ _ _ | .launchRecordTake _ | .waitWordsMet _ |
    .treeBind _ | .launchEnd _ | .launchAbort _ _ | .gangPreempt _ _ _ | .gangResume _ _ _ | .gangStop _ |
    .podFailure _ _ | .xlinvcWrite _ _ | .queueDisable _ _ | .islctlWrite _ _ _ | .islandTransition _ |
    .powerManagerTick _ _ _ | .trshutWrite _ _ _ | .trdumpWrite _ _ _ | .rowSparing _ |
    .pseudoChannelFailure _ _ _ | .commandFinished _ _ | .poolLinkFault _ | .crcFailFlitReceive _ _ |
    .trdumpCopyDone _ | .spdmGetCertificate _ | .spdmChallenge _ _ | .resultLanding | .timesliceExpiry |
    .leaseExpiry | .handoverTimeout | .bindRetry | .xlatInvalidateDone | .hbmPatrolScrub | .sramPatrolScrub => none

/-- EXT of the IMM syllable that follows an instruction, if one does (R263). -/
def Instr.immExt : Instr → Option (BitVec 32)
  | .addi o | .subi o | .andi o | .ori o | .xori o | .mini o | .maxi o | .muli o => o.ext
  | .movi _ _ e => e
  | .cmpi _ _ _ _ e => e
  | .vmovi _ _ imm => some imm
  | .vfadd o | .vfsub o | .vfmul o | .vfma o | .vfms o | .vfnma o | .vdot2 o | .vdot4 o | .vdot8 o =>
      o.key
  | .vcvt o => o.key
  | .ld o | .st o | .ldg o | .ldgAcq o | .stg o | .stgRel o => o.m.ext
  | .vld o | .vst o | .vstPk6 o | .vgath o | .vscat o | .vldb o | .vldg o | .vstg o => o.m.ext
  | .pst o => o.m.ext
  | _ => none

/-- A well-formed syllable stands in a slot of its instruction's space. -/
def Syllable.wf (s : Syllable) : Bool := s.instrWf && slotSpace s.slot == s.instr.space

/-- The syllable word: STOP, SLOT, GN, GP, OPC and the operand fields (R256). -/
def syllableWord (stop : Bool) (slot : BitVec 4) (gn : Bool) (gp : BitVec 4) (opc : BitVec 10)
    (body : BitVec 44) : Word64 :=
  BitVec.ofBool stop ++ slot ++ BitVec.ofBool gn ++ gp ++ opc ++ body

/-- An IMM syllable (R263). -/
def immWord (stop : Bool) (ext : BitVec 32) : Word64 :=
  BitVec.ofBool stop ++ slotImm ++ 0#27 ++ ext

/-- The words of a syllable, the IMM syllable after it where it has one; STOP on the last word of
the bundle. An event has no words. -/
def encode (s : Syllable) (stop : Bool) : List Word64 :=
  match s.instr.fields, s.instr.immExt with
  | none, _ => []
  | some (opc, body), none => [syllableWord stop s.slot s.gn s.gp opc body]
  | some (opc, body), some ext =>
      [syllableWord false s.slot s.gn s.gp opc body, immWord stop ext]

/-- Reading back the words of one syllable: the word and the EXT of the IMM word after it. -/
def decodeWords (ws : List Word64) : Decoded Syllable :=
  match ws with
  | [w] => decodeSyllable w none
  | [w, i] => if fSlot i = slotImm ∧ immFieldsOk i then decodeSyllable w (some (fImm i)) else .rsvd
  | _ => .rsvd

end Sys2Proof
end

