-- ==== Sys2Proof/Machine/Flags.lean ====
section
/-!
DEFINITION. The floating-point flags of FPFLAGS (R248), and the flag results of the integer forms that
clamp (R247, R316).
-/

namespace Sys2Proof.Machine

/-- A set of flags: bits 6:0 of FPFLAGS (R248). -/
abbrev Flags := BitVec 7

def fINV : Flags := 0x01
def fDZE : Flags := 0x02
def fOVF : Flags := 0x04
def fUNF : Flags := 0x08
def fINX : Flags := 0x10
def fFLUSH : Flags := 0x20
def fSATN : Flags := 0x40

/-- A flag when a condition holds. -/
def flagIf (b : Bool) (f : Flags) : Flags := if b then f else 0

/-- The union of the flags of a list. -/
def orFlags (l : List Flags) : Flags := l.foldl (· ||| ·) 0

/-- The range of an integer type: its least and greatest value (R238). -/
def intRange (signed : Bool) (n : Nat) : Int × Int :=
  if signed then (-(2 ^ (n - 1) : Nat), (2 ^ (n - 1) : Nat) - 1) else (0, (2 ^ n : Nat) - 1)

/-- Clamp to the range of an integer type; SATN when it clamps (R247, R316). -/
def clampInt (signed : Bool) (n : Nat) (x : Int) : Int × Flags :=
  let (lo, hi) := intRange signed n
  if x < lo then (lo, fSATN) else if hi < x then (hi, fSATN) else (x, 0)

/-- The `n`-bit pattern of an integer. -/
def intBits (n : Nat) (x : Int) : Nat := (x % (2 ^ n : Nat)).toNat

/-- The value of an `n`-bit pattern. -/
def intVal (signed : Bool) (n v : Nat) : Int :=
  let v := v % 2 ^ n
  if signed ∧ 2 ^ (n - 1) ≤ v then (v : Int) - (2 ^ n : Nat) else v

end Sys2Proof.Machine
end

