-- ==== Sys2Proof/Machine/Numeric.lean ====
section
/-!
DEFINITION. Number formats and arithmetic (11): exact values, Round of R242, conversions, MIN and MAX,
exact dot products, the operators of atomics and accumulate-on-write, the special functions' bounds,
and Philox4x32-10.
-/

namespace Sys2Proof.Machine

/-! ## Formats (R237) -/

/-- The element formats of R237. -/
inductive FFmt
  | f32 | bf16 | f16 | e4m3 | e5m2 | e3m2 | e2m3 | e2m1
  deriving DecidableEq, Repr

/-- Mantissa width. -/
def FFmt.man : FFmt → Nat
  | .f32 => 23 | .bf16 => 7 | .f16 => 10 | .e4m3 => 3 | .e5m2 => 2 | .e3m2 => 2 | .e2m3 => 3 | .e2m1 => 1

/-- Exponent width. -/
def FFmt.exp : FFmt → Nat
  | .f32 => 8 | .bf16 => 8 | .f16 => 5 | .e4m3 => 4 | .e5m2 => 5 | .e3m2 => 3 | .e2m3 => 2 | .e2m1 => 2

/-- Bias. -/
def FFmt.bias : FFmt → Nat
  | .f32 => 127 | .bf16 => 127 | .f16 => 15 | .e4m3 => 7 | .e5m2 => 15 | .e3m2 => 3 | .e2m3 => 1 | .e2m1 => 1

/-- Bits in all. -/
def FFmt.width (f : FFmt) : Nat := 1 + f.exp + f.man

/-- The magnitude code of the largest finite value. -/
def FFmt.maxCode : FFmt → Nat
  | .f32 => 0x7F7FFFFF | .bf16 => 0x7F7F | .f16 => 0x7BFF | .e4m3 => 0x7E | .e5m2 => 0x7B
  | .e3m2 => 0x1F | .e2m3 => 0x1F | .e2m1 => 0x7

/-- The magnitude code of infinity, where the format has one. -/
def FFmt.infCode : FFmt → Option Nat
  | .f32 => some 0x7F800000 | .bf16 => some 0x7F80 | .f16 => some 0x7C00 | .e5m2 => some 0x7C
  | _ => none

/-- The canonical NaN; 0 where the format has none (R237, R246). -/
def FFmt.nan : FFmt → Nat
  | .f32 => 0x7FC00000 | .bf16 => 0x7FC0 | .f16 => 0x7E00 | .e4m3 => 0x7F | .e5m2 => 0x7E
  | _ => 0

/-- Emin = 1 − bias (R242). -/
def FFmt.emin (f : FFmt) : Int := 1 - (f.bias : Int)

/-- The magnitude of a code. -/
def FFmt.mag (f : FFmt) (b : Nat) : Nat := b % 2 ^ (f.width - 1)

/-- The sign bit of a code. -/
def FFmt.neg (f : FFmt) (b : Nat) : Bool := b.testBit (f.width - 1)

/-- A NaN code. -/
def FFmt.isNaN (f : FFmt) (b : Nat) : Bool :=
  match f with
  | .e4m3 => f.mag b == 0x7F
  | .e3m2 | .e2m3 | .e2m1 => false
  | _ => (f.infCode.getD 0) < f.mag b

/-- A signalling NaN of FP32, BF16 or FP16: its quiet bit is 0 (R241). -/
def FFmt.isSNaN (f : FFmt) (b : Nat) : Bool :=
  match f with
  | .f32 | .bf16 | .f16 => f.isNaN b && !b.testBit (f.man - 1)
  | _ => false

/-- A subnormal code: E = 0, M not 0 (R237). -/
def FFmt.isSub (f : FFmt) (b : Nat) : Bool := f.mag b != 0 && f.mag b < 2 ^ f.man

/-- The format of a floating type. -/
def ffmt : Ty → Option FFmt
  | .f32 => some .f32 | .bf16 => some .bf16 | .f16 => some .f16 | .e4m3 => some .e4m3
  | .e5m2 => some .e5m2 | .e3m2 => some .e3m2 | .e2m3 => some .e2m3 | .e2m1 => some .e2m1
  | _ => none

/-! ## Exact values -/

/-- An exact value: a NaN, an infinity, or (−1)^neg × m ÷ d × 2^e with d positive. -/
inductive XVal
  | nan
  | inf (neg : Bool)
  | num (neg : Bool) (m d : Nat) (e : Int)
  deriving DecidableEq, Repr

/-- The value of a code (R237). -/
def FFmt.val (f : FFmt) (b : Nat) : XVal :=
  if f.isNaN b then .nan
  else if some (f.mag b) = f.infCode then .inf (f.neg b)
  else
    let e := f.mag b / 2 ^ f.man
    let m := f.mag b % 2 ^ f.man
    if e = 0 then .num (f.neg b) m 1 (f.emin - f.man)
    else .num (f.neg b) (2 ^ f.man + m) 1 ((e : Int) - f.bias - f.man)

/-- An integer's exact value. -/
def XVal.ofInt (x : Int) : XVal := .num (x < 0) x.natAbs 1 0

/-- Zero, of either sign. -/
def XVal.isZero : XVal → Bool
  | .num _ m _ _ => m == 0
  | _ => false

/-- The sign. -/
def XVal.neg : XVal → Bool
  | .nan => false
  | .inf n => n
  | .num n _ _ _ => n

/-- The value with its sign changed. -/
def XVal.negate : XVal → XVal
  | .nan => .nan
  | .inf n => .inf (!n)
  | .num n m d e => .num (!n) m d e

/-- 2^k as a natural number for k ≥ 0, and 1 otherwise. -/
def pow2 (k : Int) : Nat := 2 ^ k.toNat

/-- Numerator and denominator of m ÷ d × 2^e. -/
def ratio (m d : Nat) (e : Int) : Nat × Nat := (m * pow2 e, d * pow2 (-e))

/-- The exact product; 0 × ∞ is a NaN, and the Bool says so (R318). -/
def XVal.mul : XVal → XVal → XVal × Bool
  | .nan, _ => (.nan, false)
  | _, .nan => (.nan, false)
  | .inf a, y => if y.isZero then (.nan, true) else (.inf (a != y.neg), false)
  | x, .inf b => if x.isZero then (.nan, true) else (.inf (x.neg != b), false)
  | .num a m d e, .num b n c f => (.num (a != b) (m * n) (d * c) (e + f), false)

/-- The exact signed numerator over a common scale. -/
def scaled (neg : Bool) (m : Nat) (e emin : Int) : Int :=
  let v : Int := (m * pow2 (e - emin) : Nat)
  if neg then -v else v

/-- The sign of an exact zero sum (R241): all terms −0, or RDN with terms of mixed sign or +0. -/
def zeroSign (allNeg rdn : Bool) : Bool := allNeg || rdn

/-- The exact sum; ∞ − ∞ is a NaN, and the Bool says so. -/
def XVal.add (rdn : Bool) : XVal → XVal → XVal × Bool
  | .nan, _ => (.nan, false)
  | _, .nan => (.nan, false)
  | .inf a, .inf b => if a = b then (.inf a, false) else (.nan, true)
  | .inf a, _ => (.inf a, false)
  | _, .inf b => (.inf b, false)
  | .num a m d e, .num b n c f =>
    let g := min e f
    let x := scaled a (m * c) e g + scaled b (n * d) f g
    if x = 0 then
      let both : Bool := m == 0 && n == 0 && a && b
      (.num (zeroSign both rdn) 0 1 0, false)
    else (.num (x < 0) x.natAbs (d * c) g, false)

/-- Comparison of two numbers or infinities, −0 equal to +0: less, equal. -/
def XVal.cmp : XVal → XVal → Ordering
  | .inf a, .inf b => if a = b then .eq else if a then .lt else .gt
  | .inf a, _ => if a then .lt else .gt
  | _, .inf b => if b then .gt else .lt
  | .num a m d e, .num b n c f =>
    let g := min e f
    compare (scaled a (m * c) e g) (scaled b (n * d) f g)
  | _, _ => .eq

/-! ## Rounding (R242, R243) -/

/-- floor(log2 (m ÷ d × 2^e)) of a positive value. -/
def floorLog2 (m d : Nat) (e : Int) : Int :=
  let k : Int := (Nat.log2 m : Int) - Nat.log2 d
  let (p, q) := ratio m d (-k)
  (if p < q then k - 1 else k) + e

/-- Whether the rounding goes from a to b = a + q away from zero: r ÷ den is |x − a| ÷ q. -/
def roundsUp (rm : Rm) (rnd : Word32) (neg odd : Bool) (r den : Nat) : Bool :=
  match rm with
  | .rne => den < 2 * r || (2 * r == den && odd)
  | .rtz => false
  | .rup => !neg && r != 0
  | .rdn => neg && r != 0
  | .sr => (rnd.toNat / 256) * den < r * 2 ^ 24

/-- A code with its sign. -/
def FFmt.signed (f : FFmt) (neg : Bool) (code : Nat) : Nat :=
  code + if neg then 2 ^ (f.width - 1) else 0

/-- ±∞, or ±Max where the format has no infinity. -/
def FFmt.infOrMax (f : FFmt) (neg : Bool) : Nat := f.signed neg (f.infCode.getD f.maxCode)

/-- Round of R242: the code and the flags. -/
def round (f : FFmt) (rm : Rm) (rnd : Word32) : XVal → Nat × Flags
  | .nan => (f.nan, 0)
  | .inf n => (f.infOrMax n, flagIf f.infCode.isNone (fOVF ||| fSATN))
  | .num n m d e =>
    if m = 0 then (f.signed n 0, 0)
    else
      let l := floorLog2 m d e
      let q : Int := max l f.emin - f.man
      let (p, den) := ratio m d (e - q)
      let a := p / den
      let r := p % den
      let up := roundsUp rm rnd n (a % 2 == 1) r den
      let y := if up then a + 1 else a
      let tiny : Bool := l < f.emin
      let code :=
        if y < 2 ^ f.man then y
        else if y < 2 ^ (f.man + 1) then ((q + f.man + f.bias).toNat) * 2 ^ f.man + (y - 2 ^ f.man)
        else ((q + 1 + f.man + f.bias).toNat) * 2 ^ f.man
      if f.maxCode < code then
        let away := match rm with
          | .rne | .sr => true
          | .rtz => false
          | .rup => !n
          | .rdn => n
        (f.signed n (if away then f.infCode.getD f.maxCode else f.maxCode),
          fOVF ||| fINX ||| flagIf f.infCode.isNone fSATN)
      else if r = 0 then (f.signed n code, 0)
      else (f.signed n code, fINX ||| flagIf tiny fUNF)

/-- RoundNE. -/
def roundNE (f : FFmt) (x : XVal) : Nat := (round f .rne 0 x).1

/-! ## Flushing (R244) -/

/-- Formats whose arithmetic flushes subnormals. -/
def FFmt.flushes : FFmt → Bool
  | .bf16 | .f16 => true
  | _ => false

/-- A flushed operand (R244). -/
def FFmt.flushIn (f : FFmt) (b : Nat) : Nat × Flags :=
  if f.flushes && f.isSub b then (f.signed (f.neg b) 0, fFLUSH) else (b, 0)

/-- A flushed result (R244). -/
def FFmt.flushOut (f : FFmt) (r : Nat × Flags) : Nat × Flags :=
  if f.flushes && f.isSub r.1 then (f.signed (f.neg r.1) 0, r.2 ||| fFLUSH ||| fUNF ||| fINX) else r

/-- INV for signalling NaN operands (R241). -/
def FFmt.sigFlag (f : FFmt) (l : List Nat) : Flags := flagIf (l.any f.isSNaN) fINV

/-! ## Element arithmetic (R318, R319, R250) -/

/-- a + b or a − b, rounded (R318). -/
def fadd (f : FFmt) (sub : Bool) (rm : Rm) (rnd : Word32) (a b : Nat) : Nat × Flags :=
  let (a', f1) := f.flushIn a
  let (b', f2) := f.flushIn b
  let y := f.val b'
  let (x, bad) := XVal.add (rm == .rdn) (f.val a') (if sub then y.negate else y)
  let r := f.flushOut (round f rm rnd x)
  (r.1, r.2 ||| f1 ||| f2 ||| f.sigFlag [a, b] ||| flagIf bad fINV)

/-- a × b, rounded. -/
def fmul (f : FFmt) (rm : Rm) (rnd : Word32) (a b : Nat) : Nat × Flags :=
  let (a', f1) := f.flushIn a
  let (b', f2) := f.flushIn b
  let (x, bad) := XVal.mul (f.val a') (f.val b')
  let r := f.flushOut (round f rm rnd x)
  (r.1, r.2 ||| f1 ||| f2 ||| f.sigFlag [a, b] ||| flagIf bad fINV)

/-- ±(a × b) ± c, fused: one rounding. -/
def ffma (f : FFmt) (negProd negC : Bool) (rm : Rm) (rnd : Word32) (a b c : Nat) : Nat × Flags :=
  let (a', f1) := f.flushIn a
  let (b', f2) := f.flushIn b
  let (c', f3) := f.flushIn c
  let (p, bad1) := XVal.mul (f.val a') (f.val b')
  let p := if negProd then p.negate else p
  let z := f.val c'
  let (x, bad2) := XVal.add (rm == .rdn) p (if negC then z.negate else z)
  let r := f.flushOut (round f rm rnd x)
  (r.1, r.2 ||| f1 ||| f2 ||| f3 ||| f.sigFlag [a, b, c] ||| flagIf (bad1 || bad2) fINV)

/-- Whether a is below b among numbers, −0 below +0 (R250). -/
def FFmt.below (f : FFmt) (a b : Nat) : Bool :=
  match XVal.cmp (f.val a) (f.val b) with
  | .lt => true
  | .gt => false
  | .eq => f.neg a && !f.neg b

/-- MinNum and MaxNum (R250). -/
def minMaxNum (f : FFmt) (max : Bool) (a b : Nat) : Nat × Flags :=
  let (a, f1) := f.flushIn a
  let (b, f2) := f.flushIn b
  let fl := f1 ||| f2
  if f.isSNaN a || f.isSNaN b then (f.nan, fl ||| fINV)
  else if f.isNaN a && f.isNaN b then (f.nan, fl)
  else if f.isNaN a then (b, fl)
  else if f.isNaN b then (a, fl)
  else (if f.below a b != max then a else b, fl)

/-- MinP and MaxP (R250). -/
def minMaxP (f : FFmt) (max : Bool) (a b : Nat) : Nat × Flags :=
  let (a, f1) := f.flushIn a
  let (b, f2) := f.flushIn b
  let fl := f1 ||| f2 ||| f.sigFlag [a, b]
  if f.isNaN a || f.isNaN b then (f.nan, fl)
  else (if f.below a b != max then a else b, fl)

/-! ## Conversions (R245 to R247) -/

/-- Floating point to floating point: exact when widening, else Round with R246's cases. -/
def convFF (src dst : FFmt) (rm : Rm) (rnd : Word32) (b : Nat) : Nat × Flags :=
  if src.isNaN b then
    (dst.nan, flagIf (src.isSNaN b || dst.nan == 0) fINV)
  else round dst rm rnd (src.val b)

/-- The integer nearest to a number by a rounding mode, and whether it is inexact. -/
def roundInt (rm : Rm) (rnd : Word32) (neg : Bool) (m d : Nat) (e : Int) : Int × Bool :=
  let (p, den) := ratio m d e
  let a := p / den
  let r := p % den
  let y : Int := (if roundsUp rm rnd neg (a % 2 == 1) r den then a + 1 else a : Nat)
  (if neg then -y else y, r != 0)

/-- Floating point to integer (R247). -/
def convFI (src : FFmt) (signed : Bool) (n : Nat) (rm : Rm) (rnd : Word32) (b : Nat) : Nat × Flags :=
  match src.val b with
  | .nan => (0, fINV)
  | .inf neg =>
    let (lo, hi) := intRange signed n
    (intBits n (if neg then lo else hi), fINV ||| fSATN)
  | .num neg m d e =>
    let (x, inexact) := roundInt rm rnd neg m d e
    let (y, sat) := clampInt signed n x
    (intBits n y, if sat = 0 then flagIf inexact fINX else fINV ||| fSATN)

/-- Integer to floating point (R247). -/
def convIF (signed : Bool) (n : Nat) (dst : FFmt) (rm : Rm) (rnd : Word32) (v : Nat) : Nat × Flags :=
  round dst rm rnd (XVal.ofInt (intVal signed n v))

/-- Integer to integer (R247). -/
def convII (signed : Bool) (n : Nat) (dsigned : Bool) (dn : Nat) (v : Nat) : Nat × Flags :=
  let (y, fl) := clampInt dsigned dn (intVal signed n v)
  (intBits dn y, fl)

/-- The bits of an element of a type as a lane holds it (R313). -/
def elemBits (ty : Ty) : Nat :=
  match ty with
  | .i8 | .n8 | .e4m3 | .e5m2 => 8
  | .i16 | .n16 | .bf16 | .f16 => 16
  | .e3m2 | .e2m3 => 6
  | .e2m1 => 4
  | .i64 | .n64 => 64
  | _ => 32

/-- The distance between elements of a type in a lane (R313). -/
def elemStride (ty : Ty) : Nat :=
  match ty with
  | .e3m2 | .e2m3 => 8
  | _ => elemBits ty

/-- Elements per lane (R313). -/
def elemCount (ty : Ty) : Nat := 32 / elemStride ty

/-- Element i of a lane. -/
def elem (ty : Ty) (x : Word32) (i : Nat) : Nat :=
  (x.toNat / 2 ^ (elemStride ty * i)) % 2 ^ elemBits ty

/-- A lane with element i replaced; the unused bits of a 6-bit element's byte are written as 0. -/
def setElem (ty : Ty) (x : Word32) (i v : Nat) : Word32 :=
  let w := elemStride ty
  let m : Word32 := (BitVec.ofNat 32 (2 ^ w - 1)) <<< (w * i)
  (x &&& ~~~m) ||| ((BitVec.ofNat 32 (v % 2 ^ elemBits ty)) <<< (w * i))

/-- Conv of R321. -/
def conv (sty ty : Ty) (rm : Rm) (rnd : Word32) (v : Nat) : Nat × Flags :=
  match ffmt sty, ffmt ty with
  | some f, some g => convFF f g rm rnd v
  | some f, none => convFI f ty.isSigned (elemBits ty) rm rnd v
  | none, some g => convIF sty.isSigned (elemBits sty) g rm rnd v
  | none, none => convII sty.isSigned (elemBits sty) ty.isSigned (elemBits ty) v

/-! ## Exact dot products (R251, R326) -/

/-- Terms of an exact sum: the products, or a term of its own. A sum that is exactly zero is −0 when every term
is −0, and under RDN (R241). -/
def sumTerms (rdnZero : Bool) (terms : List XVal) : XVal × Bool :=
  let nan := terms.any (· == .nan)
  let pos := terms.any (· == .inf false)
  let neg := terms.any (· == .inf true)
  if pos && neg then (.nan, true)
  else if nan then (.nan, false)
  else if pos then (.inf false, false)
  else if neg then (.inf true, false)
  else
    let allNegZero := !terms.isEmpty && terms.all fun t => t.isZero && t.neg
    let total := terms.foldl (fun a t => (XVal.add false a t).1) (.num false 0 1 0)
    if total.isZero then (.num (allNegZero || rdnZero) 0 1 0, false) else (total, false)

/-- A lane of VDOT: products of elements plus an FP32 accumulator, exact, rounded once (R326). -/
def dotLane (f : FFmt) (rm : Rm) (rnd : Word32) (xs ys : List Nat) (c : Nat) : Nat × Flags :=
  let prods := (xs.zip ys).map fun (x, y) => XVal.mul (f.val x) (f.val y)
  let (t, bad) := sumTerms (rm == .rdn) (prods.map Prod.fst ++ [FFmt.f32.val c])
  let r := round .f32 rm rnd t
  (r.1, r.2 ||| flagIf (bad || prods.any Prod.snd) fINV ||| f.sigFlag (xs ++ ys)
    ||| FFmt.f32.sigFlag [c])

/-- t × (sa × sb) rounded to FP32 (R251): an infinite t times a zero scale product is a NaN. -/
def scaleRound (t sa sb : XVal) : Nat :=
  let (s, _) := XVal.mul sa sb
  let (x, _) := XVal.mul t s
  roundNE .f32 x

/-- E8M0 widened to BF16 (R240). -/
def e8m0 (e : Nat) : Nat := if e = 0xFF then 0x7FC0 else if e = 0 then 0x0040 else e * 128

/-! ## Atomics and accumulate-on-write (R36 to R38) -/

/-- FP32 add with gradual underflow. -/
def addF32 (a b : Nat) : Nat := (fadd .f32 false .rne 0 a b).1

/-- BF16 add: RoundNE, subnormals flushed. -/
def addBf16 (a b : Nat) : Nat := (fadd .bf16 false .rne 0 a b).1

/-- An operation on both halves of a 32-bit word. -/
def halves (op : Nat → Nat → Nat) (a b : Nat) : Nat :=
  op (a % 65536) (b % 65536) % 65536 + 65536 * (op (a / 65536 % 65536) (b / 65536 % 65536) % 65536)

/-- The new value of an atomic (R348): `n` bits wide. -/
def atomValue (op : AtomOp) (ty : Ty) (old x compare : Nat) : Nat :=
  let n := 8 * (if ty = .bf16 then 4 else scalarWidth ty)
  let old := old % 2 ^ n
  let x := x % 2 ^ n
  match op with
  | .add =>
    match ty with
    | .f32 => addF32 old x
    | .bf16 => halves addBf16 old x
    | _ => (old + x) % 2 ^ n
  | .min =>
    if ty = .f32 then (minMaxNum .f32 false old x).1
    else if intVal true n x < intVal true n old then x else old
  | .max =>
    if ty = .f32 then (minMaxNum .f32 true old x).1
    else if intVal true n old < intVal true n x then x else old
  | .and => old &&& x
  | .or => old ||| x
  | .xor => old ^^^ x
  | .swap => x
  | .cas => if old = compare % 2 ^ n then x else old

/-- The element size of an accumulate format (R37). -/
def accSize (accop : Nat) : Nat := if accop = 6 then 8 else 4

/-- The valid pairs of ACCOP and FMT (R37). -/
def accValid (accop fmt : Nat) : Bool :=
  match accop with
  | 0 | 4 | 5 => fmt ≤ 3
  | 1 | 2 | 3 => fmt ≤ 2
  | 6 => fmt == 0 || fmt == 2
  | _ => false

/-- Whether a value is below another in a format of R37; a NaN is not below. -/
def accBelow (fmt a b : Nat) : Bool :=
  if fmt = 2 then intVal true 32 a < intVal true 32 b
  else !FFmt.f32.isNaN a && (FFmt.f32.isNaN b || FFmt.f32.below a b)

/-- Min-with-index (R37). FP32 values are taken by MinNum (R250): where it gives a NaN, for two NaNs or a
signalling NaN, the element is the canonical NaN with the lower of the two indices (log entry 104). -/
def minWithIndex (fmt old new : Nat) : Nat :=
  let (a, b) := (old % 2 ^ 32, new % 2 ^ 32)
  let low := min (old / 2 ^ 32) (new / 2 ^ 32)
  let m := (minMaxNum .f32 false a b).1
  if fmt = 0 ∧ FFmt.f32.isNaN m then m + 2 ^ 32 * low
  else if accBelow fmt b a then new
  else if accBelow fmt a b then old
  else a + 2 ^ 32 * low

/-- old ⊕ new for one element (R37, R38). -/
def accumulate (accop fmt old new : Nat) : Nat :=
  match accop with
  | 0 => new
  | 1 => match fmt with
    | 0 => addF32 old new
    | 1 => halves addBf16 old new
    | _ => (old + new) % 2 ^ 32
  | 2 => match fmt with
    | 0 => (minMaxNum .f32 false old new).1
    | 1 => halves (fun a b => (minMaxNum .bf16 false a b).1) old new
    | _ => if intVal true 32 new < intVal true 32 old then new else old
  | 3 => match fmt with
    | 0 => (minMaxNum .f32 true old new).1
    | 1 => halves (fun a b => (minMaxNum .bf16 true a b).1) old new
    | _ => if intVal true 32 old < intVal true 32 new then new else old
  | 4 => old ||| new
  | 5 => old &&& new
  | _ => minWithIndex fmt old new

/-- The switch's fold of one element over contributions in ascending rank (R39). A BF16 add replaces subnormal
halves of the contributions by zeros before it widens them (R244). -/
def switchFold (accop fmt : Nat) : List Nat → Nat
  | [] => 0
  | x :: xs =>
    if accop = 0 then x
    else if accop = 1 ∧ fmt = 1 then
      let wide (b : Nat) : Nat := (convFF .bf16 .f32 .rne 0 (FFmt.bf16.flushIn b).1).1
      let fold (h : Nat → Nat) : Nat := xs.foldl (fun a y => addF32 a (wide (h y))) (wide (h x))
      let back (v : Nat) : Nat := (FFmt.bf16.flushOut (convFF .f32 .bf16 .rne 0 v)).1
      back (fold (· % 65536)) + 65536 * back (fold (· / 65536 % 65536))
    else xs.foldl (accumulate accop fmt) x

/-! ## Special functions (R254) -/

/-- Fraction bits of the fixed-point enclosures. -/
def fx : Nat := 256

/-- A fixed-point product. -/
def fxMul (a b : Int) : Int := (a * b) / (2 ^ fx : Nat)

/-- 1.0 in fixed point. -/
def fxOne : Int := (2 ^ fx : Nat)

/-- Sum of t^k ÷ k! for k from i + 1 on, `n` terms, starting from the term t^i ÷ i!. -/
def expTail (t : Int) : Nat → Nat → Int → Int
  | 0, _, _ => 0
  | n + 1, i, term =>
    let next := fxMul term t / (i + 1)
    next + expTail t n (i + 1) next

/-- e^t − 1 for |t| ≤ 1, in fixed point, to within 2^−200. -/
def fxExpm1 (t : Int) : Int := expTail t 60 0 fxOne

/-- atanh z for |z| ≤ 1/3: the sum of z^(2k+1) ÷ (2k+1). -/
def atanhTail (z2 : Int) : Nat → Nat → Int → Int
  | 0, _, _ => 0
  | n + 1, k, p => p / (2 * k + 1) + atanhTail z2 n (k + 1) (fxMul p z2)

/-- ln 2 = 2 atanh(1/3). -/
def fxLn2 : Int := 2 * atanhTail (fxOne / 9) 80 0 (fxOne / 3)

/-- ln m for m in [1, 2). -/
def fxLn (m : Int) : Int :=
  let z := (m - fxOne) * fxOne / (m + fxOne)
  2 * atanhTail (fxMul z z) 80 0 z

/-- atan(1 ÷ n): the alternating sum. -/
def atanTail (n2 : Int) : Nat → Nat → Int → Int
  | 0, _, _ => 0
  | n + 1, k, p => p / (2 * k + 1) - atanTail n2 n (k + 1) (p / n2)

/-- π by Machin's formula. -/
def fxPi : Int := 16 * atanTail 25 60 0 (fxOne / 5) - 4 * atanTail (239 * 239) 20 0 (fxOne / 239)

/-- sin t for 0 ≤ t ≤ 2. -/
def sinTail (t2 : Int) : Nat → Nat → Int → Int
  | 0, _, _ => 0
  | n + 1, k, p => p - sinTail t2 n (k + 1) (fxMul p t2 / ((2 * k + 2) * (2 * k + 3)))

/-- e^t for any t of magnitude up to 64: (e^(t/64))^64. -/
def fxExp (t : Int) : Int :=
  (List.range 6).foldl (fun v _ => fxMul v v) (fxExpm1 (t / 64) + fxOne)

/-- A number m ÷ d × 2^e in fixed point, rounded down. -/
def fxOf (neg : Bool) (m d : Nat) (e : Int) : Int :=
  let (p, q) := ratio m d (e + fx)
  let v : Int := (p / q : Nat)
  if neg then -v else v

/-- The exact value of a fixed-point number. -/
def fxVal (v : Int) (scale : Int) : XVal := .num (v < 0) v.natAbs 1 (scale - fx)

/-- An enclosure of an exact result: a lower and an upper bound. -/
structure Encl where
  lo : XVal
  hi : XVal
  deriving DecidableEq, Repr

/-- A fixed-point value with its error of at most 2^−150 of the unit, scaled by 2^scale. -/
def enclose (v : Int) (scale : Int) : Encl :=
  let d : Int := (2 ^ (fx - 150) : Nat)
  ⟨fxVal (v - d) scale, fxVal (v + d) scale⟩

/-- The same with an error of at most 2^−230 of the unit. -/
def encloseFine (v : Int) : Encl :=
  let d : Int := (2 ^ (fx - 230) : Nat)
  ⟨fxVal (v - d) 0, fxVal (v + d) 0⟩

/-- The special functions, in opcode order (R288). -/
inductive SpFn
  | rcp | rsq | sqrt | exp2 | log2 | sinpi | cospi | tanh | sigm
  deriving DecidableEq, Repr

/-- The position of a function in opcode order. -/
def SpFn.ix : SpFn → Nat
  | .rcp => 0 | .rsq => 1 | .sqrt => 2 | .exp2 => 3 | .log2 => 4 | .sinpi => 5 | .cospi => 6
  | .tanh => 7 | .sigm => 8

/-- floor of the square root. -/
def isqrt (n : Nat) : Nat :=
  ((List.range (Nat.log2 n / 2 + 1)).reverse).foldl
    (fun r i => if (r + 2 ^ i) * (r + 2 ^ i) ≤ n then r + 2 ^ i else r) 0

/-- √(m ÷ d × 2^e) enclosed to about 2^−200 of itself. -/
def enclSqrt (m d : Nat) (e : Int) : Encl :=
  let k : Int := 2 * ((floorLog2 m d e - 400) / 2)
  let (p, q) := ratio m d (e - k)
  let r := isqrt (p / q)
  ⟨.num false r 1 (k / 2), .num false (r + 1) 1 (k / 2)⟩

/-- The fractional part and floor of a number. -/
def splitFloor (neg : Bool) (m d : Nat) (e : Int) : Int × Int :=
  let v := (if neg then -((m : Int) * pow2 e) else (m : Int) * pow2 e)
  let q : Int := (d * pow2 (-e) : Nat)
  (v / q, (v % q) * fxOne / q)

/-- sin(π r) for a fixed-point r in [0, 2). -/
def fxSinPi (r : Int) : Int :=
  let (r, neg) := if fxOne ≤ r then (r - fxOne, true) else (r, false)
  let r := if fxOne / 2 < r then fxOne - r else r
  let t := fxMul r fxPi
  let v := sinTail (fxMul t t) 40 0 t
  if neg then -v else v

/-- A number is an integer. -/
def isInteger (m d : Nat) (e : Int) : Bool :=
  let (p, q) := ratio m d e
  p % q == 0

/-- 1 ÷ (1 + e^−x), or that of −x, for a fixed-point x > 0. From 104 on it lies within 2^−150 of 1 or of 0 and reaches
neither: the numbers of FP32 within 2^−23 of it are those within 2^−23 of these bounds. -/
def enclSigm (neg : Bool) (x : Int) : Encl :=
  if 104 * fxOne ≤ x then
    if neg then ⟨.num false 1 1 (-200), .num false 1 1 (-150)⟩
    else ⟨.num false (2 ^ 150 - 1) 1 (-150), .num false (2 ^ 200 - 1) 1 (-200)⟩
  else
    let r := fxOne * fxOne / fxExp (x / 2)
    let w := fxMul r r
    encloseFine ((if neg then w else fxOne) * fxOne / (fxOne + w))

/-- An enclosure of the exact value of a function at a number in its domain; where it is a dyadic number, that number. -/
def SpFn.encl (fn : SpFn) (neg : Bool) (m d : Nat) (e : Int) : Encl :=
  match fn with
  | .rcp => ⟨.num neg d m (-e), .num neg d m (-e)⟩
  | .rsq => enclSqrt d m (-e)
  | .sqrt => enclSqrt m d e
  | .exp2 =>
    let (n, f) := splitFloor neg m d e
    enclose (fxExp (fxMul f fxLn2)) n
  | .log2 =>
    let l := floorLog2 m d e
    let x := fxOf false m d (e - l)
    enclose (l * fxOne + fxLn x * fxOne / fxLn2) 0
  | .sinpi =>
    let (n, f) := splitFloor neg m d e
    if isInteger m d (e + 1) then ⟨.num (n % 2 == 1) 1 1 0, .num (n % 2 == 1) 1 1 0⟩
    else enclose (fxSinPi ((n % 2) * fxOne + f)) 0
  | .cospi =>
    let (n, f) := splitFloor neg m d e
    let r := (n % 2) * fxOne + f + fxOne / 2
    enclose (fxSinPi (if 2 * fxOne ≤ r then r - 2 * fxOne else r)) 0
  | .tanh =>
    let t := 2 * fxOf false m d e
    let a : Int := if t ≤ fxOne then fxExpm1 t else fxExp t - fxOne
    let v := a * fxOne / (a + 2 * fxOne)
    encloseFine (if neg then -v else v)
  | .sigm => enclSigm neg (fxOf false m d e)

/-- The bound of R254 at an exact value with this floor(log2 |y|): a number of ulps, or absolute. -/
def SpFn.bound (fn : SpFn) (l : Int) (insideUnit : Bool) : XVal :=
  let ulp (n : Nat) : XVal := .num false n 1 (max l (-126) - 23)
  match fn with
  | .rcp | .sqrt => ulp 1
  | .rsq | .exp2 | .tanh => ulp 2
  | .log2 => if insideUnit then .num false 1 1 (-22) else ulp 2
  | .sinpi | .cospi => .num false 1 1 (-22)
  | .sigm => .num false 1 1 (-23)

/-- Whether a finite FP32 value lies within the bound of an enclosed exact value. -/
def withinBound (z : XVal) (c : Encl) (bound : XVal) : Bool :=
  XVal.cmp (XVal.add false c.lo bound.negate).1 z != .gt
    && XVal.cmp z (XVal.add false c.hi bound).1 != .gt

/-- floor(log2 |x|) of a nonzero number, and a small value for zero. -/
def XVal.log : XVal → Int
  | .num _ m d e => if m = 0 then -200 else floorLog2 m d e
  | _ => 0

/-- The result of a function at a finite nonzero number of its domain, not one of the special cases:
the free value of the module where it lies within the bound, else the exact value rounded. -/
def SpFn.inDomain (fn : SpFn) (b : Nat) (neg : Bool) (m d : Nat) (e : Int) : Nat × Flags :=
  let c := fn.encl neg m d e
  let unit : Bool := -1 ≤ floorLog2 m d e && (floorLog2 m d e ≤ 0 || (m == d * 2 ^ (1 - e).toNat))
  let (near, fl) := round .f32 .rne 0 c.hi
  let l := c.hi.log
  let z := (Config.special fn.ix (BitVec.ofNat 32 b)).toNat
  let ok := !FFmt.f32.isNaN z && FFmt.f32.mag z ≤ FFmt.f32.maxCode
    && withinBound (FFmt.f32.val z) c (fn.bound l unit)
  if (fl &&& fOVF) != 0 then (near, fOVF ||| fINX)
  else
    let y := if ok then z else near
    let exact : Bool := XVal.cmp c.lo (FFmt.f32.val y) == .eq && XVal.cmp c.hi (FFmt.f32.val y) == .eq
    (y, flagIf (!exact) fINX ||| flagIf (FFmt.f32.isSub y) fUNF)

/-- A special function of an FP32 code: R254's special cases, then its bound. -/
def specialFn (fn : SpFn) (b : Nat) : Nat × Flags :=
  let one := 0x3F800000
  let half := 0x3F000000
  let nanInv : Nat × Flags := (0x7FC00000, fINV)
  let sgn (n : Bool) (c : Nat) : Nat := FFmt.f32.signed n c
  match FFmt.f32.val b with
  | .nan => (0x7FC00000, FFmt.f32.sigFlag [b])
  | .inf n =>
    match fn with
    | .rcp => (sgn n 0, 0)
    | .rsq => if n then nanInv else (0, 0)
    | .sqrt => if n then nanInv else (0x7F800000, 0)
    | .exp2 => if n then (0, 0) else (0x7F800000, 0)
    | .log2 => if n then nanInv else (0x7F800000, 0)
    | .sinpi | .cospi => nanInv
    | .tanh => (sgn n one, 0)
    | .sigm => (if n then 0 else one, 0)
  | .num n m d e =>
    if m = 0 then
      match fn with
      | .rcp | .rsq => (sgn n 0x7F800000, fDZE)
      | .sqrt => (sgn n 0, 0)
      | .exp2 | .cospi => (one, 0)
      | .log2 => (0xFF800000, fDZE)
      | .sinpi => (0, 0)
      | .tanh => (sgn n 0, 0)
      | .sigm => (half, 0)
    else
      let x : XVal := .num n m d e
      match fn with
      | .rcp => fn.inDomain b n m d e
      | .rsq | .sqrt => if n then nanInv else
          let c := fn.encl n m d e
          let y := roundNE .f32 c.lo
          let yv := FFmt.f32.val y
          let want : XVal := if fn = .rsq then .num n d m (-e) else x
          let z := (fn.inDomain b n m d e).1
          let exact := y == z && XVal.cmp (XVal.mul yv yv).1 want == .eq
          if exact then (z, 0) else fn.inDomain b n m d e
      | .exp2 =>
        if XVal.cmp x (.num false 128 1 0) != .lt then (0x7F800000, fOVF ||| fINX)
        else if XVal.cmp x (.num true 150 1 0) == .lt then (0, fUNF ||| fINX)
        else if isInteger m d e && XVal.cmp x (.num true 149 1 0) != .lt then
          let k := (roundInt .rtz 0 n m d e).1
          let y := roundNE .f32 (.num false 1 1 k)
          (y, flagIf (FFmt.f32.isSub y) fUNF)
        else fn.inDomain b n m d e
      | .log2 =>
        if n then nanInv
        else if m = 2 ^ Nat.log2 m then
          let k := floorLog2 m d e
          (roundNE .f32 (XVal.ofInt k), 0)
        else fn.inDomain b n m d e
      | .sinpi => if isInteger m d e then (0, 0) else fn.inDomain b n m d e
      | .cospi =>
        if isInteger m d e then
          let k := (roundInt .rtz 0 n m d e).1
          (if k % 2 = 0 then one else sgn true one, 0)
        else if isInteger m d (e + 1) then (0, 0)
        else fn.inDomain b n m d e
      | .tanh =>
        if XVal.cmp (.num false m d e) (.num false 91 10 0) != .lt then (sgn n one, fINX)
        else fn.inDomain b n m d e
      | .sigm => fn.inDomain b n m d e

/-! ## Philox4x32-10 (R255) -/

/-- One round on the four counter words. -/
def philoxRound (k0 k1 : Word32) (c : Word32 × Word32 × Word32 × Word32) :
    Word32 × Word32 × Word32 × Word32 :=
  let (c0, c1, c2, c3) := c
  let p0 : Word64 := 0xD2511F53 * c0.setWidth 64
  let p1 : Word64 := 0xCD9E8D57 * c2.setWidth 64
  (p1.extractLsb' 32 32 ^^^ c1 ^^^ k0, p1.setWidth 32, p0.extractLsb' 32 32 ^^^ c3 ^^^ k1,
    p0.setWidth 32)

/-- Rounds with the key schedule. -/
def philoxRounds : Nat → Word32 → Word32 → Word32 × Word32 × Word32 × Word32 →
    Word32 × Word32 × Word32 × Word32
  | 0, _, _, c => c
  | n + 1, k0, k1, c =>
    philoxRounds n (k0 + 0x9E3779B9) (k1 + 0xBB67AE85) (philoxRound k0 k1 c)

/-- Philox4x32-10(key, counter): word `w` of the output. -/
def philox (key : Word64) (c0 c1 c2 c3 : Word32) (w : Nat) : Word32 :=
  let (a, b, c, d) := philoxRounds 10 (key.setWidth 32) (key.extractLsb' 32 32) (c0, c1, c2, c3)
  match w with
  | 0 => a
  | 1 => b
  | 2 => c
  | _ => d

/-- The rounding word of R243: output element e of lane position p. -/
def srWord (key stream : Word64) (p e : Nat) : Word32 :=
  philox key (BitVec.ofNat 32 p) (BitVec.ofNat 32 e) (stream.setWidth 32) (stream.extractLsb' 32 32) 0

end Sys2Proof.Machine
end

