-- ==== Sys2Proof/Machine/Scalar.lean ====
section
/-!
DEFINITION. Scalar arithmetic, compare, select, bit fields and predicates (R294 to R299). None of
them raises an execution cause (R296).
-/

namespace Sys2Proof.Machine

/-- n = 8 × Size(TY) (R294). -/
def tyBits (ty : Ty) : Nat := 8 * scalarWidth ty

/-- A result extended to 64 bits by the signedness of its type (R294). -/
def extendScalar (ty : Ty) (r : Nat) : Word64 :=
  BitVec.ofInt 64 (intVal ty.isSigned (tyBits ty) r)

/-- The low n bits of a register value. -/
def lowBits (ty : Ty) (x : Word64) : Nat := x.toNat % 2 ^ tyBits ty

/-- A shift right with copies of the top bit entering (R294). -/
def sarNat (n a c : Nat) : Nat := intBits n (intVal true n a / (2 ^ c : Nat))

/-- Rotate left (R294). -/
def rolNat (n a c : Nat) : Nat := if c = 0 then a else (a * 2 ^ c) % 2 ^ n ||| a / 2 ^ (n - c)

/-- The smaller or the larger, by signedness. -/
def minMaxInt (signed max : Bool) (n a b : Nat) : Nat :=
  if (intVal signed n a ≤ intVal signed n b) != max then a else b

/-- The high half of the exact product (R294). -/
def mulHigh (signed : Bool) (n a b : Nat) : Nat :=
  intBits n (intVal signed n a * intVal signed n b / (2 ^ n : Nat))

/-- The number of 1 bits among the low `n`. -/
def popNat (n a : Nat) : Nat := ((List.range n).filter a.testBit).length

/-- The number of leading zero bits within `n` bits. -/
def clzNat (n a : Nat) : Nat := if a = 0 then n else n - 1 - Nat.log2 a

/-- A two-operand scalar operation on n-bit values (R294). -/
def scalarR (f : Nat → Nat → Nat → Nat) (lat : Nat) (o : SArgs) (s : State) : Res :=
  let r := f (tyBits o.ty) (lowBits o.ty (s.rdS o.a)) (lowBits o.ty (s.rdS o.b))
  .next (s.putS o.d (extendScalar o.ty r) lat)

/-- NOP has no effect (R296). -/
def execNop (s : State) : Res := .next s

/-- ADD, with a loop counter as operand or destination (R294). -/
def execAdd (la ld : Bool) (o : SArgs) (s : State) : Res :=
  let a := if la then (s.rdLc o.a).setWidth 64 else s.rdS o.a
  let n := tyBits o.ty
  let r := (lowBits o.ty a + lowBits o.ty (s.rdS o.b)) % 2 ^ n
  let e := extendScalar o.ty r
  if ld then
    .next ((s.put (.lc o.d) ((e.setWidth 32).setWidth 512) 1).modFr fun f =>
      { f with lcWritten := o.d :: f.lcWritten })
  else .next (s.putS o.d e 1)

def execSub (o : SArgs) (s : State) : Res := scalarR (fun n a b => (a + 2 ^ n - b) % 2 ^ n) 1 o s
def execAnd (o : SArgs) (s : State) : Res := scalarR (fun _ a b => a &&& b) 1 o s
def execOr (o : SArgs) (s : State) : Res := scalarR (fun _ a b => a ||| b) 1 o s
def execXor (o : SArgs) (s : State) : Res := scalarR (fun _ a b => a ^^^ b) 1 o s
def execAndn (o : SArgs) (s : State) : Res :=
  scalarR (fun n a b => a &&& (b ^^^ (2 ^ n - 1))) 1 o s
def execShl (o : SArgs) (s : State) : Res :=
  scalarR (fun n a b => (a * 2 ^ (b % n)) % 2 ^ n) 1 o s
def execShr (o : SArgs) (s : State) : Res := scalarR (fun n a b => a / 2 ^ (b % n)) 1 o s
def execSar (o : SArgs) (s : State) : Res := scalarR (fun n a b => sarNat n a (b % n)) 1 o s
def execRol (o : SArgs) (s : State) : Res := scalarR (fun n a b => rolNat n a (b % n)) 1 o s
def execMin (o : SArgs) (s : State) : Res := scalarR (minMaxInt o.ty.isSigned false) 1 o s
def execMax (o : SArgs) (s : State) : Res := scalarR (minMaxInt o.ty.isSigned true) 1 o s
def execMul (o : SArgs) (s : State) : Res := scalarR (fun n a b => (a * b) % 2 ^ n) 3 o s
def execMulh (o : SArgs) (s : State) : Res := scalarR (mulHigh o.ty.isSigned) 3 o s

/-- CLZ counts leading zeros within n bits (R294). -/
def execClz (d a : Reg) (ty : Ty) (s : State) : Res :=
  .next (s.putS d (extendScalar ty (clzNat (tyBits ty) (lowBits ty (s.rdS a)))) 1)

/-- POPC counts 1 bits (R294). -/
def execPopc (d a : Reg) (ty : Ty) (s : State) : Res :=
  .next (s.putS d (extendScalar ty (popNat (tyBits ty) (lowBits ty (s.rdS a)))) 1)

/-- The immediate of R293: EXT : IMM32, or IMM32 sign-extended. -/
def immValue (imm : BitVec 32) (ext : Option (BitVec 32)) : Word64 :=
  match ext with
  | some e => e ++ imm
  | none => imm.signExtend 64

/-- A form I operation on 64 bits (R295). -/
def scalarI (f : Word64 → Word64 → Word64) (lat : Nat) (o : IArgs) (s : State) : Res :=
  .next (s.putS o.d (f (s.rdS o.a) (immValue o.imm o.ext)) lat)

def execAddi (o : IArgs) (s : State) : Res := scalarI (· + ·) 1 o s
def execSubi (o : IArgs) (s : State) : Res := scalarI (· - ·) 1 o s
def execAndi (o : IArgs) (s : State) : Res := scalarI (· &&& ·) 1 o s
def execOri (o : IArgs) (s : State) : Res := scalarI (· ||| ·) 1 o s
def execXori (o : IArgs) (s : State) : Res := scalarI (· ^^^ ·) 1 o s
def execMini (o : IArgs) (s : State) : Res := scalarI (fun a b => if a.sle b then a else b) 1 o s
def execMaxi (o : IArgs) (s : State) : Res := scalarI (fun a b => if a.sle b then b else a) 1 o s
def execMuli (o : IArgs) (s : State) : Res := scalarI (· * ·) 3 o s

def execShli (o : ShArgs) (s : State) : Res :=
  .next (s.putS o.d (s.rdS o.a <<< o.cnt.toNat) 1)
def execShri (o : ShArgs) (s : State) : Res :=
  .next (s.putS o.d (s.rdS o.a >>> o.cnt.toNat) 1)
def execSari (o : ShArgs) (s : State) : Res :=
  .next (s.putS o.d ((s.rdS o.a).sshiftRight o.cnt.toNat) 1)

/-- MOVI writes its immediate (R295). -/
def execMovi (d : Reg) (imm : BitVec 32) (ext : Option (BitVec 32)) (s : State) : Res :=
  .next (s.putS d (immValue imm ext) 1)

/-- The conditions of R297 on n-bit values. -/
def condHolds (c : Cond) (n a b : Nat) : Bool :=
  match c with
  | .eq => a == b
  | .ne => a != b
  | .lt => intVal true n a < intVal true n b
  | .ge => intVal true n b ≤ intVal true n a
  | .ltu => a < b
  | .geu => b ≤ a
  | .le => intVal true n a ≤ intVal true n b
  | .leu => a ≤ b

/-- The predicate pair p[2K], p[2K + 1] (R297). -/
def State.putPair (s : State) (k : BitVec 3) (b : Bool) : State :=
  (s.putP (0#2 ++ k ++ 0#1) b).putP (0#2 ++ k ++ 1#1) (!b)

/-- CMP compares the low n bits (R297). -/
def execCmp (k : BitVec 3) (cond : Cond) (a b : Reg) (ty : Ty) (s : State) : Res :=
  .next (s.putPair k
    (condHolds cond (tyBits ty) (lowBits ty (s.rdS a)) (lowBits ty (s.rdS b))))

/-- CMPI compares all 64 bits with the immediate (R297). -/
def execCmpi (k : BitVec 3) (cond : Cond) (a : Reg) (imm : BitVec 32) (ext : Option (BitVec 32))
    (s : State) : Res :=
  .next (s.putPair k (condHolds cond 64 (s.rdS a).toNat (immValue imm ext).toNat))

/-- SEL (R298). -/
def execSel (d a b p : Reg) (s : State) : Res :=
  .next (s.putS d (if s.rdP p then s.rdS a else s.rdS b) 1)

/-- EXT takes a bit field (R298). -/
def execExt (d a : Reg) (pos w1 : BitVec 6) (sgn : Bool) (s : State) : Res :=
  let w := w1.toNat + 1
  let f := (s.rdS a).toNat / 2 ^ pos.toNat % 2 ^ w
  .next (s.putS d (BitVec.ofInt 64 (intVal sgn w f)) 1)

/-- DEP replaces a bit field (R298). -/
def execDep (d a b : Reg) (pos w1 : BitVec 6) (s : State) : Res :=
  let m : Word64 := (BitVec.ofNat 64 (2 ^ (w1.toNat + 1) - 1)) <<< pos.toNat
  .next (s.putS d ((s.rdS a &&& ~~~m) ||| ((s.rdS b <<< pos.toNat) &&& m)) 1)

/-- ADDSC adds a scaled operand (R298). -/
def execAddsc (d a b : Reg) (sh : BitVec 3) (s : State) : Res :=
  .next (s.putS d (s.rdS a + (s.rdS b <<< sh.toNat)) 1)

/-- A predicate combination (R299). -/
def predOp (f : Bool → Bool → Bool) (o : PArgs) (s : State) : Res :=
  .next (s.putP o.d (f (s.rdP o.a != o.na) (s.rdP o.b != o.nb)))

def execPand (o : PArgs) (s : State) : Res := predOp (· && ·) o s
def execPor (o : PArgs) (s : State) : Res := predOp (· || ·) o s
def execPxor (o : PArgs) (s : State) : Res := predOp (· != ·) o s

end Sys2Proof.Machine
end

