-- ==== Sys2Proof/Machine/Control.lean ====
section
/-!
DEFINITION. Branches, calls and the return stack (R228, R268, R300), hardware loops (R301, R302),
SEQSEL (R125), SPAWN, YIELD and HALT (R109, R110, R308, R309), TRAP and TRET (R310, R311).
-/

namespace Sys2Proof.Machine

/-- A taken branch: the first in the order S0, S1, C wins (R268). -/
def State.takeBranch (s : State) (target : Word64) : State :=
  match s.fr.branch with
  | none => s.modFr fun f => { f with branch := some (f.slot, target) }
  | some _ => s

/-- Whether the issuing branch syllable would win (R268). -/
def State.wins (s : State) : Bool := s.fr.branch.isNone

/-- ALIGN at the jumping bundle, with the target (R268). -/
def State.trapTarget (s : State) (target : Word64) : State := s.trap cALIGN target 3

/-- A branch target is 8-byte aligned. -/
def aligned8 (a : Word64) : Bool := bits a 0 3 == 0

/-- The target of a form I branch (R268). -/
def State.relTarget (s : State) (disp : BitVec 32) : Word64 := s.fr.pc + disp.signExtend 64 * 8

/-- A branch without a return-stack effect, to a target checked for alignment. -/
def State.branchTo (s : State) (target : Word64) : State :=
  if aligned8 target then s.takeBranch target else s.trapTarget target

/-- BR in S0 or S1 (R300). -/
def execBr (disp : BitVec 32) (s : State) : Res := .next (s.branchTo (s.relTarget disp))

/-- BR in C (R300). -/
def execBrC (disp : BitVec 32) (s : State) : Res := .next (s.branchTo (s.relTarget disp))

/-- JMPI (R300). -/
def execJmpi (a : Reg) (s : State) : Res := .next (s.branchTo (s.rdS a))

/-! ## The return stack (R228) -/

/-- DETAIL of SPILL kinds 1 and 2 from a refused translation (R228). -/
def spillDetail (kind : Nat) : XRes → BitVec 32
  | .xlate r l => BitVec.ofNat 32 (kind + r * 2 ^ 8 + l * 2 ^ 16)
  | .perm r => BitVec.ofNat 32 (kind + r * 2 ^ 8 + 2 ^ 18)
  | .ok _ _ _ _ => BitVec.ofNat 32 kind

/-- What a push or a pop comes to. -/
inductive StackRes
  /-- The stack after it, and the entry popped. -/
  | ok (s : State) (entry : Word64)
  /-- SPILL with its EADDR and DETAIL. -/
  | spill (eaddr : Word64) (detail : BitVec 32)

/-- The address of spill entry `i` of the context (R104, R228). -/
def State.spillAddr (s : State) (i : Nat) : Word64 :=
  s.ctx.ctrl.rsb + BitVec.ofNat 64 (0x8000 + 8 * i)

/-- Push of R228: with 16 resident entries the oldest is spilled to its home. -/
def State.push (s : State) (x : Word64) : StackRes :=
  let c := s.ctx
  if c.retStack.length < 16 then .ok (s.modCtx fun c => { c with retStack := x :: c.retStack }) 0
  else if 2048 ≤ c.spilled then .spill 0 4
  else
    let a := s.spillAddr c.spilled
    let oldest := c.retStack.getLastD 0
    match s.translate a .write with
    | .ok tgt modId pa _ =>
      let (s', r) := s.homeWrite (dieOf s.coreIx) tgt modId pa 1024 (natToBytes 8 oldest.toNat)
      match r with
      | .ok => .ok (s'.modCtx fun c =>
          { c with retStack := x :: c.retStack.dropLast, spilled := c.spilled + 1 }) 0
      | .uncorrectable => .spill a 3
      | _ => .spill a (spillDetail 1 (.perm 11))
    | e => .spill a (spillDetail 1 e)

/-- Pop of R228: with no resident entry the last spilled one is filled from its home. -/
def State.pop (s : State) : StackRes :=
  let c := s.ctx
  match c.retStack with
  | x :: rest => .ok (s.modCtx fun c => { c with retStack := rest }) x
  | [] =>
    if c.spilled = 0 then .spill 0 5
    else
      let a := s.spillAddr (c.spilled - 1)
      match s.translate a .read with
      | .ok tgt modId pa _ =>
        let (data, r) := s.homeRead (dieOf s.coreIx) tgt modId pa 8 1032
        match r with
        | .ok => .ok (s.modCtx fun c => { c with spilled := c.spilled - 1 })
            (BitVec.ofNat 64 (bytesToNat data))
        | .uncorrectable => .spill a 3
        | _ => .spill a (spillDetail 2 (.perm 11))
      | e => .spill a (spillDetail 2 e)

/-- Whether the issuing branch syllable has lost its bundle to an earlier one: it is performed without any effect, and
its traps have been judged before (R268). -/
def State.loses (s : State) : Bool := !s.fr.judging && !s.wins

/-- A call to a target: the next bundle address is pushed when the syllable wins (R300). -/
def State.callTo (s : State) (target : Word64) : State :=
  if s.loses then s
  else if !aligned8 target then s.trapTarget target
  else match s.push s.fr.next with
    | .spill a d => s.trap cSPILL a d
    | .ok s' _ => if s.wins then s'.takeBranch target else s

/-- CALL (R300). -/
def execCall (disp : BitVec 32) (s : State) : Res := .next (s.callTo (s.relTarget disp))

/-- CALLI (R300). -/
def execCalli (a : Reg) (s : State) : Res := .next (s.callTo (s.rdS a))

/-- RET (R300): a popped target that is not aligned raises ALIGN, and nothing is popped. SPILL comes
after ALIGN in the order of R218, but without an entry there is no target to judge. -/
def execRet (s : State) : Res :=
  if s.loses then .next s
  else match s.pop with
  | .spill a d => .next (s.trap cSPILL a d)
  | .ok s' x =>
    .next (if !aligned8 x then s.trapTarget x else if s.wins then s'.takeBranch x else s)

/-! ## Loops (R301 to R303) -/

/-- A loop entry becomes inactive; the entries behind it move up in rank. -/
def Ctx.stopLoop (c : Ctx) (n : Fin 4) : Ctx :=
  let o := (c.loops.get n).order
  let up : LoopEntry → LoopEntry := fun e =>
    if e.active ∧ o < e.order then { e with order := e.order - 1 } else e
  if (c.loops.get n).active then
    let c := allCtxs.foldl (fun c (k : Fin 4) =>
      { c with loops := c.loops.set k.val (up (c.loops.get k)) k.isLt }) c
    { c with loops := c.loops.set n.val LoopEntry.inactive n.isLt }
  else c

/-- A loop entry starts as the most recent (R301). -/
def Ctx.startLoop (c : Ctx) (n : Fin 4) (start exit : Word64) : Ctx :=
  let c := c.stopLoop n
  let down : LoopEntry → LoopEntry := fun e => if e.active then { e with order := e.order + 1 } else e
  let c := allCtxs.foldl (fun c (k : Fin 4) =>
    { c with loops := c.loops.set k.val (down (c.loops.get k)) k.isLt }) c
  { c with loops := c.loops.set n.val ⟨true, 0, bundleBits start, bundleBits exit⟩ n.isLt }

/-- A write of a loop counter by a syllable: it lands after one cycle, and stands over the loop
check's own write (R302). -/
def State.putLc (s : State) (r : Reg) (x : Word32) : State :=
  (s.put (.lc r) (x.setWidth 512) 1).modFr fun f => { f with lcWritten := r :: f.lcWritten }

/-- LOOP (R301). -/
def execLoop (d a : Reg) (len : BitVec 32) (s : State) : Res :=
  let cnt : Word32 := (s.rdS a).setWidth 32
  let start := s.fr.next
  let exit := start + len.setWidth 64 * 8
  if cnt = 0 then
    if s.fr.anyBranch then .next s
    else .next (((s.putLc d 0).modCtx (·.stopLoop (ix4 d))).modFr fun f =>
      { f with goto := some exit })
  else .next ((s.putLc d cnt).modCtx (·.startLoop (ix4 d) start exit))

/-! ## SEQSEL (R125, R307) -/

/-- The target of SEQSEL, when its entry in the sequence cache is usable (R125). -/
def State.seqTarget (s : State) : Option Word64 :=
  let i := 16 * bits s.ctx.ctrl.occ 0 3 + bits s.ctx.ctrl.dlen 0 4
  let e := s.ctx.seqCache.getD i 0
  let off := bits e 0 32
  if e.getLsbD 63 ∧ bits e 32 31 = 0 ∧ off % 8 = 0 ∧ off < s.launch.info.codeLen then
    some (s.instBase + BitVec.ofNat 64 off)
  else none

/-- SEQSEL (R125). -/
def execSeqsel (s : State) : Res :=
  match s.seqTarget with
  | some t => .next (s.takeBranch t)
  | none => .next s

/-! ## SPAWN, YIELD, HALT -/

/-- The state codes of R101. -/
def CtxState.code : CtxState → Nat
  | .free => 0 | .idle => 1 | .ready => 2 | .running => 3 | .waiting => 4 | .preempted => 5
  | .halted => 6

/-- The arguments of SPAWN reach s1 to s8 of the target, over any of its results that land later: those in
flight and those still pending (R308). -/
def Ctx.giveArgs (c : Ctx) (args : List Word64) : Ctx :=
  let isArg : Dest → Bool := fun d =>
    match d with
    | .s r => 1 ≤ r.toNat && r.toNat ≤ 8
    | _ => false
  let c := { c with
    flight := c.flight.filter fun f => !isArg f.dest
    latent := c.latent.filter fun l => !isArg l.flight.dest
    pend := c.pend.map fun p => { p with parts := p.parts.filter fun (d, _) => !isArg d } }
  args.zipIdx.foldl
    (fun c (x, i) => c.land (.s (BitVec.ofNat 6 (i + 1))) (x.setWidth 512)) c

/-- A register line is asked for (R161). -/
def State.askFill (s : State) (c : CtxNo) (l : Nat) : State :=
  if s.core.fills.contains (c, l) then s
  else s.modCore fun k => { k with fills := k.fills ++ [(c, l)] }

/-- SPAWN (R109, R308): ALIGN, then SPAWNBUSY; it freezes until line 0 of the target is resident. -/
def execSpawn (c : CtxNo) (a b : Reg) (s : State) : Res :=
  let entry := s.rdS a
  let x := s.ctxAt c
  if !aligned8 entry then .next (s.trap cALIGN entry 3)
  else if c = s.fr.ctx ∨ x.bind.lslot ≠ s.ctx.bind.lslot ∨ x.state ≠ .idle then
    .next (s.trap cSPAWNBUSY 0 (BitVec.ofNat 32 x.state.code))
  else if !x.resident.getLsbD 0 then .next ((s.askFill c 0).freezeFor .fill)
  else
    let args := (List.range 8).map fun i => s.rdS (b + BitVec.ofNat 6 i)
    .next (s.modCtxAt c fun x =>
      { x.giveArgs args with pc := entry, state := .ready, readySince := s.core.now })

/-- YIELD hands the issue slot back (R110). -/
def execYield (s : State) : Res := .next (s.modFr fun f => { f with leaves := some .ready })

/-- HALT makes the context IDLE (R110, R309). -/
def execHalt (s : State) : Res := .next (s.modFr fun f => { f with leaves := some .idle })

/-! ## TRAP and TRET -/

/-- TRAP raises SWTRAP after its bundle has taken its whole effect (R310). -/
def execTrap (code : BitVec 16) (s : State) : Res :=
  .next (s.modFr fun f => { f with trapAfter := some (code, f.syl) })

/-- The context's suspended engine commands run again (R224, R229): its text commands re-enter their queue at the tail,
in their order (R198). -/
def State.resumeCommands (s : State) (c : CtxNo) : State :=
  let go : Cmd → Cmd := fun m =>
    if m.ctx == c && m.core == s.coreIx && m.run == .suspended then { m with run := .running } else m
  let s := s.modCore fun k => { k with mqueue := k.mqueue.map go, cqueue := k.cqueue.map go }
  let mine : Cmd → Bool := fun m => m.ctx == c && m.core == s.coreIx && m.run == .suspended
  ((s.queueOf .text).filter mine).foldl
    (fun s m => s.modQueue m fun q => dropCmd q m ++ [{ m with run := .queued, prog := 0 }]) s

/-- TRET (R224, R311): ILLSTATE outside handler mode, BADSTATUS on a reserved saved bit, no effect
where an S-slot branch is taken. -/
def execTret (s : State) : Res :=
  let st := s.ctx.ctrl.status
  if !st.getLsbD 0 then .next (s.trap cILLSTATE 0 0)
  else if bits st 33 31 ≠ 0 then .next (s.trap cBADSTATUS 0 0)
  else if !s.wins then .next s
  else
    let target := s.ctx.ctrl.epc
    .next (((s.modCtx Ctx.leaveHandler).resumeCommands s.fr.ctx |>.takeBranch target).note
      rankOther 3 5 0 target)

end Sys2Proof.Machine
end

