-- ==== Sys2Proof/Machine/System.lean ====
section
/-!
DEFINITION. Control registers (R269 to R275, R304), the tables a CWR to BINDB or SEQTB reads (R124,
R145, R146), and tree and physical identity (R305, R306).
-/

namespace Sys2Proof.Machine

/-! ## Reading control registers -/

/-- STATUS as it reads: EPEND shows an engine fault that waits for delivery (R219, R230). -/
def Ctx.statusWord (c : Ctx) : Word64 :=
  if c.hm ∧ !c.waits.faults.isEmpty then c.ctrl.status ||| 4 else c.ctrl.status

/-- The command of a context of the selected core that an engine has suspended: after a fault, or because the context
has stopped for pre-emption (R114, R191, R192, R231). -/
def State.interrupted (s : State) (e : Engine) (c : CtxNo) : Option Cmd :=
  (s.suspended e c).or
    (if (s.ctxAt c).state = .preempted then
      (s.queueOf e).find? fun m => m.ctx == c && m.core == s.coreIx && m.run == .running
    else none)

/-- MUPC of a context of the selected core (R191). -/
def State.mupc (s : State) (c : CtxNo) : Word64 :=
  match s.interrupted .matrix c with
  | none => 0
  | some m =>
    0x4000000000000000 ||| BitVec.ofNat 64
      (m.slot.toNat * 2 ^ 48 + m.routine.pipe.toNat * 2 ^ 46 + m.routine.upc % 4096)

/-- RPROG (R191). -/
def State.rprog (s : State) (c : CtxNo) : Word64 :=
  match s.interrupted .matrix c with
  | none => 0
  | some m => BitVec.ofNat 64 (m.routine.kdone % 2 ^ 32 * 2 ^ 32 + m.routine.ncol * 2 ^ 23
      + m.routine.wrow * 2 ^ 15 + m.routine.drow * 2 ^ 7)

/-- ECMD (R231). -/
def State.ecmd (s : State) (c : CtxNo) : Word64 :=
  let t : Nat := match s.interrupted .copy c with
    | none => 0
    | some m => 2 ^ 61 + (if m.op = .xcvt then m.phase % 4 * 2 ^ 32 else 0) + m.prog % 2 ^ 32
  let x : Nat := if (s.suspended .text c).isSome then 2 ^ 60 else 0
  BitVec.ofNat 64 (t + x)

/-- FPFLAGS as the issuing syllable reads it: each flag bit of a result in flight old or new (R249). -/
def State.rdFlags (s : State) : Word64 :=
  (s.ctx.flight.zipIdx).foldl
    (fun w (f, k) =>
      match f.dest with
      | .flags => (List.range 7).foldl
          (fun w b => if f.value.getLsbD b && Config.inFlight s.free s.fr.syl 300 b k
            then w ||| (1 <<< b) else w) w
      | _ => w) s.ctx.ctrl.fpflags

/-- A control register as CRD reads it (R269). -/
def State.rdCr (s : State) (idx : Reg) : Word64 :=
  let k := s.ctx.ctrl
  match idx.toNat with
  | 0 => s.ctx.statusWord
  | 1 => k.epc
  | 2 => k.ecause
  | 3 => k.eaddr
  | 4 => k.einfo
  | 5 => k.tvec
  | 6 => k.rsb
  | 7 => if s.pod.lprof then 1 else 0
  | 8 => k.fmtb
  | 9 => k.bindb
  | 10 => k.seqtb
  | 11 => k.occ
  | 12 => k.dlen
  | 13 => s.rdFlags
  | 14 => k.trcctl
  | 15 => s.mupc s.fr.ctx
  | 16 => s.rprog s.fr.ctx
  | 17 => s.ecmd s.fr.ctx
  | _ => s.core.counters.cycles

/-- CRD (R304). -/
def execCrd (d idx : Reg) (s : State) : Res := .next (s.putS d (s.rdCr idx) 1)

/-! ## Writing control registers -/

/-- PERM reason 6: a malformed control-register value (R137). -/
def State.trapCr (s : State) : State := s.trap cPERM 0 6

/-- The check a CWR makes at issue (R191, R215, R219, R220, R231, R235, R248, R270, R273): whether
the value may be written. -/
def State.crOk (s : State) (idx : Reg) (x : Word64) : Bool :=
  match idx.toNat with
  | 0 => bits x 4 28 == 0
  | 1 => bits x 56 8 == 0 && bits x 0 3 == 0
  | 5 => bits x 56 8 == 0 && bits x 0 3 == 0
  | 8 => bits x 56 8 == 0 && bits x 0 9 == 0
  | 11 => bits x 3 61 == 0
  | 12 => bits x 4 60 == 0
  | 13 => bits x 7 57 == 0
  | 14 => bits x 5 59 == 0
  | 15 => bits x 0 63 == 0 && (!x.getLsbD 63 || (s.suspended .matrix s.fr.ctx).isSome)
  | 17 => bits x 34 26 == 0
      && (!x.getLsbD 63 || (s.suspended .copy s.fr.ctx).isSome)
      && (!x.getLsbD 62 || (s.suspended .text s.fr.ctx).isSome)
  | _ => false

/-- CWR of a register other than BINDB and SEQTB (R304). -/
def execCwr (a idx : Reg) (s : State) : Res :=
  let x := s.rdS a
  .next (if s.crOk idx x then s.put (.cr idx) (x.setWidth 512) 1 else s.trapCr)

/-- The discard that a CWR of MUPC with ABORT makes when it lands (R191). -/
def execMupcAbort (c : CtxNo) (s : State) : Res := .next (s.discard .matrix c)

/-- The discard that a CWR of ECMD with DISCT makes when it lands (R231). -/
def execEcmdDisct (c : CtxNo) (s : State) : Res := .next (s.discard .copy c)

/-- The discard that a CWR of ECMD with DISCX makes when it lands (R231). -/
def execEcmdDiscx (c : CtxNo) (s : State) : Res := .next (s.discard .text c)

/-- Bytes of a table in global virtual memory, read in chunks of `n` bytes of which no one crosses a
page: XLATE, PERM, PERM reason 11 or DATAERR where a read meets them (R124, R145). -/
def State.readTable (s : State) (va : Word64) (n place : Nat) : Nat → Judged (List Byte)
  | 0 => .ok []
  | k + 1 =>
    match s.translateJudged va .read with
    | .bad c a d => .bad c a d
    | .ok (tgt, modId, pa, _) =>
      let (data, r) := s.homeRead (dieOf s.coreIx) tgt modId pa n place
      match r with
      | .ok =>
        match s.readTable (va + BitVec.ofNat 64 n) n (place + n) k with
        | .ok rest => .ok (data ++ rest)
        | e => e
      | .uncorrectable => .bad cDATAERR va ((s.freeWord 900) &&& 0xF)
      | _ => .bad cPERM va 11

/-- The words of a byte list. -/
def words64 : Nat → List Byte → List Word64
  | 0, _ => []
  | n + 1, l => BitVec.ofNat 64 (bytesToNat (l.take 8)) :: words64 n (l.drop 8)

/-- The core freezes until the table read completes (R159). -/
def State.freezeTable (s : State) : State := s.modCore fun k => { k with tableRead := true }

/-- CWR of SEQTB: PERM for a reserved bit, ALIGN for a low bit, then the 1,024-byte table (R124,
R274). -/
def execCwrSeqtb (a : Reg) (s : State) : Res :=
  let x := s.rdS a
  if bits x 56 8 ≠ 0 then .next s.trapCr
  else if bits x 0 6 ≠ 0 then .next (s.trap cALIGN x 6)
  else match s.readTable x 64 2048 16 with
    | .bad c e d => .next (s.trap c e d)
    | .ok data =>
      .next (((s.put (.cr 10) (x.setWidth 512) 1).modCtx fun c =>
        { c with newSeq := some (words64 128 data) }).freezeTable)

/-- A binding entry of 32 bytes (R146). -/
def bindEntry (b : List Byte) : BindEntry :=
  ⟨BitVec.ofNat 64 (fieldNat b 0 8), BitVec.ofNat 64 (fieldNat b 8 8),
    BitVec.ofNat 64 (fieldNat b 16 8), BitVec.ofNat 6 (fieldNat b 24 1),
    BitVec.ofNat 5 (fieldNat b 25 1)⟩

/-- The number of gang nodes and of contexts of a tree (R88, R104). -/
def Tree.gangs (t : Tree) : Nat := ((t.fan.take (t.gang + 1)).drop 1).foldl (· * ·) 1
def Tree.contexts (t : Tree) : Nat := t.size 0

/-- The base of the context areas (R104). -/
def LaunchInfo.areas (l : LaunchInfo) : Nat := l.instArea.toNat + l.tree.gangs * l.instSize

/-- The check of one binding entry, with its index (R146). The rule names the limits of SYNC and of RBASE and not what
bits 63:56 do: an entry that sets them is malformed; nor the address that the trap reports: it is 0 for reason 7 and
RBASE for reason 10 (DESIGN CHOICE, log entry 109). -/
def State.checkBind (s : State) (b : List Byte) (i : Nat) : Judged BindEntry :=
  let e := bindEntry b
  let lvl := fieldNat b 24 1
  let info := s.launch.info
  let lo := info.areas
  let hi := lo + 65536 * info.tree.contexts
  let r := e.rbase.toNat
  let len := e.rlen.toNat
  if 64 ≤ lvl ∨ !s.tree.levelOk e.level true then .bad cLEVEL 0 (BitVec.ofNat 32 (lvl % 64))
  else if bits e.sync 0 3 ≠ 0 ∨ bits e.sync 56 8 ≠ 0 ∨ r % 128 ≠ 0 ∨ bits e.rbase 56 8 ≠ 0
      ∨ len % 128 ≠ 0 ∨ len < 128 ∨ 2 ^ 40 < len ∨ e.paths = 0 ∨ 32 ≤ fieldNat b 25 1
      ∨ fieldNat b 26 6 ≠ 0 then
    .bad cPERM 0 (BitVec.ofNat 32 (7 + i * 2 ^ 16))
  else if r < hi ∧ lo < r + len then .bad cPERM e.rbase (BitVec.ofNat 32 (10 + i * 2 ^ 16))
  else .ok e

/-- The entries of a binding table, checked in index order (R146). -/
def State.checkBinds (s : State) : Nat → Nat → List Byte → Judged (List BindEntry)
  | 0, _, _ => .ok []
  | n + 1, i, l =>
    match s.checkBind (l.take 32) i with
    | .bad c a d => .bad c a d
    | .ok e =>
      match s.checkBinds n (i + 1) (l.drop 32) with
      | .ok es => .ok (e :: es)
      | .bad c a d => .bad c a d

/-- CWR of BINDB: the binding table is read into the binding store (R145, R146). -/
def execCwrBindb (a : Reg) (s : State) : Res :=
  let x := s.rdS a
  let n := bits x 0 11
  if bits x 56 8 ≠ 0 ∨ x.getLsbD 11 ∨ 1024 < n then .next s.trapCr
  else match s.readTable (x &&& 0x00FFFFFFFFFFF000) 32 4096 n with
    | .bad c e d => .next (s.trap c e d)
    | .ok data =>
      match s.checkBinds n 0 data with
      | .bad c e d => .next (s.trap c e d)
      | .ok es =>
        .next (((s.put (.cr 9) (x.setWidth 512) 1).modCtx fun c =>
          { c with newBind := some es }).freezeTable)

/-! ## Identity -/

/-- LVID (R98, R305). -/
def execLvid (d : Reg) (lv : BitVec 6) (which : LvidSel) (s : State) : Res :=
  if !s.tree.levelOk lv false then .next (s.trapLevel lv)
  else
    let l := lv.toNat
    let v := match which with
      | .coord => if l = 0 then 0 else s.ctx.bind.coords.getD l 0
      | .rank => s.tree.rank s.ctx.bind.coords l
      | .size => s.tree.size l
      | .fan => s.tree.fanAt l
    .next (s.putS d (BitVec.ofNat 64 v) 1)

/-- The physical window of the issuing core at OFFSET 0 (R130, R306). -/
def State.window (s : State) : Word64 :=
  BitVec.ofNat 64 (2 * 2 ^ 62 + s.launch.mep.toNat * 2 ^ 54 + Config.rackPosition.val * 2 ^ 46
    + dieOf s.coreIx % 8 * 2 ^ 43 + s.pod.phys % 32 * 2 ^ 38 + s.coreIx % 4 * 2 ^ 36)

/-- PHYID (R99, R306). -/
def execPhyid (d : Reg) (which : PhyidSel) (s : State) : Res :=
  let v : Word64 := match which with
    | .module => BitVec.ofNat 64 Config.rackPosition.val
    | .die => BitVec.ofNat 64 (dieOf s.coreIx)
    | .ppod => BitVec.ofNat 64 s.pod.phys
    | .lpod => BitVec.ofNat 64 (podOf s.coreIx % 28)
    | .core => BitVec.ofNat 64 (s.coreIx % 4)
    | .ctx => BitVec.ofNat 64 s.fr.ctx.val
    | .mep => s.launch.mep.setWidth 64
    | .win => s.window
  .next (s.putS d v 1)

end Sys2Proof.Machine
end

