-- ==== Sys2Proof/Machine/Vector.lean ====
section
/-!
DEFINITION. Vector instructions of the V space (R313 to R328) and special functions of the F space
(R329). None of them raises an execution cause.
-/

namespace Sys2Proof.Machine

/-! ## Operands, chain and results (R158, R262, R314) -/

/-- The syllable of the next lower vector slot that covers a group. -/
def State.chainOf (s : State) (g : Nat) : Option ChainOut :=
  s.fr.chain.find? fun e => e.slot == s.fr.slot - 1 && e.gm.getLsbD g

/-- Operand a, in elements of `w` bits: a register, or the chained lanes. -/
def State.opA (s : State) (h : VHdr) (a : Reg) (w : Nat := 32) : Vector Word32 128 :=
  if h.ch then
    lanes fun p => match s.chainOf (p / 16) with
      | some e => lane e.out p
      | none => 0
  else s.rdVE w a

/-- The place of the syllable in the chain of a group, from 0: a chain's stages land one cycle later
each (R158). -/
def State.stageAt (s : State) (h : VHdr) (g : Nat) : Nat :=
  if h.ch then
    match s.chainOf g with
    | some e => e.stage + 1
    | none => 1
  else 0

/-- The latest stage of the syllable over its groups. -/
def State.stage (s : State) (h : VHdr) : Nat :=
  ((List.range 8).filter (h.gm.getLsbD ·)).foldl (fun m g => max m (s.stageAt h g)) 0

/-- What the syllable computed, for a syllable chained to it. -/
def State.chainOut (s : State) (h : VHdr) (out : Vector Word32 128) : State :=
  s.modFr fun f => { f with chain := f.chain ++ [⟨f.slot, h.gm, s.stage h, out⟩] }

/-- Operand b of a whole-lane operation, lane by lane. -/
def State.opB (s : State) (b : Reg) (bs : Bool) : Nat → Word32 :=
  if bs then let x : Word32 := (s.rdS b).setWidth 32; fun _ => x
  else let v := s.rdV b; fun p => lane v p

/-- Element i of operand b at a lane: the scalar's low bits when BS = 1 (R314). -/
def State.elemB (s : State) (ty : Ty) (b : Reg) (bs : Bool) : Nat → Nat → Nat :=
  if bs then let x := (s.rdS b).toNat % 2 ^ elemBits ty; fun _ _ => x
  else let v := s.rdVE (elemStride ty) b; fun p i => elem ty (lane v p) i

/-- A vector result for the active lanes, landing group by group with the chain's delay. -/
def State.putVec (s : State) (h : VHdr) (d : Reg) (act : BitVec 128) (out : Vector Word32 128)
    (lat : Nat) : State :=
  (allGroups.foldl
    (fun t g =>
      let m : BitVec 16 := act.extractLsb' (16 * g.val) 16
      if m = 0 then t else t.put (.v d g m) (groupValue out g.val) (lat + s.stageAt h g.val)) s)

/-- A lane-predicate result for the active lanes. -/
def State.putPred (s : State) (h : VHdr) (d : Reg) (act x : BitVec 128) (lat : Nat) : State :=
  (allGroups.foldl
    (fun t g =>
      let m : BitVec 16 := act.extractLsb' (16 * g.val) 16
      if m = 0 then t
      else t.put (.q d g m) ((x.extractLsb' (16 * g.val) 16).setWidth 512)
        (lat + s.stageAt h g.val)) s)

/-- The vector whose lanes a list of 128 results gives. -/
def lanesOf (f : Nat → Word32 × Flags) : Vector Word32 128 × Flags :=
  let rs := (List.range 128).map f
  (⟨⟨(List.range 128).map fun i => (rs.getD i (0, 0)).1⟩, by simp⟩, orFlags (rs.map Prod.snd))

/-- A lane-wise operation: each active lane takes `f p a`, the flags land with the result. -/
def vecOpF (h : VHdr) (d a : Reg) (lat : Nat) (f : Nat → Word32 → Word32 × Flags) (s : State)
    (w : Nat := 32) : State :=
  let av := s.opA h a w
  let old := s.rdV d
  let act := s.activeLanes h.gm h.q
  let (out, fl) := lanesOf fun p => if act.getLsbD p then f p (lane av p) else (lane old p, 0)
  ((s.putVec h d act out lat).putFlags fl (lat + s.stage h)).chainOut h out

/-- A lane-wise operation without flags. -/
def vecOp (h : VHdr) (d a : Reg) (lat : Nat) (f : Nat → Word32 → Word32) (s : State) (w : Nat := 32) : State :=
  let av := s.opA h a w
  let old := s.rdV d
  let act := s.activeLanes h.gm h.q
  let out := lanes fun p => if act.getLsbD p then f p (lane av p) else lane old p
  (s.putVec h d act out lat).chainOut h out

/-- An element-wise result of a lane. -/
def mapElems (ty : Ty) (f : Nat → Nat) : Word32 :=
  (List.range (elemCount ty)).foldl (fun w i => setElem ty w i (f i)) 0

/-- The same with flags. -/
def mapElemsF (ty : Ty) (f : Nat → Nat × Flags) : Word32 × Flags :=
  (List.range (elemCount ty)).foldl
    (fun (w, fl) i => let r := f i; (setElem ty w i r.1, fl ||| r.2)) (0, 0)

/-! ## Integer and bitwise operations (R316, R317) -/

/-- An element-wise integer operation: width, a, b. -/
def vecInt (f : Nat → Nat → Nat → Nat) (o : VArgs) (s : State) : Res :=
  let n := elemBits o.ty
  let b := s.elemB o.ty o.b o.bs
  .next (vecOp o.h o.d o.a 2 (fun p a => mapElems o.ty fun i => f n (elem o.ty a i) (b p i)) s (elemStride o.ty))

/-- A saturating operation on exact integers (R316). -/
def vecSat (f : Int → Int → Int) (o : VArgs) (s : State) : Res :=
  let n := elemBits o.ty
  let sg := o.ty.isSigned
  let b := s.elemB o.ty o.b o.bs
  .next (vecOpF o.h o.d o.a 2 (fun p a => mapElemsF o.ty fun i =>
    let (y, fl) := clampInt sg n (f (intVal sg n (elem o.ty a i)) (intVal sg n (b p i)))
    (intBits n y, fl)) s (elemStride o.ty))

/-- A whole-lane operation of a and b (R317). -/
def vecBits (f : Word32 → Word32 → Word32) (o : VBitArgs) (s : State) : Res :=
  let b := s.opB o.b o.bs
  .next (vecOp o.h o.d o.a 2 (fun p a => f a (b p)) s)

def execVadd (o : VArgs) (s : State) : Res := vecInt (fun n a b => (a + b) % 2 ^ n) o s
def execVsub (o : VArgs) (s : State) : Res := vecInt (fun n a b => (a + 2 ^ n - b) % 2 ^ n) o s
def execVmul (o : VArgs) (s : State) : Res := vecInt (fun n a b => (a * b) % 2 ^ n) o s
def execVmulh (o : VArgs) (s : State) : Res := vecInt (fun n => mulHigh o.ty.isSigned n) o s
def execVand (o : VBitArgs) (s : State) : Res := vecBits (· &&& ·) o s
def execVor (o : VBitArgs) (s : State) : Res := vecBits (· ||| ·) o s
def execVxor (o : VBitArgs) (s : State) : Res := vecBits (· ^^^ ·) o s
def execVandn (o : VBitArgs) (s : State) : Res := vecBits (fun a b => a &&& ~~~b) o s
def execVshl (o : VArgs) (s : State) : Res := vecInt (fun n a b => (a * 2 ^ (b % n)) % 2 ^ n) o s
def execVshr (o : VArgs) (s : State) : Res := vecInt (fun n a b => a / 2 ^ (b % n)) o s
def execVsar (o : VArgs) (s : State) : Res := vecInt (fun n a b => sarNat n a (b % n)) o s
def execVmin (o : VArgs) (s : State) : Res := vecInt (fun n => minMaxInt o.ty.isSigned false n) o s
def execVmax (o : VArgs) (s : State) : Res := vecInt (fun n => minMaxInt o.ty.isSigned true n) o s
def execVadds (o : VArgs) (s : State) : Res := vecSat (· + ·) o s
def execVsubs (o : VArgs) (s : State) : Res := vecSat (· - ·) o s

/-- VSEL: a where the lane's bit of q[C] is 1, else b (R317). -/
def execVsel (o : VBitArgs) (qc : BitVec 3) (s : State) : Res :=
  let b := s.opB o.b o.bs
  let q := s.rdQ (qc.setWidth 6)
  .next (vecOp o.h o.d o.a 2 (fun p a => if q.getLsbD p then a else b p) s)

/-- VMOV (R317). -/
def execVmov (h : VHdr) (d b : Reg) (bs : Bool) (s : State) : Res :=
  let x := s.opB b bs
  .next (vecOp h d 0 2 (fun p _ => x p) s)

/-- VMOVI: EXT of the IMM syllable (R317). -/
def execVmovi (h : VHdr) (d : Reg) (imm : BitVec 32) (s : State) : Res :=
  .next (vecOp h d 0 2 (fun _ _ => imm) s)

/-! ## Floating-point operations (R318, R319) -/

/-- The rounding word of R243 for a syllable's key register: lane position and element. -/
def State.rnd (s : State) (key : Option (BitVec 32)) : Nat → Nat → Word32 :=
  match key with
  | none => fun _ _ => 0
  | some e =>
    let k : Reg := e.setWidth 6
    let key := s.rdS k
    let stream := s.rdS (k + 1)
    fun p i => srWord key stream p i

/-- The format of a vector arithmetic type. -/
def vfmt (ty : Ty) : FFmt := (ffmt ty).getD .f32

/-- An element-wise rounding operation with its format, mode, rounding word and operands. -/
def vecFloat (lat : Nat) (f : FFmt → Rm → Word32 → Nat → Nat → Nat → Nat × Flags) (o : VFArgs)
    (s : State) : Res :=
  let fm := vfmt o.ty
  let b := s.elemB o.ty o.b o.bs
  let c := s.rdVE (elemStride o.ty) o.c
  let rnd := s.rnd o.key
  .next (vecOpF o.h o.d o.a lat (fun p a => mapElemsF o.ty fun i =>
    f fm o.rm (rnd p i) (elem o.ty a i) (b p i) (elem o.ty (lane c p) i)) s (elemStride o.ty))

def execVfadd (o : VFArgs) (s : State) : Res :=
  vecFloat 3 (fun f rm r a b _ => fadd f false rm r a b) o s
def execVfsub (o : VFArgs) (s : State) : Res :=
  vecFloat 3 (fun f rm r a b _ => fadd f true rm r a b) o s
def execVfmul (o : VFArgs) (s : State) : Res :=
  vecFloat 3 (fun f rm r a b _ => fmul f rm r a b) o s
def execVfma (o : VFArgs) (s : State) : Res :=
  vecFloat 4 (fun f rm r a b c => ffma f false false rm r a b c) o s
def execVfms (o : VFArgs) (s : State) : Res :=
  vecFloat 4 (fun f rm r a b c => ffma f false true rm r a b c) o s
def execVfnma (o : VFArgs) (s : State) : Res :=
  vecFloat 4 (fun f rm r a b c => ffma f true false rm r a b c) o s

/-- Minimum and maximum (R319, R250). -/
def vecMinMax (f : FFmt → Nat → Nat → Nat × Flags) (o : VArgs) (s : State) : Res :=
  let b := s.elemB o.ty o.b o.bs
  .next (vecOpF o.h o.d o.a 3 (fun p a => mapElemsF o.ty fun i =>
    f (vfmt o.ty) (elem o.ty a i) (b p i)) s (elemStride o.ty))

def execVfmin (o : VArgs) (s : State) : Res := vecMinMax (fun f => minMaxNum f false) o s
def execVfmax (o : VArgs) (s : State) : Res := vecMinMax (fun f => minMaxNum f true) o s
def execVfminp (o : VArgs) (s : State) : Res := vecMinMax (fun f => minMaxP f false) o s
def execVfmaxp (o : VArgs) (s : State) : Res := vecMinMax (fun f => minMaxP f true) o s

/-- A bitwise change of each element's sign (R319). -/
def vecSign (f : Nat → Nat → Nat) (o : VUnArgs) (s : State) : Res :=
  let top := 2 ^ (elemBits o.ty - 1)
  .next (vecOp o.h o.d o.a 3 (fun _ a => mapElems o.ty fun i => f top (elem o.ty a i)) s (elemStride o.ty))

def execVfabs (o : VUnArgs) (s : State) : Res := vecSign (fun top x => x % top) o s
def execVfneg (o : VUnArgs) (s : State) : Res := vecSign (fun top x => x ^^^ top) o s

/-! ## Compares (R320) -/

/-- A floating-point condition on FP32 codes (R320). -/
def fcondHolds (c : FCond) (a b : Nat) : Bool :=
  let f := FFmt.f32
  let o := XVal.cmp (f.val a) (f.val b)
  let un := f.isNaN a || f.isNaN b
  match c with
  | .eq => !un && o == .eq
  | .ne => un || o != .eq
  | .lt => !un && o == .lt
  | .ge => !un && o != .lt
  | .le => !un && o != .gt
  | .gt => !un && o == .gt
  | .uo => un
  | .or => !un

/-- The positions at which a condition holds, as a lane predicate. -/
def laneMask (f : Nat → Bool) : BitVec 128 :=
  BitVec.ofNat 128 (packNat 1 ((List.range 128).map fun p => (f p).toNat))

/-- A compare writes q[2K] and its complement q[2K + 1] in the active lanes. -/
def vecCmp {γ : Type} (o : VCmpArgs γ) (f : Nat → Nat → Bool) (fl : Nat → Nat → Flags) (s : State) :
    Res :=
  let av := s.opA o.h o.a
  let b := s.opB o.b o.bs
  let act := s.activeLanes o.h.gm o.h.q
  let m := laneMask fun p => act.getLsbD p && f (lane av p).toNat (b p).toNat
  let flags := orFlags ((activeList act).map fun p => fl (lane av p).toNat (b p).toNat)
  let k : Reg := o.k.setWidth 6 * 2
  .next (((s.putPred o.h k act m 2).putPred o.h (k + 1) act (~~~m) 2).putFlags flags (2 + s.stage o.h))

def execVcmp (o : VCmpArgs Cond) (s : State) : Res :=
  vecCmp o (condHolds o.cond 32) (fun _ _ => 0) s
def execVfcmp (o : VCmpArgs FCond) (s : State) : Res :=
  vecCmp o (fcondHolds o.cond) (fun a b => FFmt.f32.sigFlag [a, b]) s

/-! ## Conversion (R321) -/

/-- VCVT on one lane: source lane, old destination lane, rounding word by destination element. -/
def cvtLane (o : VCvtArgs) (rnd : Nat → Word32) (a old : Word32) : Word32 × Flags :=
  let ns := elemCount o.sty
  let nd := elemCount o.ty
  let p := o.pos.toNat
  (List.range (min ns nd)).foldl
    (fun (w, fl) i =>
      let (src, dst) := if ns ≤ nd then (i, p * ns + i) else (p * nd + i, i)
      let r := conv o.sty o.ty o.rm (rnd dst) (elem o.sty a src)
      (setElem o.ty w dst r.1, fl ||| r.2)) (old, 0)

/-- VCVT (R321). -/
def execVcvt (o : VCvtArgs) (s : State) : Res :=
  let rnd := s.rnd o.key
  let old := s.rdVE (elemStride o.ty) o.d
  .next (vecOpF o.h o.d o.a 3 (fun p a => cvtLane o (rnd p) a (lane old p)) s (elemStride o.sty))

/-! ## Permutes, folds, counts, group copies (R322 to R325) -/

/-- VPERM: a lane of the same group, by the low four bits of the index (R322). -/
def execVperm (o : VBitArgs) (s : State) : Res :=
  let av := s.opA o.h o.a
  let b := s.opB o.b o.bs
  .next (vecOp o.h o.d o.a 2 (fun p _ => lane av (p / 16 * 16 + (b p).toNat % 16)) s)

/-- VBCAST: one lane of each group (R322). -/
def execVbcast (h : VHdr) (d a : Reg) (ln : BitVec 4) (s : State) : Res :=
  let av := s.opA h a
  .next (vecOp h d a 2 (fun p _ => lane av (p / 16 * 16 + ln.toNat)) s)

/-- One step of a fold (R323). -/
def foldStep (op : Fold) (ty : Ty) (x y : Nat) : Nat × Flags :=
  match op with
  | .add => if ty = .f32 then fadd .f32 false .rne 0 x y else ((x + y) % 2 ^ 32, 0)
  | .min => if ty = .f32 then minMaxNum .f32 false x y else (minMaxInt ty.isSigned false 32 x y, 0)
  | .max => if ty = .f32 then minMaxNum .f32 true x y else (minMaxInt ty.isSigned true 32 x y, 0)
  | .and => (x &&& y, 0)
  | .or => (x ||| y, 0)
  | .xor => (x ^^^ y, 0)

/-- The identity of a fold (R323). -/
def foldIdentity (op : Fold) (ty : Ty) : Nat :=
  match op, ty with
  | .add, .f32 => 0x80000000
  | .add, _ => 0
  | .min, .f32 => 0x7F800000
  | .min, .i32 => 0x7FFFFFFF
  | .min, _ => 0xFFFFFFFF
  | .max, .f32 => 0xFF800000
  | .max, .i32 => 0x80000000
  | .max, _ => 0
  | .and, _ => 0xFFFFFFFF
  | .or, _ => 0
  | .xor, _ => 0

/-- The running folds after each further value, with the flags of each step. -/
def runFold (op : Fold) (ty : Ty) : Nat → List Nat → List (Nat × Flags)
  | _, [] => []
  | acc, y :: ys => let r := foldStep op ty acc y; r :: runFold op ty r.1 ys

/-- The folds of the values up to and including each, in ascending order (R323). -/
def folds (op : Fold) (ty : Ty) : List Nat → List (Nat × Flags)
  | [] => []
  | x :: xs => (x, 0) :: runFold op ty x xs

/-- The results of a fold over one group: lane by lane of the active lanes, for VSCAN. -/
def scanGroup (op : Fold) (ty : Ty) (excl : Bool) (xs : List Nat) : List (Nat × Flags) :=
  if excl then ((foldIdentity op ty, 0) :: folds op ty xs).take xs.length else folds op ty xs

/-- A fold group by group: `f` gives a result for each active lane from the group's active values. -/
def vecFold (o : VFoldArgs) (f : List Nat → List (Nat × Flags)) (s : State) : Res :=
  let av := s.opA o.h o.a
  let act := s.activeLanes o.h.gm o.h.q
  let groups := (List.range 8).map fun g =>
    let ps := (List.range 16).filterMap fun l =>
      if act.getLsbD (16 * g + l) then some (16 * g + l) else none
    let rs := f (ps.map fun p => (lane av p).toNat)
    (ps.zip (rs.map Prod.fst), orFlags (rs.map Prod.snd))
  let res := groups.flatMap Prod.fst
  let fl := orFlags (groups.map Prod.snd)
  let old := s.rdV o.d
  let out := lanes fun p => match res.find? (·.1 == p) with
    | some (_, v) => BitVec.ofNat 32 v
    | none => lane old p
  .next (((s.putVec o.h o.d act out 2).putFlags fl (2 + s.stage o.h)).chainOut o.h out)

/-- VRED: every active lane of the group takes the whole fold (R323). -/
def execVred (o : VFoldArgs) (s : State) : Res :=
  vecFold o (fun xs =>
    let r := folds o.op o.ty xs
    let fl := orFlags (r.map Prod.snd)
    let last := (r.getLastD (0, 0)).1
    xs.map fun _ => (last, fl)) s

/-- VSCAN (R323). -/
def execVscan (o : VFoldArgs) (s : State) : Res := vecFold o (scanGroup o.op o.ty o.excl) s

/-- VQCNT (R324). -/
def execVqcnt (h : VHdr) (d : Reg) (all : Bool) (qc : BitVec 3) (s : State) : Res :=
  let q := s.rdQ (qc.setWidth 6)
  let count (g : Nat) : Nat := popNat 16 (q.extractLsb' (16 * g) 16).toNat
  let total := ((List.range 8).filter (h.gm.getLsbD ·)).foldl (fun n g => n + count g) 0
  .next (vecOp h d 0 2 (fun p _ => BitVec.ofNat 32 (if all then total else count (p / 16))) s)

/-- GXFER (R325). -/
def execGxfer (h : VHdr) (d a : Reg) (fix : Bool) (g : BitVec 3) (s : State) : Res :=
  let v := s.rdV a
  let src (k : Nat) : Nat := if fix then g.toNat else (k + g.toNat) % 8
  .next (vecOp h d a 3 (fun p _ => lane v (16 * src (p / 16) + p % 16)) s)

/-! ## Dot products and random numbers (R326, R327) -/

/-- A dot product of `n` elements of a floating type, or of signed bytes. -/
def vecDot (o : VFArgs) (s : State) : Res :=
  let n := elemCount o.ty
  let b := s.elemB o.ty o.b o.bs
  let c := s.rdV o.c
  let rnd := s.rnd o.key
  .next (vecOpF o.h o.d o.a 4 (fun p a =>
    let xs := (List.range n).map (elem o.ty a)
    let ys := (List.range n).map (b p)
    let z := (lane c p).toNat
    match ffmt o.ty with
    | some f => let r := dotLane f o.rm (rnd p 0) xs ys z; (BitVec.ofNat 32 r.1, r.2)
    | none =>
      let t := (xs.zip ys).foldl (fun t (x, y) => t + intVal true 8 x * intVal true 8 y) (z : Int)
      (BitVec.ofInt 32 t, 0)) s (elemStride o.ty))

def execVdot2 (o : VFArgs) (s : State) : Res := vecDot o s
def execVdot4 (o : VFArgs) (s : State) : Res := vecDot o s
def execVdot8 (o : VFArgs) (s : State) : Res := vecDot o s

/-- VRNG (R327). -/
def execVrng (o : VRngArgs) (s : State) : Res :=
  let key := s.rdS o.k
  let stream := s.rdS (o.k + 1)
  .next (vecOp o.h o.d o.a 4 (fun p a =>
    let w := philox key (BitVec.ofNat 32 p) a (stream.setWidth 32) (stream.extractLsb' 32 32)
      o.word.toNat
    if o.unit then BitVec.ofNat 32 (roundNE .f32 (.num false (w.toNat / 256) 1 (-24))) else w) s)

/-! ## Lane predicates (R328) -/

/-- A bitwise operation on the active lanes of two lane predicates. -/
def vecPred (f : BitVec 128 → BitVec 128 → BitVec 128) (o : QArgs) (s : State) : Res :=
  .next (s.putPred o.h o.d (s.activeLanes o.h.gm o.h.q) (f (s.rdQ o.a) (s.rdQ o.b)) 2)

def execQand (o : QArgs) (s : State) : Res := vecPred (· &&& ·) o s
def execQor (o : QArgs) (s : State) : Res := vecPred (· ||| ·) o s
def execQxor (o : QArgs) (s : State) : Res := vecPred (· ^^^ ·) o s
def execQandn (o : QArgs) (s : State) : Res := vecPred (fun a b => a &&& ~~~b) o s

/-! ## Special functions (R329, R254) -/

/-- A special function of each active FP32 lane, landing after 8 cycles. -/
def vecSpecial (fn : SpFn) (o : FArgs) (s : State) : Res :=
  .next (vecOpF o.h o.d o.a 8 (fun _ a =>
    let r := specialFn fn a.toNat; (BitVec.ofNat 32 r.1, r.2)) s)

def execRcp (o : FArgs) (s : State) : Res := vecSpecial .rcp o s
def execRsq (o : FArgs) (s : State) : Res := vecSpecial .rsq o s
def execSqrt (o : FArgs) (s : State) : Res := vecSpecial .sqrt o s
def execExp2 (o : FArgs) (s : State) : Res := vecSpecial .exp2 o s
def execLog2 (o : FArgs) (s : State) : Res := vecSpecial .log2 o s
def execSinpi (o : FArgs) (s : State) : Res := vecSpecial .sinpi o s
def execCospi (o : FArgs) (s : State) : Res := vecSpecial .cospi o s
def execTanh (o : FArgs) (s : State) : Res := vecSpecial .tanh o s
def execSigm (o : FArgs) (s : State) : Res := vecSpecial .sigm o s

end Sys2Proof.Machine
end

