-- ==== Sys2Proof/Machine/Index.lean ====
section
/-!
DEFINITION. Index instructions of the X space (R330 to R336). Each result lands after two cycles.
-/

namespace Sys2Proof.Machine

/-- The element width of a view (R330). -/
def viewBits (ty : Ty) : Nat := if ty = .n16 then 16 else 32

/-- The element count of a view. -/
def viewCount (ty : Ty) : Nat := 256 / viewBits ty

/-- Element j of a view. -/
def ixElem (ty : Ty) (x : BitVec 256) (j : Nat) : Nat :=
  x.toNat / 2 ^ (viewBits ty * j) % 2 ^ viewBits ty

/-- The elements of a view in ascending order. -/
def ixElems (ty : Ty) (x : BitVec 256) : List Nat := (List.range (viewCount ty)).map (ixElem ty x)

/-- The register with these elements. -/
def ixPack (ty : Ty) (es : List Nat) : BitVec 256 := BitVec.ofNat 256 (packNat (viewBits ty) es)

/-- An index-register result. -/
def State.putX (s : State) (r : Reg) (x : BitVec 256) : State := s.put (.x r) (x.setWidth 512) 2

/-- The number of bits set by a condition on positions below `n`, and the mask of them. -/
def countWhere (n : Nat) (f : Nat → Bool) : Nat := ((List.range n).filter f).length
def maskWhere (n : Nat) (f : Nat → Bool) : Nat := packNat 1 ((List.range n).map fun i => (f i).toNat)

/-- XCAD (R335). -/
def execXcad (d a b : Reg) (ty : Ty) (s : State) : Res :=
  let x := s.rdX a
  let y := s.rdX b
  let n := viewCount ty
  let m := min (ixElem ty x (n - 1)) (ixElem ty y (n - 1))
  let ka := countWhere n fun i => ixElem ty x i ≤ m
  let kb := countWhere n fun j => ixElem ty y j ≤ m
  let ma := maskWhere n fun i => ixElem ty x i ≤ m && (ixElems ty y).contains (ixElem ty x i)
  .next (s.putS d (BitVec.ofNat 64 (ma * 2 ^ 16 + kb * 2 ^ 8 + ka)) 2)

/-- XPOPC (R334). -/
def execXpopc (d a b : Reg) (s : State) : Res :=
  let l := min (s.rdS b).toNat 256
  let x := s.rdX a
  .next (s.putS d (BitVec.ofNat 64 (countWhere l x.getLsbD)) 2)

/-- XEXP (R334). -/
def execXexp (d a b : Reg) (sh : BitVec 3) (half : Bool) (s : State) : Res :=
  let base := (s.rdS b).toNat % 2 ^ 32
  let x := s.rdX a
  .next (s.putX d (ixPack .n32 ((List.range 8).map fun i =>
    base + ixElem .n16 x ((if half then 8 else 0) + i) * 2 ^ sh.toNat)))

/-- XMPS (R336). -/
def execXmps (o : XArgs) (s : State) : Res :=
  let x := s.rdX o.a
  let rowbase := (s.rdS o.b).toNat % 2 ^ 32
  let diag := (s.rdS o.c).toNat % 2 ^ 32
  .next (s.putS o.d (BitVec.ofNat 64 (countWhere (viewCount o.ty) fun j =>
    decide (ixElem o.ty x j + rowbase + j < diag))) 2)

/-- XINS (R332). -/
def execXins (d a : Reg) (idx : BitVec 4) (ty : Ty) (s : State) : Res :=
  .next (s.putX d (ixPack ty ((ixElems ty (s.rdX d)).set idx.toNat (s.rdS a).toNat)))

/-- XGET (R332). -/
def execXget (d a : Reg) (idx : BitVec 4) (ty : Ty) (s : State) : Res :=
  .next (s.putS d (BitVec.ofNat 64 (ixElem ty (s.rdX a) idx.toNat)) 2)

/-- XSPLAT (R332). -/
def execXsplat (d a : Reg) (ty : Ty) (s : State) : Res :=
  .next (s.putX d (ixPack ty (List.replicate (viewCount ty) (s.rdS a).toNat)))

/-- XADDS (R332). -/
def execXadds (d a b : Reg) (ty : Ty) (s : State) : Res :=
  let y := (s.rdS b).toNat
  .next (s.putX d (ixPack ty ((ixElems ty (s.rdX a)).map (· + y))))

/-- XSCAN (R332). -/
def execXscan (d a : Reg) (excl : Bool) (ty : Ty) (s : State) : Res :=
  let es := ixElems ty (s.rdX a)
  .next (s.putX d (ixPack ty ((List.range (viewCount ty)).map fun j =>
    (es.take (if excl then j else j + 1)).foldl (· + ·) 0)))

/-- XCMP (R332). -/
def execXcmp (d a b : Reg) (cond : Cond) (ty : Ty) (s : State) : Res :=
  let n := viewBits ty
  let y := (s.rdS b).toNat % 2 ^ n
  let x := s.rdX a
  .next (s.putS d (BitVec.ofNat 64
    (maskWhere (viewCount ty) fun j => condHolds cond n (ixElem ty x j) y)) 2)

/-- XTOQ (R333). -/
def execXtoq (d a : Reg) (hi : Bool) (s : State) : Res :=
  let x := s.rdX a
  .next (allGroups.foldl
    (fun t g => t.put (.q d g 0xFFFF)
      (BitVec.ofNat 512 (ixElem .n16 x (g.val + if hi then 8 else 0))) 2) s)

end Sys2Proof.Machine
end

