-- ==== Sys2Proof/Machine/Commands.lean ====
section
/-!
DEFINITION. Engine commands at issue (R359 to R366): the regions they name and the scoreboard (R168),
the checks and the copy of a command block (R363), tickets (R360), MSTAT, MPUT and MGET (R361, R362),
and how a command ends (R229, R365).
-/

namespace Sys2Proof.Machine

/-! ## Regions (R168, R367, R372, R380, R384, R385) -/

/-- A field of a command's block. -/
def Cmd.f (m : Cmd) (off n : Nat) : Nat := fieldNat m.block off n

/-- The place of a scratchpad address of a context in its pod's space of four scratchpads, in which the
regions of near and pooled code are compared. -/
def State.podAddr (s : State) (core slot a : Nat) : Nat :=
  if (s.lslot slot).info.profile then a else core % 4 * spadSize + a

/-- The bytes of the scratchpad space of a launch's contexts: a core's own scratchpad, or its pod's four (R127, R128). -/
def State.spaceSize (s : State) (slot : Nat) : Nat :=
  if (s.lslot slot).info.profile then 4 * spadSize else spadSize

/-- Whether an engine address is in the local form (R364). -/
def isLocal (x : Nat) : Bool := x / 2 ^ 62 == 0

/-- A scratchpad region of some bytes; none of no bytes. -/
def spanAt (base lo len : Nat) (write : Bool) : List (Bool × Region) :=
  if len = 0 then [] else [(write, .spad (base + lo) (base + lo + len))]

/-- The same, for an engine address that is local. -/
def spanIf (base x len : Nat) (write : Bool) : List (Bool × Region) :=
  if isLocal x then spanAt base (x % 2 ^ 22) len write else []

/-- M′ of an MCALL on its core (R183). -/
def Cmd.rows (m : Cmd) : Nat :=
  let total := (m.args.getD 0 0).toNat
  if m.pod then min 128 (total - 128 * (m.core % 4)) else min 128 total

/-- N of an MCALL. -/
def Cmd.cols (m : Cmd) : Nat := (m.args.getD 1 0).toNat

/-- A parameter register of an MCALL. -/
def Cmd.par (m : Cmd) (i : Nat) : Nat := (m.params.getD i 0).toNat

/-- A bit field of a number. -/
def nbits (x lo n : Nat) : Nat := x / 2 ^ lo % 2 ^ n

/-- The offset of an address in the nest at positions counted from the lowest and the highest byte:
the sums of the negative and of the positive extremes (R196). -/
def Nest.extent (n : Nest) : Int × Int :=
  (n.counts.zip n.strides).foldl
    (fun (lo, hi) (c, st) =>
      let d := ((c : Int) - 1) * st.toInt
      if d < 0 then (lo + d, hi) else (lo, hi + d)) (0, 0)

/-- The nest's whole address range as a region. -/
def Nest.region (n : Nest) (base : Nat) : List (Bool × Region) :=
  let (lo, hi) := n.extent
  let a := (n.base.toNat : Int)
  spanAt base (a + lo).toNat ((hi - lo).toNat + 4) false

/-- The nest block of XWIN (R371). -/
def nestOfBlock (b : List Byte) : Nest :=
  let n := fieldNat b 5 1
  ⟨BitVec.ofNat 32 (fieldNat b 0 4), fieldNat b 4 1,
    (List.range n).map fun l => fieldNat b (8 + 8 * l) 4,
    (List.range n).map fun l => BitVec.ofNat 32 (fieldNat b (12 + 8 * l) 4)⟩

/-- The nest that a matrix command will find: that of the last XWIN of its context ahead of it in the
queue, or the context's (R197). -/
def State.nestFor (s : State) (m : Cmd) : Nest :=
  let ahead := (s.coreAt m.core).mqueue.takeWhile fun x => !(x.is m)
  match (ahead.filter fun x => x.op == .xwin && x.ctx == m.ctx).getLast? with
  | some x => nestOfBlock x.block
  | none => (s.ctxOf m.core m.ctx).nest

/-- The region of an operand pipe declared by WK or NK (R366, R367). -/
def State.pipeRegion (s : State) (m : Cmd) (kind pair rows : Nat) (base : Nat) : List (Bool × Region) :=
  let b := m.par pair
  let first := if m.pod ∧ pair = 0 then 128 * (m.core % 4) else 0
  match kind with
  | 2 =>
    let rstr := nbits (m.par (pair + 1)) 0 24
    spanAt base (b % 2 ^ 22 + first * rstr) (rows * rstr) false
  | 3 =>
    if rows = 0 then [] else
      [(false, .ts (nbits b 8 8 + first) (nbits b 8 8 + first + rows - 1) 0 255)]
  | 4 => (s.nestFor m).region base
  | _ => []

/-- The write rectangle of a drain destination. -/
def Cmd.drainRegion (m : Cmd) (i : Nat) : List (Bool × Region) :=
  if m.rows = 0 ∨ m.cols = 0 then [] else
    [(true, .ts (nbits (m.par i) 8 8) (nbits (m.par i) 8 8 + m.rows - 1)
      (nbits (m.par i) 0 8) (nbits (m.par i) 0 8 + m.cols - 1))]

/-- Bytes of an element of a type that XCVT accepts. -/
def tySize (code : Nat) : Nat := scalarWidth (Ty.ofNat code)
where
  Ty.ofNat (c : Nat) : Ty :=
    match c with
    | 0 => .i8 | 1 => .i16 | 2 => .i32 | 3 => .i64 | 4 => .n8 | 5 => .n16 | 6 => .n32 | 7 => .n64
    | 8 => .f32 | 9 => .bf16 | 10 => .f16 | 11 => .e4m3 | _ => .e5m2

/-- The bytes of a command's status record; 0 where its rule defines none. -/
def Cmd.statBytes (m : Cmd) : Nat :=
  match m.op with
  | .xgather | .embpool | .xcvt => 4
  | .a2aDisp => 16
  | .repart => 32
  | .txtMask => if m.f 28 1 = 0 then 4 else 8
  | _ => 0

/-- The bytes at STAT that issue checks (R363): those of the record, and a word where the command has none. -/
def Cmd.statLen (m : Cmd) : Nat := max 4 m.statBytes

/-- The status record as a write region. -/
def Cmd.statRegion (m : Cmd) (base : Nat) : List (Bool × Region) :=
  if m.f 12 4 = 0xFFFFFFFF then [] else spanAt base (m.f 12 4) m.statBytes true

/-- The scratchpad sources of a print: one read region from the lowest to the highest byte (R380). -/
def printRegion (g : Graph) (bases : List Word64) (base : Nat) : List (Bool × Region) :=
  let spans := g.ops.filterMap fun o =>
    let b := (bases.getD o.srcb 0).toNat
    let lo := (b % 2 ^ 22 + o.srcoff.toNat) % 2 ^ 64
    if isLocal b ∧ o.opk ≠ 3 then some (lo, lo + o.len) else none
  match spans with
  | [] => []
  | x :: xs =>
    let lo := xs.foldl (fun m y => min m y.1) x.1
    let hi := xs.foldl (fun m y => max m y.2) x.2
    spanAt base lo (hi - lo) false

/-- The regions of a command, each with whether it is written. -/
def State.regions (s : State) (m : Cmd) : List (Bool × Region) :=
  let slot := (s.ctxOf m.core m.ctx).bind.lslot
  let base := s.podAddr m.core slot 0
  let stat := m.statRegion base
  match m.op with
  | .mcall =>
    if m.rows = 0 then []
    else
      s.pipeRegion m (nbits (m.par 4) 22 3) 0 m.rows base
        ++ s.pipeRegion m (nbits (m.par 4) 25 3) 2 m.cols base
        ++ m.drainRegion 6
        ++ (if (m.par 4).testBit 21 then m.drainRegion 7 else [])
  | .cellld => spanAt base ((m.args.getD 0 0).toNat % 2 ^ 22) 64 false
  | .flowset | .xwin => []
  | .tsld | .tsst =>
    let rows := m.f 26 2
    let cols := m.f 28 2
    let w := m.op == .tsld
    if rows = 0 ∨ cols = 0 then []
    else spanAt base (m.f 16 4) ((rows - 1) * m.f 20 4 + 4 * cols) (!w)
      ++ [(w, .ts (m.f 24 1) (m.f 24 1 + rows - 1) (m.f 25 1) (m.f 25 1 + cols - 1))]
  | .xcopy =>
    let (rows, len, ss, ds, esz) := (m.f 32 4, m.f 36 4, m.f 40 4, m.f 44 4, m.f 48 1)
    spanIf base (m.f 16 8) ((rows - 1) * ss + len) false
      ++ spanIf base (m.f 24 8)
        (if m.f 49 1 = 0 then (rows - 1) * ds + len else (len / esz - 1) * ds + rows * esz) true
  | .xgather =>
    let (nrows, nidx, len, ds, ts) := (m.f 40 4, m.f 44 4, m.f 48 4, m.f 52 4, m.f 56 4)
    spanIf base (m.f 16 8) (if nrows = 0 then 0 else (nrows - 1) * ts + len) false
      ++ spanIf base (m.f 24 8) (4 * nidx) false
      ++ spanIf base (m.f 32 8) (if nidx = 0 then 0 else (nidx - 1) * ds + len) true ++ stat
  | .embpool =>
    let nbag := m.f 60 4
    let rest (x : Nat) : Nat := s.spaceSize slot - x % 2 ^ 22
    spanIf base (m.f 24 8) (rest (m.f 24 8)) false
      ++ spanIf base (m.f 32 8) (4 * (nbag + 1)) false
      ++ (if m.f 67 1 = 1 then spanIf base (m.f 40 8) (rest (m.f 40 8)) false else [])
      ++ spanIf base (m.f 48 8) (4 * m.f 64 2 * nbag) true ++ stat
  | .xcvt =>
    let (rows, cols, ss, cap) := (m.f 48 4, m.f 52 4, m.f 56 4, m.f 60 4)
    let sz := tySize (m.f 64 1)
    spanIf base (m.f 16 8) ((rows - 1) * ss + cols * sz) false
      ++ spanIf base (m.f 24 8) (cap * sz) true
      ++ spanIf base (m.f 32 8) (4 * cap) true
      ++ spanIf base (m.f 40 8) (4 * (rows + 1)) true ++ stat
  | .cgrun =>
    match (s.coreAt m.core).graphs.get (ix4 (m.graph.setWidth 6)) with
    | some g => printRegion g m.args base
    | none => []
  | .cgload => []
  | .a2aDisp | .a2aComb | .repart => stat
  | .txtEnc =>
    spanIf base (m.f 24 8) (m.f 40 4) false ++ spanIf base (m.f 32 8) (4 * m.f 44 4) true
  | .txtDec =>
    spanIf base (m.f 24 8) (4 * m.f 40 4) false ++ spanIf base (m.f 32 8) (m.f 44 4) true
  | .txtMask =>
    (if m.f 28 1 = 0 then spanIf base (m.f 32 8) (m.f 40 4) true
      else spanIf base (m.f 32 8) (4 * m.f 40 4) false) ++ stat

/-! ## Conflicts (R168) -/

/-- Whether two regions share a granule, or name one counter. -/
def Region.meets (a b : Region) : Bool :=
  match a, b with
  | .spad lo hi, .spad lo' hi' => lo / 64 ≤ (hi' - 1) / 64 && lo' / 64 ≤ (hi - 1) / 64
  | .ts r r' c c', .ts q q' d d' => r ≤ q' && q ≤ r' && c / 16 ≤ d' / 16 && d / 16 ≤ c' / 16
  | .counter t, .counter u => t == u
  | _, _ => false

/-- Whether two lists of accesses conflict. -/
def conflict (a b : List (Bool × Region)) : Bool :=
  a.any fun (w, r) => b.any fun (w', r') => (w || w') && r.meets r'

/-- The commands of a core, on every engine. -/
def State.commands (s : State) (core : Nat) : List Cmd :=
  let k := s.coreAt core
  k.mqueue ++ k.cqueue ++ k.fqueue
    ++ (tget [] s.text (dieOf core)).filter fun m => m.core == core

/-- How many units a command runs, where it counts them in PROG (R372). -/
def Cmd.units (m : Cmd) : Option Nat :=
  match m.op with
  | .tsld | .tsst => some (m.f 26 2)
  | .xcopy => some (m.f 32 4)
  | .xgather => some (m.f 44 4)
  | .embpool => some (m.f 60 4)
  | _ => none

/-- The regions that a command has not finished (R168): a command that has run its units has its status record left,
an XCVT in phase 1 its row pointers too, and a text command that has been moved out of its queue holds none (R229). -/
def State.heldRegions (s : State) (m : Cmd) : List (Bool × Region) :=
  let base := s.podAddr m.core (s.ctxOf m.core m.ctx).bind.lslot 0
  if m.op.engine == .text && m.run == .suspended then []
  else if m.units == some m.prog then m.statRegion base
  else if m.op == .xcvt && m.phase == 1 then spanIf base (m.f 40 8) (4 * (m.f 48 4 + 1)) true ++ m.statRegion base
  else s.regions m

/-- Whether a region reaches a core's banks or is the core's own tile store: the part of an access that the core's
scoreboard judges (R168). -/
def State.reachesCore (s : State) (core : Nat) (r : Region) : Bool :=
  match r with
  | .spad lo hi => lo / spadSize ≤ core % 4 && core % 4 ≤ (hi - 1) / spadSize
  | _ => core == s.coreIx

/-- The commands of the four cores of the issuing context's pod. -/
def State.podCommands (s : State) : List Cmd :=
  let p := podOf s.coreIx
  [0, 1, 2, 3].flatMap fun i => s.commands (4 * p + i)

/-- Whether an access of the bundle being judged conflicts with an earlier-issued command of a core whose banks it
reaches. -/
def State.sbConflict (s : State) (acc : List (Bool × Region)) : Bool :=
  s.fr.judging && acc != [] && s.podCommands.any fun m =>
    conflict (acc.filter fun a => s.reachesCore m.core a.2) (s.heldRegions m)

/-- Scratchpad bytes of the issuing context as accesses, for the scoreboard. -/
def State.spadAccess (s : State) (write : Bool) (as : List Word64) (w : Nat) : List (Bool × Region) :=
  let slot := s.ctx.bind.lslot
  as.map fun a =>
    let x := s.podAddr s.coreIx slot a.toNat
    (write, .spad x (x + w))

/-! ## Issue (R360, R363) -/

/-- How many commands an engine's queue holds. -/
def queueRoom : Engine → Nat
  | .text => 64
  | _ => 8

/-- Whether an engine's queue takes no further command of the bundle being judged; a suspended text
command has left it (R229). -/
def State.queueFull (s : State) (e : Engine) : Bool :=
  s.fr.judging &&
  let q := s.queueOf e
  let n := match e with
    | .text => (q.filter fun m => m.run != .suspended).length
    | _ => q.length
  queueRoom e ≤ n

/-- A command that has no block, parameters or options yet. -/
def Cmd.blank (op : CmdOp) : Cmd :=
  ⟨0, op, 0, 0, 0, [], [], [], 0, false, false, 0, 0, 0, .queued, 0, 0, [], Progress.reset, false, false⟩

/-- The queue's number in a KIND 8 entry (R234). -/
def engTrace : Engine → Nat
  | .copy => 0
  | .matrix => 1
  | .text => 2
  | .fabric => 3

/-- A command enters its queue; its ticket goes to s[D] (R360). -/
def State.enqueue (s : State) (d : Reg) (m : Cmd) : State :=
  let e := m.op.engine
  let i := engIx e
  let n := s.ctx.tickets.issued.get i
  let m := { m with id := s.core.nextCmd, ctx := s.fr.ctx, core := s.coreIx, ticket := n }
  let s := s.modCore fun k => { k with nextCmd := k.nextCmd + 1 }
  let s := s.modQueue m (· ++ [m])
  let s := s.modCtx fun c =>
    { c with tickets := { c.tickets with issued := c.tickets.issued.set i.val (n + 1) i.isLt } }
  (s.putS d (n.setWidth 64) 1).note rankEng 4 8 (engTrace e) s.fr.word

/-- The first failure among checks made in a cause's order; `none` when all hold. -/
def firstBad : List (Judged Unit) → Option (Byte × Word64 × BitVec 32)
  | [] => none
  | .ok _ :: rest => firstBad rest
  | .bad c a d :: _ => some (c, a, d)

/-- PERM where some of `n` bytes lie outside the context's space (R363). -/
def State.inSpace (s : State) (a : Word64) (n : Nat) : Judged Unit :=
  match s.spadSpan a n with
  | .ok _ => .ok ()
  | .bad c e d => .bad c e d

/-- ALIGN where an address is not a multiple of 2^k (R221, R363). -/
def alignedTo (a : Word64) (k : Nat) : Judged Unit :=
  if a.toNat % 2 ^ k = 0 then .ok () else .bad cALIGN a (BitVec.ofNat 32 k)

/-- Whether a scratchpad range of the context holds an uncorrectable word (R23). -/
def State.spadBad (s : State) (a : Word64) (n : Nat) : Bool :=
  (List.range n).any fun i =>
    match s.spadTarget (a + BitVec.ofNat 64 i) with
    | .ok (core, off) => (s.coreAt core).badWords.contains (off / 4)
    | .bad _ _ _ => false

/-- DATAERR where a block holds an uncorrectable word (R233). -/
def State.soundBlock (s : State) (a : Word64) (n : Nat) : Judged Unit :=
  if s.spadBad a n then .bad cDATAERR a 1 else .ok ()

/-- The checks of a completion word or a status record of `n` bytes: inside the space, and a multiple of 2^k (R363,
R366). -/
def State.wordChecks (s : State) (on : Bool) (a n k : Nat) : Judged Unit × Judged Unit :=
  if on then (s.inSpace (BitVec.ofNat 64 a) n, alignedTo (BitVec.ofNat 64 a) k)
  else (.ok (), .ok ())

/-- The checks of a block with a header (R363), PERM before ALIGN before DATAERR (R218); the status record has
`statLen` bytes. -/
def State.blockChecks (s : State) (a : Word64) (n : Nat) (header : Bool) (statK statLen : Nat) :
    Option (Byte × Word64 × BitVec 32) :=
  match s.inSpace a n with
  | .bad c e d => some (c, e, d)
  | .ok _ =>
    let b := s.spadBytes a.toNat n
    let cw := fieldNat b 0 4
    let st := fieldNat b 12 4
    let (p1, a1) := s.wordChecks (header && cw.testBit 31) (cw % 2 ^ 22) 4 2
    let (p2, a2) := s.wordChecks (header && st != 0xFFFFFFFF) st statLen statK
    firstBad [p1, p2, alignedTo a 4, a1, a2, s.soundBlock a n]

/-- A block command at issue: a block outside the space traps, a block that an earlier command still writes freezes, and
what it then holds is checked; the freeze of a full queue; and its entry into the queue (R218, R360, R363). -/
def State.issueBlock (s : State) (d a : Reg) (bytes : Nat) (header : Bool) (statK : Nat)
    (m : List Byte → Cmd) : State :=
  let addr := s.rdS a
  let cmd := m (s.spadBytes addr.toNat bytes)
  match s.inSpace addr bytes with
  | .bad c e dt => s.trap c e dt
  | .ok _ =>
    if s.sbConflict (s.spadAccess false [addr] bytes) then s.freezeFor .scoreboard
    else match s.blockChecks addr bytes header statK cmd.statLen with
      | some (c, e, dt) => s.trap c e dt
      | none => if s.queueFull cmd.op.engine then s.freezeFor .scoreboard else s.enqueue d cmd

/-- A block command without further operands. -/
def blockCmd (op : CmdOp) (d a : Reg) (bytes : Nat) (s : State) : Res :=
  .next (s.issueBlock d a bytes true 2 fun b => { Cmd.blank op with block := b })

/-- A block command that names a level (R359): LEVEL comes first. -/
def levelCmd (op : CmdOp) (d a : Reg) (lv : BitVec 6) (bytes statK : Nat) (s : State) : Res :=
  if !s.tree.levelOk lv false then .next (s.trapLevel lv)
  else .next (s.issueBlock d a bytes true statK fun b =>
    { Cmd.blank op with block := b, level := lv })

def execTsld (d a : Reg) (s : State) : Res := blockCmd .tsld d a 32 s
def execTsst (d a : Reg) (s : State) : Res := blockCmd .tsst d a 32 s
def execXcopy (d a : Reg) (s : State) : Res := blockCmd .xcopy d a 64 s
def execXgather (d a : Reg) (s : State) : Res := blockCmd .xgather d a 64 s
def execEmbpool (d a : Reg) (s : State) : Res := blockCmd .embpool d a 80 s
def execXcvt (d a : Reg) (s : State) : Res := blockCmd .xcvt d a 80 s
def execTxtEnc (d a : Reg) (s : State) : Res := blockCmd .txtEnc d a 64 s
def execTxtDec (d a : Reg) (s : State) : Res := blockCmd .txtDec d a 64 s
def execTxtMask (d a : Reg) (s : State) : Res := blockCmd .txtMask d a 48 s
def execA2aDisp (d a : Reg) (lv : BitVec 6) (s : State) : Res := levelCmd .a2aDisp d a lv 96 2 s
def execA2aComb (d a : Reg) (lv : BitVec 6) (s : State) : Res := levelCmd .a2aComb d a lv 96 2 s
def execRepart (d a : Reg) (lv : BitVec 6) (s : State) : Res := levelCmd .repart d a lv 64 3 s

/-- CGLOAD (R379). -/
def execCgload (d a : Reg) (g : BitVec 2) (s : State) : Res :=
  .next (s.issueBlock d a 32 true 2 fun b => { Cmd.blank .cgload with block := b, graph := g })

/-- Whether a CGLOAD of the issuing context into a slot is queued or running (R380). -/
def State.loadingGraph (s : State) (g : BitVec 2) : Bool :=
  s.core.fqueue.any fun m => m.op == .cgload && m.ctx == s.fr.ctx && m.graph == g

/-- Whether the tree places two participants of a level's node on one module (R40). -/
def Tree.sharesModule (t : Tree) (lv : Nat) : Bool :=
  (List.range (t.cl + 1)).any fun j =>
    decide (lv < j) && decide (1 < t.fanAt j) &&
      (decide (t.physAt j < 6) || t.physAt j == t.physAt (j - 1))

/-- Whether R40 lets a graph's in-network operations start in the launch's tree. -/
def State.graphNetOk (s : State) (g : Option Graph) : Bool :=
  match g with
  | none => true
  | some gr => !(gr.ops.any fun o => o.opk == 2) || !s.tree.sharesModule gr.level

/-- The LEVEL of a slot's graph, when it names no level of the tree that a print may act on (R41, R95, R96). -/
def State.graphLevelBad (s : State) (gr : Option Graph) : Option (BitVec 6) :=
  match gr with
  | none => none
  | some gr =>
    let code := BitVec.ofNat 6 gr.level
    if 63 < gr.level || !s.tree.levelOk code false then some code else none

/-- CGRUN (R380). -/
def execCgrun (d a b : Reg) (lv : BitVec 6) (g : BitVec 2) (s : State) : Res :=
  if !s.tree.levelOk lv false then .next (s.trapLevel lv)
  else if s.loadingGraph g then .next (s.freezeFor .scoreboard)
  else
    let gr := s.core.graphs.get (ix4 (g.setWidth 6))
    match s.graphLevelBad gr with
    | some code => .next (s.trapLevel code)
    | none =>
    if !s.graphNetOk gr then .next (s.trapLevel lv)
    else
      let bases := (List.range 8).map fun i => s.rdS (b + BitVec.ofNat 6 i)
      .next (s.issueBlock d a 16 true 2 fun blk =>
        { Cmd.blank .cgrun with block := blk, level := lv, graph := g, args := bases })

/-- MCALL (R366): the completion word is checked as R363 checks a header's. -/
def execMcall (o : McallArgs) (s : State) : Res :=
  let params := (List.range 8).map fun i => s.rdM (BitVec.ofNat 6 i)
  let p4 := params.getD 4 0
  let cw := bits p4 34 2 * 2 ^ 20 + bits p4 0 20
  let (p, a) := s.wordChecks (p4.getLsbD 20) cw 4 2
  match firstBad [p, a] with
  | some (c, e, d) => .next (s.trap c e d)
  | none =>
    if s.queueFull .matrix then .next (s.freezeFor .scoreboard)
    else
      let lc := s.rdLc (o.lsel.setWidth 6)
      .next (s.enqueue o.d { Cmd.blank .mcall with
        args := [s.rdS o.a, s.rdS o.b, s.rdS o.c], params := params, slot := o.slot, pod := o.pod,
        accm := o.accm, fmtIx := (bits p4 28 6 + lc.toNat) % 64 })

/-- CELLLD (R369). -/
def execCellld (d a b c : Reg) (s : State) : Res :=
  let addr := s.rdS a
  match firstBad [s.inSpace addr 64, alignedTo addr 6] with
  | some (k, e, dt) => .next (s.trap k e dt)
  | none =>
    if s.queueFull .matrix then .next (s.freezeFor .scoreboard)
    else .next (s.enqueue d { Cmd.blank .cellld with args := [addr, s.rdS b, s.rdS c] })

/-- FLOWSET (R370). -/
def execFlowset (d a : Reg) (s : State) : Res :=
  if s.queueFull .matrix then .next (s.freezeFor .scoreboard)
  else .next (s.enqueue d { Cmd.blank .flowset with args := [s.rdS a] })

/-- XWIN (R371). -/
def execXwin (d a : Reg) (s : State) : Res :=
  .next (s.issueBlock d a 48 false 2 fun b => { Cmd.blank .xwin with block := b })

/-- MSTAT (R361). A suspended matrix or transfer command is still in its queue; a text command is not (R229). -/
def execMstat (d : Reg) (e : Engine) (s : State) : Res :=
  let mine := (s.queueOf e).filter fun m => m.ctx == s.fr.ctx && m.core == s.coreIx
  let queued := (mine.filter fun m => m.run != .suspended || e != .text).length
  let susp := mine.any fun m => m.run == .suspended
  let done := s.ctx.tickets.done.get (engIx e)
  .next (s.putS d (BitVec.ofNat 64 (done.toNat * 2 ^ 32 + queued % 256 * 2 ^ 8 + susp.toNat)) 1)

/-- MPUT (R362). -/
def execMput (d a : Reg) (s : State) : Res := .next (s.put (.m d) ((s.rdS a).setWidth 512) 1)

/-- MGET (R362). -/
def execMget (d a : Reg) (s : State) : Res := .next (s.putS d (s.rdM a) 1)

/-! ## How a command ends or suspends (R229, R365) -/

/-- The class of an engine fault; `nest` is PERM reason 3 of a fetch through the enlarger (R196). -/
inductive FaultClass
  | own (sub : Nat)
  | xlate (reason lvl : Nat)
  | perm (reason : Nat)
  | nest
  deriving DecidableEq, Repr

/-- Whether the command is suspended: the fault comes from Translate (R229), or R196 puts it under R192. -/
def FaultClass.suspends : FaultClass → Bool
  | .own _ => false
  | .xlate _ _ => true
  | .perm r => r == 1 || r == 2 || r == 9
  | .nest => true

/-- The engine number in DETAIL. -/
def engCode : Engine → Nat
  | .copy | .fabric => 0
  | .matrix => 1
  | .text => 2

/-- DETAIL of an ENGFAULT (R229). -/
def FaultClass.detail (f : FaultClass) (e : Engine) : BitVec 32 :=
  let cls := match f with
    | .own n => n
    | .xlate r l => 2 ^ 26 + l * 2 ^ 8 + r
    | .perm r => 2 * 2 ^ 26 + r
    | .nest => 2 * 2 ^ 26 + 3
  BitVec.ofNat 32 (engCode e * 2 ^ 29 + f.suspends.toNat * 2 ^ 28 + cls)

/-- An engine fault waits for delivery: a WAITING context that is not in a handler becomes READY, an IDLE one ends its
launch (R230). -/
def State.postFault (s : State) (m : Cmd) (f : FaultClass) (va : Word64) : State :=
  let x := s.ctxOf m.core m.ctx
  let eaddr := match f with
    | .own _ => 0
    | _ => va
  if x.state = .idle then s.endLaunch x.bind.lslot 9 cENGFAULT
  else
    let now := (s.coreAt m.core).now
    let flt : EngFault := ⟨f.detail m.op.engine, eaddr⟩
    s.modCtxOf m.core m.ctx fun c =>
      let c := { c with waits := { c.waits with faults := c.waits.faults ++ [flt] } }
      if c.hm then c else c.ready now

/-- A command meets a fault of the engine: it suspends with its progress, or it ends with its error
value (R229). -/
def State.engFault (s : State) (m : Cmd) (f : FaultClass) (va : Word64) : State :=
  let s :=
    if f.suspends then
      let s := s.modQueue m fun q => putCmd q { m with run := .suspended }
      if m.op.engine = .matrix then
        s.modCoreAt m.core fun k =>
          { k with counters := { k.counters with mxsusp := k.counters.mxsusp + 1 } }
      else s
    else s.finishCmd m false
  s.postFault m f va

/-! ## Failure records (R144) -/

/-- The bit of the status word for the way an access ended; none when it was performed. -/
def replyBit : Reply → BitVec 6
  | .ok => 0
  | .dead => 0x02
  | .refused => 0x04
  | .uncorrectable => 0x08
  | .timeout => 0x10
  | .poolError => 0x20

/-- Failures of a path are recorded in a context: the bit, and `n` writes not performed. -/
def Ctx.recordFail (c : Ctx) (path : Fin 5) (r : Reply) (n : Nat) : Ctx :=
  let f := c.fail.get path
  let f' : FailRec := ⟨f.bits ||| replyBit r, min (f.nfail + n) (2 ^ 32 - 1)⟩
  { c with fail := c.fail.set path.val f' path.isLt }

/-- A command ends with its error value because an access was refused, lost or uncorrectable: the
record of its path is set (R144, R365). -/
def State.failCmd (s : State) (m : Cmd) (r : Reply) (writes : Nat) : State :=
  (s.modCtxOf m.core m.ctx fun c => c.recordFail (enginePath m.op.engine) r writes).finishCmd m false

end Sys2Proof.Machine
end

