-- ==== Sys2Proof/Machine/Access.lean ====
section
/-!
DEFINITION. Accesses on path C: the global line cache (R138), homes (R139), requests that leave the module
(R28, R34, R35, R154), failure records (R144), fences (R142, R143), acquires and releases (R147, R148).
-/

namespace Sys2Proof.Machine

/-! ## Failures of a launch's write-backs (R144) -/

/-- A core whose contexts a running pre-emption has all stopped could not put some of their state into memory: its pod
cannot be moved to a spare (R25). -/
def State.noteLost (s : State) (core : Nat) : State :=
  match s.hub.stop with
  | some st =>
    if allCtxs.all fun c => !(s.ctxOf core c).bound || (s.ctxOf core c).state == .preempted then
      s.modHub fun h => { h with stop := some { st with lost := core :: st.lost } }
    else s
  | none => s

/-- Writes of a line that were not performed count in every context of the core that belongs to the
line's launch. -/
def State.failAll (s : State) (core slot : Nat) (r : Reply) (n va len : Nat) : State :=
  (s.modCoreAt core fun k => k.mapCtxs fun c =>
    if c.bound && c.bind.lslot == slot then
      { c.recordFail 0 r n with lost := c.lost ++ [(0, va, len)] }
    else c).noteLost core

/-- A failure of a path-C write of a context. -/
def State.failWrite (s : State) (core : Nat) (c : CtxNo) (r : Reply) (va len : Nat) : State :=
  s.modCtxOf core c fun x => { x.recordFail 0 r 1 with lost := x.lost ++ [(0, va, len)] }

/-! ## The line cache (R138) -/

/-- Whether a cached line is the one that holds an address of a launch. -/
def Line.isAt (l : Line) (slot va : Nat) : Bool := l.lslot == slot && l.va == va / 128 * 128

/-- The line of an address. -/
def Core.lineAt (k : Core) (slot va : Nat) : Option Line := k.lines.find? fun l => l.isAt slot va

/-- Whether every one of `n` bytes of a line from an offset is valid. -/
def Line.has (l : Line) (off n : Nat) : Bool := (List.range n).all fun i => l.valid.getLsbD (off + i)

/-- The runs of dirty bytes of a line, as offset and length. -/
def dirtyRuns (d : BitVec 128) : List (Nat × Nat) :=
  (List.range 128).foldr
    (fun i acc =>
      if d.getLsbD i then
        match acc with
        | (j, n) :: rest => if j = i + 1 then (i, n + 1) :: rest else (i, 1) :: acc
        | [] => [(i, 1)]
      else acc) []

/-- Whether an access that names this module's HBM lies beyond it: it is refused there (R134, R144). -/
def beyondHbm (tgt : BitVec 3) (modId pa n : Nat) : Bool := localHbm tgt modId && decide (hbmSize < pa + n)

/-- The mask of `n` bytes from an offset. -/
def byteMask (off n : Nat) : BitVec 128 := BitVec.ofNat 128 ((2 ^ n - 1) * 2 ^ off)

/-- The bytes of a line that stand in some of its 64-bit units. -/
def unitBytes (u : BitVec 16) : BitVec 128 :=
  (List.range 16).foldl (fun m i => if u.getLsbD i then m ||| byteMask (8 * i) 8 else m) 0

/-- The 64-bit units that `n` bytes from an offset touch, and those that they cover. -/
def unitsMet (off n : Nat) : BitVec 16 :=
  BitVec.ofNat 16 (packNat 1 ((List.range 16).map fun i => (decide (off < 8 * i + 8 ∧ 8 * i < off + n)).toNat))
def unitsWhole (off n : Nat) : BitVec 16 :=
  BitVec.ofNat 16 (packNat 1 ((List.range 16).map fun i => (decide (off ≤ 8 * i ∧ 8 * i + 8 ≤ off + n)).toNat))

/-- Whether some of `n` bytes of a line from an offset stand in a unit that holds an uncorrectable error (R22, R23). -/
def Line.badAt (l : Line) (off n : Nat) : Bool := l.bad &&& unitsMet off n != 0

/-- The dirty bytes of a line go to its home; a run that cannot be performed is recorded (R144), as is one that stands
in units with an uncorrectable error (R22, R23). -/
def State.writeback (s : State) (core : Nat) (l : Line) : State :=
  let s := (dirtyRuns (l.dirty &&& unitBytes l.bad)).foldl
    (fun s (off, n) => s.failAll core l.lslot .uncorrectable 1 (l.va + off) n) s
  (dirtyRuns (l.dirty &&& ~~~unitBytes l.bad)).foldl
    (fun s (off, n) =>
      let data := (l.bytes.drop off).take n
      match l.remote with
      | none =>
        if hbmSize < l.pa + off + n then s.failAll core l.lslot .refused 1 (l.va + off) n
        else
          let (s', ok) := s.storeHbm (l.pa + off) data
          if ok then s' else s'.failAll core l.lslot .uncorrectable 1 (l.va + off) n
      | some m =>
        s.ask 1 m (l.pa + off) (l.va + off) (.write data) (.writeback core l.lslot) s.fabric.next)
    s

/-- The line that a cached load's reply is to fill, as the line cache would hold it. -/
def State.lineOfLoad (s : State) (core : Nat) (c : CtxNo) (l : GLoad) : Line :=
  ⟨(s.ctxOf core c).bind.lslot, l.va / 128 * 128, some l.modId, l.pa / 128 * 128, [], 0, 0, 0⟩

/-- The reads of lines that are dropped while they are under way give what their homes held before: they must not stand
in the line cache, and are made again (R138, R139, R142, R147). -/
def State.spoilReads (s : State) (core : Nat) (p : Line → Bool) : State :=
  let hit (r : Request) : Bool := match r.who with
    | .load n c l => n == core && l.cached && p (s.lineOfLoad core c l)
    | _ => false
  if s.fabric.reqs.any hit then
    s.modFabric fun f => { f with reqs := f.reqs.map fun r => if hit r then { r with stale := true } else r }
  else s

/-- Lines that meet a condition are written back, and dropped or left clean. -/
def State.clean (s : State) (core : Nat) (drop : Bool) (p : Line → Bool) : State :=
  let s := if drop then s.spoilReads core p else s
  let hit := (s.coreAt core).lines.filter p
  let s := hit.foldl (fun s l => s.writeback core l) s
  if hit.isEmpty then s
  else s.modCoreAt core fun k =>
    { k with lines :=
        if drop then k.lines.filter fun l => !p l
        else k.lines.map fun l => if p l then { l with dirty := 0 } else l }

/-- Lines of a launch that overlap a range of virtual addresses. -/
def Line.within (slot lo hi : Nat) (l : Line) : Bool :=
  l.lslot == slot && l.va < hi && lo < l.va + 128

/-- The line's capacity of 512; a further line replaces one of them, which one is open. -/
def State.makeRoom (s : State) (core : Nat) : State :=
  let ls := (s.coreAt core).lines
  if ls.length < 512 then s
  else
    match ls[(s.freeWord 700).toNat % 512]? with
    | some v => s.clean core true (· == v)
    | none => s

/-- Replacing the bytes of a line at an offset. -/
def patch (bytes : List Byte) (off : Nat) (data : List Byte) : List Byte :=
  bytes.take off ++ data ++ bytes.drop (off + data.length)

/-- A store goes into its line, which is allocated without a fill when it is absent; units that it covers lose their
errors. One into a live register space spoils that context's registers (R126). -/
def State.storeLine (s : State) (core slot va : Nat) (remote : Option Nat) (pa : Nat)
    (data : List Byte) : State :=
  let s := if remote.isNone then s.scramble pa data.length else s
  let off := va % 128
  let m := byteMask off data.length
  match (s.coreAt core).lineAt slot va with
  | some l =>
    let l' := { l with
      bytes := patch l.bytes off data, valid := l.valid ||| m, dirty := l.dirty ||| m
      bad := l.bad &&& ~~~unitsWhole off data.length }
    s.modCoreAt core fun k => { k with lines := k.lines.map fun x => if x.isAt slot va then l' else x }
  | none =>
    let l : Line := ⟨slot, va / 128 * 128, remote, pa / 128 * 128,
      patch (List.replicate 128 0) off data, m, m, 0⟩
    (s.makeRoom core).modCoreAt core fun k => { k with lines := k.lines ++ [l] }

/-- A line's missing bytes are filled; its own dirty bytes stay. -/
def State.fillLine (s : State) (core slot va : Nat) (remote : Option Nat) (pa : Nat)
    (data : List Byte) : State :=
  let all : BitVec 128 := BitVec.allOnes 128
  match (s.coreAt core).lineAt slot va with
  | some l =>
    let bytes := (List.range 128).map fun i =>
      if l.valid.getLsbD i then l.bytes.getD i 0 else data.getD i 0
    let l' := { l with bytes := bytes, valid := all }
    s.modCoreAt core fun k => { k with lines := k.lines.map fun x => if x.isAt slot va then l' else x }
  | none =>
    (s.makeRoom core).modCoreAt core fun k =>
      { k with lines := k.lines ++ [⟨slot, va / 128 * 128, remote, pa / 128 * 128, data, all, 0, 0⟩] }

/-! ## Values that arrive (R163) -/

/-- A value put into the parts of a pending entry. -/
def fillParts (parts : List (Dest × BitVec 512)) (places : List (Nat × Nat × Nat × Nat)) (v : Nat) :
    List (Dest × BitVec 512) :=
  places.foldl
    (fun ps (part, bit, size, from_) =>
      ps.mapIdx fun i (d, x) =>
        if i = part then
          let m : BitVec 512 := (BitVec.ofNat 512 (2 ^ size - 1)) <<< bit
          (d, (x &&& ~~~m) ||| (BitVec.ofNat 512 (v / 2 ^ from_ % 2 ^ size) <<< bit))
        else (d, x)) parts

/-- A part of a pending value has come: the entry waits for one reply less. -/
def Ctx.supply (c : Ctx) (id : Nat) (places : List (Nat × Nat × Nat × Nat)) (v : Nat) (bad : Bool)
    (va : Nat) : Ctx :=
  { c with pend := c.pend.map fun p =>
      if p.id = id then
        { p with
          parts := fillParts p.parts places v
          left := p.left - 1
          addr := if bad && !p.bad then BitVec.ofNat 64 va else p.addr
          bad := p.bad || bad }
      else p }

/-- The 64-bit value of a load of `w` bytes. -/
def loadValue (w : Nat) (signed : Bool) (data : List Byte) : Nat :=
  intBits 64 (intVal signed (8 * w) (bytesToNat data))

/-! ## Acquires (R147) -/

/-- The entries of a context's binding store under a sync word. -/
def Ctx.bound? (c : Ctx) (va : Nat) : List BindEntry :=
  c.bindStore.filter fun e => e.sync.toNat == va

/-- The paths of some entries. -/
def entryPaths (es : List BindEntry) : BitVec 5 := es.foldl (fun p e => p ||| e.paths) 0

/-- Whether a write-back by a core is outstanding, among those up to a number. -/
def State.cleaning (s : State) (core upTo : Nat) : Bool :=
  s.fabric.reqs.any fun r => decide (r.num ≤ upTo) && match r.who with
    | .writeback n _ => n == core
    | _ => false

/-- The value of an acquire has returned: the lines of its regions are written back and dropped. The acquire is over
once those write-backs are performed or have failed (R144, R147). -/
def State.acquired (s : State) (core : Nat) (c : CtxNo) (id va : Nat) : State :=
  let x := s.ctxOf core c
  let s := (x.bound? va).foldl
    (fun s e => s.clean core true
      (Line.within x.bind.lslot e.rbase.toNat (e.rbase.toNat + e.rlen.toNat))) s
  let n := s.fabric.next
  if s.cleaning core n then
    s.modCtxOf core c fun x =>
      { x with acquires := x.acquires.map fun a => if a.id = id then { a with upTo := some n } else a }
  else s.modCtxOf core c fun x => { x with acquires := x.acquires.filter fun a => a.id != id }

/-- The acquires of a context whose write-backs are over. -/
def State.acquiresOver (s : State) (core : Nat) (c : CtxNo) : State :=
  let over_ (a : Acquire) : Bool := a.upTo.any fun n => !s.cleaning core n
  if (s.ctxOf core c).acquires.any over_ then
    s.modCtxOf core c fun x => { x with acquires := x.acquires.filter fun a => !over_ a }
  else s

/-! ## Atomics at a home (R36, R348) -/

/-- Bytes that an atomic of a type touches. -/
def atomWidth (ty : Ty) : Nat := if ty = .bf16 then 4 else scalarWidth ty

/-- An atomic on local HBM: the value before it, and whether it was performed. -/
def State.atomicHbm (s : State) (pa : Nat) (op : AtomOp) (ty : Ty) (x compare : Word64) :
    State × Nat × Bool :=
  let w := atomWidth ty
  let old := bytesToNat (s.readHbm pa w)
  let (s', ok) := s.storeHbm pa (natToBytes w (atomValue op ty old x.toNat compare.toNat))
  (s', old, ok)

/-- An atomic on a die buffer. -/
def State.atomicDie (s : State) (die off : Nat) (op : AtomOp) (ty : Ty) (x compare : Word64) :
    State × Nat × Bool :=
  let w := atomWidth ty
  let a := 2 ^ 24 * die + off
  let old := readNat s.dieBuf a w
  if s.badDie.contains (a / 4) || s.badDie.contains ((a + w - 1) / 4) then (s, old, false)
  else (s.writeDie die off (natToBytes w (atomValue op ty old x.toNat compare.toNat)), old, true)

/-! ## Performing an access -/

/-- Whether a target is pool or host memory. -/
def isIo (tgt : BitVec 3) : Bool := 2 ≤ tgt.toNat && tgt.toNat ≤ 5

/-- The bytes of a load from memory of this module, with what an uncorrectable error does to them. -/
def State.localRead (s : State) (core : Nat) (tgt : BitVec 3) (pa n : Nat) : List Byte × Bool :=
  if tgt = 6 then
    let a := 2 ^ 24 * dieOf core + pa
    (readBytes s.dieBuf a n, (List.range n).any fun i => s.badDie.contains ((a + i) / 4))
  else (s.readHbm pa n, s.hbmBad pa n)

/-- Whether an access of this target stays in the module. -/
def isHere (tgt : BitVec 3) (modId : Nat) : Bool := localHbm tgt modId || tgt == 6

/-- The module of a line's home, when it is another. -/
def remoteOf (tgt : BitVec 3) (modId : Nat) : Option Nat :=
  if localHbm tgt modId then none else some modId

/-- A load refused at its home: zero arrives, and REFUSED is set (R35, R144). -/
def State.refuseLoad (s : State) (core : Nat) (c : CtxNo) (l : GLoad) : State :=
  s.modCtxOf core c fun x => (x.supply l.id l.places 0 false l.va).recordFail 0 .refused 0

/-- A load lane that the line cache serves, filling the line from local HBM where bytes are missing. -/
def State.loadCached (s : State) (core : Nat) (c : CtxNo) (l : GLoad) (num : Nat) : State :=
  let slot := (s.ctxOf core c).bind.lslot
  let off := l.va % 128
  let give (s : State) (data : List Byte) (bad : Bool) : State :=
    s.modCtxOf core c (·.supply l.id l.places (loadValue l.w l.signed data) bad l.va)
  let seen (s : State) (data : List Byte) : List Byte :=
    if localHbm l.tgt l.modId then s.seenAs l.pa data else data
  let ln? := (s.coreAt core).lineAt slot l.va
  match ln?.filter (·.has off l.w) with
  | some ln => give s (seen s ((ln.bytes.drop off).take l.w)) (ln.badAt off l.w)
  | none =>
    let base := l.pa / 128 * 128
    if !localHbm l.tgt l.modId then
      s.ask l.tgt l.modId base l.va (.read 128) (.load core c l) num
    else if beyondHbm l.tgt l.modId l.pa l.w then s.refuseLoad core c l
    else if s.hbmBad base 128 then
      -- the line is not filled; bytes that it holds already are the ones read
      let own (i : Nat) (b : Byte) : Byte := match ln? with
        | some ln => if ln.valid.getLsbD (off + i) then ln.bytes.getD (off + i) b else b
        | none => b
      give s ((s.readHbm l.pa l.w).mapIdx own) (s.hbmBad l.pa l.w)
    else
      let s := s.fillLine core slot l.va none l.pa (s.readHbm base 128)
      match (s.coreAt core).lineAt slot l.va with
      | some ln => give s (seen s ((ln.bytes.drop off).take l.w)) (ln.badAt off l.w)
      | none => s

/-- A load lane that goes to its home. An acquire first writes back and drops its line (R138). -/
def State.loadHome (s : State) (core : Nat) (c : CtxNo) (l : GLoad) (num : Nat) : State :=
  let slot := (s.ctxOf core c).bind.lslot
  let s := if l.acq then s.clean core true (·.isAt slot l.va) else s
  if isHere l.tgt l.modId then
    let s :=
      if beyondHbm l.tgt l.modId l.pa l.w then s.refuseLoad core c l
      else
        let (data, bad) := s.localRead core l.tgt l.pa l.w
        s.modCtxOf core c (·.supply l.id l.places (loadValue l.w l.signed data) bad l.va)
    if l.acq then s.acquired core c l.id l.va else s
  else s.ask l.tgt l.modId l.pa l.va (.read l.w) (.load core c l) num

/-- A store at its home. -/
def State.storeHome (s : State) (core : Nat) (c : CtxNo) (va : Nat) (tgt : BitVec 3) (modId pa : Nat)
    (data : List Byte) (num : Nat) : State :=
  if beyondHbm tgt modId pa data.length then s.failWrite core c .refused va data.length
  else if localHbm tgt modId then
    let (s', ok) := s.storeHbm pa data
    if ok then s' else s'.failWrite core c .uncorrectable va data.length
  else if tgt = 6 then
    let (s', ok) := s.storeDie (dieOf core) pa data
    if ok then s' else s'.failWrite core c .uncorrectable va data.length
  else s.ask tgt modId pa va (.write data) (.store core c) num

/-- An atomic at its home; its sync word's line is written back and dropped first (R138). -/
def State.atomicHome (s : State) (core : Nat) (c : CtxNo) (id va : Nat) (tgt : BitVec 3)
    (modId pa : Nat) (op : AtomOp) (ty : Ty) (x compare : Word64) (acq : Bool) (num : Nat) : State :=
  let slot := (s.ctxOf core c).bind.lslot
  let s := s.clean core true (·.isAt slot va)
  if beyondHbm tgt modId pa (atomWidth ty) then
    let s := (s.modCtxOf core c (·.supply id [(0, 0, 64, 0)] 0 false va)).failWrite core c .refused va (atomWidth ty)
    if acq then s.acquired core c id va else s
  else if isHere tgt modId then
    let (s, old, ok) :=
      if tgt = 6 then s.atomicDie (dieOf core) pa op ty x compare else s.atomicHbm pa op ty x compare
    let v := loadValue (atomWidth ty) (ty == .i32) (natToBytes (atomWidth ty) old)
    let s := s.modCtxOf core c (·.supply id [(0, 0, 64, 0)] v (!ok) va)
    let s := if ok then s else s.failWrite core c .uncorrectable va (atomWidth ty)
    if acq then s.acquired core c id va else s
  else s.ask tgt modId pa va (.atomic op ty x compare) (.atomic core c id (ty == .i32) acq) num

/-- A peer store reaches a core of this module: a part of a word that holds an uncorrectable error is
not written (R343). -/
def State.peerWrite (s : State) (core : Nat) (c : CtxNo) (target off : Nat) (addr : Word64)
    (data : List Byte) : State :=
  let bad := (s.coreAt target).badWords.any fun w =>
    off < 4 * w + 4 && 4 * w < off + data.length && !(off ≤ 4 * w && 4 * w + 4 ≤ off + data.length)
  if bad then s.failWrite core c .uncorrectable addr.toNat data.length
  else s.writeSpad target off data

/-- An access is performed, or its request goes out. -/
def State.perform (s : State) (core : Nat) (c : CtxNo) (num : Nat) (a : Access) : State :=
  let slot := (s.ctxOf core c).bind.lslot
  match a with
  | .load l => if l.cached then s.loadCached core c l num else s.loadHome core c l num
  | .store va tgt modId pa cached data =>
    if cached then s.storeLine core slot va (remoteOf tgt modId) pa data
    else s.storeHome core c va tgt modId pa data num
  | .atomic id va tgt modId pa op ty x y acq => s.atomicHome core c id va tgt modId pa op ty x y acq num
  | .release r => s.modCtxOf core c fun x => { x with releases := x.releases ++ [r] }
  | .peer modId target off addr data =>
    if modId = Config.rackPosition.val then s.peerWrite core c target off addr data
    else s.ask 1 modId (peerFlit addr off) addr.toNat (.write data) (.peerStore core c) num
  | .linv lo hi => s.clean core true (Line.within slot lo hi)

/-! ## Order on path C (R140, R143, R147, R154) -/

/-- The global bytes an access touches: of a LINV, whole lines (R351). -/
def Access.range : Access → Nat × Nat
  | .load l => (l.va, l.w)
  | .store va _ _ _ _ data => (va, data.length)
  | .atomic _ va _ _ _ _ ty _ _ _ => (va, atomWidth ty)
  | .release r => (r.va, r.width)
  | .peer _ _ _ _ _ => (0, 0)
  | .linv lo hi => (lo / 128 * 128, (hi + 127) / 128 * 128 - lo / 128 * 128)

/-- Whether two ranges share a byte. -/
def rangesMeet (a b : Nat × Nat) : Bool := a.1 < b.1 + b.2 && b.1 < a.1 + a.2

/-- The target, module and physical address of an access to memory. -/
def Access.home : Access → Option (BitVec 3 × Nat × Nat)
  | .load l => some (l.tgt, l.modId, l.pa)
  | .store _ tgt modId pa _ _ => some (tgt, modId, pa)
  | .atomic _ _ tgt modId pa _ _ _ _ _ => some (tgt, modId, pa)
  | .release r => some (r.tgt, r.modId, r.pa)
  | .peer _ _ _ _ _ => none
  | .linv _ _ => none

/-- The 64-byte line of pool or host memory that an access reaches (R154). -/
def Access.ioLine (a : Access) : Option (BitVec 3 × Nat) :=
  (a.home.filter fun (tgt, _, _) => isIo tgt).map fun (tgt, _, pa) => (tgt, pa / 64)

/-- Whether an access is to pool or host memory. -/
def Access.io (a : Access) : Bool := a.ioLine.isSome

/-- Whether an access comes behind an earlier one that waits: they share a byte, or a 64-byte line of pool or host
memory (R140, R154). -/
def Access.after (a b : Access) : Bool := rangesMeet b.range a.range || (a.io && a.ioLine == b.ioLine)

/-- Whether an access of a context must wait: behind a fence or an acquire that names path C, or behind
an earlier waiting access or release to the same bytes. A fence below SYS does not order accesses to
pool and host memory. -/
def Ctx.blocks (c : Ctx) (num : Nat) (a : Access) : Bool :=
  c.fences.any (fun f => f.paths.getLsbD 0 && decide (f.num ≤ num) && (f.level == 63 || !a.io))
    || c.acquires.any (fun q => q.paths.getLsbD 0 && decide (q.num < num) && !a.io)
    || c.behind.any (fun (_, b) => a.after b)
    || c.releases.any (fun r => decide (r.num < num) && a.after (.release r))

/-- Whether an access of a context to bytes that an earlier cached load reads must wait until that load has returned: one
that writes, or that reads them at their home, does, and a cached load does where the read is to be made again
(R139, R140). -/
def Access.followsLoad (a : Access) (stale : Bool) : Bool :=
  match a with
  | .load l => stale || !l.cached
  | .store _ _ _ _ _ _ | .atomic _ _ _ _ _ _ _ _ _ _ | .release _ => true
  | .peer _ _ _ _ _ | .linv _ _ => false

/-- Whether an earlier cached load of a context has not returned, and an access must wait for it. -/
def State.loadAhead (s : State) (core : Nat) (c : CtxNo) (num : Nat) (a : Access) : Bool :=
  s.fabric.reqs.any fun r => decide (r.num < num) && a.followsLoad r.stale && match r.who with
    | .load n d l => n == core && d == c && l.cached && rangesMeet (l.va, l.w) a.range
    | _ => false

/-- Whether an access of a context must wait for what comes before it. -/
def State.mustFollow (s : State) (core : Nat) (c : CtxNo) (num : Nat) (a : Access) : Bool :=
  (s.ctxOf core c).blocks num a || s.loadAhead core c num a

/-- Whether an access writes its bytes. -/
def Access.writes : Access → Bool
  | .store _ _ _ _ _ _ | .atomic _ _ _ _ _ _ _ _ _ _ | .release _ => true
  | .load _ | .peer _ _ _ _ _ | .linv _ _ => false

/-- The memory that a target names, as a die has it: this module's HBM, a die buffer, or another. -/
def memoryOf (die : Nat) (tgt : BitVec 3) (modId : Nat) : Nat :=
  if localHbm tgt modId then 0 else if tgt = 6 then 1 + die else 16 + 8 * modId + tgt.toNat

/-- Where the 2,048 bytes of a stream command's record lie: memory, address and length of each page's part. -/
def State.streamPlaces (s : State) (m : Cmd) : List (Nat × Nat × Nat) :=
  let va := m.f 16 8
  let here := min 2048 (65536 - va % 65536)
  [(va, here), (va + here, 2048 - here)].filterMap fun (a, n) =>
    match s.translateWith (s.podAt (podOf m.core)).xlat (s.ctxOf m.core m.ctx).bind.lslot (BitVec.ofNat 64 a) .read with
    | .ok tgt modId pa _ => some (memoryOf (dieOf m.core) tgt modId, pa, n)
    | _ => none

/-- Whether a write of some bytes of a memory meets the record of a queued stream command. -/
def State.onStream (s : State) (mem : Nat) (r : Nat × Nat) (m : Cmd) : Bool :=
  (m.op == .txtEnc || m.op == .txtDec)
    && (s.streamPlaces m).any fun (k, pa, n) => k == mem && rangesMeet r (pa, n)

/-- A write to a stream record makes the outcome of the commands on it unpredictable, whoever makes it and under
whatever address (R199). -/
def State.noteStream (s : State) (mem : Nat) (r : Nat × Nat) : State :=
  if s.text.any fun (_, q) => q.any (s.onStream mem r) then
    { s with text := s.text.map fun (d, q) => (d, q.map fun m => { m with spoilt := m.spoilt || s.onStream mem r m }) }
  else s

/-- The same for a write that a context of a core makes. -/
def State.noteWrite (s : State) (core : Nat) (a : Access) : State :=
  match a.writes, a.home with
  | true, some (tgt, modId, pa) => s.noteStream (memoryOf (dieOf core) tgt modId) (pa, a.range.2)
  | _, _ => s

/-- An access of a context: performed now, or kept waiting. -/
def State.access (s : State) (core : Nat) (c : CtxNo) (num : Nat) (a : Access) : State :=
  if s.mustFollow core c num a then
    s.modCtxOf core c fun x => { x with behind := x.behind ++ [(num, a)] }
  else s.perform core c num a

/-- Waiting accesses that need wait no longer are performed, in their order. -/
def State.drain (s : State) (core : Nat) (c : CtxNo) : State :=
  let waiting := (s.ctxOf core c).behind
  if waiting.isEmpty then s
  else waiting.foldl (fun s (n, a) => s.access core c n a)
    (s.modCtxOf core c fun x => { x with behind := [] })

/-- The next number of an access; the counter advances. -/
def State.takeNum (s : State) : Nat × State :=
  (s.fabric.next, s.modFabric fun f => { f with next := f.next + 1 })

/-! ## Replies (R34, R35, R144) -/

/-- Whether host memory performs an atomic (R349). -/
def hostAtomic (op : AtomOp) (ty : Ty) : Bool :=
  match op with
  | .add => ty.isInt
  | .swap | .cas => true
  | _ => false

/-- How a request ends, given how its reply says it ended: host memory refuses an atomic it cannot
perform. -/
def Request.outcome (r : Request) (how : Reply) : Reply :=
  match r.kind with
  | .atomic op ty _ _ =>
    if (r.tgt = 4 ∨ r.tgt = 5) ∧ !hostAtomic op ty ∧ how = .ok then .refused else how
  | _ => how

/-- A load's reply: its value, zero for a load that is lost, or a value that met an error. -/
def State.replyLoad (s : State) (core : Nat) (c : CtxNo) (l : GLoad) (how : Reply) (data : List Byte) :
    State :=
  let slot := (s.ctxOf core c).bind.lslot
  let s := match how with
    | .ok =>
      if l.cached then
        let s := s.fillLine core slot l.va (some l.modId) l.pa data
        let off := l.va % 128
        let bytes := match (s.coreAt core).lineAt slot l.va with
          | some ln => (ln.bytes.drop off).take l.w
          | none => (data.drop off).take l.w
        s.modCtxOf core c (·.supply l.id l.places (loadValue l.w l.signed bytes) false l.va)
      else s.modCtxOf core c (·.supply l.id l.places (loadValue l.w l.signed data) false l.va)
    | .uncorrectable => s.modCtxOf core c (·.supply l.id l.places 0 true l.va)
    | _ => s.modCtxOf core c fun x => (x.supply l.id l.places 0 false l.va).recordFail 0 how 0
  if l.acq then s.acquired core c l.id l.va else s

/-- A reply ends its request (R34): the tag is free, the value arrives or the failure is recorded, and
what waited behind it goes on. -/
def State.reply (s : State) (r : Request) (reported : Reply) (data : List Byte) : State :=
  let how : Reply := r.outcome reported
  let s := s.modFabric fun f => { f with reqs := f.reqs.filter (· != r) }
  let s := match r.who with
    | .load core c l =>
      if r.stale && how == Reply.ok && (s.ctxOf core c).pend.any (·.id == l.id) then s.loadCached core c l r.num
      else s.replyLoad core c l how data
    | .store core c =>
      match how, r.kind with
      | .ok, _ => s
      | _, .write d => s.failWrite core c how r.va d.length
      | _, _ => s
    | .peerStore core c =>
      if how = Reply.ok then s else s.modCtxOf core c fun x => x.recordFail 0 how 1
    | .atomic core c id signed acq =>
      let w := match r.kind with
        | .atomic _ ty _ _ => atomWidth ty
        | _ => 8
      let s :=
        if how = Reply.ok then
          s.modCtxOf core c (·.supply id [(0, 0, 64, 0)] (loadValue w signed data) false r.va)
        else (s.modCtxOf core c (·.supply id [(0, 0, 64, 0)] 0 (how == Reply.uncorrectable) r.va)).failWrite
          core c how r.va w
      if acq then s.acquired core c id r.va else s
    | .writeback core slot =>
      match how, r.kind with
      | .ok, _ => s
      | _, .write d => s.failAll core slot how 1 r.va d.length
      | _, _ => s
    | .waitWord q i =>
      s.modHub fun h =>
        let x := h.queues.get ⟨q % 8, Nat.mod_lt _ (by decide)⟩
        let w : PeerWord :=
          if how = Reply.ok then .value (BitVec.ofNat 64 (bytesToNat data)) else .unreadable
        { h with queues := h.queues.set (q % 8) { x with peer := x.peer.set i w } (Nat.mod_lt _ (by decide)) }
    | .signal => s
  let s := match r.who with
    | .writeback core _ => allCtxs.foldl (fun (s : State) c => (s.acquiresOver core c).drain core c) s
    | _ => match r.who.owner with
      | some (core, c) => s.drain core c
      | none => s
  s.pump

/-! ## Fences (R142, R143) -/

/-- Whether a request is a context's own, issued before a number, and counts for a level. -/
def Request.before (r : Request) (core : Nat) (c : CtxNo) (num : Nat) (sys : Bool) : Bool :=
  r.who.owner == some (core, c) && r.num < num && (sys || !r.io)

/-- Whether a line's write-back by a core is outstanding. -/
def Request.cleans (r : Request) (core : Nat) : Bool :=
  match r.who with
  | .writeback n _ => n == core
  | _ => false

/-- Whether a command of a context on the engine of a path was issued before a command number and has not
finished. -/
def State.unfinished (s : State) (core : Nat) (c : CtxNo) (paths : BitVec 5) (cmd : Nat) : Bool :=
  (s.commands core).any fun m =>
    m.ctx == c && m.id < cmd && paths.getLsbD (enginePath m.op.engine).val

/-- Whether the earlier accesses that a fence waits for are over: below SYS those to pool and host memory do not
count. -/
def State.fenceMet (s : State) (core : Nat) (c : CtxNo) (f : Fence) : Bool :=
  let x := s.ctxOf core c
  let sys := f.level == 63
  let onC : Bool := f.paths.getLsbD 0
  (!onC ||
    (x.behind.all (fun (n, a) => f.num ≤ n || (a.io && !sys))
      && x.releases.all (fun r => f.num ≤ r.num || (isIo r.tgt && !sys))
      && !s.fabric.reqs.any fun r => r.before core c f.num sys))
    && !s.unfinished core c f.paths f.cmd

/-- Whether a fence writes back and drops the core's lines: at SYS whatever paths it names (R142). -/
def State.fenceCleans (s : State) (core : Nat) (c : CtxNo) (f : Fence) : Bool :=
  f.level == 63 || (f.paths.getLsbD 0
    && decide (3 < (s.lslot (s.ctxOf core c).bind.lslot).info.tree.physAt f.level.toNat))

/-- The status word of the named paths (R144). -/
def Ctx.report (c : Ctx) (paths : BitVec 5) : Word64 :=
  let named : List (Fin 5) := [0, 1, 2, 3, 4].filter fun i => paths.getLsbD i.val
  let recs := named.map fun i => (i.val, c.fail.get i)
  let n := min ((recs.map fun (_, f) => f.nfail).foldl (· + ·) 0) (2 ^ 32 - 1)
  let kinds : BitVec 6 := recs.foldl (fun b (_, f) => b ||| f.bits) 0
  let failing : Nat := recs.foldl (fun b (i, f) => if f.bits != 0 || f.nfail != 0 then b + 2 ^ (8 + i) else b) 0
  let any := if failing = 0 then 0 else 1
  BitVec.ofNat 64 (n * 2 ^ 32 + failing + kinds.toNat / 2 * 2 + any)

/-- The records of the named paths are cleared. -/
def Ctx.clearFail (c : Ctx) (paths : BitVec 5) : Ctx :=
  let c := ([0, 1, 2, 3, 4] : List (Fin 5)).foldl
    (fun c i => if paths.getLsbD i.val then { c with fail := c.fail.set i.val FailRec.none i.isLt } else c) c
  { c with lost := c.lost.filter fun (p, _, _) => !paths.getLsbD p }

/-- A fence completes: its status arrives, the records are cleared, later accesses go on. -/
def State.fenceEnds (s : State) (core : Nat) (c : CtxNo) (f : Fence) : State :=
  let word := (s.ctxOf core c).report f.paths
  ((s.modCtxOf core c fun x =>
    ({ x with fences := x.fences.filter fun g => g.id != f.id }.supply f.id [(0, 0, 64, 0)]
      word.toNat false 0).clearFail f.paths).drain core c).pump

/-- The oldest fence of a context whose waits are over goes on: it sends the line cache home, and
completes once those write-backs are performed or have failed. -/
def State.fenceStep (s : State) (core : Nat) (c : CtxNo) : State :=
  match (s.ctxOf core c).fences.find? fun f => s.fenceMet core c f with
  | none => s
  | some f =>
    let s :=
      if !f.flushed && s.fenceCleans core c f then
        (s.clean core true fun _ => true).modCtxOf core c fun x =>
          { x with fences := x.fences.map fun g => if g.id = f.id then { g with flushed := true } else g }
      else s
    if (f.paths.getLsbD 0 || s.fenceCleans core c f) && s.fabric.reqs.any (·.cleans core) then s
    else s.fenceEnds core c f

/-! ## Releases (R148) -/

/-- Whether a release's bound writes and commands are over. -/
def State.releaseMet (s : State) (core : Nat) (c : CtxNo) (r : Release) : Bool :=
  let x := s.ctxOf core c
  let paths := r.entries.foldl (fun p (q, _, _) => p ||| q) (0 : BitVec 5)
  r.entries.isEmpty || (r.cleaned && x.behind.all (fun (n, _) => r.num ≤ n)
      && !(s.fabric.reqs.any fun q => q.before core c r.num true || q.cleans core)
      && !s.unfinished core c (paths &&& 0x1E) r.cmd)

/-- Whether the dirty bytes of a release's regions may go home: every earlier access of its context has entered the line
cache or gone out. -/
def Ctx.releaseCleans (c : Ctx) (r : Release) : Bool :=
  !r.cleaned && !r.entries.isEmpty && c.behind.all fun (n, _) => r.num ≤ n

/-- The dirty bytes of a release's regions are sent home (R148). -/
def State.cleanRelease (s : State) (core : Nat) (c : CtxNo) (r : Release) : State :=
  let slot := (s.ctxOf core c).bind.lslot
  (r.entries.foldl (fun s (_, base, len) => s.clean core false (Line.within slot base (base + len))) s).modCtxOf core c
    fun x => { x with releases := x.releases.map fun q => if q = r then { r with cleaned := true } else q }

/-- Whether a bound write has failed: a lost write of path C in a region, or an earlier command of one of the entries'
engine paths. Which failures count is open: here those that no fence has reported, and those of the core's lines whose
bytes other contexts wrote too (DESIGN CHOICE, log entry 117). -/
def Ctx.boundLost (c : Ctx) (r : Release) : Bool :=
  r.entries.any fun (paths, base, len) =>
    c.lost.any fun (p, a, n) =>
      paths.getLsbD p && if p = 0 then rangesMeet (a, n) (base, len) else decide (a < r.cmd)

/-- A release whose waits are over is performed, or counted where a bound write failed. -/
def State.releaseEnds (s : State) (core : Nat) (c : CtxNo) (r : Release) : State :=
  let x := s.ctxOf core c
  let s := s.modCtxOf core c fun x => { x with releases := x.releases.filter (· != r) }
  let s :=
    if x.boundLost r then
      s.modCtxOf core c fun x => (x.supply r.id [(0, 0, 64, 0)] 0 false r.va).recordFail 0 .ok 1
    else match r.atom with
      | some (op, ty) =>
        s.atomicHome core c r.id r.va r.tgt r.modId r.pa op ty r.operand r.compare false r.num
      | none =>
        (s.clean core true (·.isAt x.bind.lslot r.va)).storeHome core c r.va r.tgt r.modId r.pa
          (natToBytes r.width r.operand.toNat) r.num
  (s.drain core c).pump

/-- A context's releases whose earlier stores have entered the line cache send their regions home, in order; then the
oldest one whose waits are over is performed. -/
def State.releaseStep (s : State) (core : Nat) (c : CtxNo) : State :=
  let x := s.ctxOf core c
  let s := (x.releases.filter x.releaseCleans).foldl (fun s r => s.cleanRelease core c r) s
  match (s.ctxOf core c).releases.find? fun r => s.releaseMet core c r with
  | none => s
  | some r => s.releaseEnds core c r

end Sys2Proof.Machine
end

