-- ==== Sys2Proof/Machine/Memory.lean ====
section
/-!
DEFINITION. M-space instructions (R338 to R352): scratchpad and global loads and stores, peer stores,
atomics, fences, WAITA, LINV.
-/

namespace Sys2Proof.Machine

/-! ## Checks over lanes (R218, R339) -/

/-- The first failure of one cause over the lanes in ascending order. -/
def firstLane {α : Type} (f : α → Option (Byte × Word64 × BitVec 32)) : List α →
    Option (Byte × Word64 × BitVec 32)
  | [] => none
  | x :: xs => match f x with
    | some e => some e
    | none => firstLane f xs

/-- The first failure of several causes, taken in the order of the list. -/
def firstCause : List (Option (Byte × Word64 × BitVec 32)) → Option (Byte × Word64 × BitVec 32)
  | [] => none
  | some e :: _ => some e
  | none :: rest => firstCause rest

/-- ALIGN where an address is not a multiple of the access width. -/
def misaligned (w : Nat) (a : Word64) : Option (Byte × Word64 × BitVec 32) :=
  if a.toNat % w = 0 then none else some (cALIGN, a, log2Size w)

/-! ## Scratchpad accesses (R340 to R343) -/

/-- PERM where some byte of an access lies outside the context's space. -/
def State.outside (s : State) (w : Nat) (a : Word64) : Option (Byte × Word64 × BitVec 32) :=
  match s.spadSpan a w with
  | .ok _ => none
  | .bad c e d => some (c, e, d)

/-- DATAERR where an access meets an uncorrectable word. -/
def State.unsound (s : State) (w : Nat) (a : Word64) : Option (Byte × Word64 × BitVec 32) :=
  if s.spadBad a w then some (cDATAERR, a, 1) else none

/-- The causes of scratchpad accesses of width `w` at some addresses; `ea` is the address that must be a
multiple of 4 for the packed forms. -/
def State.spadCauses (s : State) (as : List Word64) (w : Nat) (packed : Option Word64)
    (data : Bool) : Option (Byte × Word64 × BitVec 32) :=
  firstCause [
    firstLane (s.outside w) as,
    match packed with
    | none => firstLane (misaligned w) as
    | some ea => if as.isEmpty then none else misaligned 4 ea,
    if data then firstLane (s.unsound w) as else none]

/-- The words of a core's scratchpad that an access touches (R165). -/
def State.touchedWords (s : State) (w : Nat) (a : Word64) : List (Bool × Nat × Nat) :=
  match s.spadTarget a with
  | .ok (core, off) =>
    (List.range ((off % 4 + w + 3) / 4)).map fun i => (s.fr.slot == 7, core, off / 4 + i)
  | .bad _ _ _ => []

/-- The words a judged syllable touches count for the bundle's bank conflicts. -/
def State.touch (s : State) (as : List Word64) (w : Nat) : State :=
  if s.fr.judging then
    s.modFr fun f => { f with touched := f.touched ++ as.flatMap (s.touchedWords w) }
  else s

/-- Members of a list, each once. -/
def distinct {α : Type} [BEq α] : List α → List α
  | [] => []
  | x :: xs => let ys := distinct xs; if ys.contains x then ys else x :: ys

/-- The largest number of distinct words in one bank (R165). -/
def bankLoad (ws : List (Nat × Nat)) : Nat :=
  let ws := distinct ws
  ws.foldl (fun m (c, w) => max m ((ws.filter fun (d, x) => d == c && x % 64 == w % 64).length)) 0

/-- The largest number of distinct words of some accesses in one bank that one of `mine` reaches too. -/
def sharedLoad (mine all : List (Nat × Nat)) : Nat :=
  let all := distinct all
  mine.foldl (fun m (c, w) => max m ((all.filter fun (d, x) => d == c && x % 64 == w % 64).length)) 0

/-- The freeze of a bundle with its accesses among others of its pod in the same cycle, each slot's port for itself. -/
def freezeOf (mine all : List (Bool × Nat × Nat)) : Nat :=
  let of (m1 : Bool) (l : List (Bool × Nat × Nat)) : List (Nat × Nat) := (l.filter fun x => x.1 == m1).map fun x => x.2
  let k (m1 : Bool) : Nat := sharedLoad (of m1 mine) (of m1 all)
  max (k false - 2) (k true - 2)

/-- What the other cores of the pod have reached in this round (R165). -/
def State.poolUses (s : State) : List BankUse :=
  s.pod.banks.filter fun b => b.round == s.round && b.core != s.coreIx

/-- The freeze that bank conflicts cost the bundle (R165). -/
def State.bankFreeze (s : State) : Nat :=
  freezeOf s.fr.touched (s.fr.touched ++ s.poolUses.flatMap BankUse.words)

/-- A core freezes longer after its bundle, because another core has reached its banks in the same cycle: the values
that come at issue + F + latency come as much later (R165, R167). -/
def Core.freezeFor (k : Core) (n : Nat) : Core :=
  if k.freeze < n then
    let later : Ctx → Ctx := fun c => { c with pend := c.pend.map fun (p : Pending) =>
      if p.seq ≠ 0 ∧ p.seq = c.seq then { p with due := p.due.map (· + (n - k.freeze)) } else p }
    { k with
      freeze := n, freezeWhy := .bank
      ctxs := k.ctxs.set k.last.val (later (k.ctxs.get k.last)) k.last.isLt }
  else k

/-- The bundle's accesses join those of its pod in this round: its freeze, and the state in which every other core
whose accesses share a bank with them freezes as long as they need together (R165). -/
def State.shareBanks (s : State) : Nat × State :=
  let freeze := s.bankFreeze
  if s.fr.touched = [] then (freeze, s)
  else
    let others := s.poolUses
    let me : BankUse := ⟨s.round, s.coreIx, s.fr.touched⟩
    let all := (me :: others).flatMap BankUse.words
    let s := s.modPod (podOf s.coreIx) fun p => { p with banks := others ++ [me] }
    (freeze, others.foldl
      (fun s b => s.modCoreAt b.core (·.freezeFor (freezeOf b.words all))) s)

/-- Whether the context runs under the interlocked compatibility mode (R167). -/
def State.compat (s : State) : Bool := s.launch.info.profile != s.pod.lprof

/-- The scratchpad load latency of the pod's profile (R157). -/
def State.loadLatency (s : State) : Nat := if s.pod.lprof then 6 else 4

/-- A pending entry of the issuing context (R163); `seq` is that of a compatibility-mode load. -/
def State.addPending (s : State) (parts : List (Dest × BitVec 512)) (long : Bool) (due : Option Nat)
    (left : Nat) (addr : Word64) (seq : Nat := 0) : State :=
  s.modCtx fun c =>
    let parts := parts.filter fun (d, _) => !d.discarded
    { c with
      pend := if parts.isEmpty && left = 0 then c.pend
        else c.pend ++ [⟨c.nextId, parts, long, due, left, addr, false, seq⟩]
      nextId := c.nextId + 1 }

/-- A scratchpad load's destinations: landing after the load latency, or pending under the compatibility
mode (R157, R167). -/
def State.putLoaded (s : State) (parts : List (Dest × BitVec 512)) : State :=
  if s.compat then s.addPending parts false (some (s.bankFreeze + s.loadLatency)) 0 0 (s.ctx.seq + 1)
  else parts.foldl (fun s (d, x) => s.put d x s.loadLatency) s

/-- The lanes of some positions as results of a vector register: one part for each group. -/
def vecParts (d : Reg) (vals : List (Nat × Nat)) : List (Dest × BitVec 512) :=
  allGroups.filterMap fun g =>
    let mine := vals.filter fun (p, _) => p / 16 == g.val
    if mine.isEmpty then none
    else some (.v d g (BitVec.ofNat 16 (mine.foldl (fun m (p, _) => m + 2 ^ (p % 16)) 0)),
      BitVec.ofNat 512 (mine.foldl (fun m (p, v) => m + v % 2 ^ 32 * 2 ^ (32 * (p % 16))) 0))

/-- Whether a width-8 form's second register is named. -/
def ofsSecond : Ofs → Option Reg
  | .pair b => some b
  | _ => none

/-- The unit of DISP and the bytes of a lane for a vector form (R259, R339, R342). -/
structure LaneForm where
  unit : Nat
  w : Nat
  stride : Nat
  packed : Bool
  deriving DecidableEq, Repr

/-- The plain form of a type. -/
def plainForm (ty : Ty) : LaneForm := ⟨laneWidth ty, laneWidth ty, laneWidth ty, false⟩

/-- The packed form of 6-bit elements. -/
def packedForm : LaneForm := ⟨4, 3, 3, true⟩

/-- The active lanes of a vector access with their addresses. -/
def State.laneAddrs (s : State) (o : VMArgs) (f : LaneForm) : Word64 × List (Nat × Word64) :=
  let ea := s.ea o.m f.unit
  let at_ := s.laneAddr ea o.ofs f.stride
  (ea, (activeList (s.activeLanes o.gm o.q)).map fun p => (p, at_ p))

/-- LD (R340). -/
def execLd (o : MArgs) (s : State) : Res :=
  let w := scalarWidth o.ty
  let a := s.ea o.m w
  match s.spadCauses [a] w none true with
  | some (c, e, d) => .next (s.trap c e d)
  | none =>
    let s := s.touch [a] w
    if s.sbConflict (s.spadAccess false [a] w) then .next (s.freezeFor .scoreboard)
    else
      let v := extendTo o.ty 64 w (bytesToNat (s.spadBytes a.toNat w))
      .next (s.putLoaded [(.s o.d, BitVec.ofNat 512 v)])

/-- Bytes for a scratchpad of the context, written when the bundle's loads have read. -/
def State.deferSpad (s : State) (a : Word64) (data : List Byte) : State :=
  s.modFr fun f =>
    { f with deferred := f.deferred ++ (s.spadPieces a data).map fun (core, off, d) => .spad core off d }

/-- Stores of some lanes: their causes, the scoreboard, then the writes in lane order (R340, R341). -/
def State.storeSpad (s : State) (lanes : List (Word64 × Nat)) (w : Nat) (packed : Option Word64) :
    State :=
  let as := lanes.map Prod.fst
  match s.spadCauses as w packed (decide (w < 4)) with
  | some (c, e, d) => s.trap c e d
  | none =>
    let s := s.touch as w
    if s.sbConflict (s.spadAccess true as w) then s.freezeFor .scoreboard
    else lanes.foldl (fun s (a, v) => s.deferSpad a (natToBytes w v)) s

/-- ST (R340). -/
def execSt (o : MArgs) (s : State) : Res :=
  let w := scalarWidth o.ty
  .next (s.storeSpad [(s.ea o.m w, (s.rdS o.d).toNat)] w none)

/-- The lane bytes of a packed group: four 6-bit elements, two zero bits above each (R342). -/
def unpack6 (g : Nat) : Nat :=
  (List.range 4).foldl (fun x j => x + g / 2 ^ (6 * j) % 64 * 2 ^ (8 * j)) 0

/-- The packed group of a lane. -/
def pack6 (x : Nat) : Nat :=
  (List.range 4).foldl (fun g j => g + x / 2 ^ (8 * j) % 64 * 2 ^ (6 * j)) 0

/-- A vector load from the scratchpad; `val` makes a lane from the loaded bytes' value. -/
def State.loadVec (s : State) (o : VMArgs) (f : LaneForm) (val : Nat → Nat) : State :=
  let (ea, las) := s.laneAddrs o f
  let as := las.map Prod.snd
  match s.spadCauses as f.w (if f.packed then some ea else none) true with
  | some (c, e, d) => s.trap c e d
  | none =>
    let s := s.touch as f.w
    if s.sbConflict (s.spadAccess false as f.w) then s.freezeFor .scoreboard
    else
      let vals := las.map fun (p, a) => (p, val (bytesToNat (s.spadBytes a.toNat f.w)))
      s.putLoaded (vecParts o.d vals ++
        match ofsSecond o.ofs with
        | some b => vecParts b (vals.map fun (p, v) => (p, v / 2 ^ 32))
        | none => [])

/-- The value of a loaded lane (R340). -/
def laneValue (ty : Ty) (m : Nat) : Nat :=
  if laneWidth ty = 8 then m else extendTo ty 32 (laneWidth ty) m

def execVld (o : VMArgs) (s : State) : Res := .next (s.loadVec o (plainForm o.ty) (laneValue o.ty))
def execVgath (o : VMArgs) (s : State) : Res := .next (s.loadVec o (plainForm o.ty) (laneValue o.ty))

/-- VLDB (R342). -/
def execVldb (o : VMArgs) (s : State) : Res := .next (s.loadVec o packedForm unpack6)

/-- The values that the active lanes store: lane p of v[D], under lane p of v[B] for a pair. -/
def State.laneData (s : State) (o : VMArgs) (las : List (Nat × Word64)) : List (Word64 × Nat) :=
  let d := s.rdV o.d
  match ofsSecond o.ofs with
  | none => las.map fun (p, a) => (a, (lane d p).toNat)
  | some b =>
    let h := s.rdV b
    las.map fun (p, a) => (a, (lane d p).toNat + 2 ^ 32 * (lane h p).toNat)

/-- A vector store to the scratchpad. -/
def State.storeVec (s : State) (o : VMArgs) (f : LaneForm) (val : Nat → Nat) : State :=
  let (ea, las) := s.laneAddrs o f
  s.storeSpad ((s.laneData o las).map fun (a, v) => (a, val v)) f.w
    (if f.packed then some ea else none)

def execVst (o : VMArgs) (s : State) : Res := .next (s.storeVec o (plainForm o.ty) id)
def execVscat (o : VMArgs) (s : State) : Res := .next (s.storeVec o (plainForm o.ty) id)

/-- VST.pk6 (R342). -/
def execVstPk6 (o : VMArgs) (s : State) : Res := .next (s.storeVec o packedForm pack6)

/-! ## Peer stores (R344, R345) -/

/-- An access goes with its number after the bundle's loads. -/
def State.deferAccess (s : State) (f : Nat → Access) : State :=
  let (n, s) := s.takeNum
  s.modFr fun fr => { fr with deferred := fr.deferred ++ [.access n (f n)] }

/-- The lanes of a peer store: offset from s[A] and value. -/
def State.pstLanes (s : State) (o : PstArgs) : List (Int × Nat) :=
  let w := if o.vec then laneWidth o.ty else scalarWidth o.ty
  let disp : Int := match o.m.ext with
    | none => o.m.disp.toInt * w
    | some e => e.toInt
  if o.vec then
    let v := s.rdV o.d
    (activeList (s.activeLanes o.gm o.q)).map fun p => (disp + (w * p : Nat), (lane v p).toNat)
  else [(disp, (s.rdS o.d).toNat)]

/-- What a check of R131 fails with, for one cause. -/
def onlyCause (c : Byte) (e : Word64) : Judged PeerTarget → Option (Byte × Word64 × BitVec 32)
  | .ok _ => none
  | .bad k _ d => if k = c then some (k, e, d) else none

/-- PST: the checks of R131 for every byte, cause by cause, then the bytes of each lane in lane order. -/
def execPst (o : PstArgs) (s : State) : Res :=
  let w := if o.vec then laneWidth o.ty else scalarWidth o.ty
  let a := s.rdS o.m.a
  let base : Int := bits a 0 20
  let ls := s.pstLanes o
  let where_ (d : Int) : Word64 := a + BitVec.ofInt 64 d
  let bad (c : Byte) (d : Int) : Option (Byte × Word64 × BitVec 32) :=
    firstCause [onlyCause c (where_ d) (s.peerTarget a (base + d)),
      onlyCause c (where_ d) (s.peerTarget a (base + d + (w - 1 : Nat)))]
  let malformed (d : Int) : Option (Byte × Word64 × BitVec 32) :=
    match s.peerTarget a (base + d) with
    | .bad k _ r => if k = cPERM ∧ r = 12 then some (k, where_ d, r) else none
    | .ok _ => none
  let causes := firstCause [
    firstLane malformed (ls.map Prod.fst),
    firstLane (bad cLEVEL) (ls.map Prod.fst),
    firstLane (bad cSTALEWIN) (ls.map Prod.fst),
    firstLane (bad cPERM) (ls.map Prod.fst),
    firstLane (fun d => if (base + d) % (w : Int) = 0 then none
      else some (cALIGN, where_ d, log2Size w)) (ls.map Prod.fst)]
  match causes with
  | some (c, e, d) => .next (s.trap c (if c = cLEVEL then 0 else e) d)
  | none =>
    .next (ls.foldl
      (fun s (d, v) =>
        match s.peerTarget a (base + d) with
        | .ok (.here n) => s.deferAccess fun _ =>
            .peer Config.rackPosition.val n (base + d).toNat (where_ d) (natToBytes w v)
        | .ok (.there m) => s.deferAccess fun _ => .peer m 0 (base + d).toNat (where_ d) (natToBytes w v)
        | .bad _ _ _ => s) s)

/-! ## Global accesses (R346, R347) -/

/-- XLATE or PERM of a translation. -/
def State.refused (s : State) (kind : AccKind) (cause : Byte) (a : Word64) :
    Option (Byte × Word64 × BitVec 32) :=
  match s.translateJudged a kind with
  | .ok _ => none
  | .bad c e d => if c = cause then some (c, e, d) else none

/-- The causes of global accesses of width `w`. -/
def State.globCauses (s : State) (as : List Word64) (w : Nat) (kind : AccKind) :
    Option (Byte × Word64 × BitVec 32) :=
  firstCause [firstLane (s.refused kind cXLATE) as, firstLane (s.refused kind cPERM) as,
    firstLane (misaligned w) as]

/-- A global access is traced, and may match the shutter (R234, R236). -/
def State.noteAccess (s : State) (kind w : Nat) (as : List Word64) : State :=
  match as with
  | [] => s
  | a :: _ =>
    let m1 : Bool := s.fr.slot == 7
    let code := (log2Size w).toNat + kind * 16 + (if m1 then 128 else 0)
    let s := s.note (if m1 then rankM1 else rankM0) 2 3 code a
    match as.find? fun x => s.core.trace.trmatch.toNat / 128 == x.toNat / 128 with
    | some x => s.noteShutter 3 true x
    | none => s

/-- Whether an access is held in the line cache: TGT 000 or 001 with NC = 0 (R138). -/
def cacheable (tgt : BitVec 3) (nc : Bool) : Bool := tgt.toNat ≤ 1 && !nc

/-- Whether a load of `w` bytes hits the line cache. -/
def State.hits (s : State) (a : Word64) (w : Nat) (tgt : BitVec 3) (nc : Bool) : Bool :=
  cacheable tgt nc && match s.core.lineAt s.ctx.bind.lslot a.toNat with
    | some l => l.has (a.toNat % 128) w
    | none => false

/-- Whether another running context's bundle has frozen for tags before the issuing context's (R34). -/
def State.tagsPromised (s : State) : Bool :=
  (s.fabric.tagWait.takeWhile (· != (s.coreIx, s.fr.ctx))).any fun (n, c) => (s.ctxOf n c).state == .running

/-- Whether a target is another module's memory. -/
def isRemote (tgt : BitVec 3) (modId : Nat) : Bool := tgt == 1 && !localHbm tgt modId

/-- Whether an access waits in its core with the tag that it took when it was issued (R34). -/
def Access.tagged (a : Access) : Bool :=
  match a.home with
  | some (tgt, modId, _) => isRemote tgt modId
  | none => false

/-- The tags that are taken: those of requests, and those of issued accesses to other modules whose requests wait in
their cores (R34). -/
def State.tagsHeld (s : State) : Nat :=
  (s.fabric.reqs.filter fun r => !r.io).length + ((s.allContexts.map fun (n, c) =>
    let x := s.ctxOf n c
    (x.behind.filter fun (_, a) => a.tagged).length + (x.releases.filter fun r => (Access.release r).tagged).length).foldl
      (· + ·) 0)

/-- Whether no request tag is free (R34). -/
def State.noTag (s : State) : Bool := decide (4096 ≤ s.tagsHeld)

/-- Whether the bundle being judged needs more tags than are free, or must leave them to one that froze before it
(R34). -/
def State.takeTags (s : State) (n : Nat) : State :=
  if !s.fr.judging ∨ n = 0 then s
  else
    let s := s.modFr fun f => { f with tags := f.tags + n }
    if 4096 < s.tagsHeld + s.fr.tags ∨ s.tagsPromised then s.freezeFor .tag else s

/-- The issuing context stands in the line for tags as long as its bundle freezes for them. -/
def State.tagLine (s : State) (c : CtxNo) (frozen : Bool) : State :=
  let i := (s.coreIx, c)
  if frozen == s.fabric.tagWait.contains i then s
  else s.modFabric fun f => { f with tagWait := if frozen then f.tagWait ++ [i] else f.tagWait.filter (· != i) }

/-- The translations of some lanes that have passed their checks. -/
def State.pages (s : State) (kind : AccKind) (las : List (Nat × Word64)) :
    List (Nat × Word64 × BitVec 3 × Nat × Nat × Bool) :=
  las.filterMap fun (p, a) =>
    match s.translate a kind with
    | .ok t m pa nc => some (p, a, t, m, pa, nc)
    | _ => none

/-- The successful walks of some lanes are cached (R135). -/
def State.installAll (s : State) (kind : AccKind) (as : List Word64) : State :=
  as.foldl (fun s a => s.installXlat s.ctx.bind.lslot a kind) s

/-- The issuing context's acquire of a word is outstanding until its value returns (R147). -/
def State.startAcquire (s : State) (va : Word64) : State :=
  s.modCtx fun c =>
    { c with acquires := c.acquires ++
        [⟨c.nextId, va.toNat, entryPaths (c.bound? va.toNat), s.fabric.next, s.core.nextCmd, none⟩] }

/-- A global load of some lanes: `parts` are its destinations, `places` where each lane goes. -/
def State.loadGlobal (s : State) (las : List (Nat × Word64)) (w : Nat) (signed acq : Bool)
    (parts : List (Dest × BitVec 512)) (places : Nat → List (Nat × Nat × Nat × Nat)) : State :=
  let as := las.map Prod.snd
  match s.globCauses as w .read with
  | some (c, e, d) => s.trap c e d
  | none =>
    let ps := s.pages .read las
    let s := s.takeTags (ps.filter fun (_, _, t, m, _, _) => isRemote t m).length
    if !s.proceeds then s
    else if las.isEmpty then s
    else
      let allHit := !acq && ps.all fun (_, a, t, _, _, nc) => s.hits a w t nc
      let s := (s.installAll .read as).noteAccess (if acq then 3 else 0) w as
      let id := s.ctx.nextId
      let s := if acq then s.startAcquire (as.headD 0) else s
      let s := s.addPending parts (!allHit) (if allHit then some 10 else none) las.length (as.headD 0)
      ps.foldl
        (fun s (p, a, t, m, pa, nc) =>
          let (n, s) := s.takeNum
          s.access s.coreIx s.fr.ctx n
            (.load ⟨id, places p, w, signed, a.toNat, t, m, pa, cacheable t nc && !acq, acq⟩)) s

/-- LDG (R346). -/
def execLdg (o : MArgs) (s : State) : Res :=
  let w := scalarWidth o.ty
  .next (s.loadGlobal [(0, s.ea o.m w)] w o.ty.isSigned false [(.s o.d, 0)] fun _ => [(0, 0, 64, 0)])

/-- LDG.ACQ (R147, R346). -/
def execLdgAcq (o : MArgs) (s : State) : Res :=
  let w := scalarWidth o.ty
  .next (s.loadGlobal [(0, s.ea o.m w)] w o.ty.isSigned true [(.s o.d, 0)] fun _ => [(0, 0, 64, 0)])

/-- VLDG (R346). -/
def execVldg (o : VMArgs) (s : State) : Res :=
  let f := plainForm o.ty
  let (_, las) := s.laneAddrs o f
  let blank := las.map fun (p, _) => (p, 0)
  let lo := vecParts o.d blank
  let ix (p : Nat) : Nat := (lo.findIdx? fun (d, _) => match d with
    | .v _ g _ => g.val == p / 16
    | _ => false).getD 0
  match ofsSecond o.ofs with
  | none =>
    .next (s.loadGlobal las f.w o.ty.isSigned false lo fun p => [(ix p, 32 * (p % 16), 32, 0)])
  | some b =>
    .next (s.loadGlobal las f.w false false (lo ++ vecParts b blank) fun p =>
      [(ix p, 32 * (p % 16), 32, 0), (lo.length + ix p, 32 * (p % 16), 32, 32)])

/-- A global store of some lanes, in lane order (R341, R346). -/
def State.storeGlobal (s : State) (las : List (Nat × Word64)) (vals : List Nat) (w : Nat) : State :=
  let as := las.map Prod.snd
  match s.globCauses as w .write with
  | some (c, e, d) => s.trap c e d
  | none =>
    let ps := s.pages .write las
    let s := s.takeTags (ps.filter fun (_, _, t, m, _, _) => isRemote t m).length
    if !s.proceeds then s
    else
      let s := (s.installAll .write as).noteAccess 1 w as
      (ps.zip vals).foldl
        (fun s ((_, a, t, m, pa, nc), v) =>
          s.deferAccess fun _ => .store a.toNat t m pa (cacheable t nc) (natToBytes w v)) s

/-- STG (R346). -/
def execStg (o : MArgs) (s : State) : Res :=
  let w := scalarWidth o.ty
  .next (s.storeGlobal [(0, s.ea o.m w)] [(s.rdS o.d).toNat] w)

/-- VSTG (R346). -/
def execVstg (o : VMArgs) (s : State) : Res :=
  let f := plainForm o.ty
  let (_, las) := s.laneAddrs o f
  .next (s.storeGlobal las ((s.laneData o las).map Prod.snd) f.w)

/-! ## Releases and atomics (R148, R348) -/

/-- The entries of a release: paths, base and length of each region under its word. -/
def Ctx.releaseEntries (c : Ctx) (va : Word64) : List (BitVec 5 × Nat × Nat) :=
  (c.bound? va.toNat).map fun e => (e.paths, e.rbase.toNat, e.rlen.toNat)

/-- STG.REL (R148, R346). -/
def execStgRel (o : MArgs) (s : State) : Res :=
  let w := scalarWidth o.ty
  let a := s.ea o.m w
  match s.globCauses [a] w .write with
  | some (c, e, d) => .next (s.trap c e d)
  | none =>
    match s.translate a .write with
    | .ok t m pa _ =>
      let s := s.takeTags (if isRemote t m then 1 else 0)
      if !s.proceeds then .next s
      else
        let s := (s.installAll .write [a]).noteAccess 4 w [a]
        let v := s.rdS o.d
        let es := s.ctx.releaseEntries a
        let cmd := s.core.nextCmd
        .next ((s.deferAccess fun n =>
          .release ⟨s.ctx.nextId, a.toNat, t, m, pa, none, v, 0, w, false, es, n, cmd, false⟩).modCtx fun c =>
            { c with nextId := c.nextId + 1 })
    | _ => .next s

/-- An atomic (R348). DISP counts elements, as in every scalar form: 2 bytes for .bf16, whose access has 4 (R259, R260).
Its page, its alignment, its tag; then it goes to its home after the bundle's loads,
as a release once its bound writes are performed. -/
def atomic (op : AtomOp) (o : AtomArgs) (s : State) : Res :=
  let w := atomWidth o.ty
  let a := s.ea ⟨o.a, o.disp, none⟩ (scalarWidth o.ty)
  match s.globCauses [a] w .atomic with
  | some (c, e, d) => .next (s.trap c e d)
  | none =>
    match s.translate a .atomic with
    | .ok t m pa _ =>
      let s := s.takeTags (if isRemote t m then 1 else 0)
      if !s.proceeds then .next s
      else
        let kind := match o.ord with
          | .plain => 2
          | .acquire => 3
          | .release => 4
        let s := (s.installAll .atomic [a]).noteAccess kind w [a]
        let x := s.rdS o.b
        let y := s.rdS o.d
        let id := s.ctx.nextId
        let es := s.ctx.releaseEntries a
        let cmd := s.core.nextCmd
        let s := if o.ord = .acquire then s.startAcquire a else s
        let s := s.addPending [(.s o.d, 0)] true none 1 a
        .next (s.deferAccess fun n =>
          if o.ord = .release then
            .release ⟨id, a.toNat, t, m, pa, some (op, o.ty), x, y, w, false, es, n, cmd, false⟩
          else .atomic id a.toNat t m pa op o.ty x y (o.ord == .acquire))
    | _ => .next s

def execAtomgAdd (o : AtomArgs) (s : State) : Res := atomic .add o s
def execAtomgMin (o : AtomArgs) (s : State) : Res := atomic .min o s
def execAtomgMax (o : AtomArgs) (s : State) : Res := atomic .max o s
def execAtomgAnd (o : AtomArgs) (s : State) : Res := atomic .and o s
def execAtomgOr (o : AtomArgs) (s : State) : Res := atomic .or o s
def execAtomgXor (o : AtomArgs) (s : State) : Res := atomic .xor o s
def execAtomgSwap (o : AtomArgs) (s : State) : Res := atomic .swap o s
def execAtomgCas (o : AtomArgs) (s : State) : Res := atomic .cas o s

/-! ## Fences (R142, R143, R350) -/

/-- A fence issues: its status is pending until it completes. -/
def fenceAt (d : Reg) (lv : BitVec 6) (paths : BitVec 5) (s : State) : Res :=
  if !s.tree.levelOk lv true then .next (s.trapLevel lv)
  else
    let id := s.ctx.nextId
    let cmd := s.core.nextCmd
    let m1 : Bool := s.fr.slot == 7
    let s := s.note (if m1 then rankM1 else rankM0) 2 3 (5 * 16 + if m1 then 128 else 0) (lv.setWidth 64)
    let (n, s) := s.takeNum
    let s := s.addPending [(.s d, 0)] true none 1 0
    .next (s.modCtx fun c => { c with fences := c.fences ++ [⟨id, paths, lv, n, cmd, false⟩] })

/-- FENCE names path C (R142). -/
def execFence (d : Reg) (lv : BitVec 6) (s : State) : Res := fenceAt d lv 1 s

/-- FENCEX (R142). -/
def execFencex (d : Reg) (lv : BitVec 6) (paths : BitVec 5) (s : State) : Res := fenceAt d lv paths s

/-- LINV (R351): path-C write-backs of the lines, which are then dropped. -/
def execLinv (a : Reg) (disp : BitVec 6) (len : Option Reg) (s : State) : Res :=
  let ea := s.ea ⟨a, disp, none⟩ 1
  let n := match len with
    | none => 1
    | some b => (s.rdS b).toNat
  if n = 0 then .next s
  else .next (s.deferAccess fun _ => .linv ea.toNat (ea.toNat + n))

/-! ## WAITA (R151 to R153, R352) -/

/-- What WAITA watches, or its cause: PERM 8 for a word that is none of R151's. -/
def State.watchTarget (s : State) (a : Word64) (w : Nat) (glob : Bool) : Judged WatchWord :=
  if glob then
    match s.translateJudged a .read with
    | .bad c e d => .bad c e d
    | .ok (tgt, _, pa, _) =>
      if tgt ≠ 0 then .bad cPERM a 8
      else if a.toNat % w ≠ 0 then .bad cALIGN a (log2Size w)
      else .ok (.hbm pa)
  else
    match s.spadSpan a w with
    -- a word of a core without a context of the launch has its own reason (R128)
    | .bad _ _ d => .bad cPERM a (if d = 4 then 4 else 8)
    | .ok (core, off) =>
      if a.toNat % w ≠ 0 then .bad cALIGN a (log2Size w)
      else if s.spadBad a w then .bad cDATAERR a 1
      else .ok (.spad core off)

/-- The watched word as it stands. -/
def State.watched (s : State) (x : WatchWord) (w : Nat) : Nat :=
  match x with
  | .spad core off => readNat (s.coreAt core).spad off w
  | .hbm pa => bytesToNat (s.readHbm pa w)

/-- Whether a watched word still has a waiter in a pod. -/
def State.waitedOn (s : State) (p : Nat) (x : WatchWord) (w : Nat) : Bool :=
  s.allContexts.any fun (n, c) =>
    podOf n == p && (s.ctxOf n c).waits.waita.any fun r => r.cause.isNone && r.word == x && r.width == w

/-- Entries that no one waits on are freed (R153). -/
def State.freeMonitors (s : State) : State :=
  s.modPod (podOf s.coreIx) fun p =>
    { p with monitor := p.monitor.filter fun e => s.waitedOn (podOf s.coreIx) e.word e.width }

/-- Every waiter of a monitor entry of a pod wakes because the entry is evicted (R153). -/
def State.evict (s : State) (p : Nat) (e : Monitor) : State :=
  (s.allContexts.filter fun x => podOf x.1 == p).foldl
    (fun s x => s.modCtxOf x.1 x.2
      (·.wake (fun r => r.word == e.word && r.width == e.width) 4 (s.coreAt x.1).now)) s

/-- Arming the pod wait monitor (R152, R153): a new word takes an entry; with all 64 in use the oldest is
evicted and its waiters wake with cause 4. A word of 4 bytes and one of 8 at the same address are two words (DESIGN
CHOICE, log entry 96: the specification does not say what makes two words the same). -/
def State.armMonitor (s : State) (x : WatchWord) (w : Nat) : State :=
  let s := s.freeMonitors
  let p := podOf s.coreIx
  let es := s.pod.monitor
  let add (s : State) : State :=
    s.modPod p fun q => { q with monitor := q.monitor ++ [⟨x, w⟩] }
  if es.any fun e => e.word == x && e.width == w then s
  else
    match es with
    | old :: rest =>
      if 64 ≤ es.length then add ((s.modPod p fun q => { q with monitor := rest }).evict p old)
      else add s
    | [] => add s

/-- Whether a watched word holds an uncorrectable error; one in a scratchpad has stopped its bundle (R343). -/
def State.watchedBad (s : State) (x : WatchWord) (w : Nat) : Bool :=
  match x with
  | .spad _ _ => false
  | .hbm pa => s.hbmBad pa w

/-- WAITA's results: as a scratchpad load's, or as a long pending pair whose read is an acquire; an uncorrectable word
reaches s[D] as that of an LDG does (R233, R347). -/
def State.putWaita (s : State) (d b : Reg) (a : Word64) (glob : Bool) (v k w : Nat) (bad : Bool) : State :=
  let parts : List (Dest × BitVec 512) := [(.s d, BitVec.ofNat 512 v), (.s b, BitVec.ofNat 512 k)]
  if glob then
    let s := s.noteAccess 3 w [a]
    let id := s.ctx.nextId
    let s := s.startAcquire a
    let (_, s) := s.takeNum
    let s := s.acquired s.coreIx s.fr.ctx id a.toNat
    if bad then
      let n := s.ctx.nextId
      ((s.addPending (parts.take 1) true none 0 a).modCtx fun c =>
        { c with pend := c.pend.map fun p => if p.id = n then { p with bad := true } else p }).addPending
          (parts.drop 1) true none 0 a
    else s.addPending parts true none 0 a
  else s.putLoaded parts

/-- Whether the read of a global watched word must wait behind an earlier fence, acquire or access of the context
(R140, R143, R147). -/
def State.waitaBehind (s : State) (a : Word64) (w : Nat) : Bool :=
  let l : GLoad := ⟨0, [], w, false, a.toNat, 0, 0, 0, false, true⟩
  s.mustFollow s.coreIx s.fr.ctx s.fabric.next (.load l)

/-- WAITA (R352). A bundle whose watched word may not be read yet is held without having been presented to the
monitor; it freezes while an earlier command still writes a scratchpad word (R168). -/
def execWaita (d a b : Reg) (disp : BitVec 6) (ty : Ty) (acq : Bool) (s : State) : Res :=
  let w := scalarWidth ty
  let m1 : Bool := s.fr.slot == 7
  let addr := s.ea ⟨a, disp, none⟩ w
  match s.watchTarget addr w acq with
  | .bad c e dt => .next (s.trap c e dt)
  | .ok x =>
    let rec? := s.ctx.waits.waita.find? fun r => r.m1 == m1
    if acq && rec?.isNone && s.waitaBehind addr w then .next (s.holdFor .waita)
    else if !acq && s.sbConflict (s.spadAccess false [addr] w) then .next (s.freezeFor .scoreboard)
    else
    let s :=
      if acq then (s.clean s.coreIx true (·.isAt s.ctx.bind.lslot addr.toNat)).installAll .read [addr]
      else s.touch [addr] w
    let v := s.watched x w
    let e := (s.rdS d).toNat % 2 ^ (8 * w)
    let done (s : State) (k : Nat) : State :=
      (s.modCtx fun c =>
        { c with waits := { c.waits with waita := c.waits.waita.filter fun r => r.m1 != m1 } }).putWaita
          d b addr acq v k w (s.watchedBad x w)
    match rec? with
    | none =>
      if v ≠ e then .next (done s 0)
      else
        let r : WaitRec := ⟨m1, x, w, none, (s.rdS b).toNat, 0⟩
        .next (((s.armMonitor x w).modCtx fun c =>
          { c with waits := { c.waits with waita := c.waits.waita ++ [r] } }).holdFor .waita)
    | some r =>
      match r.cause with
      | none => .next (s.holdFor .waita)
      | some k => .next (done s (if k ≤ 1 then (if v = e then 1 else 0) else k))

end Sys2Proof.Machine
end

