-- ==== Sys2Proof/Machine/Sync.lean ====
section
/-!
DEFINITION. C-space instructions on shared synchronisation state (R353 to R357): tile arrival counters,
barriers, hardware queues (R119 to R122).
-/

namespace Sys2Proof.Machine

/-! ## WAITC (R354) -/

/-- Whether the C slot's syllable has been held at least some cycles, 0 meaning never. -/
def State.heldFor (s : State) (n : Nat) : Bool :=
  n != 0 && s.ctx.waits.heldC && decide (n ≤ s.ctx.waits.cycles)

/-- WAITC (R354). -/
def execWaitc (d t b c : Reg) (s : State) : Res :=
  let n := s.core.tcnt.get (ix64 t)
  let target : Word32 := (s.rdS b).setWidth 32
  if n.toNat < target.toNat ∧ !s.heldFor (s.rdS c).toNat then .next (s.holdFor .waitc)
  else .next (s.putS d (n.setWidth 64) 1)

/-! ## Barriers (R355, R356) -/

/-- The barrier of the issuing context for a level bound other than at core. -/
def State.upperAt (s : State) (slot lv node n : Nat) : UpperBarrier :=
  match s.upper.find? fun b => b.lslot == slot && b.level == lv && b.node == node && b.number == n with
  | some b => b
  | none => ⟨slot, lv, node, n, 0, 0⟩

/-- Setting a barrier of a level bound other than at core. -/
def State.setUpper (s : State) (x : UpperBarrier) : State :=
  let same : UpperBarrier → Bool := fun b =>
    b.lslot == x.lslot && b.level == x.level && b.node == x.node && b.number == x.number
  { s with upper := s.upper.filter (fun b => !same b) ++ [x] }

/-- One arrival of `size` (R355): the new generation and count. -/
def arrival (gen : BitVec 16) (count size : Nat) : BitVec 16 × Nat :=
  if count + 1 = size then (gen + 1, 0) else (gen, count + 1)

/-- Whether a level's barriers are the core's own. -/
def State.atCore (s : State) (lv : Nat) : Bool := s.tree.physAt lv == 3

/-- The generation of a barrier as the issuing context sees it: 0 until its launch has arrived there. -/
def State.barrierGen (s : State) (lv : Nat) (n : BitVec 7) : BitVec 16 :=
  if s.atCore lv then
    let b := s.core.barriers.get ⟨n.toNat, n.isLt⟩
    if b.lslot = s.ctx.bind.lslot then b.gen else 0
  else (s.upperAt s.ctx.bind.lslot lv (s.tree.node s.ctx.bind.coords lv) n.toNat).gen

/-- Whether a core barrier is open for another launch, so that an arrival is held (R356). -/
def State.barrierTaken (s : State) (lv : Nat) (n : BitVec 7) : Bool :=
  let b := s.core.barriers.get ⟨n.toNat, n.isLt⟩
  s.atCore lv && b.lslot != s.ctx.bind.lslot && b.count != 0

/-- The arrival of the issuing context at a barrier: the generation it belongs to, and the state after. -/
def State.arrive (s : State) (lv : Nat) (n : BitVec 7) : BitVec 16 × State :=
  let size := s.tree.size lv
  let slot := s.ctx.bind.lslot
  if s.atCore lv then
    let b := s.core.barriers.get ⟨n.toNat, n.isLt⟩
    let g := if b.lslot = slot then b.gen else 0
    let (g', k) := arrival g b.count size
    (g, s.modCore fun c => { c with barriers := c.barriers.set n.toNat ⟨slot, g', k⟩ n.isLt })
  else
    let node := s.tree.node s.ctx.bind.coords lv
    let b := s.upperAt slot lv node n.toNat
    let (g', k) := arrival b.gen b.count size
    let s' := s.setUpper { b with gen := g', count := k }
    (b.gen, if 6 < s.tree.physAt lv ∧ 1 < s.tree.modules then
        s'.emit (.control (.arrive s.launch.info.group lv node n))
      else s')

/-- Whether generation `g` is complete once the barrier stands at `now` (R355). -/
def genComplete (now g : BitVec 16) : Bool := let d := (now - g).toNat; 0 < d && d ≤ 32767

/-- BARA (R355). -/
def execBara (d : Reg) (lv : BitVec 6) (n : BitVec 7) (s : State) : Res :=
  if !s.tree.levelOk lv false then .next (s.trapLevel lv)
  else if s.barrierTaken lv.toNat n then .next (s.holdFor .barrier)
  else
    let (g, s) := s.arrive lv.toNat n
    .next (s.putS d (g.setWidth 64) 1)

/-- BARW (R355). -/
def execBarw (a : Reg) (lv : BitVec 6) (n : BitVec 7) (s : State) : Res :=
  if !s.tree.levelOk lv false then .next (s.trapLevel lv)
  else if genComplete (s.barrierGen lv.toNat n) ((s.rdS a).setWidth 16) then .next s
  else .next (s.holdFor .barrier)

/-- The arrival that a BAR at the present bundle has made, if it has (R355). -/
def State.barRecord (s : State) : Option (BitVec 16) :=
  match s.ctx.waits.bar with
  | some (pc, g) => if pc = s.fr.pc then some g else none
  | none => none

/-- The arrival of a BAR at the first presentation of its bundle, recorded with the context. -/
def State.barArrive (s : State) (lv : Nat) (n : BitVec 7) : State :=
  match s.barRecord with
  | some _ => s
  | none =>
    if s.barrierTaken lv n then s
    else
      let (g, s) := s.arrive lv n
      s.modCtx fun c => { c with waits := { c.waits with bar := some (s.fr.pc, g) } }

/-- BAR (R355). -/
def execBar (d : Reg) (lv : BitVec 6) (n : BitVec 7) (s : State) : Res :=
  if !s.tree.levelOk lv false then .next (s.trapLevel lv)
  else
    let s := s.barArrive lv.toNat n
    match s.barRecord with
    | none => .next (s.holdFor .barrier)
    | some g =>
      if genComplete (s.barrierGen lv.toNat n) g then
        .next ((s.modCtx fun c => { c with waits := { c.waits with bar := none } }).putS d (g.setWidth 64) 1)
      else .next (s.holdFor .barrier)

/-! ## Hardware queues (R119 to R122, R357) -/

/-- A hardware queue of the module. -/
def State.hqueue (s : State) (q : Nat) : HQueue := tget HQueue.reset s.hub.hqueues q

/-- Changing a hardware queue. -/
def State.modHqueue (s : State) (q : Nat) (f : HQueue → HQueue) : State :=
  s.modHub fun h => { h with hqueues := tset HQueue.reset h.hqueues q (f (tget HQueue.reset h.hqueues q)) }

/-- The message size S (R120). -/
def HQueue.bytes (q : HQueue) : Nat := 8 * (bits q.cfg 4 4 + 1)

/-- The spill ring's capacity in messages. -/
def HQueue.ringSize (q : HQueue) : Nat := 2 ^ bits q.cfg 8 5

/-- Whether the issuing context may use a queue (R119). -/
def State.queueUsable (s : State) (q : Word64) : Bool :=
  decide (q.toNat ≤ 4095) &&
    let h := s.hqueue q.toNat
    h.cfg.getLsbD 31 && (h.cfg.getLsbD 15 || bits h.cfg 16 8 == s.ctx.bind.lslot)

/-- The causes of QPUT and QGET: the queue's, then the scratchpad's (R357). -/
def State.queueCauses (s : State) (q a : Word64) (data : Bool) : Option (Byte × Word64 × BitVec 32) :=
  if !s.queueUsable q then some (cPERM, 0, (q.setWidth 12).setWidth 32)
  else
    let n := (s.hqueue q.toNat).bytes
    firstCause [s.outside n a, misaligned 8 a, if data then s.unsound n a else none]

/-- Why a message cannot enter its queue (R120, R122): 2 the window, 1 the quota, 3 the ring. -/
def State.queueBlocked (s : State) (q : HQueue) : Option Nat :=
  let win := bits q.cfg 32 8
  let me : QMsg → Bool := fun m => m.coords == s.ctx.bind.coords && m.lslot == s.ctx.bind.lslot
  let mine := ((q.onchip ++ q.spilled).filter me).length
  let spill := !q.spilled.isEmpty || 8 ≤ q.onchip.length
  let quota := s.launch.info.spillq * 4096
  if win ≠ 0 ∧ win ≤ mine then some 2
  else if spill ∧ quota < s.ctx.waits.quota + q.bytes then some 1
  else if spill ∧ q.ringSize ≤ q.spilled.length then some 3
  else none

/-- The ring address of the message at a position from the oldest (R121). -/
def HQueue.slotAddr (q : HQueue) (i : Nat) : Nat :=
  bits q.ring 0 56 + q.bytes * ((q.head + i) % q.ringSize)

/-- QPUT (R120, R121, R357). A message whose ring slot lies beyond HBM stays with the queue (DESIGN CHOICE, log entry
98). -/
def execQput (a b : Reg) (s : State) : Res :=
  let q := s.rdS a
  let addr := s.rdS b
  match s.queueCauses q addr true with
  | some (c, e, d) => .next (s.trap c e d)
  | none =>
    let h := s.hqueue q.toNat
    if s.sbConflict (s.spadAccess false [addr] h.bytes) then .next (s.freezeFor .scoreboard)
    else match s.queueBlocked h with
      | some why =>
        if s.heldFor (bits h.tmo 0 32) then .next (s.trap cQUOTA 0 (BitVec.ofNat 32 why))
        else .next (s.holdFor .qput)
      | none =>
        let m : QMsg := ⟨s.spadBytes addr.toNat h.bytes, s.ctx.bind.coords, s.ctx.bind.lslot, 0⟩
        if h.spilled.isEmpty && decide (h.onchip.length < 8) then
          .next (s.modHqueue q.toNat fun h =>
            { h with onchip := h.onchip ++ [m], putn := h.putn + 1 })
        else
          let pa := h.slotAddr h.spilled.length
          let s := if pa + h.bytes ≤ hbmSize then (s.storeHbm pa m.data).1 else s
          .next ((s.modHqueue q.toNat fun h =>
            { h with spilled := h.spilled ++ [m], putn := h.putn + 1 }).modCtx fun c =>
              { c with waits := { c.waits with quota := c.waits.quota + h.bytes } })

/-- Whether a context put a message. -/
def QMsg.by (m : QMsg) (c : Ctx) : Bool := c.bound && c.bind.lslot == m.lslot && c.bind.coords == m.coords

/-- Changing the context that put a message, in its core or in its saved image. -/
def State.modProducer (s : State) (m : QMsg) (f : Ctx → Ctx) : State :=
  match s.allContexts.find? fun (n, c) => m.by (s.ctxOf n c) with
  | some (n, c) => s.modCtxOf n c f
  | none =>
    s.modHub fun h => { h with saved := h.saved.map fun (i : SavedImage) =>
      { i with image := i.image.mapCtxs fun c => if m.by c then f c else c } }

/-- The ring head moves on chip, and its charge returns to its producer (R121). A message whose ring slot lies beyond
HBM is the one that was put (DESIGN CHOICE, log entry 98). -/
def State.refill (s : State) (q : Nat) : State :=
  let h := s.hqueue q
  match h.spilled with
  | m :: rest =>
    if h.onchip.length < 8 then
      let pa := h.slotAddr 0
      let inMemory := decide (pa + h.bytes ≤ hbmSize)
      let bad (i : Nat) : Nat := (decide (8 * i < h.bytes) && s.hbmBad (pa + 8 * i) 8).toNat
      let m : QMsg := if inMemory then
          { m with
            data := readBytes s.hbm pa h.bytes
            bad := BitVec.ofNat 16 (packNat 1 ((List.range 16).map bad)) }
        else m
      let s := s.modHqueue q fun h =>
        { h with onchip := h.onchip ++ [m], spilled := rest
                 head := (h.head + 1) % h.ringSize }
      s.modProducer m fun c => { c with waits := { c.waits with quota := c.waits.quota - h.bytes } }
    else s
  | [] => s

/-- Whether a QGET of the issuing context is the next to be served. -/
def State.nextGetter (s : State) (h : HQueue) : Bool :=
  match h.getters with
  | [] => true
  | g :: _ => g == (s.coreIx, s.fr.ctx)

/-- The issuing context no longer waits for a message. -/
def State.leaveGetters (s : State) (q : Nat) : State :=
  s.modHqueue q fun h => { h with getters := h.getters.filter (· != (s.coreIx, s.fr.ctx)) }

/-- A QGET is held: its context stands in the line of the queue's getters (R120). -/
def State.holdGetter (s : State) (q : Nat) : State :=
  let me := (s.coreIx, s.fr.ctx)
  (s.modHqueue q fun h =>
    if h.getters.contains me then h else { h with getters := h.getters ++ [me] }).holdFor .qget

/-- QGET (R120, R357). A message with an uncorrectable error stays, and whoever would take it traps (R23, log entry
102). -/
def execQget (d a b : Reg) (s : State) : Res :=
  let q := s.rdS a
  let addr := s.rdS b
  match s.queueCauses q addr false with
  | some (c, e, dt) => .next (s.trap c e dt)
  | none =>
    let h := s.hqueue q.toNat
    if s.sbConflict (s.spadAccess true [addr] h.bytes) then .next (s.freezeFor .scoreboard)
    else match h.onchip with
      | m :: rest =>
        if s.nextGetter h && m.bad != 0 then .next (s.trap cDATAERR 0 0)
        else if s.nextGetter h then
          .next ((((s.modHqueue q.toNat fun h =>
            { h with onchip := rest, getn := h.getn + 1 }).leaveGetters q.toNat).refill q.toNat |>.deferSpad
              addr m.data).putP d true)
        else if s.heldFor (bits h.tmo 0 32) then .next ((s.leaveGetters q.toNat).putP d false)
        else .next (s.holdGetter q.toNat)
      | [] =>
        if s.heldFor (bits h.tmo 0 32) then .next ((s.leaveGetters q.toNat).putP d false)
        else .next (s.holdGetter q.toNat)

end Sys2Proof.Machine
end

