-- ==== Sys2Proof/Machine/Uses.lean ====
section
/-!
DEFINITION. Which registers a syllable reads and writes (R265), which of them are pending (R163) or lie on
register lines that are not resident (R161), and the vector destination of a syllable (R314).
-/

namespace Sys2Proof.Machine

/-- The register classes a syllable can touch (R261, R265). -/
inductive RegClass
  | s | p | v | q | x | lc | m | cr
  deriving DecidableEq, Repr

/-- A register that a syllable touches: the groups it touches there (R265), and whether it is written. -/
structure Use where
  cls : RegClass
  num : Nat
  gm : BitVec 8
  write : Bool
  deriving DecidableEq, Repr

/-- Uses of one class. -/
def rs (r : Reg) : Use := ⟨.s, r.toNat, 0xFF, false⟩
@[inherit_doc rs] def ws (r : Reg) : Use := ⟨.s, r.toNat, 0xFF, true⟩
@[inherit_doc rs] def rp (r : Reg) : Use := ⟨.p, (ix16 r).val, 0xFF, false⟩
@[inherit_doc rs] def wp (r : Reg) : Use := ⟨.p, (ix16 r).val, 0xFF, true⟩
@[inherit_doc rs] def rv (r : Reg) (gm : BitVec 8) : Use := ⟨.v, (ix32 r).val, gm, false⟩
@[inherit_doc rs] def wv (r : Reg) (gm : BitVec 8) : Use := ⟨.v, (ix32 r).val, gm, true⟩
@[inherit_doc rs] def rq (r : Reg) (gm : BitVec 8) : Use := ⟨.q, (ix8 r).val, gm, false⟩
@[inherit_doc rs] def wq (r : Reg) (gm : BitVec 8) : Use := ⟨.q, (ix8 r).val, gm, true⟩
@[inherit_doc rs] def rx (r : Reg) : Use := ⟨.x, (ix16 r).val, 0xFF, false⟩
@[inherit_doc rs] def wx (r : Reg) : Use := ⟨.x, (ix16 r).val, 0xFF, true⟩
@[inherit_doc rs] def rlc (r : Reg) : Use := ⟨.lc, (ix4 r).val, 0xFF, false⟩
@[inherit_doc rs] def wlc (r : Reg) : Use := ⟨.lc, (ix4 r).val, 0xFF, true⟩
@[inherit_doc rs] def rm (r : Reg) : Use := ⟨.m, (ix8 r).val, 0xFF, false⟩
@[inherit_doc rs] def wm (r : Reg) : Use := ⟨.m, (ix8 r).val, 0xFF, true⟩
@[inherit_doc rs] def rcr (n : Nat) : Use := ⟨.cr, n, 0xFF, false⟩
@[inherit_doc rs] def wcr (n : Nat) : Use := ⟨.cr, n, 0xFF, true⟩

/-- Eight consecutive scalars. -/
def rOctet (b : Reg) : List Use := (List.range 8).map fun i => rs (b + BitVec.ofNat 6 i)

/-- The lane predicate of a header. -/
def hq (h : VHdr) : Use := rq (h.q.setWidth 6) h.gm

/-- Operand a of a header: nothing when it comes from the chain. -/
def hA (h : VHdr) (a : Reg) : List Use := if h.ch then [] else [rv a h.gm]

/-- Operand b. -/
def hB (h : VHdr) (b : Reg) (bs : Bool) : Use := if bs then rs b else rv b h.gm

/-- The key registers of SR (R243). -/
def keyUses : Option (BitVec 32) → List Use
  | some e => [rs (e.setWidth 6), rs (e.setWidth 6 + 1)]
  | none => []

def SArgs.uses (o : SArgs) : List Use := [rs o.a, rs o.b, ws o.d]
def IArgs.uses (o : IArgs) : List Use := [rs o.a, ws o.d]
def PArgs.uses (o : PArgs) : List Use := [rp o.a, rp o.b, wp o.d]
def VArgs.uses (o : VArgs) : List Use := hq o.h :: hB o.h o.b o.bs :: wv o.d o.h.gm :: hA o.h o.a
def VBitArgs.uses (o : VBitArgs) : List Use := hq o.h :: hB o.h o.b o.bs :: wv o.d o.h.gm :: hA o.h o.a
def VFArgs.uses2 (o : VFArgs) : List Use :=
  hq o.h :: hB o.h o.b o.bs :: wv o.d o.h.gm :: (hA o.h o.a ++ keyUses o.key)
def VFArgs.uses3 (o : VFArgs) : List Use := rv o.c o.h.gm :: VFArgs.uses2 o
def VUnArgs.uses (o : VUnArgs) : List Use := hq o.h :: wv o.d o.h.gm :: hA o.h o.a
def VCmpArgs.uses {γ : Type} (o : VCmpArgs γ) : List Use :=
  let k : Reg := o.k.setWidth 6 * 2
  hq o.h :: hB o.h o.b o.bs :: wq k o.h.gm :: wq (k + 1) o.h.gm :: hA o.h o.a
def QArgs.uses (o : QArgs) : List Use := [hq o.h, rq o.a o.h.gm, rq o.b o.h.gm, wq o.d o.h.gm]
def FArgs.uses (o : FArgs) : List Use := [hq o.h, rv o.a o.h.gm, wv o.d o.h.gm]

/-- Offset and second data registers of a vector access. -/
def Ofs.uses (o : Ofs) (gm : BitVec 8) (load : Bool) : List Use :=
  match o with
  | .none => []
  | .vec b => [rv b gm]
  | .index b => [rx b]
  | .pair b => [if load then wv b gm else rv b gm]

def VMArgs.uses (o : VMArgs) (load : Bool) : List Use :=
  (if load then wv o.d o.gm else rv o.d o.gm) :: rs o.m.a :: rq (o.q.setWidth 6) o.gm
    :: Ofs.uses o.ofs o.gm load
def AtomArgs.uses (o : AtomArgs) : List Use := [rs o.a, rs o.b, rs o.d, ws o.d]

/-- The groups that GXFER reads for the groups of its mask (R325). -/
def gxferReach (gm : BitVec 8) (fix : Bool) (g : BitVec 3) : BitVec 8 :=
  (List.range 8).foldl
    (fun m k => if gm.getLsbD k then m ||| (1 <<< (if fix then g.toNat else (k + g.toNat) % 8)) else m) 0

/-- The registers an instruction reads and writes (R265). -/
def uses : Instr → List Use
  | .nop => []
  | .add fromLc toLc o => [if fromLc then rlc o.a else rs o.a, rs o.b, if toLc then wlc o.d else ws o.d]
  | .sub o | .and o | .or o | .xor o | .andn o | .shl o | .shr o | .sar o | .rol o
  | .min o | .max o | .mul o | .mulh o => SArgs.uses o
  | .clz d a _ | .popc d a _ => [rs a, ws d]
  | .addi o | .subi o | .andi o | .ori o | .xori o | .mini o | .maxi o | .muli o => IArgs.uses o
  | .shli o | .shri o | .sari o => [rs o.a, ws o.d]
  | .movi d _ _ => [ws d]
  | .cmp k _ a b _ =>
    let n : Reg := k.setWidth 6 * 2
    [rs a, rs b, wp n, wp (n + 1)]
  | .cmpi k _ a _ _ =>
    let n : Reg := k.setWidth 6 * 2
    [rs a, wp n, wp (n + 1)]
  | .sel d a b p => [rs a, rs b, rp p, ws d]
  | .ext d a _ _ _ => [rs a, ws d]
  | .dep d a b _ _ => [rs a, rs b, ws d]
  | .addsc d a b _ => [rs a, rs b, ws d]
  | .pand o | .por o | .pxor o => PArgs.uses o
  | .br _ | .brC _ | .call _ | .ret => []
  | .jmpi a | .calli a => [rs a]
  | .loop d a _ => [rs a, wlc d]
  | .crd d idx => [rcr idx.toNat, ws d]
  | .cwr a idx => [rs a, wcr idx.toNat]
  | .cwrBindb a => [rs a, wcr 9]
  | .cwrSeqtb a => [rs a, wcr 10]
  | .lvid d _ _ | .phyid d _ => [ws d]
  | .seqsel => [rcr 11, rcr 12]
  | .spawn _ a b => rs a :: rOctet b
  | .yield | .halt | .trap _ => []
  | .tret => [wcr 0, wcr 1]
  | .waitc d _ b c => [rs b, rs c, ws d]
  | .bara d _ _ => [ws d]
  | .barw a _ _ => [rs a]
  | .bar d _ _ => [ws d]
  | .qput a b => [rs a, rs b]
  | .qget d a b => [rs a, rs b, wp d]
  | .vadd o | .vsub o | .vmul o | .vmulh o | .vshl o | .vshr o | .vsar o | .vmin o | .vmax o
  | .vadds o | .vsubs o | .vfmin o | .vfmax o | .vfminp o | .vfmaxp o => VArgs.uses o
  | .vand o | .vor o | .vxor o | .vandn o | .vperm o => VBitArgs.uses o
  | .vsel o qc => rq (qc.setWidth 6) o.h.gm :: VBitArgs.uses o
  | .vfadd o | .vfsub o | .vfmul o => VFArgs.uses2 o
  | .vfma o | .vfms o | .vfnma o | .vdot2 o | .vdot4 o | .vdot8 o => VFArgs.uses3 o
  | .vfabs o | .vfneg o => VUnArgs.uses o
  | .vcmp o => VCmpArgs.uses o
  | .vfcmp o => VCmpArgs.uses o
  | .vcvt o => hq o.h :: wv o.d o.h.gm :: (hA o.h o.a ++ keyUses o.key)
  | .vbcast h d a _ => hq h :: wv d h.gm :: hA h a
  | .vred o | .vscan o => hq o.h :: wv o.d o.h.gm :: hA o.h o.a
  | .vqcnt h d _ qc => [hq h, rq (qc.setWidth 6) h.gm, wv d h.gm]
  | .vmov h d b bs => [hq h, hB h b bs, wv d h.gm]
  | .gxfer h d a fix g =>
    [hq h, rv a (gxferReach h.gm fix g), wv d h.gm]
  | .vrng o => hq o.h :: rs o.k :: rs (o.k + 1) :: wv o.d o.h.gm :: hA o.h o.a
  | .qand o | .qor o | .qxor o | .qandn o => QArgs.uses o
  | .vmovi h d _ => [hq h, wv d h.gm]
  | .rcp o | .rsq o | .sqrt o | .exp2 o | .log2 o | .sinpi o | .cospi o | .tanh o | .sigm o =>
    FArgs.uses o
  | .xcad d a b _ => [rx a, rx b, ws d]
  | .xpopc d a b => [rx a, rs b, ws d]
  | .xexp d a b _ _ => [rx a, rs b, wx d]
  | .xmps o => [rx o.a, rs o.b, rs o.c, ws o.d]
  | .xins d a _ _ => [rs a, rx d, wx d]
  | .xget d a _ _ => [rx a, ws d]
  | .xsplat d a _ => [rs a, wx d]
  | .xadds d a b _ => [rx a, rs b, wx d]
  | .xscan d a _ _ => [rx a, wx d]
  | .xcmp d a b _ _ => [rx a, rs b, ws d]
  | .xtoq d a _ => [rx a, wq d 0xFF]
  | .ld o | .ldg o | .ldgAcq o => [rs o.m.a, ws o.d]
  | .st o | .stg o | .stgRel o => [rs o.m.a, rs o.d]
  | .vld o | .vgath o | .vldb o | .vldg o => VMArgs.uses o true
  | .vst o | .vstPk6 o | .vscat o | .vstg o => VMArgs.uses o false
  | .pst o =>
    if o.vec then [rs o.m.a, rv o.d o.gm, rq (o.q.setWidth 6) o.gm] else [rs o.m.a, rs o.d]
  | .atomgAdd o | .atomgMin o | .atomgMax o | .atomgAnd o | .atomgOr o | .atomgXor o
  | .atomgSwap o | .atomgCas o => AtomArgs.uses o
  | .fence d _ | .fencex d _ _ => [ws d]
  | .waita d a b _ _ _ => [rs a, rs d, rs b, ws d, ws b]
  | .linv a _ len => rs a :: (match len with | some b => [rs b] | none => [])
  | .mcall o =>
    rs o.a :: rs o.b :: rs o.c :: rlc (o.lsel.setWidth 6) :: ws o.d
      :: (List.range 8).map fun i => rm (BitVec.ofNat 6 i)
  | .mstat d _ => [ws d]
  | .mput d a => [rs a, wm d]
  | .mget d a => [rm a, ws d]
  | .cellld d a b c => [rs a, rs b, rs c, ws d]
  | .flowset d a | .xwin d a | .tsld d a | .tsst d a | .xcopy d a | .xgather d a | .embpool d a
  | .xcvt d a | .txtEnc d a | .txtDec d a | .txtMask d a => [rs a, ws d]
  | .cgload d a _ => [rs a, ws d]
  | .cgrun d a b _ _ => rs a :: ws d :: rOctet b
  | .a2aDisp d a _ | .a2aComb d a _ | .repart d a _ => [rs a, ws d]
  | .mupcAbort _ | .ecmdDisct _ | .ecmdDiscx _ | .printOpStart _ _ _ | .printOpDone _ _ _ _ |
    .engineCommandStart _ _ | .engineFaultDelivery _ | .pendingArrival _ | .registerCacheFill _ _ | .holdEnd _ |
    .nullifierSkip _ | .trapEntry _ _ _ _ _ | .waitaWake _ _ | .waitaTimeout _ | .waitcTimeout _ | .qgetTimeout _ |
    .qputTimeout _ | .fenceComplete _ | .releasePerform _ | .translationWalk _ _ _ | .lineWritebackFail _ _ _ |
    .remoteRequestTimeout _ | .readRequestReceive _ _ _ _ | .writeRequestReceive _ _ _ _ |
    .atomicRequestReceive _ _ _ _ _ _ _ | .responseReceive _ _ _ _ | .collectiveDataReceive _ _ _ _ _ _ _ |
    .switchReduce _ _ _ _ | .controlFlitReceive _ | .fabricPortDegrade _ _ | .planeLoss _ | .hostLinkTrain _ _ |
    .measuredBoot _ | .spdmGetMeasurements _ _ | .spdmChunkGet _ _ | .spdmRespondIfReady _ | .ownClaim _ _ _ |
    .ownRenew _ _ _ | .ownRelease _ _ | .ownHandover _ _ _ | .ownAccept _ _ _ | .stateWindowWrite _ _ _ |
    .deviceMemoryWrite _ _ _ | .lqtailWrite _ _ _ | .lqctlDisable _ _ _ | .launchRecordTake _ | .waitWordsMet _ |
    .treeBind _ | .launchEnd _ | .launchAbort _ _ | .gangPreempt _ _ _ | .gangResume _ _ _ | .gangStop _ |
    .podFailure _ _ | .xlinvcWrite _ _ | .queueDisable _ _ | .islctlWrite _ _ _ | .islandTransition _ |
    .powerManagerTick _ _ _ | .trshutWrite _ _ _ | .trdumpWrite _ _ _ | .rowSparing _ |
    .pseudoChannelFailure _ _ _ | .commandFinished _ _ | .poolLinkFault _ | .crcFailFlitReceive _ _ |
    .trdumpCopyDone _ | .spdmGetCertificate _ | .spdmChallenge _ _ | .resultLanding | .timesliceExpiry |
    .leaseExpiry | .handoverTimeout | .bindRetry | .xlatInvalidateDone | .hbmPatrolScrub | .sramPatrolScrub => []

/-- Whether a syllable sets flags of FPFLAGS: the saturating, floating-point, conversion and special-function forms
(R248). -/
def setsFlags : Instr → Bool
  | .vadds _ | .vsubs _ | .vfadd _ | .vfsub _ | .vfmul _ | .vfma _ | .vfms _ | .vfnma _ | .vfmin _ | .vfmax _
  | .vfminp _ | .vfmaxp _ | .vfcmp _ | .vcvt _ | .rcp _ | .rsq _ | .sqrt _ | .exp2 _ | .log2 _ | .sinpi _ | .cospi _
  | .tanh _ | .sigm _ => true
  | .vdot2 o | .vdot4 o | .vdot8 o => (ffmt o.ty).isSome
  | .vred o | .vscan o => o.ty == .f32
  | _ => false

/-- FPFLAGS as a syllable that sets flags writes it: by no group, which tells it from a CWR (R265). -/
def flagUse : Use := ⟨.cr, 13, 0, true⟩

/-- A syllable's uses, its guard among them, and FPFLAGS where it sets flags. -/
def sylUses (y : Syllable) : List Use :=
  rp (y.gp.setWidth 6) :: (if setsFlags y.instr then flagUse :: uses y.instr else uses y.instr)

/-- Whether two uses are of one register, by the groups that R265 compares. -/
def Use.same (a b : Use) : Bool :=
  a.cls == b.cls && a.num == b.num
    && (!(a.cls == .v || a.cls == .q) || (a.gm &&& b.gm) != 0)

/-- s0, p0 and q0 are exempt from R265. -/
def Use.exempt (a : Use) : Bool :=
  a.num == 0 && (a.cls == .s || a.cls == .p || a.cls == .q)

/-- Whether two lists of uses clash: a register that one writes is touched by the other. Flags that two syllables set are
ORed, and do not (R265). -/
def usesClash (a b : List Use) : Bool :=
  a.any fun x => b.any fun y => !x.exempt && (x.write || y.write) && x.same y && !(x == flagUse && y == flagUse)

/-- Whether a use touches a destination: for vectors and lane predicates, one of its groups. -/
def Use.touches (u : Use) (d : Dest) : Bool :=
  match u.cls, d with
  | .s, .s r => u.num == r.toNat
  | .p, .p r => u.num == (ix16 r).val
  | .v, .v r g _ => u.num == (ix32 r).val && u.gm.getLsbD g.val
  | .q, .q r g _ => u.num == (ix8 r).val && u.gm.getLsbD g.val
  | .x, .x r => u.num == (ix16 r).val
  | .lc, .lc r => u.num == (ix4 r).val
  | .m, .m r => u.num == (ix8 r).val
  | .cr, .cr r => u.num == r.toNat
  | _, _ => false

/-- The register lines of a use (R160, R161). s0, p0 and q0 have fixed values, but stand on their lines. -/
def Use.lines (u : Use) : List Nat :=
  match u.cls with
  | .s => [u.num / 32]
  | .x => [2 + u.num / 8]
  | .p | .q | .lc | .m => [4]
  | .v => (if u.gm.extractLsb' 0 4 != 0 then [5 + 2 * u.num] else [])
      ++ (if u.gm.extractLsb' 4 4 != 0 then [6 + 2 * u.num] else [])
  | .cr => []

/-- The 64-bit units of the register space that hold a use's register, as 32 × line + unit (R22, R160). -/
def Use.units (u : Use) : List Nat :=
  let groups := (List.range 8).filter (u.gm.getLsbD ·)
  match u.cls with
  | .s => [u.num]
  | .x => (List.range 4).map (64 + 4 * u.num + ·)
  | .p => [128]
  | .lc => [129 + u.num]
  | .m => [136 + u.num]
  | .q => groups.map fun g => 144 + 2 * u.num + g / 4
  | .v => groups.flatMap fun g => (List.range 8).map (160 + 64 * u.num + 8 * g + ·)
  | .cr => []

/-- Header and destination of a syllable that a chain can take its result from (R158, R314). -/
def chainDest : Instr → Option (VHdr × Reg)
  | .vadd o | .vsub o | .vmul o | .vmulh o | .vshl o | .vshr o | .vsar o | .vmin o | .vmax o
  | .vadds o | .vsubs o | .vfmin o | .vfmax o | .vfminp o | .vfmaxp o => some (o.h, o.d)
  | .vand o | .vor o | .vxor o | .vandn o | .vperm o => some (o.h, o.d)
  | .vsel o _ => some (o.h, o.d)
  | .vfadd o | .vfsub o | .vfmul o | .vfma o | .vfms o | .vfnma o | .vdot2 o | .vdot4 o | .vdot8 o =>
    some (o.h, o.d)
  | .vfabs o | .vfneg o => some (o.h, o.d)
  | .vcvt o => some (o.h, o.d)
  | .vbcast h d _ _ => some (h, d)
  | .vred o | .vscan o => some (o.h, o.d)
  | .vqcnt h d _ _ => some (h, d)
  | .vmov h d _ _ => some (h, d)
  | .gxfer h d _ _ _ => some (h, d)
  | .vrng o => some (o.h, o.d)
  | .vmovi h d _ => some (h, d)
  | _ => none

/-- The group mask and the lane predicate of a vector or memory syllable that acts on lanes. -/
def laneUse : Instr → Option (BitVec 8 × BitVec 3)
  | .vld o | .vst o | .vstPk6 o | .vgath o | .vscat o | .vldb o | .vldg o | .vstg o => some (o.gm, o.q)
  | .pst o => if o.vec then some (o.gm, o.q) else none
  | _ => none

/-- Group mask and chain-in bit of a V-slot syllable. -/
def vecHdr : Instr → Option VHdr
  | .vcmp o => some o.h
  | .vfcmp o => some o.h
  | .qand o | .qor o | .qxor o | .qandn o => some o.h
  | .rcp o | .rsq o | .sqrt o | .exp2 o | .log2 o | .sinpi o | .cospi o | .tanh o | .sigm o => some o.h
  | i => (chainDest i).map Prod.fst

end Sys2Proof.Machine
end

