-- ==== Sys2Proof/Machine/Fetch.lean ====
section
/-!
DEFINITION. Fetching a bundle (R221, R257), judging its encoding (R218 causes 1 to 4, R263 to R266, R158, R314),
its guards (R262), and what it waits for before it can issue: register lines (R161) and pending
registers (R163, R233).
-/

namespace Sys2Proof.Machine

/-! ## Fetch (R221, R257) -/

/-- A cause at the bundle being presented, with its EADDR and EINFO. -/
structure Cause where
  code : Byte
  eaddr : Word64
  info : Word64
  deriving DecidableEq, Repr

/-- FETCH of R221. -/
def fetchBit : BitVec 32 := 0x80000000

/-- One syllable's 8 bytes, or the fault in fetching them. -/
def State.fetchWord (s : State) (a : Word64) : Word64 ⊕ Cause :=
  match s.translate a .read with
  | .ok tgt modId pa _ =>
    let (data, r) := s.homeRead (dieOf s.coreIx) tgt modId pa 8 5000
    match r with
    | .ok => .inl (BitVec.ofNat 64 (bytesToNat data))
    | .uncorrectable => .inr ⟨cDATAERR, a, einfo 0 0 (6 ||| fetchBit)⟩
    | _ => .inr ⟨cPERM, a, einfo 0 0 (11 ||| fetchBit)⟩
  | e => .inr ⟨match e with | .perm _ => cPERM | _ => cXLATE, a, einfo 0 0 (e.detail true)⟩

/-- The words of a bundle: those from an address up to the first STOP, at most `n`. The Bool says whether a
STOP was found. -/
def State.fetchWords (s : State) (a : Word64) : Nat → (List Word64 × Bool) ⊕ Cause
  | 0 => .inl ([], false)
  | n + 1 =>
    match s.fetchWord a with
    | .inr c => .inr c
    | .inl w =>
      if fStop w then .inl ([w], true)
      else match s.fetchWords (a + 8) n with
        | .inl (ws, e) => .inl (w :: ws, e)
        | .inr c => .inr c

/-! ## Encoding causes -/

/-- A non-IMM syllable of a bundle: its index, its word, its decoding. -/
structure Placed where
  ix : Nat
  word : Word64
  syl : Syllable
  deriving DecidableEq, Repr

/-- Whether a word is an IMM syllable (R263). -/
def isImm (w : Word64) : Bool := fSlot w == slotImm

/-- Whether a slot code may follow another (R264). -/
def slotFollows (last next : BitVec 4) : Bool :=
  last.toNat < next.toNat || (last == next && 2 ≤ last.toNat && last.toNat ≤ 4)

/-- The first syllable out of slot order (R264). -/
def outOfOrder : Option (BitVec 4) → Nat → List Word64 → Option Nat
  | _, _, [] => none
  | last, i, w :: ws =>
    if isImm w then outOfOrder last (i + 1) ws
    else match last with
      | some l => if slotFollows l (fSlot w) then outOfOrder (some (fSlot w)) (i + 1) ws else some i
      | none => outOfOrder (some (fSlot w)) (i + 1) ws

/-- The syllables of a bundle in ascending index, or the first RSVD or ILLOP: its cause, index and DETAIL
(R266). -/
def placeAll : Nat → List Word64 → List Placed ⊕ (Byte × Nat × BitVec 32)
  | _, [] => .inl []
  | i, w :: ws =>
    let rest := placeAll (i + 1) ws
    if isImm w then (if immFieldsOk w then rest else .inr (cRSVD, i, 0))
    else
      let ext : Option (BitVec 32) := match ws with
        | v :: _ => if isImm v then some (fImm v) else none
        | [] => none
      match decodeSyllable w ext with
      | .ok y => match rest with
        | .inl ps => .inl (⟨i, w, y⟩ :: ps)
        | .inr e => .inr e
      | .illop => .inr (cILLOP, i, (fOpc w).setWidth 32)
      | .rsvd => .inr (cRSVD, i, 0)

/-- A violation of R263, R265 or a chain-in rule: SYL, its rank among equal SYL, OTHER (R266). -/
abbrev Violation := Nat × Nat × Nat

/-- Misplaced and missing IMM syllables (R263). -/
def immViolations (ws : List Word64) (ps : List Placed) : List Violation :=
  let takes (j : Nat) : Bool := ps.any fun p => p.ix == j && p.syl.instr.takesImm
  let misplaced := ((List.range ws.length).filter fun i =>
      isImm (ws.getD i 0) && (i == 0 || !takes (i - 1))).map fun i => (i, 0, i - 1)
  let missing := (ps.filter fun p =>
      p.syl.instr.needsImm && !isImm (ws.getD (p.ix + 1) 0)).map fun p => (p.ix, 0, p.ix)
  misplaced ++ missing

/-- The group mask of a V-slot or F-slot syllable; 0 for others. -/
def Placed.gm (p : Placed) : BitVec 8 := match vecHdr p.syl.instr with
  | some h => h.gm
  | none => 0

/-- Whether a syllable stands in a vector slot. -/
def Placed.isVec (p : Placed) : Bool := 2 ≤ p.syl.slot.toNat && p.syl.slot.toNat ≤ 4

/-- Chain-in violations of a syllable (R158, R314): CH where it is not accepted, a group that no syllable of
the next lower vector slot covers, or one covered by a syllable that writes no vector register. -/
def chainViolations (ps : List Placed) (p : Placed) : List Violation :=
  let space := slotSpace p.syl.slot
  if !(fCh p.word && (space == some .v || space == some .f)) then []
  else if !(p.syl.slot == 3 || p.syl.slot == 4) || !p.syl.instr.acceptsChain then [(p.ix, 1, p.ix)]
  else (List.range 8).filterMap fun g =>
    if !p.gm.getLsbD g then none
    else match ps.find? fun l => l.syl.slot == p.syl.slot - 1 && l.gm.getLsbD g with
      | none => some (p.ix, 1, p.ix)
      | some l => if (chainDest l.syl.instr).isNone then some (p.ix, 1, l.ix) else none

/-- Clashes of two syllables (R265): a register that one writes and the other touches, or a group shared in
one vector slot. -/
def clashes : List Placed → List Violation
  | [] => []
  | p :: rest =>
    (rest.filter fun l => usesClash (sylUses p.syl) (sylUses l.syl)
      || (p.isVec && p.syl.slot == l.syl.slot && (p.gm &&& l.gm) != 0)).map (fun l => (l.ix, 2, p.ix))
      ++ clashes rest

/-- The order in which violations are raised (R266). -/
def Violation.before (a b : Violation) : Bool :=
  a.1 < b.1 || (a.1 == b.1 && (a.2.1 < b.2.1 || (a.2.1 == b.2.1 && a.2.2 < b.2.2)))

/-- The violation that is raised. -/
def firstViolation : List Violation → Option Violation
  | [] => none
  | v :: vs => match firstViolation vs with
    | none => some v
    | some w => if w.before v then some w else some v

/-- The syllables of a legal bundle, or its encoding cause with SYL and DETAIL (R218 causes 2 to 4). -/
def judgeWords (ws : List Word64) (stopped : Bool) : List Placed ⊕ (Byte × Nat × BitVec 32) :=
  match outOfOrder none 0 ws with
  | some i => .inr (cBUNDLE, i, 0)
  | none =>
    if !stopped then .inr (cBUNDLE, 15, 0)
    else match placeAll 0 ws with
      | .inr e => .inr e
      | .inl ps =>
        match firstViolation (immViolations ws ps ++ ps.flatMap (chainViolations ps) ++ clashes ps) with
        | some (i, _, o) => .inr (cILLENC, i, BitVec.ofNat 32 (o % 16))
        | none => .inl ps

/-- A bundle: the address after it and its syllables. -/
structure Bundle where
  next : Word64
  syls : List Placed
  deriving DecidableEq, Repr

/-- The bundle at an address, or its cause 1 to 4 of R218. -/
def State.bundleAt (s : State) (pc : Word64) : Bundle ⊕ Cause :=
  match s.fetchWords pc 16 with
  | .inr c => .inr c
  | .inl (ws, stopped) =>
    match judgeWords ws stopped with
    | .inl ps => .inl ⟨pc + BitVec.ofNat 64 (8 * ws.length), ps⟩
    | .inr (c, i, d) => .inr ⟨c, pc, einfo i (fSlot (ws.getD i 0)) d⟩

/-! ## The frame of a syllable -/

/-- The issue frame is set to a syllable of the bundle. -/
def State.onSyllable (s : State) (p : Placed) : State :=
  s.modFr fun f => { f with syl := p.ix, slot := p.syl.slot, word := p.word, verdict := .proceed }

/-- The guard of a syllable (R262), read as the syllable at its index reads. -/
def State.guardTrue (s : State) (p : Placed) : Bool :=
  let s := s.onSyllable p
  s.rdP (p.syl.gp.setWidth 6) != p.syl.gn

/-- The syllables whose guard is true. -/
def State.active (s : State) (ps : List Placed) : List Placed := ps.filter s.guardTrue

/-! ## What a bundle touches before it issues -/

/-- The uses of every syllable of a bundle. -/
def Bundle.uses (b : Bundle) : List Use := b.syls.flatMap fun p => sylUses p.syl

/-- The register lines that a bundle needs and that are not resident (R161). -/
def Ctx.missing (c : Ctx) (us : List Use) : List Nat :=
  (List.range 69).filter fun n => !c.resident.getLsbD n && us.any fun u => u.lines.contains n

/-- The 64-bit units of resident register lines that are read and that hold an uncorrectable error (R22, R23); s0, p0 and
q0 are not read there. -/
def Ctx.unsoundUnits (c : Ctx) (us : List Use) : List Nat :=
  c.badRegs.filter fun i => c.resident.getLsbD (i / 32) && us.any fun u => !u.write && !u.exempt && u.units.contains i

/-- The pending entries that a bundle touches (R163). -/
def Ctx.touched (c : Ctx) (us : List Use) : List Pending :=
  c.pend.filter fun p => p.parts.any fun (d, _) => us.any (·.touches d)

/-- The first destination with an uncorrectable value that a bundle touches (R233). -/
def Ctx.poisoned (c : Ctx) (us : List Use) : Option (Nat × Dest × Word64) :=
  c.poison.find? fun (_, d, _) => us.any (·.touches d)

end Sys2Proof.Machine
end

