-- ==== Sys2Proof/Machine/Sched.lean ====
section
/-!
DEFINITION. Events of a core (R102 to R110, R152, R156 to R166, R222, R230): landings, arrivals, register-line
fills and write-backs, the end of holds, the selector, the nullifier, trap entry and engine-fault
delivery.
-/

namespace Sys2Proof.Machine

/-! ## Landing (R105, R156) -/

/-- The predicates as a mask, p0 in bit 0. -/
def predMask (p : Vector Bool 16) : Nat :=
  packNat 1 ((List.range 16).map fun i => (p.get ⟨i % 16, Nat.mod_lt _ (by decide)⟩).toNat)

/-- The KIND 2 entries of the predicate writes that land now, in landing order (R234). -/
def predNotes (c : CtxNo) : Regs → List Flight → List Note
  | _, [] => []
  | r, f :: fs =>
    let r' := r.land f.dest f.value
    match f.dest with
    | .p _ => ⟨rankPred, c, 1, 2, predMask r'.p, f.pc⟩ :: predNotes c r' fs
    | _ => predNotes c r' fs

/-- The results of a context that land in this cycle. -/
def Ctx.landing (c : Ctx) : List Flight := sortFlights (c.flight.filter fun f => f.rem ≤ 1)

/-- The class and number of the register that a result goes to. -/
def Dest.register : Dest → Nat × Reg
  | .s r => (0, r)
  | .p r => (1, r)
  | .v r _ _ => (2, r)
  | .q r _ _ => (3, r)
  | .x r => (4, r)
  | .lc r => (5, r)
  | .m r => (6, r)
  | .cr r => (7, r)
  | .flags => (8, 0)

/-- A context's results in flight advance by one cycle. A pending value that has arrived in this cycle was issued
later than any result that lands on its register now, whatever lanes either has, and stands (R156). -/
def State.landCtx (s : State) (c : CtxNo) : State :=
  let now := (s.ctxAt c).landing
  let ns := predNotes c (s.ctxAt c).regs now
  let came := s.fr.arrived.filter fun (d, dest, _) => d == c && now.any fun f => f.dest.register == dest.register
  let s := s.landEffects c now
  let s := s.modCtxAt c fun x => came.foldl (fun x (_, d, v) => x.land d v) x.advance
  s.modFr fun f => { f with notes := f.notes ++ ns }

/-- The results in flight of all four contexts advance by one cycle (R105). -/
def State.landCycle (s : State) : State := allCtxs.foldl (fun s c => s.landCtx c) s

/-- RESULT_LANDING: a cycle that is not a freeze, as far as results in flight go. -/
def execResultLanding (s : State) : Res := .next s.landCycle

/-! ## Pending values (R163, R233) -/

/-- Whether a pending value has come: every reply is in, and its clock cycles have passed. -/
def Pending.ripe (p : Pending) : Bool :=
  p.left == 0 && (match p.due with
    | none => true
    | some n => n == 0)

/-- What arrives for the destinations of a pending entry: 0 where the value met an uncorrectable error. -/
def Pending.values (p : Pending) : List (Dest × BitVec 512) :=
  if p.bad then p.parts.map fun (d, _) => (d, 0) else p.parts

/-- A pending value arrives. One with an uncorrectable error leaves 0, and the first bundle that touches
it raises DATAERR. -/
def Ctx.arrive (c : Ctx) (p : Pending) : Ctx :=
  let c := { c with pend := c.pend.filter fun x => x.id != p.id }
  let c := p.values.foldl (fun c (d, x) => c.land d x) c
  if p.bad then { c with poison := c.poison ++ p.parts.map fun (d, _) => (p.id, d, p.addr) } else c

/-- PENDING_ARRIVAL: the oldest value that has come arrives. -/
def execPendingArrival (c : CtxNo) (s : State) : Res :=
  match (s.ctxAt c).pend.find? Pending.ripe with
  | some p => .next (s.modCtxAt c (·.arrive p))
  | none => .next s

/-- One clock cycle of pending values whose time is known, and those that come due. -/
def Ctx.tickDue (c : Ctx) : Ctx :=
  { c with pend := c.pend.map fun (p : Pending) => { p with due := p.due.map fun n => n - 1 } }
def Ctx.dueNow (c : Ctx) : List Pending := c.pend.filter fun p => p.due.isSome && p.ripe

/-- One clock cycle of the pending values of a context of the selected core: those that come due arrive. -/
def State.tickPending (s : State) (c : CtxNo) : State :=
  let x := (s.ctxAt c).tickDue
  let due := x.dueNow
  (s.setCtxAt c (due.foldl Ctx.arrive x)).modFr fun f =>
    { f with arrived := f.arrived ++ due.flatMap fun p => p.values.map fun (d, v) => (c, d, v) }

/-! ## The register space (R160, R161) -/

/-- The place of a register line in the register space. -/
def lineOffset (n : Nat) : Nat := if n < 5 then 256 * n else 0x4000 + 256 * (n - 5)

/-- A line of scalars or index registers: `n` entries of a width from a first number. -/
def wordsBytes (w : Nat) (xs : List Nat) : List Byte := xs.flatMap (natToBytes w)

/-- The 256 bytes of a register line (R160). The table gives bytes 0x0428 to 0x043F of line 4, behind lc3, no contents:
they are written as zeros with the line (DESIGN CHOICE, log entry 119). -/
def Regs.lineBytes (r : Regs) (n : Nat) : List Byte :=
  if n < 2 then
    wordsBytes 8 ((List.range 32).map fun i => (r.s.get (ix64 (BitVec.ofNat 6 (32 * n + i)))).toNat)
  else if n < 4 then
    wordsBytes 32 ((List.range 8).map fun i => (r.x.get (ix16 (BitVec.ofNat 6 (8 * (n - 2) + i)))).toNat)
  else if n = 4 then
    natToBytes 8 (predMask r.p)
      ++ wordsBytes 8 ((List.range 4).map fun i => (r.lc.get (ix4 (BitVec.ofNat 6 i))).toNat)
      ++ List.replicate 24 0
      ++ wordsBytes 8 ((List.range 8).map fun i => (r.m.get (ix8 (BitVec.ofNat 6 i))).toNat)
      ++ wordsBytes 16 ((List.range 8).map fun i => (r.q.get (ix8 (BitVec.ofNat 6 i))).toNat)
  else
    let v := r.v.get (ix32 (BitVec.ofNat 6 ((n - 5) / 2)))
    wordsBytes 4 ((List.range 64).map fun i => (lane v (64 * ((n - 5) % 2) + i)).toNat)

/-- The registers of a line take the values of its bytes; s0, p0 and q0 keep theirs. -/
def Regs.loadLine (r : Regs) (n : Nat) (b : List Byte) : Regs :=
  let f (off w : Nat) : BitVec 512 := BitVec.ofNat 512 (fieldNat b off w)
  if n < 2 then
    (List.range 32).foldl (fun r i => r.land (.s (BitVec.ofNat 6 (32 * n + i))) (f (8 * i) 8)) r
  else if n < 4 then
    (List.range 8).foldl (fun r i => r.land (.x (BitVec.ofNat 6 (8 * (n - 2) + i))) (f (32 * i) 32)) r
  else if n = 4 then
    let p := fieldNat b 0 2
    let r := (List.range 16).foldl
      (fun r i => r.land (.p (BitVec.ofNat 6 i)) (BitVec.ofNat 512 (p / 2 ^ i % 2))) r
    let r := (List.range 4).foldl (fun r i => r.land (.lc (BitVec.ofNat 6 i)) (f (8 + 8 * i) 4)) r
    let r := (List.range 8).foldl (fun r i => r.land (.m (BitVec.ofNat 6 i)) (f (64 + 8 * i) 8)) r
    (List.range 8).foldl
      (fun r i => allGroups.foldl
        (fun r g => r.land (.q (BitVec.ofNat 6 i) g 0xFFFF) (f (128 + 16 * i + 2 * g.val) 2)) r) r
  else
    let reg := BitVec.ofNat 6 ((n - 5) / 2)
    (allGroups.filter fun g => g.val / 4 == (n - 5) % 2).foldl
      (fun r g => r.land (.v reg g 0xFFFF) (f (64 * (g.val % 4)) 64)) r

/-- The address of a register line of a context. -/
def Ctx.lineAddr (c : Ctx) (n : Nat) : Word64 := c.ctrl.rsb + BitVec.ofNat 64 (lineOffset n)

/-- A translation for a context of the selected core. -/
def State.translateFor (s : State) (c : CtxNo) (va : Word64) (kind : AccKind) : XRes :=
  s.translateWith s.pod.xlat (s.ctxAt c).bind.lslot va kind

/-- What reading a register line of a context of some core at its home gives: its bytes, or the code, address and
DETAIL of the cause that its reader raises (R161, R233). A line whose space was written while the context was live holds
unpredictable values (R126). -/
def State.readLineOf (s : State) (core : Nat) (c : CtxNo) (n : Nat) : List Byte ⊕ (Byte × Word64 × BitVec 32) :=
  let x := s.ctxOf core c
  let a := x.lineAddr n
  match s.translateWith (s.podAt (podOf core)).xlat x.bind.lslot a .read with
  | .ok tgt modId pa _ =>
    -- the line's own register space is not read through the rule for live contexts
    if localHbm tgt modId then
      if s.hbmBad pa 256 then .inr (cDATAERR, a, 2)
      else if x.spoiled.getLsbD n then
        .inl ((Regs.scrambled fun i => s.freeWord (10000 * (4 * core + c.val + 1) + i)).lineBytes n)
      else .inl (readBytes s.hbm pa 256)
    else
      let (data, r) := s.homeRead (dieOf core) tgt modId pa 256 6000
      match r with
      | .ok => .inl data
      | .uncorrectable => .inr (cDATAERR, a, 2)
      | _ => .inr (cPERM, a, 11)
  | e => .inr (match e with | .perm _ => cPERM | _ => cXLATE, a, e.detail false)

/-- The same for a context of the selected core. -/
def State.readLine (s : State) (c : CtxNo) (n : Nat) : List Byte ⊕ (Byte × Word64 × BitVec 32) :=
  s.readLineOf s.coreIx c n

/-- The results that wait for a register line. -/
def Ctx.overlayOn (c : Ctx) (n : Nat) : List (Dest × BitVec 512) := c.overlay.filter fun (d, _) => d.line == some n

/-- A register line is filled with its bytes; results that have landed meanwhile stand over them. -/
def Ctx.fill (c : Ctx) (n : Nat) (b : List Byte) : Ctx :=
  let over_ := c.overlayOn n
  { c with
    regs := over_.foldl (fun r (d, x) => r.land d x) (c.regs.loadLine n b)
    resident := c.resident ||| (1 <<< n)
    dirty := if over_.isEmpty && !c.spoiled.getLsbD n then c.dirty else c.dirty ||| (1 <<< n)
    badRegs := c.badRegs.filter fun i => i / 32 != n
    spoiled := c.spoiled &&& ~~~((1 : BitVec 69) <<< n)
    overlay := c.overlay.filter fun (d, _) => d.line != some n }

/-- REGISTER_CACHE_FILL: a line that is being fetched arrives. -/
def execRegisterCacheFill (c : CtxNo) (line : Nat) (s : State) : Res :=
  if !s.core.fills.contains (c, line) then .next s
  else
    let s' := s.modCore fun k => { k with fills := k.fills.filter (· != (c, line)) }
    match s.readLine c line with
    | .inl b => .next (s'.modCtxAt c (·.fill line b))
    | .inr _ => .next s'

/-- A line that is not resident and that results wait for is fetched, so that they go home with it. -/
def State.fillOverlay (s : State) (core : Nat) (c : CtxNo) (n : Nat) : State :=
  let x := s.ctxOf core c
  if (x.overlayOn n).isEmpty then s
  else match s.readLineOf core c n with
    | .inl b => s.modCtxOf core c (·.fill n b)
    | .inr _ => s

/-- A register line of a context goes to its register space, but for the 64-bit units that hold an uncorrectable error
(log entry 102). The Bool says whether all of it did. -/
def State.flushLine (s : State) (core : Nat) (c : CtxNo) (n : Nat) : State × Bool :=
  let x := s.ctxOf core c
  let b := x.regs.lineBytes n
  let bad (i : Nat) : Bool := x.badRegs.contains (32 * n + i)
  match s.translateWith (s.podAt (podOf core)).xlat x.bind.lslot (x.lineAddr n) .write with
  | .ok tgt modId pa _ =>
    if (List.range 32).any bad then
      (((List.range 32).filter (!bad ·)).foldl
        (fun s i => (s.homeWrite (dieOf core) tgt modId (pa + 8 * i) (6000 + n) ((b.drop (8 * i)).take 8)).1) s, false)
    else
      let (s', r) := s.homeWrite (dieOf core) tgt modId pa (6000 + n) b
      (s', r == .ok)
  | _ => (s, false)

/-- A context's dirty register lines go to its register space, and no line is resident any longer (R110,
R114). The Bool says whether all of them did, and all results that waited for a line (R25). -/
def State.flushCtx (s : State) (core : Nat) (c : CtxNo) : State × Bool :=
  let s := (List.range 69).foldl (fun s n => s.fillOverlay core c n) s
  let x := s.ctxOf core c
  let dirty := (List.range 69).filter fun n => x.dirty.getLsbD n
  let (s, ok) := dirty.foldl
    (fun (r : State × Bool) n => let (t, w) := r.1.flushLine core c n; (t, r.2 && w)) (s, x.overlay.isEmpty)
  (s.modCtxOf core c fun x => { x with dirty := 0, resident := 0, badRegs := [], overlay := [], spoiled := 0 }, ok)

@[inherit_doc State.flushCtx] def State.flushRegs (s : State) (core : Nat) (c : CtxNo) : State := (s.flushCtx core c).1

/-- A context of a launch that ends is stopped: it goes to HALTED, and its registers to memory (R65, R72, R102). -/
def State.haltCtx (s : State) (core : Nat) (c : CtxNo) : State :=
  ((s.leaveQueues core c).flushRegs core c).modCtxOf core c fun x => { x with state := .halted }

/-- Whether an IDLE context still has results to take before its lines can be written back. -/
def Ctx.settled (c : Ctx) : Bool := c.flight.isEmpty && c.pend.isEmpty

/-- IDLE contexts of the selected core write their lines back, and a result that lands later goes home at once: the
register space in memory is their only copy (R110, R161). -/
def State.flushIdle (s : State) : State :=
  allCtxs.foldl
    (fun s c =>
      let x := s.ctxAt c
      if x.state = .idle ∧ (x.resident ≠ 0 ∨ x.overlay ≠ []) then s.flushRegs s.coreIx c else s) s

/-! ## Holds (R106, R120, R152, R354) -/

/-- The issue frame at the beginning of a bundle of a context. -/
def State.present (s : State) (c : CtxNo) (next : Word64) : State :=
  { s with fr := { Frame.reset with
      ctx := c, pc := (s.ctxAt c).pc, next := next, notes := s.fr.notes, shut := s.fr.shut
      judging := true } }

/-- How a syllable that can be held would be judged. -/
def State.judgeHold (s : State) (i : Instr) : Verdict :=
  let r : Res := match i with
    | .waita d a b disp ty acq => execWaita d a b disp ty acq s
    | .waitc d t b c => execWaitc d t b c s
    | .bara d lv n => execBara d lv n s
    | .barw a lv n => execBarw a lv n s
    | .bar d lv n => execBar d lv n s
    | .qput a b => execQput a b s
    | .qget d a b => execQget d a b s
    | _ => .next s
  match r with
  -- a WAITA that can be armed now, or a BAR that can arrive now, is presented again, so that it does
  | .next u =>
    if u.ctx.waits.waita == s.ctx.waits.waita && u.ctx.waits.bar == s.ctx.waits.bar then u.fr.verdict else .proceed
  | _ => .proceed

/-- The timeout of the C-slot syllable of a kind that holds a context's bundle, in cycles; 0 for none. -/
def State.holdLimit (s : State) (c : CtxNo) (h : Hold) : Nat :=
  let s := s.present c 0
  match s.bundleAt (s.ctxAt c).pc with
  | .inr _ => 0
  | .inl b =>
    (s.active b.syls).foldl
      (fun n p =>
        let s := s.onSyllable p
        match h, p.syl.instr with
        | .waitc, .waitc _ _ _ l => (s.rdS l).toNat
        | .qput, .qput a _ => bits (s.hqueue (s.rdS a).toNat).tmo 0 32
        | .qget, .qget _ a _ => bits (s.hqueue (s.rdS a).toNat).tmo 0 32
        | _, _ => n) 0

/-- Whether the C-slot syllable of a kind that has been holding a context's bundle has lasted its timeout. -/
def State.holdRunOut (s : State) (c : CtxNo) (h : Hold) : Bool :=
  let x := s.ctxAt c
  let n := s.holdLimit c h
  x.waits.heldC && n != 0 && decide (n ≤ x.waits.cycles)

/-- Whether a WAITING context's bundle would be held again if it were presented now; one that has resumed without a
hold is to be presented. A long pending register holds it but for a QPUT whose timeout has run out, which traps (R106,
R122). -/
def State.stillHeld (s : State) (c : CtxNo) : Bool :=
  let s := s.present c 0
  let x := s.ctxAt c
  x.waits.hold != .none &&
  match s.bundleAt x.pc with
  | .inr _ => false
  | .inl b =>
    let us := b.uses
    if (x.touched us).any (·.long) then !s.holdRunOut c .qput
    else (s.active b.syls).any fun p =>
      match (s.onSyllable p).judgeHold p.syl.instr with
      | .held _ => true
      | _ => false

/-- Whether a context has an engine fault to be delivered at its next boundary: one waits, and the context is not in a
handler (R230). -/
def Ctx.faultDue (c : Ctx) : Bool := !c.waits.faults.isEmpty && !c.hm

/-- Whether a WAITING context's hold is over: its condition is met, or an engine fault ends it (R106, R230). -/
def State.holdOver (s : State) (c : CtxNo) : Bool :=
  let x := s.ctxAt c
  x.state == .waiting && x.waits.entering.isNone && (x.faultDue || !s.stillHeld c)

/-- HOLD_END: a hold whose condition is met, or whose timeout has run out, ends (R102, R106). -/
def execHoldEnd (c : CtxNo) (s : State) : Res :=
  if s.holdOver c then .next (s.modCtxAt c (·.ready s.core.now)) else .next s

/-- A hold of a kind that has lasted its timeout ends: its context is READY, and its bundle is judged afresh
when it is next presented. -/
def State.timeoutHold (s : State) (c : CtxNo) (h : Hold) : State :=
  if (s.ctxAt c).state = .waiting ∧ s.holdRunOut c h then s.modCtxAt c (·.ready s.core.now) else s

/-- WAITC_TIMEOUT (R354). -/
def execWaitcTimeout (c : CtxNo) (s : State) : Res := .next (s.timeoutHold c .waitc)

/-- QGET_TIMEOUT (R120). -/
def execQgetTimeout (c : CtxNo) (s : State) : Res := .next (s.timeoutHold c .qget)

/-- QPUT_TIMEOUT (R122): the bundle raises QUOTA when it is next presented. -/
def execQputTimeout (c : CtxNo) (s : State) : Res := .next (s.timeoutHold c .qput)

/-- Whether an armed WAITA has lasted its timeout. -/
def WaitRec.expired (r : WaitRec) : Bool := r.cause.isNone && r.timeout != 0 && decide (r.timeout ≤ r.age)

/-- WAITA_TIMEOUT (R152): wake cause 2. -/
def execWaitaTimeout (c : CtxNo) (s : State) : Res :=
  .next (s.modCtxAt c (·.wake WaitRec.expired 2 s.core.now))

/-- The holds of the selected core's contexts whose condition is met in this cycle, or whose timeout has run out, end
in it (R102, R106, R111, R152). -/
def State.endHolds (s : State) : State :=
  allCtxs.foldl
    (fun s c =>
      let s := s.modCtxAt c (·.wake WaitRec.expired 2 s.core.now)
      if (s.ctxAt c).state = .waiting then
        match execHoldEnd c s with
        | .next t => t
        | _ => s
      else s) s

/-- WAITA_WAKE (R152): a write to a watched word has landed, of the selected core's scratchpad or of local
HBM. -/
def execWaitaWake (word : Nat) (space : Bool) (s : State) : Res :=
  .next (s.wakeWord (if space then .hbm word else .spad s.coreIx word) 4)

/-! ## The clock (R169) -/

/-- The cycles that a core has had no context to run in are counted. -/
def Core.synced (k : Core) (round : Nat) : Core :=
  let missed := BitVec.ofNat 64 (round - k.seen)
  { k with
    seen := max k.seen round
    counters := { k.counters with cycles := k.counters.cycles + missed, idlecy := k.counters.idlecy + missed } }

/-- A core's counters are brought up to the present round, before a context is bound to it. -/
def State.syncCore (s : State) (n : Nat) : State := s.modCoreAt n (·.synced s.round)

/-- Whether the RUNNING context of a core stands at a bundle boundary that is neither a freeze nor a
bubble. -/
def Core.atBoundary (k : Core) (c : CtxNo) : Bool :=
  k.freeze == 0 && !k.tableRead && (k.ctxs.get c).bubbles == 0 && (k.ctxs.get c).waits.entering.isNone

/-- The contexts of the selected core whose launch ends, where R47 allows it and, for the RUNNING one, at its bundle
boundary, are stopped (R72). -/
def State.haltEnding (s : State) : State :=
  allCtxs.foldl
    (fun s c =>
      let x := s.ctxAt c
      if x.bound && x.state != .halted && (s.lslot x.bind.lslot).state == .ending
          && (x.state != .running || s.core.atBoundary c) && !s.movingData x.bind.lslot x.bind.gang then
        s.haltCtx s.coreIx c
      else s) s

/-- What a cycle of the selected core begins with: its clock, the values that arrive, and the holds that end. -/
def State.beginCycle (s : State) : State :=
  let s := s.modCore fun k => { k.synced s.round with seen := s.round + 1 }
  (allCtxs.foldl State.tickPending s).endHolds.haltEnding

/-! ## The selector (R107, R108) -/

/-- The order in which contexts with equal ready-since are chosen (R107). -/
def afterLast (j : CtxNo) : List CtxNo := [j + 1, j + 2, j + 3, j]

/-- The READY context that the selector chooses. -/
def Core.choose (k : Core) : Option CtxNo :=
  (afterLast k.last).foldl
    (fun best c =>
      if (k.ctxs.get c).state ≠ .ready then best
      else match best with
        | none => some c
        | some b => if (k.ctxs.get c).readySince < (k.ctxs.get b).readySince then some c else best)
    none

/-- The RUNNING context. -/
def Core.running (k : Core) : Option CtxNo := allCtxs.find? fun c => (k.ctxs.get c).state == .running

/-- The chosen context is RUNNING; nothing happens when none is READY. -/
def State.select? (s : State) : State :=
  match s.core.running, s.core.choose with
  | none, some c => s.modCtxAt c fun x => { x with state := .running }
  | _, _ => s

/-- Whether some READY context has been READY for 64 cycles (R108). -/
def Core.sliceDue (k : Core) : Bool :=
  allCtxs.any fun c => (k.ctxs.get c).state == .ready && decide ((k.ctxs.get c).readySince + 64 ≤ k.now)

/-- TIMESLICE_EXPIRY (R108): the oldest READY context takes the issue slot. -/
def execTimesliceExpiry (s : State) : Res :=
  match s.core.running, s.core.choose with
  | some c, some d =>
    if s.core.sliceDue && s.core.atBoundary c then
      .next ((s.modCtxAt c fun x => { x with state := .ready, readySince := s.core.now }).modCtxAt d
        fun x => { x with state := .running })
    else .next s
  | _, _ => .next s

/-! ## The nullifier (R166) -/

/-- Whether a context's predicate has a write in flight, or a captured one that is due to go back to flight, or stands
on a line that is not resident: a guard on it is not judged by the nullifier. -/
def Ctx.predBusy (c : Ctx) (p : Reg) : Bool :=
  p != 0 &&
    (!c.resident.getLsbD 4 || c.flight.any (fun f => (rp p).touches f.dest)
      || c.latent.any fun l => l.valid && (if l.byTrap then c.waits.replayTrap else c.waits.replayStop)
        && (rp p).touches l.flight.dest)

/-- The run of skippable bundles from an address, at most `n` more: how many, and where it ends. -/
def State.skipRun (s : State) : Word64 → Nat → Nat × Word64
  | pc, 0 => (0, pc)
  | pc, n + 1 =>
    match s.bundleAt pc with
    | .inr _ => (0, pc)
    | .inl b =>
      let c := s.ctx
      let busy : Placed → Bool := fun p => c.predBusy (p.syl.gp.setWidth 6)
      let last := allCtxs.any fun i => (c.loops.get i).active && (c.loops.get i).exit == b.next
      if last || b.syls.any busy || b.syls.any (s.guardTrue ·) then (0, pc)
      else
        let (k, e) := s.skipRun b.next n
        (k + 1, e)

/-- NULLIFIER_SKIP: the run of the RUNNING context's skippable bundles, at most 16, is skipped; `n` is its length
(R166). Captured results that are due go back to flight with it, as they would with the first of its bundles (DEDUCED
from R166 against R226, log entry 118). -/
def execNullifierSkip (n : Nat) (s : State) : Res :=
  match s.core.running with
  | none => .next s
  | some c =>
    if !s.core.atBoundary c then .next s
    else
      let r := s.modCtxAt c Ctx.replay
      let t := r.landCycle.present c 0
      let (k, pc) := t.skipRun (s.ctxAt c).pc 16
      if k = 0 ∨ k ≠ n then .next s
      else
        let d := ((r.ctxAt c).flight.map fun f => f.rem - 1).foldl max 0
        .next ((r.modCtxAt c fun x =>
          { x with pc := pc, bubbles := max 1 (min k d), bubbleWhy := .skip }).modCore fun q =>
            { q with counters := { q.counters with
                nullbun := q.counters.nullbun + BitVec.ofNat 64 k } })

/-! ## Traps -/

/-- TRAP_ENTRY (R222, R223). -/
def execTrapEntry (c : CtxNo) (cause : Byte) (epc eaddr info : Word64) (s : State) : Res :=
  .next (s.trapEntryAt c ⟨cause, epc, eaddr, info⟩)

/-- The oldest engine fault that waits is delivered at the bundle that stands there (R230). -/
def State.deliverFault (s : State) (c : CtxNo) : State :=
  let x := s.ctxAt c
  match x.waits.faults with
  | [] => s
  | f :: rest =>
    if x.hm then s
    else
      (s.modCtxAt c fun x => { x with waits := { x.waits with faults := rest } }).trapEntryAt c
        ⟨cENGFAULT, x.pc, f.eaddr, einfo 0 0 f.detail⟩

/-- ENGINE_FAULT_DELIVERY: to the RUNNING context at its next boundary. -/
def execEngineFaultDelivery (c : CtxNo) (s : State) : Res :=
  if s.core.running = some c ∧ s.core.atBoundary c then .next (s.deliverFault c) else .next s

/-! ## Fences, releases, translation, write-backs -/

/-- FENCE_COMPLETE (R142, R143). -/
def execFenceComplete (c : CtxNo) (s : State) : Res := .next (s.fenceStep s.coreIx c)

/-- RELEASE_PERFORM (R148). -/
def execReleasePerform (c : CtxNo) (s : State) : Res := .next (s.releaseStep s.coreIx c)

/-- TRANSLATION_WALK (R134, R135): a walk that succeeds installs its leaf translation, in the pod's cache and in
the hub's. -/
def execTranslationWalk (lslot : Nat) (va : Word64) (kind : AccKind) (s : State) : Res :=
  .next ((s.installXlat lslot va kind).installHubXlat lslot va kind)

/-- LINE_WRITEBACK_FAIL (R144): the dirty bytes of a line are lost, and each launch context of the core counts
them. -/
def execLineWritebackFail (lslot : Nat) (line : Word64) (r : Reply) (s : State) : Res :=
  match s.core.lineAt lslot line.toNat with
  | none => .next s
  | some l =>
    if l.dirty = 0 ∨ r = .ok then .next s
    else
      let s := (dirtyRuns l.dirty).foldl
        (fun s (off, n) => s.failAll s.coreIx lslot r 1 (l.va + off) n) s
      .next (s.modCore fun k => { k with
        lines := k.lines.map fun x => if x.isAt lslot line.toNat then { x with dirty := 0 } else x })

end Sys2Proof.Machine
end

