-- ==== Sys2Proof/Machine/Engine.lean ====
section
/-!
DEFINITION. What every engine shares: the places its addresses lead to (R364), its reads and writes there, and
how an access can stop its command (R229, R365).
-/

namespace Sys2Proof.Machine

/-- What stops a command: an ENGFAULT with its faulting address; an access that was refused, lost or met uncorrectable
data; or, for now, an access that must wait for an earlier one of its context (R154). -/
inductive Halted
  | fault (f : FaultClass) (va : Word64)
  | fail (r : Reply)
  | wait
  deriving DecidableEq, Repr

/-- Where an engine address leads (R364). -/
inductive Loc
  | spad | peer | glob
  deriving DecidableEq, Repr

/-- The form of an engine address. -/
def locOf (x : Nat) : Loc :=
  match x / 2 ^ 62 % 4 with
  | 0 => .spad
  | 3 => .glob
  | _ => .peer

/-- The address that a command forms others from: a local or peer address as it stands, a global one
without its form bits. -/
def locBase (x : Nat) : Word64 :=
  match locOf x with
  | .glob => BitVec.ofNat 64 (x % 2 ^ 56)
  | _ => BitVec.ofNat 64 x

/-- Whether the bits that the form leaves unused are 0. -/
def locClean (x : Nat) : Bool :=
  match locOf x with
  | .spad => x < 2 ^ 22
  | .glob => x / 2 ^ 56 % 64 == 0
  | .peer => true

/-- The frame in which a command's addresses are judged: its own context's. -/
def State.forCmd (s : State) (m : Cmd) : State :=
  { s with fr := { Frame.reset with
      ctx := m.ctx, pc := (s.ctxAt m.ctx).pc, pathF := m.op.engine == .fabric, notes := s.fr.notes, shut := s.fr.shut } }

/-- The fault of a refused address, by its cause (R137, R365). -/
def faultOf (cause : Byte) (detail : BitVec 32) : FaultClass :=
  if cause = cLEVEL then .own 35
  else if cause = cSTALEWIN then .own 36
  else if cause = cALIGN then .own 37
  else if cause = cXLATE then .xlate (detail.toNat % 256) (detail.toNat / 256 % 4)
  else .perm (detail.toNat % 256)

/-- The parts of a global range that lie in one 64 KiB page each: address and length. -/
def pageParts (a : Word64) : Nat → Nat → List (Word64 × Nat)
  | 0, _ => []
  | k + 1, n =>
    if n = 0 then []
    else
      let here := min n (65536 - a.toNat % 65536)
      (a, here) :: pageParts (a + BitVec.ofNat 64 here) k (n - here)

/-- The pages of a global range. -/
def pagesOf (a : Word64) (n : Nat) : List (Word64 × Nat) := pageParts a (n / 65536 + 2) n

/-- Whether an access of the framed context to pool or host memory must wait: an earlier one of the context to a
64-byte line of it has not completed (R154). -/
def State.ioBusy (s : State) (tgt : BitVec 3) (pa n : Nat) : Bool :=
  isIo tgt && s.fabric.reqs.any fun r =>
    r.io && r.who.owner == some (s.coreIx, s.fr.ctx) && r.tgt == tgt
      && decide (pa / 64 ≤ r.addr / 64) && decide (r.addr / 64 ≤ (pa + n - 1) / 64)

/-- Whether an engine's access must wait: as above, or for a request tag where its home is another module (R34). -/
def State.mustWait (s : State) (tgt : BitVec 3) (modId pa n : Nat) : Bool :=
  s.ioBusy tgt pa n || (isRemote tgt modId && s.noTag)

/-- Bytes read from a global range by the engine of a command. -/
def State.globRead (s : State) (place : Nat) : List (Word64 × Nat) → List Byte ⊕ Halted
  | [] => .inl []
  | (a, n) :: rest =>
    match s.translate a .read with
    | .ok tgt modId pa _ =>
      if s.mustWait tgt modId pa n then .inr .wait
      else
      let (data, r) := s.homeRead (dieOf s.coreIx) tgt modId pa n place
      if r ≠ Reply.ok then .inr (.fail r)
      else match s.globRead (place + n) rest with
        | .inl more => .inl (data ++ more)
        | .inr h => .inr h
    | .xlate r l => .inr (.fault (.xlate r l) a)
    | .perm r => .inr (.fault (.perm r) a)

/-- Bytes of the context's scratchpad space, read by an engine. -/
def State.spadRead (s : State) (a : Word64) (n : Nat) : List Byte ⊕ Halted :=
  if n = 0 then .inl []
  else match s.spadSpan a n with
    | .bad _ _ d => .inr (.fault (.perm (d.toNat % 256)) a)
    | .ok _ => if s.spadBad a n then .inr (.fail .uncorrectable) else .inl (s.spadBytes a.toNat n)

/-- The address of a byte at an offset from a field of the local or the global form. -/
def locAddr (x off : Nat) : Word64 := locBase x + BitVec.ofNat 64 off

/-- The peer that holds `n` bytes at an offset from a peer address, or the fault (R131, R365). -/
def State.peerSpan (s : State) (x off n : Nat) : PeerTarget ⊕ Halted :=
  let a : Word64 := BitVec.ofNat 64 x
  let base : Word64 := a &&& ~~~0xFFFFF
  let at_ : Int := (bits a 0 20 + off : Nat)
  match s.peerTarget base at_, s.peerTarget base (at_ + (n - 1 : Nat)) with
  | .ok t, .ok _ => .inl t
  | .bad c _ d, _ => .inr (.fault (faultOf c d) a)
  | _, .bad c _ d => .inr (.fault (faultOf c d) a)

/-- Bytes read by an engine at an offset from an engine address. -/
def State.eRead (s : State) (x off n place : Nat) : List Byte ⊕ Halted :=
  match locOf x with
  | .spad => s.spadRead (locAddr x off) n
  | .glob => s.globRead place (pagesOf (locAddr x off) n)
  | .peer =>
    if n = 0 then .inl []
    else match s.peerSpan x off n with
      | .inr h => .inr h
      | .inl (.here k) =>
        let lo := x % 2 ^ 20 + off
        if (List.range n).any fun i => (s.coreAt k).badWords.contains ((lo + i) / 4) then
          .inr (.fail .uncorrectable)
        else .inl (readBytes (s.coreAt k).spad lo n)
      | .inl (.there _) =>
        if s.noTag then .inr .wait
        else match Config.extReply s.free place with
          | .ok => .inl ((List.range n).map fun i => Config.extByte s.free (place + i))
          | r => .inr (.fail r)

/-- Scratchpad words that a write replaces only in part and that hold an uncorrectable error (R343). -/
def Core.partBad (k : Core) (off n : Nat) : Bool :=
  k.badWords.any fun w =>
    off < 4 * w + 4 && 4 * w < off + n && !(off ≤ 4 * w && 4 * w + 4 ≤ off + n)

/-- A write of an engine to a core's scratchpad. -/
def State.eSpad (s : State) (core off : Nat) (data : List Byte) : State × Option Halted :=
  if (s.coreAt core).partBad off data.length then (s, some (.fail .uncorrectable))
  else (s.writeSpad core off data, none)

/-- A write of an engine to the context's space: each core's piece goes to it, and none does where a piece meets an
uncorrectable word. -/
def State.ePieces (s : State) (ps : List (Nat × Nat × List Byte)) : State × Option Halted :=
  if ps.any fun (k, off, d) => (s.coreAt k).partBad off d.length then (s, some (.fail .uncorrectable))
  else (ps.foldl (fun s (k, off, d) => s.writeSpad k off d) s, none)

/-- What stops an element of `w` bytes at an offset from a peer address: the checks of R131, misalignment the last. -/
def State.peerElem (s : State) (x off w : Nat) : Option Halted :=
  if locOf x ≠ .peer ∨ (x % 2 ^ 20 + off) % w = 0 then none
  else match s.peerSpan x off w with
    | .inr h => some h
    | .inl _ => some (.fault (faultOf cALIGN 0) (BitVec.ofNat 64 x))

/-- Bytes written by an engine to a global range, page by page. -/
def State.globWrite (s : State) (place : Nat) (data : List Byte) : List (Word64 × Nat) → State × Option Halted
  | [] => (s, none)
  | (a, n) :: rest =>
    match s.translate a .write with
    | .ok tgt modId pa _ =>
      if s.mustWait tgt modId pa n then (s, some .wait)
      else
      let (s', r) := s.homeWrite (dieOf s.coreIx) tgt modId pa place (data.take n)
      if r ≠ Reply.ok then (s', some (.fail r)) else s'.globWrite (place + n) (data.drop n) rest
    | .xlate r l => (s, some (.fault (.xlate r l) a))
    | .perm r => (s, some (.fault (.perm r) a))

/-- A write of an engine to a global range may meet a stream record (R199). -/
def State.noteGlob (s : State) (ps : List (Word64 × Nat)) : State :=
  ps.foldl
    (fun s (a, n) =>
      match s.translate a .write with
      | .ok tgt modId pa _ => s.noteStream (memoryOf (dieOf s.coreIx) tgt modId) (pa, n)
      | _ => s) s

/-- Bytes written by an engine at an offset from an engine address. -/
def State.eWrite (s : State) (x off : Nat) (data : List Byte) (place : Nat) : State × Option Halted :=
  if data.isEmpty then (s, none)
  else match locOf x with
    | .spad =>
      let a := locAddr x off
      match s.spadSpan a data.length with
      | .bad _ _ d => (s, some (.fault (.perm (d.toNat % 256)) a))
      | .ok _ => s.ePieces (s.spadPieces a data)
    | .glob =>
      let ps := pagesOf (locAddr x off) data.length
      (s.noteGlob ps).globWrite place data ps
    | .peer =>
      match s.peerSpan x off data.length with
      | .inr h => (s, some h)
      | .inl (.here k) => s.eSpad k (x % 2 ^ 20 + off) data
      | .inl (.there md) =>
        if s.noTag then (s, some .wait)
        else
          let (n, t) := s.takeNum
          let t := t.ask 1 md (peerFlit (BitVec.ofNat 64 x) (x % 2 ^ 20 + off)) (x + off) (.write data) .signal n
          match Config.extReply s.free place with
          | .ok => (t, none)
          | r => (t, some (.fail r))

/-! ## What the block commands share (R363 to R365) -/

/-- Whether the bytes of a block that no field uses are 0. -/
def Cmd.spare (m : Cmd) (ranges : List (Nat × Nat)) : Bool :=
  ranges.all fun (lo, n) => fieldNat m.block lo n == 0

/-- Whether the reserved bits of a header are 0. -/
def Cmd.headerOk (m : Cmd) : Bool := m.f 0 4 % 2 ^ 31 < 2 ^ 22

/-- Whether a field holds an engine address of the local or the global form, or of any form. -/
def locField (x : Nat) : Bool := locOf x != .peer && locClean x
def anyField (x : Nat) : Bool := locClean x

/-- A field that breaks its limits (R365). -/
def badField : Halted := .fault (.own 30) 0

/-- The status record is written, where the command names one. -/
def State.writeStat (s : State) (m : Cmd) (data : List Byte) : State × Option Halted :=
  if m.f 12 4 = 0xFFFFFFFF then (s, none) else s.eWrite (m.f 12 4) 0 data 0

/-- How a command's run comes out: it is over, it goes on later from its progress, or it is stopped. -/
inductive Ran
  | done (s : State)
  | more (s : State) (m : Cmd)
  | halted (s : State) (m : Cmd) (h : Halted)

end Sys2Proof.Machine
end

