-- ==== Sys2Proof/Machine/Cell.lean ====
section
/-!
DEFINITION. A cell of the systolic array (R171 to R182): its program, one step of it, and a step of the rows
that a routine uses.
-/

namespace Sys2Proof.Machine

/-! ## Cell programs (R172, R173) -/

/-- The fields of a cell micro-word, by their codes. -/
structure CellWord where
  otimes : Nat
  oplus : Nat
  srca : Nat
  srcb : Nat
  dst : Nat
  type : Nat
  pe : Bool
  ps : Bool
  idx : Bool
  last : Bool
  rep : Nat
  k : Int
  deriving DecidableEq, Repr

/-- A cell micro-word. -/
def cellWord (w : Word32) : CellWord :=
  let x := w.toNat
  ⟨nbits x 29 3, nbits x 26 3, nbits x 23 3, nbits x 20 3, nbits x 18 2, nbits x 15 3, x.testBit 14,
    x.testBit 13, x.testBit 12, x.testBit 11, nbits x 7 4, intVal true 7 x⟩

/-- The words of a program up to its END; none where no word has it. -/
def cellProgram : List Word32 → Option (List CellWord)
  | [] => none
  | w :: ws =>
    if (cellWord w).last then some [cellWord w]
    else (cellProgram ws).map fun p => cellWord w :: p

/-- Lp of a program. -/
def progLen (p : List CellWord) : Nat := p.foldl (fun n w => n + w.rep + 1) 0

/-- Whether a TYPE 100 word keeps R173's code 3. -/
def CellWord.packedOk (w : CellWord) (alone : Bool) : Bool :=
  w.otimes == 0 && w.oplus == 0 && w.srca == 1 && (w.srcb == 0 || w.srcb == 4) && w.dst != 1 && alone

/-- Why CELLLD refuses a program. -/
def progRefusal (ws : List Word32) : Option Nat :=
  match cellProgram ws with
  | none => some 1
  | some p =>
    if p.any fun w => w.oplus == 7 || w.dst == 3 || 5 ≤ w.type then some 2
    else if p.any fun w => w.type == 4 && !w.packedOk (p.length == 1) then some 3
    else if p.any fun w => (w.idx && w.oplus != 1 && w.oplus != 2)
        || ((w.idx || w.oplus == 5) && w.dst == 1) then some 4
    else if p.all fun w => w.dst == 2 && !w.pe && !w.ps && !w.idx && w.oplus != 5 then some 5
    else none

/-! ## Operators (R175, R176) -/

/-- How a type cuts a register: its format if it is a floating one, the bits of a part, the parts. -/
def cellParts (type : Nat) : Option FFmt × Nat × Nat :=
  match type with
  | 0 => (some .f32, 32, 1)
  | 2 => (some .bf16, 16, 2)
  | 3 => (none, 16, 2)
  | _ => (none, 32, 1)

/-- Equality of two floating values: a NaN is unequal to everything. -/
def FFmt.same (f : FFmt) (a b : Nat) : Bool :=
  !f.isNaN a && !f.isNaN b && XVal.cmp (f.val a) (f.val b) == .eq

/-- ⊗ on one part. -/
def cellTimes (f : Option FFmt) (n op a b : Nat) : Nat :=
  match op with
  | 0 => match f with
    | some f => (fmul f .rne 0 a b).1
    | none => a * b % 2 ^ n
  | 1 => match f with
    | some f => (fadd f false .rne 0 a b).1
    | none => (a + b) % 2 ^ n
  | 2 => match f with
    | some f => (fadd f true .rne 0 a b).1
    | none => (a + 2 ^ n - b) % 2 ^ n
  | 3 => a &&& b
  | 4 => a ||| b
  | 5 => a
  | 6 => b
  | _ => match f with
    | some f => if f.same (f.flushIn a).1 (f.flushIn b).1 then roundNE f (XVal.ofInt 1) else 0
    | none => if a = b then 1 else 0

/-- ⊕ min and max on one part, and whether p replaces y. -/
def cellMinMax (f : Option FFmt) (n : Nat) (max : Bool) (y p : Nat) : Nat × Bool :=
  match f with
  | some f =>
    let r := (minMaxNum f max y p).1
    let (y, p) := ((f.flushIn y).1, (f.flushIn p).1)
    let wins := if max then f.below y p else f.below p y
    (r, !f.isNaN r && !f.isNaN p && (f.isNaN y || wins))
  | none =>
    let (u, v) := (intVal true n y, intVal true n p)
    let wins := if max then decide (u < v) else decide (v < u)
    (if wins then p else y, wins)

/-- ⊕ on one part; add after multiply is fused. -/
def cellPlus (f : Option FFmt) (n : Nat) (w : CellWord) (y p a b : Nat) : Nat × Bool :=
  match w.oplus with
  | 0 => match f with
    | some f =>
      (if w.otimes = 0 then (ffma f false false .rne 0 a b y).1 else (fadd f false .rne 0 y p).1, false)
    | none => ((y + p) % 2 ^ n, false)
  | 1 | 5 => cellMinMax f n false y p
  | 2 => cellMinMax f n true y p
  | 3 => (y ||| p, false)
  | 4 => (y &&& p, false)
  | _ => (p, false)

/-- The constant K as a type takes it (R175). -/
def cellConst (type : Nat) (k : Int) : Nat :=
  match cellParts type with
  | (some f, n, parts) => packNat n (List.replicate parts (roundNE f (XVal.ofInt k)))
  | (none, n, parts) => packNat n (List.replicate parts (intBits n k))

/-- One run of a word of TYPE 000 to 011: the result and AUX. `hi` says that the upper half is masked. -/
def cellOp (w : CellWord) (hi : Bool) (y a b aux kix : Nat) : Nat × Nat :=
  let (f, n, parts) := cellParts w.type
  let part (x h : Nat) : Nat := nbits x (n * h) n
  let rs := (List.range parts).map fun h =>
    if hi ∧ h = 1 then (part y h, part aux h)
    else
      let p := cellTimes f n w.otimes (part a h) (part b h)
      let (r, hit) := cellPlus f n w (part y h) p (part a h) (part b h)
      (r, if hit ∧ (w.idx ∨ w.oplus = 5) then kix % 2 ^ n else part aux h)
  (packNat n (rs.map Prod.fst), packNat n (rs.map Prod.snd))

/-! ## Packed elements (R177, R194) -/

/-- A format entry that is in use: the two formats and their scales. -/
structure Fmt where
  a : Nat
  b : Nat
  ascl : Nat
  bscl : Nat
  deriving DecidableEq, Repr

/-- The fields of an entry. -/
def fmtOf (e : Word64) : Fmt := ⟨bits e 52 4, bits e 48 4, bits e 46 2, bits e 44 2⟩

/-- The class of a format code: E2M1; FP8 and FP6; INT4; BF16; INT8 and INT6. -/
def fmtClass (c : Nat) : Nat :=
  match c with
  | 5 => 0
  | 1 | 2 | 3 | 4 => 1
  | 8 => 2
  | 0 => 3
  | _ => 4

/-- Whether an entry may be used (R194, R195). -/
def fmtOk (e : Word64) : Bool :=
  let f := fmtOf e
  e.getLsbD 63 && bits e 56 7 == 0 && bits e 0 44 == 0 && f.a ≤ 8 && f.b ≤ 8 && f.ascl != 3
    && f.bscl != 3 && fmtClass f.a == fmtClass f.b
    && ((f.ascl == 0 && f.bscl == 0) || fmtClass f.a ≤ 2)

/-- Bits of an element. -/
def fmtBits (c : Nat) : Nat :=
  match c with
  | 0 => 16
  | 1 | 2 | 6 => 8
  | 3 | 4 | 7 => 6
  | _ => 4

/-- KC. -/
def fmtKc (c : Nat) : Nat :=
  match fmtClass c with
  | 0 => 8
  | 1 | 2 => 4
  | _ => 1

/-- The value of an element. -/
def fmtVal (c x : Nat) : XVal :=
  match c with
  | 0 => FFmt.val .bf16 x
  | 1 => FFmt.val .e4m3 x
  | 2 => FFmt.val .e5m2 x
  | 3 => FFmt.val .e3m2 x
  | 4 => FFmt.val .e2m3 x
  | 5 => FFmt.val .e2m1 x
  | _ => XVal.ofInt (intVal true (fmtBits c) x)

/-- Whether ACC holds INT32 (R194). -/
def Fmt.int (f : Fmt) : Bool := 6 ≤ f.a && f.ascl == 0 && f.bscl == 0

/-- Whether a block scale applies. -/
def Fmt.scaled (f : Fmt) : Bool := f.ascl != 0 || f.bscl != 0

/-- What a latch receives: a word, whether something drove it, and the scale of its chunk. -/
structure Sig where
  word : Nat
  live : Bool
  scale : XVal
  deriving DecidableEq, Repr

/-- The scale of a chunk that has none. -/
def scaleOne : XVal := .num false 1 1 0

/-- A latch that nothing drove holds its row's identity (R179). -/
def idleSig (ident : Nat) : Sig := ⟨ident, false, scaleOne⟩

/-- The elements of a chunk: those at K or beyond, and those of an undriven latch, are zero (R182). -/
def Sig.elems (x : Sig) (code kc c k : Nat) : List XVal :=
  (List.range kc).map fun e =>
    if x.live ∧ c * kc + e < k then fmtVal code (nbits x.word (fmtBits code * e) (fmtBits code))
    else .num false 0 1 0

/-! ## The block accumulator (R171, R251)

Its 96 bits are a signed number of units of 2^−32 in bits 87:0, and flags above: NaN, +∞, −∞, something
added, every term −0 (DESIGN CHOICE, log entry 40). -/

/-- An exact element product in units of 2^−32. -/
def fixedTerm : XVal → Int
  | .num neg m _ e => scaled neg m (e + 32) 0
  | _ => 0

/-- Adding the terms of a chunk. -/
def blockAdd (b : BitVec 96) (terms : List XVal) : BitVec 96 :=
  let sum := intVal true 88 b.toNat + terms.foldl (fun s t => s + fixedTerm t) 0
  let flag (i : Nat) (p : Bool) : Nat := (p || b.getLsbD i).toNat * 2 ^ i
  let minus := (!b.getLsbD 92 || b.getLsbD 91) && terms.all fun t => t.isZero && t.neg
  BitVec.ofNat 96 (intBits 88 sum + minus.toNat * 2 ^ 91 + 2 ^ 92 + flag 93 (terms.any (· == .inf true))
    + flag 94 (terms.any (· == .inf false)) + flag 95 (terms.any (· == .nan)))

/-- The block's sum; `whole` says that no zero elements fill it up. -/
def blockSum (b : BitVec 96) (whole : Bool) : XVal :=
  if b.getLsbD 95 || (b.getLsbD 94 && b.getLsbD 93) then .nan
  else if b.getLsbD 94 then .inf false
  else if b.getLsbD 93 then .inf true
  else
    let v := intVal true 88 b.toNat
    if v = 0 then .num (b.getLsbD 91 && whole) 0 1 0 else .num (v < 0) v.natAbs 1 (-32)

/-! ## One step of a cell (R174) -/

/-- What is common to the cells of a step: the flow, the format, KC, the chunk and K. -/
structure StepEnv where
  flow : Flow
  fmt : Fmt
  kc : Nat
  chunk : Nat
  k : Nat

/-- Whether the step lies wholly beyond K. -/
def StepEnv.beyond (e : StepEnv) : Bool := e.k ≤ e.chunk * e.kc

/-- AUX as the B operand of a TYPE 100 word, with the scale that came with it where B is scaled (R177, R188, R240). -/
def auxSig (f : Fmt) (scale aux : Nat) : Sig :=
  ⟨aux, true, if f.bscl = 0 then scaleOne else FFmt.val .bf16 scale⟩

/-- A TYPE 100 word: the result and the block accumulator (R177). -/
def packedOp (e : StepEnv) (y : Nat) (w n : Sig) (block : BitVec 96) : Nat × BitVec 96 :=
  let terms := ((w.elems e.fmt.a e.kc e.chunk e.k).zip (n.elems e.fmt.b e.kc e.chunk e.k)).map
    fun (a, b) => (XVal.mul a b).1
  let add (x : XVal) : Nat := roundNE .f32 (XVal.add false (FFmt.val .f32 y) x).1
  if e.fmt.int then
    (intBits 32 ((y : Int) + terms.foldl (fun s t => s + fixedTerm t) 0 / 2 ^ 32), block)
  else if !e.fmt.scaled then (add (sumTerms false terms).1, block)
  else
    let block := blockAdd block terms
    let upto := (e.chunk + 1) * e.kc
    if upto % 32 = 0 ∨ e.k ≤ upto then
      (add (FFmt.val .f32 (scaleRound (blockSum block (upto % 32 == 0)) w.scale n.scale)), 0)
    else (y, block)

/-- A cell while its program runs, with what it has driven east and south. -/
structure CellRun where
  acc : Nat
  aux : Nat
  block : BitVec 96
  east : Option Nat
  south : Option Nat
  deriving DecidableEq, Repr

/-- One run of a word; `scale` is that of AUX. -/
def runCellWord (e : StepEnv) (w n : Sig) (dg kn kw kix scale : Nat) (x : CellRun) (u : CellWord) :
    CellRun :=
  let src (code : Nat) : Nat :=
    match code with
    | 0 => n.word
    | 1 => w.word
    | 2 => dg
    | 3 => x.acc
    | 4 => x.aux
    | 5 => cellConst u.type u.k
    | 6 => kn
    | _ => kw
  let y := if u.dst = 0 then x.acc else if u.dst = 1 then x.aux else n.word
  let (r, aux, block) :=
    if e.beyond then (y, x.aux, x.block)
    else if u.type = 4 then
      let b : Sig := if u.srcb = 4 then auxSig e.fmt scale x.aux else n
      let (r, blk) := packedOp e y w b x.block
      (r, x.aux, blk)
    else
      let hi := 2 ≤ u.type && e.k ≤ e.chunk * e.kc + 1
      let (r, a) := cellOp u hi y (src u.srca) (src u.srcb) x.aux kix
      (r, a, x.block)
  { acc := if u.dst = 0 then r else x.acc
    aux := if u.dst = 1 then r else aux
    block := block
    east := if u.pe then some r else x.east
    south := if u.ps then some r else x.south }

/-- CellStep: the cell after a step, and the last values of the words that drive east and south. -/
def cellStep (e : StepEnv) (prog : List CellWord) (c : Cell) (w n : Sig) (dg kn kw : Nat) :
    Cell × Option Nat × Option Nat :=
  let kix := c.kix.toNat
  let words := prog.flatMap fun u => List.replicate (u.rep + 1) u
  let x := words.foldl (runCellWord e w n dg kn kw kix c.scale.toNat) ⟨c.acc.toNat, c.aux.toNat, c.block, none, none⟩
  (⟨BitVec.ofNat 32 x.acc, BitVec.ofNat 32 x.aux, c.scale, x.block, c.kix + 1, BitVec.ofNat 32 n.word,
      BitVec.ofNat 32 w.word, BitVec.ofNat 32 dg, BitVec.ofNat 32 kn, BitVec.ofNat 32 kw⟩, x.east, x.south)

/-! ## The identities (R178) -/

/-- The word that fixes a row's identity: the first with DST = ACC. -/
def accWord (p : List CellWord) : Option CellWord := p.find? fun w => w.dst == 0

/-- The column of R178's table: FP32, INT32, BF16 pair, INT16 pair. -/
def identColumn (f : Fmt) (type : Nat) : Nat :=
  match type with
  | 4 => if f.int then 1 else 0
  | t => match t with
    | 0 => 0
    | 2 => 2
    | 3 => 3
    | _ => 1

/-- The identity of ⊕ in a column. -/
def identOf (oplus col : Nat) : Nat :=
  let pick (a b c d : Nat) : Nat := [a, b, c, d].getD col 0
  match oplus with
  | 0 => pick 0x80000000 0 0x80008000 0
  | 1 | 5 => pick 0x7F800000 0x7FFFFFFF 0x7F807F80 0x7FFF7FFF
  | 2 => pick 0xFF800000 0x80000000 0xFF80FF80 0x80008000
  | 4 => 0xFFFFFFFF
  | _ => 0

/-- The identity of a row. -/
def rowIdent (f : Fmt) (p : List CellWord) : Nat :=
  match accWord p with
  | some w => identOf w.oplus (identColumn f w.type)
  | none => 0

/-! ## A step of the array (R179 to R181) -/

/-- What enters a cell from the north: the value, the key, and DG. -/
structure NorthIn where
  n : Option Sig
  kn : Nat
  dg : Nat
  deriving DecidableEq, Repr

/-- One row of a step: its program, the west feed with its key, its cells. -/
structure RowIn where
  prog : List CellWord
  west : Sig
  kw : Nat
  cells : List Cell
  deriving DecidableEq, Repr

/-- The cells of a row from west to east: each cell after the step and what enters the cell to its south. -/
def rowStep (e : StepEnv) (r : RowIn) (ident : Nat) :
    Sig → List (Cell × NorthIn) → List (Cell × NorthIn)
  | _, [] => []
  | w, (c, x) :: rest =>
    let n := x.n.getD (idleSig ident)
    let (c', east, south) := cellStep e r.prog c w n x.dg x.kn r.kw
    let wave := e.flow == .wavefront
    let through (own : Sig) (keep : Bool) (v : Nat) : Sig := if keep then own else ⟨v, true, scaleOne⟩
    let w' := match east with
      | none => idleSig ident
      | some v => through w (!wave) v
    let s' : NorthIn :=
      ⟨south.map fun v => through n (e.flow == .os) v, x.kn, if wave then w.word else 0⟩
    (c', s') :: rowStep e r ident w' rest

/-- The rows from north to south, and what leaves the last of them. -/
def gridStep (e : StepEnv) : List RowIn → List NorthIn → List (List Cell) × List NorthIn
  | [], north => ([], north)
  | r :: rest, north =>
    let out := rowStep e r (rowIdent e.fmt r.prog) r.west (r.cells.zip north)
    let (cells, south) := gridStep e rest (out.map Prod.snd)
    (out.map Prod.fst :: cells, south)

/-- A cell in the pass flow: the ACC of the cell to its north, or the north feed, moves into it, and then its
program runs once with every latch that nothing drives at its identity (R174, R179). That the move comes before
the program is the model's choice (log entry 105). -/
def passCell (e : StepEnv) (r : RowIn) (c : Cell) (moved : Nat) (n : Option Sig) : Cell :=
  let idle := idleSig (rowIdent e.fmt r.prog)
  (cellStep e r.prog { c with acc := BitVec.ofNat 32 moved } idle (n.getD idle) 0 0 0).1

/-- A step of the pass flow: the rows from north to south, and the ACC that leaves the last of them (R179). -/
def passStep (e : StepEnv) : List RowIn → List Nat → List (Option Sig) → List (List Cell) × List Nat
  | [], moved, _ => ([], moved)
  | r :: rest, moved, n =>
    let (cells, south) := passStep e rest (r.cells.map fun c => c.acc.toNat) (n.map fun _ => none)
    ((r.cells.zip (moved.zip n)).map (fun (c, v, x) => passCell e r c v x) :: cells, south)

end Sys2Proof.Machine
end

