-- ==== Sys2Proof/Machine/Matrix.lean ====
section
/-!
DEFINITION. The matrix unit: routine words and the vendor routines (R185 to R193), pipes (R188, R196), and the
commands MCALL, CELLLD, FLOWSET and XWIN as they run (R366 to R371).
-/

namespace Sys2Proof.Machine

/-! ## Routine words (R186, R189) -/

/-- The array actions; `south` and `clear` are what slots 8 and 62 write (R193). -/
inductive Arr
  | none | step | init | drain | drainx | preload | south | clear
  deriving DecidableEq, Repr

/-- A routine word. `tgt` is a place counted from the routine's entry. -/
structure RWord where
  seq : Nat
  rc : Nat
  tgt : Int
  setrc : Nat
  rcs : Nat
  imm : Nat
  pipew : Nat
  aw : Nat
  pipen : Nat
  an : Nat
  arr : Arr
  dst : Nat
  accm : Nat
  deriving DecidableEq, Repr

/-- An array action by its code. -/
def arrOf (code : Nat) : Arr :=
  match code with
  | 1 => .step
  | 2 => .init
  | 3 => .drain
  | 4 => .drainx
  | 5 => .preload
  | _ => .none

/-- A stored word of a routine that begins at `entry`. -/
def rword (entry : Nat) (w : BitVec 128) : RWord :=
  let x := w.toNat
  ⟨nbits x 125 3, nbits x 123 2, (nbits x 111 12 : Int) - entry, nbits x 108 3, nbits x 106 2, nbits x 90 16,
    nbits x 87 3, nbits x 84 3, nbits x 81 3, nbits x 78 3, arrOf (nbits x 75 3), nbits x 72 3, nbits x 70 2⟩

/-- A word that does nothing and goes on. -/
def RWord.plain : RWord := ⟨0, 0, 0, 0, 0, 0, 0, 0, 0, 0, .none, 0, 0⟩

/-- INIT, with rc0 set to the number of chunks. -/
def wInit : RWord := { RWord.plain with arr := .init, setrc := 1 }

/-- A STEP with its pipes on m0 and m2, repeated by rc0. -/
def wStep (at_ pipew pipen : Nat) : RWord :=
  { RWord.plain with seq := 1, tgt := at_, arr := .step, pipew := pipew, pipen := pipen, an := 2 }

/-- A drain to m6 under the MCALL's accumulate mode. -/
def wDrain (arr : Arr) (seq : Nat) : RWord := { RWord.plain with arr := arr, seq := seq, dst := 6, accm := 2 }

/-- The vendor routines (R193); none for a slot that it does not list, and for slot 63. -/
def vendorRoutine (slot : Nat) : Option (List RWord) :=
  let gemm (w n : Nat) : Option (List RWord) := some [wInit, wStep 1 w n, wDrain .drain 3]
  match slot with
  | 0 => gemm 1 1
  | 1 => gemm 2 1
  | 2 => gemm 3 2
  | 3 => gemm 4 2
  | 4 | 5 => gemm 2 2
  | 6 => some [wInit, wStep 1 2 2, wDrain .drain 0, { RWord.plain with arr := .drainx, seq := 3, dst := 7 }]
  | 7 => some [wInit, { wStep 1 2 2 with seq := 0 }, wDrain .drain 3]
  | 8 => some [wInit, { RWord.plain with arr := .preload, pipen := 1, an := 2 },
      { wStep 2 2 0 with an := 0 }, wDrain .south 3]
  | 62 => some [{ wDrain .clear 3 with accm := 0 }]
  | _ => none

/-- The words of a loaded routine. -/
def Core.loadedWords (k : Core) (r : RoutineSlot) : List RWord :=
  (List.range r.len).map fun i => rword r.entry (tget 0 k.array.store (r.entry + i))

/-- The routine of an MCALL's slot; none where R185 refuses it. Slot 63 has no words of its own. -/
def Core.routineOf (k : Core) (slot lslot : Nat) : Option (List RWord) :=
  if slot = 63 then some []
  else if slot < 64 then vendorRoutine slot
  else match tget none k.array.slots slot with
    | some r => if r.lslot = lslot then some (k.loadedWords r) else none
    | none => none

/-- The word at a place of a routine: a loaded routine that runs past its own words finds what the store
holds there, and a jump of such a word goes to its TGT (R187); past the store there is none. -/
def Core.wordAt (k : Core) (slot : Nat) (ix : Int) : Option RWord :=
  if slot < 64 then if 0 ≤ ix then ((vendorRoutine slot).getD [])[ix.toNat]? else none
  else match tget none k.array.slots slot with
    | some r =>
      let a := r.entry + ix
      if 0 ≤ a ∧ a < 4096 then some (rword r.entry (tget 0 k.array.store a.toNat)) else none
    | none => none

/-- The micro-address of a place, as MUPC reports it; a vendor routine's lies in 0 to 1,023 (R185). -/
def Core.microAddr (k : Core) (slot : Nat) (ix : Int) : Nat :=
  if slot < 64 then (((Config.vendorEntry slot).toNat + ix) % 1024).toNat
  else match tget none k.array.slots slot with
    | some r => ((r.entry + ix) % 4096).toNat
    | none => 0

/-! ## The checks at the start (R183, R185, R366, R368) -/

/-- Whether a base keeps its reserved bits 0, by the kind of the pipe. -/
def baseOk (kind v : Nat) : Bool :=
  match kind with
  | 1 => v < 2 ^ 56
  | 2 => v < 2 ^ 22
  | 3 => v < 2 ^ 16
  | 4 => v == 0
  | _ => true

/-- Whether a word's pipe keeps R368: scratchpad and tile store through a pair declared so. -/
def Cmd.pipeOk (m : Cmd) (kind pair : Nat) : Bool :=
  let declared := if pair = 0 then nbits (m.par 4) 22 3 else nbits (m.par 4) 25 3
  ((kind != 2 && kind != 3) || (pair ≤ 2 && declared == kind)) && (2 < pair || baseOk kind (m.par pair))

/-- Sub-cause 16, without a word on formats. -/
def Cmd.paramsOk (m : Cmd) (ws : List RWord) : Bool :=
  let wk := nbits (m.par 4) 22 3
  let nk := nbits (m.par 4) 25 3
  wk ≤ 4 && nk ≤ 4 && m.par 6 < 2 ^ 16 && m.par 7 < 2 ^ 16 && baseOk wk (m.par 0) && baseOk nk (m.par 2)
    && ws.all fun w => m.pipeOk w.pipew w.aw && m.pipeOk w.pipen w.an

/-- K as a number. -/
def Cmd.depth (m : Cmd) : Nat := (m.args.getD 2 0).toNat

/-- M, N and K (R183). -/
def Cmd.sizesOk (m : Cmd) : Bool :=
  let total := (m.args.getD 0 0).toNat
  0 < total && total ≤ (if m.pod then 512 else 128) && 0 < m.cols && m.cols ≤ 256 && 0 < m.depth

/-- The refusals 14, 13 and 16, in R368's order. -/
def State.mcallRefusal (s : State) (m : Cmd) : Option Nat :=
  match s.core.routineOf m.slot.toNat s.ctx.bind.lslot with
  | none => some 14
  | some ws => if !m.sizesOk then some 13 else if !m.paramsOk ws then some 16 else none

/-! ## A routine that is running -/

/-- The state, the command with its progress, the cells of the rectangle that it uses, and what the words of this
event did to every cell. -/
structure MUnit where
  s : State
  m : Cmd
  grid : List (List Cell)
  /-- INIT has cleared the block accumulator of every cell. -/
  cleared : Bool

/-- The programs of the rows that a routine uses; no word where no word has END. -/
def MUnit.progs (u : MUnit) : List (List CellWord) :=
  (List.range u.m.rows).map fun i => (cellProgram (tget [] u.s.core.array.progs i)).getD []

/-- The format entry in use. -/
def MUnit.fmt (u : MUnit) : Fmt := fmtOf u.m.routine.fmt

/-- The largest program length. -/
def MUnit.lp (u : MUnit) : Nat := (u.progs.map progLen).foldl max 0

/-- Whether some word of the rows has a type. -/
def MUnit.hasType (u : MUnit) (p : Nat → Bool) : Bool := u.progs.any fun r => r.any fun w => p w.type

/-- KC, and the bits of an element of the west and of the north operand. The specification gives one KC to a routine and
does not say which where the programs of its rows mix types: TYPE 100 goes before the pair types, and those before the
32-bit types (DESIGN CHOICE, log entry 120). -/
def MUnit.kc (u : MUnit) : Nat :=
  if u.hasType (· == 4) then fmtKc u.fmt.a else if u.hasType (2 ≤ ·) then 2 else 1

def MUnit.elemBits (u : MUnit) (north : Bool) : Nat :=
  if u.hasType (· == 4) then fmtBits (if north then u.fmt.b else u.fmt.a)
  else if u.hasType (2 ≤ ·) then 16 else 32

/-- The first operand row of the m0 pair (R183). -/
def Cmd.first (m : Cmd) (pair : Nat) : Nat := if m.pod ∧ pair = 0 then 128 * (m.core % 4) else 0

/-! ## Pipes (R188, R196) -/

/-- The tile-store row and column of a destination, and its byte address. -/
def tileAt (r c : Nat) : Nat := 1024 * r + 4 * c

/-- Bytes of the tile store: beyond its end the specification gives none. -/
def State.tileRead (s : State) (a : Int) (n place : Nat) : List Byte ⊕ Halted :=
  if (List.range n).any fun i => s.core.badTile.contains ((a + i).toNat / 4) then .inr (.fail .uncorrectable)
  else .inl ((List.range n).map fun (i : Nat) =>
    let x := a + (i : Int)
    if 0 ≤ x ∧ x < 262144 then memRead s.core.tile x.toNat else BitVec.setWidth 8 (s.freeWord (place + i)))

/-- A write of words to the tile store, which clears the errors of the words it replaces. -/
def State.tileWrite (s : State) (r c : Nat) (ws : List Word32) : State :=
  let a := tileAt r c
  s.modCore fun k =>
    { k with
      tile := writeBytes k.tile a (ws.flatMap fun w => natToBytes 4 w.toNat)
      badTile := k.badTile.filter fun x => !(a / 4 ≤ x && x < a / 4 + ws.length) }

/-- Bytes through a pipe, at a byte offset from its base. -/
def State.pipeRead (s : State) (kind base : Nat) (off : Int) (n place : Nat) : List Byte ⊕ Halted :=
  if n = 0 then .inl []
  else
    let addr : Word64 := BitVec.ofNat 64 base + BitVec.ofInt 64 off
    match kind with
    | 1 => s.globRead place (pagesOf addr n)
    | 2 => s.spadRead addr n
    | 3 => s.tileRead ((tileAt (nbits base 8 8) (nbits base 0 8) : Nat) + off) n place
    | _ => .inl []

/-- The indices of a number in mixed radix, the first least significant. -/
def digits : Nat → List Nat → List Nat
  | _, [] => []
  | x, c :: cs => x % c :: digits (x / c) cs

/-- The address of element (m, k) of the unfolded matrix (R196). -/
def Nest.addr (n : Nest) (m k : Nat) : Word64 :=
  let ds := digits k (n.counts.take n.klev) ++ digits m (n.counts.drop n.klev)
  (ds.zip n.strides).foldl (fun a (d, st) => a + BitVec.ofInt 64 ((d : Int) * st.toInt)) (n.base.setWidth 64)

/-- An entry of `n` bytes through the enlarger; an address outside the context's scratchpad space is under R192
(R196). -/
def State.nestEntry (s : State) (e : Nest) (m k n : Nat) : List Byte ⊕ Halted :=
  match s.spadRead (e.addr m k) n with
  | .inr (.fault (.perm 3) a) => .inr (.fault .nest a)
  | r => r

/-- Elements through the enlarger, packed densely. The nest gives an element's byte address; one of less than a byte is
taken from the low bits of that byte (DESIGN CHOICE, log entry 121). -/
def State.nestRead (s : State) (n : Nest) (row bitsPer : Nat) : List Nat → List Nat ⊕ Halted
  | [] => .inl []
  | k :: ks =>
    match s.nestEntry n row k ((bitsPer + 7) / 8) with
    | .inr h => .inr h
    | .inl data =>
      match s.nestRead n row bitsPer ks with
      | .inr h => .inr h
      | .inl rest => .inl (bytesToNat data % 2 ^ bitsPer :: rest)

/-- The elements `lo` to `lo + n − 1` of an operand row through a pipe, as a number, the first lowest. -/
def MUnit.elements (u : MUnit) (kind pair row bitsPer lo n : Nat) : Nat ⊕ Halted :=
  let row := u.m.first pair + row
  if kind = 4 then
    match u.s.nestRead u.s.ctx.nest row bitsPer ((List.range n).map (lo + ·)) with
    | .inr h => .inr h
    | .inl xs => .inl (packNat bitsPer xs)
  else
    let from_ := lo * bitsPer
    let upto := from_ + n * bitsPer
    let off := row * nbits (u.m.par (pair + 1)) 0 24 + from_ / 8
    match u.s.pipeRead kind (u.m.par pair) off ((upto + 7) / 8 - from_ / 8) ((u.m.routine.kdone * 512 + row) * 64) with
    | .inr h => .inr h
    | .inl data => .inl (bytesToNat data / 2 ^ (from_ % 8) % 2 ^ (n * bitsPer))

/-- The scales of `n` blocks of an operand row from a block on, in the pipe's own space; none where the side has no
scale. -/
def MUnit.scaleBytes (u : MUnit) (north : Bool) (kind pair row block n : Nat) : List Byte ⊕ Halted :=
  let code := if north then u.fmt.bscl else u.fmt.ascl
  if code = 0 ∨ !u.hasType (· == 4) then .inl []
  else
    let size := if code = 1 then 2 else 1
    let p := u.m.par (pair + 1)
    let off : Int := intVal true 24 (nbits p 40 24)
      + (((u.m.first pair + row) * nbits p 24 16 + block * size : Nat) : Int)
    u.s.pipeRead kind (u.m.par pair) off (n * size) ((u.m.routine.kdone * 512 + row) * 64 + 32)

/-- A scale as the BF16 that it widens to, by its code (R240). -/
def scaleBits (code : Nat) (data : List Byte) : BitVec 16 :=
  BitVec.ofNat 16 (match code with
    | 0 => 0x3F80
    | 1 => bytesToNat (data.take 2)
    | _ => e8m0 (bytesToNat (data.take 1)))

/-- A scale as a value. -/
def scaleVal (code : Nat) (data : List Byte) : XVal :=
  let x := bytesToNat data
  match code with
  | 0 => scaleOne
  | 1 => FFmt.val .bf16 x
  | _ => FFmt.val .bf16 (e8m0 x)

/-- Whether a routine's feeds are entries of a value and a key: vendor slot 7's (R409), and those of a wavefront (R181),
whose layout the specification gives for slot 7 alone (log entry 42). -/
def MUnit.keyed (u : MUnit) : Bool := u.m.slot == 7 || u.s.core.array.flow == .wavefront

/-- What a row of an edge buffer holds: the chunk in 8 bytes (more for PRELOAD), then its scales. An entry of a value and
a key is R409's 8 bytes: entry e of a pipe lies e rows on, and through the enlarger it is element (e, 0) of the nest.
The partial sums that a live north pipe carries into a weight-stationary STEP are a chunk of KC elements of the B format
like any other (DESIGN CHOICE, log entry 122: R179 gives them no width or layout). -/
def MUnit.fetchRow (u : MUnit) (w : RWord) (north : Bool) (row : Nat) : List Byte ⊕ Halted :=
  let kind := if north then w.pipen else w.pipew
  let pair := if north then w.an else w.aw
  let wide := u.elemBits north
  if kind = 0 then .inl []
  else if w.arr = .preload then
    let n := u.m.rows * u.kc
    match u.elements kind pair row wide 0 n with
    | .inr h => .inr h
    | .inl x =>
      match u.scaleBytes north kind pair row 0 ((n + 31) / 32) with
      | .inr h => .inr h
      | .inl sc => .inl (natToBytes ((n * wide + 7) / 8) x ++ sc)
  else if u.keyed then
    let e := u.m.first pair + row
    if kind = 4 then u.s.nestEntry u.s.ctx.nest e 0 8
    else
      let off := e * nbits (u.m.par (pair + 1)) 0 24
      u.s.pipeRead kind (u.m.par pair) off 8 ((u.m.routine.kdone * 512 + row) * 64)
  else
    let lo := u.m.routine.kdone * u.kc
    if u.m.depth ≤ lo then .inl (natToBytes 8 0)
    else
      match u.elements kind pair row wide lo (min u.kc (u.m.depth - lo)) with
      | .inr h => .inr h
      | .inl x =>
        match u.scaleBytes north kind pair row (lo / 32) 1 with
        | .inr h => .inr h
        | .inl sc => .inl (natToBytes 8 x ++ sc)

/-- Fetching the rows not yet counted (R192): the buffer and what stopped it. -/
def MUnit.fetchRows (u : MUnit) (w : RWord) (north : Bool) : Nat → Nat → List (List Byte) →
    List (List Byte) × Option Halted
  | 0, _, acc => (acc, none)
  | n + 1, row, acc =>
    match u.fetchRow w north row with
    | .inr h => (acc, some h)
    | .inl data => MUnit.fetchRows u w north n (row + 1) (acc ++ [data])

/-- Changing the progress. -/
def MUnit.modP (u : MUnit) (f : Progress → Progress) : MUnit := { u with m := { u.m with routine := f u.m.routine } }

/-- How many rows and columns a word fetches: a north feed of entries begins with the corner. -/
def MUnit.counts (u : MUnit) (w : RWord) : Nat × Nat :=
  let cols := if w.arr = .step ∧ u.keyed then u.m.cols + 1 else u.m.cols
  (if w.pipew = 0 then 0 else u.m.rows, if w.pipen = 0 then 0 else cols)

/-- Both pipes deliver the word's whole chunk, or the progress says how far they have come. -/
def MUnit.fetch (u : MUnit) (w : RWord) : MUnit × Option Halted :=
  let (nr, nc) := u.counts w
  let p := u.m.routine
  let (west, h) := u.fetchRows w false (nr - p.wrow) p.wrow p.west
  let u := u.modP fun p => { p with west := west, wrow := west.length, pipe := if h.isSome then 1 else 0 }
  match h with
  | some h => (u, some h)
  | none =>
    let (north, h) := u.fetchRows w true (nc - p.ncol) p.ncol (p.north.take p.ncol)
    (u.modP fun p => { p with north := north, ncol := north.length, pipe := if h.isSome then 2 else 0 }, h)

/-! ## Array actions (R189) -/

/-- A chunk of an edge buffer as a latch receives it; an idle pipe drives zero. -/
def edgeSig (code : Nat) (data : List Byte) : Sig :=
  match data with
  | [] => ⟨0, true, scaleOne⟩
  | _ => ⟨fieldNat data 0 4, true, scaleVal code (data.drop 8)⟩

/-- The step's common part. -/
def MUnit.env (u : MUnit) : StepEnv :=
  ⟨u.s.core.array.flow, u.fmt, u.kc, u.m.routine.kdone, u.m.depth⟩

/-- One STEP: the chunk goes through the rows; what leaves the last row stays as the south edge. -/
def MUnit.stepCells (u : MUnit) : MUnit :=
  let e := u.env
  let p := u.m.routine
  let wave := e.flow == .wavefront
  let key (x : Nat) : Nat := if wave then x else 0
  let west (i : Nat) : Sig × Nat :=
    let d := p.west.getD i []
    if u.keyed then (⟨fieldNat d 0 4, true, scaleOne⟩, key (fieldNat d 4 4)) else (edgeSig u.fmt.ascl d, 0)
  let north : List NorthIn := (List.range u.m.cols).map fun j =>
    if u.keyed then
      let d := p.north.getD (j + 1) []
      ⟨some ⟨fieldNat d 0 4, true, scaleOne⟩, key (fieldNat d 4 4), key (fieldNat (p.north.getD j []) 0 4)⟩
    else ⟨some (edgeSig u.fmt.bscl (p.north.getD j [])), 0, 0⟩
  let rows : List RowIn := (u.progs.zip u.grid).zipIdx.map fun ((prog, cells), i) =>
    ⟨prog, (west i).1, (west i).2, cells⟩
  let word (x : NorthIn) : Nat := (x.n.map Sig.word).getD 0
  let (grid, south) :=
    if e.flow = .pass then passStep e rows (north.map word) (north.map NorthIn.n)
    else
      let (grid, south) := gridStep e rows north
      (grid, south.map word)
  { u with grid := grid }.modP fun p =>
    { p with kdone := p.kdone + 1, wrow := 0, ncol := 0, west := [], north := [], edge := south.map (BitVec.ofNat 32) }

/-- INIT: ACC of a masked cell is unpredictable in any case (R182); its block accumulator is cleared with those of
every cell. -/
def MUnit.initCells (u : MUnit) : MUnit :=
  let kbase := BitVec.ofNat 32 (nbits (u.m.par 4) 36 28)
  { u with cleared := true, grid := (u.progs.zip u.grid).map fun (p, cells) =>
      cells.map fun c =>
        { c with acc := BitVec.ofNat 32 (rowIdent u.fmt p), aux := 0, scale := 0x3F80, block := 0, kix := kbase } }

/-- PRELOAD: AUX of row i takes chunk i of each column, with the scale of the chunk's block. -/
def MUnit.preloadCells (u : MUnit) : MUnit :=
  let wide := u.elemBits true * u.kc
  let whole := (u.m.rows * wide + 7) / 8
  let code := u.fmt.bscl
  let p := u.m.routine
  { u with grid := u.grid.zipIdx.map fun ((cells, i) : List Cell × Nat) =>
      cells.zipIdx.map fun ((c, j) : Cell × Nat) =>
        let d := p.north.getD j []
        { c with
          aux := BitVec.ofNat 32 (nbits (bytesToNat (d.take whole)) (wide * i) wide)
          scale := scaleBits code ((d.drop whole).drop (i * u.kc / 32 * (if code = 1 then 2 else 1))) } }.modP
    fun p => { p with ncol := 0, north := [], wrow := 0, west := [] }

/-- Whether a word's drain combines (R189). -/
def Cmd.combines (m : Cmd) (w : RWord) : Bool := w.accm == 1 || (w.accm == 2 && m.accm)

/-- ts ⊕ ACC by a row's first word into ACC. -/
def combineWith (f : Fmt) (p : List CellWord) (old new : Nat) : Nat :=
  match accWord p with
  | none => new
  | some w =>
    let type := if w.type = 4 then (if f.int then 1 else 0) else w.type
    (cellOp { w with type := type, otimes := 5, idx := false } false old new new 0 0).1

/-- Whether a row's drain can combine. -/
def canCombine (p : List CellWord) : Bool :=
  match accWord p with
  | some w => w.oplus != 6 && w.oplus != 5
  | none => false

/-- The tile-store rows that a drain writes. -/
def Cmd.drainRows (m : Cmd) (w : RWord) : Nat := if w.arr = .south then 1 else m.rows

/-- Whether a word writes the tile store. -/
def RWord.drains (w : RWord) : Bool :=
  w.arr == .drain || w.arr == .drainx || w.arr == .south || w.arr == .clear

/-- The bytes of one operand row that a word's pipe reads, from the row's first. -/
def MUnit.rowBytes (u : MUnit) (w : RWord) (north : Bool) : Nat :=
  if w.arr = .preload then (u.m.rows * u.kc * u.elemBits north + 7) / 8
  else if u.keyed then 8
  else (u.m.depth * u.elemBits north + 7) / 8

/-- Whether what a tile-store pipe reads stays inside the tile store (R129): the rows that the MCALL declares (R367),
the columns of a row from its first, and the last row at the pipe's stride. -/
def MUnit.tileOk (u : MUnit) (w : RWord) (north : Bool) : Bool :=
  let (kind, pair) := if north then (w.pipen, w.an) else (w.pipew, w.aw)
  let declared := if north then u.m.cols else u.m.rows
  let rows := if north then (u.counts w).2 else (u.counts w).1
  let (row, col) := (nbits (u.m.par pair) 8 8, nbits (u.m.par pair) 0 8)
  let stride := nbits (u.m.par (pair + 1)) 0 24
  let n := u.rowBytes w north
  kind != 3 || (row + u.m.first pair + declared ≤ 256 && 4 * col + n ≤ 1024
    && tileAt row col + (u.m.first pair + rows - 1) * stride + n ≤ 262144)

/-- The refusals of a word before it changes anything: 27, 12, 26 (R368). -/
def MUnit.wordRefusal (u : MUnit) (w : RWord) : Option Nat :=
  let m := u.m
  let row0 := nbits (m.par w.dst) 8 8
  let col0 := nbits (m.par w.dst) 0 8
  let a := u.s.core.array
  if (w.drains && (256 < row0 + m.drainRows w || 256 < col0 + m.cols))
      || !u.tileOk w false || !u.tileOk w true then some 27
  else if w.arr = .step ∧ m.routine.kdone = 0
      ∧ ((a.flow = .wavefront ∧ (a.sr < u.lp ∨ a.sc < u.lp)) ∨ (a.flow = .ws ∧ a.sr < u.lp)) then some 12
  else if w.drains && m.combines w && !(u.progs.all canCombine) then some 26
  else none

/-- The words that a drain writes in a row. The south edge is what the last step drove (R179, R193; log entry 42). -/
def MUnit.drainRow (u : MUnit) (w : RWord) (i : Nat) (old : List Byte) : List Word32 :=
  let p := u.progs.getD i []
  let cells := u.grid.getD i []
  match w.arr with
  | .drainx => cells.map Cell.aux
  | .clear => cells.map fun _ => 0
  | .south => (List.range u.m.cols).map fun j => u.m.routine.edge.getD j 0
  | _ =>
    cells.zipIdx.map fun (c, j) =>
      if u.m.combines w then BitVec.ofNat 32 (combineWith u.fmt p (fieldNat old (4 * j) 4) c.acc.toNat) else c.acc

/-- A drain, row by row. -/
def MUnit.drain (u : MUnit) (w : RWord) : List Nat → MUnit × Option Halted
  | [] => (u, none)
  | i :: is =>
    let row := nbits (u.m.par w.dst) 8 8 + i
    let col := nbits (u.m.par w.dst) 0 8
    let old := if u.m.combines w then u.s.tileRead (tileAt row col : Nat) (4 * u.m.cols) 0 else .inl []
    match old with
    | .inr h => (u, some h)
    | .inl old => MUnit.drain { u with s := u.s.tileWrite row col (u.drainRow w i old) } w is

/-- The array action of a word. -/
def MUnit.act (u : MUnit) (w : RWord) : MUnit × Option Halted :=
  match w.arr with
  | .none => (u, none)
  | .step => (u.stepCells, none)
  | .init => (u.initCells, none)
  | .preload => (u.preloadCells, none)
  | _ => u.drain w (List.range (u.m.drainRows w))

/-! ## The routine (R187) -/

/-- SETRC. -/
def MUnit.setRc (u : MUnit) (w : RWord) : MUnit :=
  match w.setrc with
  | 1 => u.modP fun p =>
      { p with rc := p.rc.set w.rcs (BitVec.ofNat 32 ((u.m.depth + u.kc - 1) / u.kc)) }
  | 2 => u.modP fun p => { p with rc := p.rc.set w.rcs (BitVec.ofNat 32 w.imm) }
  | _ => u

/-- Going on at a place of the routine. -/
def MUnit.goto (u : MUnit) (ix : Int) : MUnit :=
  u.modP fun p => { p with ix := ix, upc := u.s.core.microAddr u.m.slot.toNat ix }

/-- SEQ: the place of the next word; none at END. -/
def MUnit.sequence (u : MUnit) (w : RWord) : Option MUnit :=
  let p := u.m.routine
  let rc := p.rc.getD w.rc 0
  match w.seq with
  | 1 =>
    if rc.toNat ≤ 1 then some ((u.modP fun p => { p with rc := p.rc.set w.rc 0 }).goto (p.ix + 1))
    else some ((u.modP fun p => { p with rc := p.rc.set w.rc (rc - 1) }).goto w.tgt)
  | 2 => some (u.goto w.tgt)
  | 3 => none
  | 4 => some (u.goto (if rc = 0 then w.tgt else p.ix + 1))
  | _ => some (u.goto (p.ix + 1))

/-- What a word comes to: the next word follows, the routine has ended, or it is stopped. -/
inductive Turn
  | next (u : MUnit)
  | ended (u : MUnit)
  | stuck (u : MUnit)
  | stopped (u : MUnit) (h : Halted)

/-- One routine word. -/
def MUnit.word (u : MUnit) : Turn :=
  match u.s.core.wordAt u.m.slot.toNat u.m.routine.ix with
  | none => .stuck u
  | some w =>
    match u.wordRefusal w with
    | some n => .stopped u (.fault (.own n) 0)
    | none =>
      match (u.setRc w).fetch w with
      | (u, some h) => .stopped u h
      | (u, none) =>
        match u.act w with
        | (u, some h) => .stopped u h
        | (u, none) =>
          let u := if w.arr = .step ∨ w.arr = .preload then u
            else u.modP fun p => { p with wrow := 0, ncol := 0, west := [] }
          match u.sequence w with
          | some u => .next u
          | none => .ended u

/-- Words one after another, at most so many in one event. -/
def MUnit.runWords : Nat → MUnit → Turn
  | 0, u => .next u
  | n + 1, u =>
    match u.word with
    | .next u => MUnit.runWords n u
    | t => t

/-- The words that one event runs. -/
def wordQuantum : Nat := 64

/-! ## Cells in and out of the array -/

/-- The rectangle of cells that a routine uses. -/
def Core.grid (k : Core) (rows cols : Nat) : List (List Cell) :=
  (List.range rows).map fun i =>
    let row := k.array.cells.filter fun e => e.1 / 256 == i
    (List.range cols).map fun j => tget Cell.reset row (256 * i + j)

/-- The cells after the words: those of the rectangle as they are; of the others ACC and AUX are
unpredictable (R182), and INIT has cleared the block accumulator (R189). -/
def MUnit.cells (u : MUnit) : Tab Cell :=
  let kix := ((u.grid.getD 0 []).getD 0 Cell.reset).kix
  (List.range 128).flatMap fun i =>
    let row := u.s.core.array.cells.filter fun e => e.1 / 256 == i
    let mine := u.grid.getD i []
    (List.range 256).filterMap fun j =>
      let a := 256 * i + j
      let c := match mine[j]? with
        | some c => c
        | none => { tget Cell.reset row a with
            acc := u.s.freeWord (2 ^ 42 + 2 * a), aux := u.s.freeWord (2 ^ 42 + 2 * a + 1), kix := kix
            block := if u.cleared then 0 else (tget Cell.reset row a).block }
      if c = Cell.reset then none else some (a, c)

/-- The cells go back to the array. -/
def MUnit.store (u : MUnit) : State :=
  let cells := u.cells
  u.s.modCore fun k => { k with array := { k.array with cells := cells } }

/-! ## MCALL (R187, R366) -/

/-- The program and the flow that slots 0 to 3 and 8 leave in the array (R193). -/
def SysArray.vendorSetup (a : SysArray) (slot : Nat) : SysArray :=
  let fill (w : Word32) (f : Flow) : SysArray :=
    { a with progs := (List.range 128).map fun i => (i, w :: List.replicate 15 0), flow := f, sr := 1, sc := 1 }
  if slot ≤ 3 then fill 0x00826800 .os else if slot = 8 then fill 0x00CA6800 .ws else a

/-- Whether a scaled format stands at a tile-store or an enlarger pipe (R368). -/
def scaledMisplaced (f : Fmt) (ws : List RWord) : Bool :=
  ws.any fun w => (f.ascl != 0 && 3 ≤ w.pipew) || (f.bscl != 0 && 3 ≤ w.pipen)

/-- The start of a routine: the format entry is read and judged, after the parameters' own refusal of it (R195, R368), the
vendor's program and flow are set, KIX of every cell is KBASE. Slot 62, which multiplies nothing, runs whatever the entry
holds, as R402 to R404 have it (DEDUCED, log entry 42). -/
def MUnit.start (u : MUnit) : MUnit × Option Halted :=
  let slot := u.m.slot.toNat
  let u := u.goto 0
  let ready (fmt : Word64) (u : MUnit) : MUnit :=
    let kbase := BitVec.ofNat 32 (nbits (u.m.par 4) 36 28)
    let s := u.s.modCore fun k => { k with array := k.array.vendorSetup slot }
    { u with s := s, grid := u.grid.map fun (r : List Cell) => r.map fun (c : Cell) => { c with kix := kbase } }.modP
      fun p => { p with started := true, fmt := fmt }
  let a : Word64 := u.s.ctx.ctrl.fmtb + BitVec.ofNat 64 (8 * u.m.fmtIx)
  match u.s.globRead 0 (pagesOf a 8) with
  | .inr h => (u, some h)
  | .inl data =>
    let e : Word64 := BitVec.ofNat 64 (bytesToNat data)
    if slot = 62 then (ready e u, none)
    else if scaledMisplaced (fmtOf e) ((u.s.core.routineOf slot u.s.ctx.bind.lslot).getD []) then
      (u, some (.fault (.own 16) 0))
    else if !fmtOk e then (u, some (.fault (.own 15) 0))
    else (ready e u, none)

/-- The tile-store destinations that the routine drains to become unpredictable after an uncorrectable error
(R188). -/
def State.spoilDrain (s : State) (m : Cmd) : State :=
  let words := (s.core.routineOf m.slot.toNat s.ctx.bind.lslot).getD []
  let rect (s : State) (w : RWord) : State :=
    let i := w.dst
    let row := nbits (m.par i) 8 8
    let col := nbits (m.par i) 0 8
    (List.range (m.drainRows w)).foldl
      (fun s r =>
        if row + r < 256 then
          s.tileWrite (row + r) col ((List.range (min m.cols (256 - col))).map fun j =>
            s.freeWord (2 ^ 43 + (i * 256 + r) * 256 + j))
        else s) s
  (words.filter RWord.drains).foldl rect s

/-- The cycles of a routine by R180's formula, as MXBUSY counts them (DESIGN CHOICE, log entry 41). -/
def MUnit.busy (u : MUnit) : Nat :=
  let a := u.s.core.array
  if u.m.routine.kdone = 0 then 0 else u.m.routine.kdone * u.lp + a.sr * 127 + a.sc * 255

/-- MXBUSY and MXSTEP. -/
def State.countMatrix (s : State) (busy steps : Nat) : State :=
  s.modCore fun k => { k with counters := { k.counters with
    mxbusy := k.counters.mxbusy + BitVec.ofNat 64 busy, mxstep := k.counters.mxstep + BitVec.ofNat 64 steps } }

/-- The words of a routine, from its progress. -/
def MUnit.run (u : MUnit) : Ran :=
  let before := u.m.routine.kdone
  let out (u : MUnit) : State := u.store.countMatrix 0 (u.m.routine.kdone - before)
  match u.runWords wordQuantum with
  | .next u => .more (out u) u.m
  | .stuck u => .more (out u) u.m
  | .ended u => .done ((out u).countMatrix u.busy 0)
  | .stopped u h =>
    let s := out u
    match h with
    | .fail _ => .halted (s.spoilDrain u.m) u.m h
    | .fault _ _ | .wait => .halted s u.m h

/-! ## Routine load (R190) -/

/-- The refusals 22 to 25 over the words of an image, in their order; TGT is checked in every word, whether or not it
jumps, as AW and AN are (R190). -/
def imageRefusal (entry len : Nat) (ws : List (BitVec 128)) : Option Nat :=
  let f (w : BitVec 128) (lo n : Nat) : Nat := nbits w.toNat lo n
  let dirty (w : BitVec 128) : Bool :=
    5 ≤ f w 125 3 || 3 ≤ f w 108 3 || 5 ≤ f w 87 3 || 5 ≤ f w 81 3 || 6 ≤ f w 75 3 || f w 70 2 == 3
      || f w 0 70 != 0 || (f w 75 3 == 4 && f w 70 2 != 0)
  let inside (w : BitVec 128) : Bool := entry ≤ f w 111 12 && f w 111 12 < entry + len
  if ws.any dirty then some 22
  else if ws.any fun w => f w 84 3 % 2 == 1 || f w 78 3 % 2 == 1 then some 23
  else if ws.any fun w => !inside w then some 24
  else if ws.any fun w => f w 87 3 == 4 && f w 81 3 == 4 then some 25
  else none

/-- Whether two ranges of micro-addresses meet. -/
def RoutineSlot.meets (r : RoutineSlot) (entry len : Nat) : Bool := r.entry < entry + len && entry < r.entry + r.len

/-- Routine 63. A length of 0 breaks R190's limits, for which it names no sub-cause: 20, that of the range of
micro-addresses (DESIGN CHOICE, log entry 123). -/
def State.loadRoutine (s : State) (m : Cmd) : Ran :=
  let p := m.par 1
  let slot := nbits p 0 8
  let len := nbits p 16 12
  let entry := nbits p 32 12
  let lslot := s.ctx.bind.lslot
  let a := s.core.array
  let refuse (n : Nat) : Ran := .halted s m (.fault (.own n) 0)
  if m.par 0 % 16 ≠ 0 then refuse 16
  else if slot < 64 ∨ len = 0 ∨ 3072 < len ∨ entry < 1024 ∨ 4096 < entry + len then refuse 20
  else
    let meets (e : Nat × Option RoutineSlot) : Bool := (e.2.map fun r => r.meets entry len).getD false
    if a.slots.any fun e => meets e && (e.2.map fun r => r.lslot != lslot).getD false then refuse 21
    else match s.spadRead (BitVec.ofNat 64 (m.par 0)) (16 * len) with
      | .inr h => .halted s m h
      | .inl data =>
        let ws := (List.range len).map fun i => BitVec.ofNat 128 (fieldNat data (16 * i) 16)
        match imageRefusal entry len ws with
        | some n => refuse n
        | none =>
          .done (s.modCore fun k => { k with array := { k.array with
            slots := tset none (k.array.slots.filter fun e => !meets e) slot (some ⟨entry, len, lslot⟩)
            store := ws.zipIdx.foldl (fun t (w, i) => tset 0 t (entry + i) w) k.array.store } })

/-- An MCALL runs from where it stands. -/
def State.runMcall (s : State) (m : Cmd) : Ran :=
  let u : MUnit := ⟨s, m, s.core.grid m.rows m.cols, false⟩
  if m.routine.started then u.run
  else match s.mcallRefusal m with
    | some n => .halted s m (.fault (.own n) 0)
    | none =>
      if m.rows = 0 then .done s
      else match u.start with
        | (u, some h) => .halted u.s u.m h
        | (u, none) => if m.slot = 63 then s.loadRoutine m else u.run

/-! ## CELLLD, FLOWSET, XWIN (R173, R369 to R371) -/

/-- CELLLD. -/
def State.runCellld (s : State) (m : Cmd) : Ran :=
  let first := (m.args.getD 1 0).toNat
  let count := (m.args.getD 2 0).toNat
  if 127 < first ∨ 128 < first + count then .halted s m (.fault (.own 17) 0)
  else match s.spadRead (m.args.getD 0 0) 64 with
    | .inr h => .halted s m h
    | .inl data =>
      let ws := (List.range 16).map fun i => BitVec.ofNat 32 (fieldNat data (4 * i) 4)
      match progRefusal ws with
      | some n => .halted s m (.fault (.own n) 0)
      | none =>
        let rows := (List.range (if count = 0 then 128 - first else count)).map (first + ·)
        .done (s.modCore fun k => { k with array := { k.array with
          progs := rows.foldl (fun t i => tset [] t i ws) k.array.progs } })

/-- A flow by its code. -/
def flowOf (code : Nat) : Flow :=
  match code with
  | 0 => .os
  | 1 => .ws
  | 2 => .wavefront
  | _ => .pass

/-- FLOWSET. -/
def State.runFlowset (s : State) (m : Cmd) : Ran :=
  let w := m.args.getD 0 0
  if w &&& 0xFFFFFFFFFF0000FC ≠ 0 then .halted s m (.fault (.own 18) 0)
  else .done (s.modCore fun k => { k with array := { k.array with
    flow := flowOf (bits w 0 2), sr := bits w 8 8 + 1, sc := bits w 16 8 + 1 } })

/-- The limits of the nest block. -/
def nestOk (b : List Byte) : Bool :=
  let klev := fieldNat b 4 1
  let nlev := fieldNat b 5 1
  1 ≤ klev && klev ≤ 4 && klev ≤ nlev && nlev ≤ 5 && fieldNat b 6 2 == 0
    && (List.range nlev).all fun l => let c := fieldNat b (8 + 8 * l) 4; 1 ≤ c && c ≤ 65536

/-- XWIN. -/
def State.runXwin (s : State) (m : Cmd) : Ran :=
  if !nestOk m.block then .halted s m (.fault (.own 19) 0)
  else .done (s.modCtx fun c => { c with nest := nestOfBlock m.block })

end Sys2Proof.Machine
end

