-- ==== Sys2Proof/Machine/Transfer.lean ====
section
/-!
DEFINITION. The copy commands as they run (R372 to R377, R50, R232).
-/

namespace Sys2Proof.Machine

/-! ## Units (R231, R372) -/

/-- A step of a unit of a command: the state, the command, and what stops it. -/
abbrev UnitStep := State → Cmd → State × Cmd × Option Halted

/-- The units of a command from PROG, at most so many in one event; then its end. -/
def runUnits (total : Nat) (step : UnitStep) (fin : State → Cmd → Ran) : Nat → State → Cmd → Ran
  | 0, s, m => .more s m
  | n + 1, s, m =>
    if total ≤ m.prog then fin s m
    else match step s m with
      | (s, m, none) => runUnits total step fin n s { m with prog := m.prog + 1 }
      | (s, m, some h) => .halted s m h

/-- The units that one event runs. -/
def unitQuantum : Nat := 64

/-- The end of a command with a status record: the record is written. -/
def finWith (data : Cmd → List Byte) (s : State) (m : Cmd) : Ran :=
  match s.writeStat m (data m) with
  | (s, none) => .done s
  | (s, some h) => .halted s m h

/-- The end of a command without one. -/
def finPlain (s : State) (_ : Cmd) : Ran := .done s

/-- A count of the command, kept while it is suspended. -/
def Cmd.count (m : Cmd) (i : Nat) : Nat := m.counts.getD i 0

/-! ## TSLD and TSST (R373) -/

/-- The limits of the block. -/
def Cmd.tileFields (m : Cmd) : Bool :=
  m.headerOk && m.spare [(30, 2)] && m.f 16 4 % 4 == 0 && m.f 20 4 % 4 == 0
    && 1 ≤ m.f 26 2 && m.f 26 2 ≤ 256 && 1 ≤ m.f 28 2 && m.f 28 2 ≤ 256
    && m.f 24 1 + m.f 26 2 ≤ 256 && m.f 25 1 + m.f 28 2 ≤ 256

/-- A row of TSLD. -/
def tsldRow (s : State) (m : Cmd) : State × Cmd × Option Halted :=
  let cols := m.f 28 2
  match s.spadRead (BitVec.ofNat 64 (m.f 16 4 + m.prog * m.f 20 4)) (4 * cols) with
  | .inr h => (s, m, some h)
  | .inl data =>
    (s.tileWrite (m.f 24 1 + m.prog) (m.f 25 1)
      ((List.range cols).map fun j => BitVec.ofNat 32 (fieldNat data (4 * j) 4)), m, none)

/-- A row of TSST. -/
def tsstRow (s : State) (m : Cmd) : State × Cmd × Option Halted :=
  match s.tileRead (tileAt (m.f 24 1 + m.prog) (m.f 25 1) : Nat) (4 * m.f 28 2) 0 with
  | .inr h => (s, m, some h)
  | .inl data =>
    let a : Word64 := BitVec.ofNat 64 (m.f 16 4 + m.prog * m.f 20 4)
    match s.spadSpan a data.length with
    | .bad _ _ d => (s, m, some (.fault (.perm (d.toNat % 256)) a))
    | .ok _ => let (s, h) := s.ePieces (s.spadPieces a data); (s, m, h)

/-- TSLD or TSST: the whole span is judged first. -/
def State.runTile (s : State) (m : Cmd) (row : UnitStep) : Ran :=
  if !m.tileFields then .halted s m badField
  else
    let a : Word64 := BitVec.ofNat 64 (m.f 16 4)
    match s.spadSpan a ((m.f 26 2 - 1) * m.f 20 4 + 4 * m.f 28 2) with
    | .bad _ _ d => .halted s m (.fault (.perm (d.toNat % 256)) a)
    | .ok _ => runUnits (m.f 26 2) row finPlain unitQuantum s m

/-! ## XCOPY (R374) -/

/-- The limits of the block. -/
def Cmd.copyFields (m : Cmd) : Bool :=
  let esz := m.f 48 1
  m.headerOk && m.spare [(50, 14)] && anyField (m.f 16 8) && anyField (m.f 24 8)
    && 1 ≤ m.f 32 4 && m.f 32 4 ≤ 2 ^ 24 && (esz == 1 || esz == 2 || esz == 4 || esz == 8)
    && 1 ≤ m.f 36 4 && m.f 36 4 ≤ 2 ^ 24 && m.f 36 4 % esz == 0 && m.f 49 1 ≤ 1

/-- The byte of memory at an offset from an engine address: which memory, and where in it. -/
def State.byteHome (s : State) (x off : Nat) : Option (Nat × Nat) :=
  match locOf x with
  | .spad =>
    match s.spadTarget (locAddr x off) with
    | .ok t => some t
    | .bad _ _ _ => none
  | .peer =>
    match s.peerSpan x off 1 with
    | .inl (.here k) => some (k, x % 2 ^ 20 + off)
    | _ => none
  | .glob =>
    match s.translate (locAddr x off) .read with
    | .ok tgt modId pa _ => some (4096 + 256 * tgt.toNat + modId, pa)
    | _ => none

/-- Whether two local spans cannot meet. -/
def Cmd.spansApart (m : Cmd) : Bool :=
  let (rows, len, ss, ds, esz) := (m.f 32 4, m.f 36 4, m.f 40 4, m.f 44 4, m.f 48 1)
  let (a, b) := (m.f 16 8, m.f 24 8)
  let w := if m.f 49 1 = 0 then (rows - 1) * ds + len else (len / esz - 1) * ds + rows * esz
  locOf a == .spad && locOf b == .spad && (a + ((rows - 1) * ss + len) ≤ b || b + w ≤ a)

/-- Whether the destination byte at an offset is also a source byte. -/
def State.alsoSource (s : State) (m : Cmd) (off : Nat) : Bool :=
  !m.spansApart &&
    match s.byteHome (m.f 24 8) off with
    | none => false
    | some h => (List.range (m.f 32 4)).any fun i => (List.range (m.f 36 4)).any fun b =>
        s.byteHome (m.f 16 8) (i * m.f 40 4 + b) == some h

/-- Bytes copied to an offset of the destination: what is also a source byte becomes unpredictable. -/
def State.copyOut (s : State) (m : Cmd) (off : Nat) (data : List Byte) : State × Option Halted :=
  s.eWrite (m.f 24 8) off
    (data.zipIdx.map fun (b, i) =>
      if s.alsoSource m (off + i) then (s.freeWord (2 ^ 44 + m.prog * 2 ^ 24 + i)).setWidth 8 else b)
    (2 ^ 30 + m.prog * 2 ^ 24)

/-- The elements of a row, transposed, one after another. -/
def State.copyElems (s : State) (m : Cmd) (esz : Nat) : Nat → Nat → List Byte → State × Option Halted
  | 0, _, _ => (s, none)
  | n + 1, e, data =>
    match s.copyOut m (e * m.f 44 4 + m.prog * esz) (data.take esz) with
    | (s, none) => s.copyElems m esz n (e + 1) (data.drop esz)
    | (s, some h) => (s, some h)

/-- What stops a row whose elements of ESZ bytes a peer address does not name aligned (R131, R365): those of the
source, and those of the destination (DEDUCED, log entry 44: ESZ is the only access width that a copy command has). -/
def State.copyAligned (s : State) (m : Cmd) : Option Halted :=
  let esz := m.f 48 1
  let ds :=
    if m.f 49 1 = 0 then [m.prog * m.f 44 4]
    else (List.range (m.f 36 4 / esz)).map fun e => e * m.f 44 4 + m.prog * esz
  (s.peerElem (m.f 16 8) (m.prog * m.f 40 4) esz).or (ds.findSome? fun d => s.peerElem (m.f 24 8) d esz)

/-- A row of XCOPY. -/
def xcopyRow (s : State) (m : Cmd) : State × Cmd × Option Halted :=
  let len := m.f 36 4
  match s.eRead (m.f 16 8) (m.prog * m.f 40 4) len (m.prog * 2 ^ 24) with
  | .inr h => (s, m, some h)
  | .inl data =>
    match s.copyAligned m with
    | some h => (s, m, some h)
    | none =>
    let (s, h) :=
      if m.f 49 1 = 0 then s.copyOut m (m.prog * m.f 44 4) data
      else s.copyElems m (m.f 48 1) (len / m.f 48 1) 0 data
    (s, m, h)

/-- XCOPY. -/
def State.runXcopy (s : State) (m : Cmd) : Ran :=
  if !m.copyFields then .halted s m badField else runUnits (m.f 32 4) xcopyRow finPlain unitQuantum s m

/-! ## XGATHER (R375) -/

/-- The limits of the block. -/
def Cmd.gatherFields (m : Cmd) : Bool :=
  m.headerOk && m.spare [(60, 4)] && anyField (m.f 16 8) && locField (m.f 24 8) && anyField (m.f 32 8)
    && m.f 44 4 ≤ 2 ^ 24 && 1 ≤ m.f 48 4 && m.f 48 4 ≤ 2 ^ 24

/-- An index of XGATHER. -/
def xgatherIndex (s : State) (m : Cmd) : State × Cmd × Option Halted :=
  let len := m.f 48 4
  match s.eRead (m.f 24 8) (4 * m.prog) 4 (m.prog * 2 ^ 25) with
  | .inr h => (s, m, some h)
  | .inl ix =>
    let r := bytesToNat ix
    let put (m : Cmd) (data : List Byte) : State × Cmd × Option Halted :=
      let (s, h) := s.eWrite (m.f 32 8) (m.prog * m.f 52 4) data (2 ^ 60 + m.prog * 2 ^ 25)
      (s, m, h)
    if r < m.f 40 4 then
      match s.eRead (m.f 16 8) (r * m.f 56 4) len (m.prog * 2 ^ 25 + 2 ^ 24) with
      | .inr h => (s, m, some h)
      | .inl data => put m data
    else
      match put m (List.replicate len 0) with
      | (s, m, none) => (s, { m with counts := [m.count 0 + 1] }, none)
      | out => out

/-- XGATHER. -/
def State.runXgather (s : State) (m : Cmd) : Ran :=
  if !m.gatherFields then .halted s m badField
  else runUnits (m.f 44 4) xgatherIndex (finWith fun m => natToBytes 4 (m.count 0)) unitQuantum s m

/-! ## EMBPOOL (R50, R376) -/

/-- The format of a TY code of EMBPOOL. -/
def poolFmt (code : Nat) : FFmt :=
  match code with
  | 8 => .f32
  | 9 => .bf16
  | 10 => .f16
  | 11 => .e4m3
  | _ => .e5m2

/-- The limits of the block. -/
def Cmd.poolFields (m : Cmd) : Bool :=
  let t := m.f 24 8
  m.headerOk && m.spare [(68, 12)] && locOf (m.f 16 8) == .glob && locClean (m.f 16 8) && locField t
    && locField (m.f 32 8) && locField (m.f 40 8) && locOf (m.f 48 8) == .spad && locClean (m.f 48 8)
    && m.f 60 4 ≤ 2 ^ 24 && 1 ≤ m.f 64 2 && m.f 64 2 ≤ 4096 && 8 ≤ m.f 66 1 && m.f 66 1 ≤ 12
    && m.f 67 1 ≤ 3

/-- A quotient by a count, rounded once. -/
def divF32 (a n : Nat) : Nat :=
  match FFmt.val .f32 a with
  | .num neg m d e => roundNE .f32 (.num neg m (d * n) e)
  | x => roundNE .f32 x

/-- The pooling of one element over the rows of a bag, as weight and value. -/
def poolElem (mode : Nat) (rows : List (Nat × Nat)) : Nat :=
  match rows with
  | [] => 0
  | (w, v) :: rest =>
    match mode with
    | 1 => rest.foldl (fun acc (w, v) => (ffma .f32 false false .rne 0 w v acc).1) (fmul .f32 .rne 0 w v).1
    | 3 => rest.foldl (fun acc (_, v) => (minMaxNum .f32 true acc v).1) v
    | _ =>
      let sum := rest.foldl (fun acc (_, v) => addF32 acc v) v
      if mode = 2 then divF32 sum rows.length else sum

/-- What the rows of a bag come to: their weights and elements, and how many indices were skipped; whether a
row met an uncorrectable error. -/
structure Bag where
  rows : List (Nat × List Nat)
  skipped : Nat
  bad : Bool
  deriving DecidableEq, Repr

/-- The rows of a bag, by the positions of its indices. -/
def State.bagRows (s : State) (m : Cmd) : List Nat → Bag → Bag ⊕ Halted
  | [], b => .inl b
  | i :: is, b =>
    let place := i * 2 ^ 16
    match s.eRead (m.f 24 8) (4 * i) 4 place with
    | .inr h => .inr h
    | .inl ix =>
      let r := bytesToNat ix
      if m.f 56 4 ≤ r then s.bagRows m is { b with skipped := b.skipped + 1 }
      else
        let f := poolFmt (m.f 66 1)
        let size := f.width / 8
        let len := m.f 64 2
        let weight : List Byte ⊕ Halted :=
          if m.f 67 1 = 1 then s.eRead (m.f 40 8) (4 * i) 4 (place + 8) else .inl []
        match weight, s.eRead (m.f 16 8) (r * len * size) (len * size) (place + 16) with
        | .inr h, _ => .inr h
        | _, .inr (.fail .uncorrectable) => s.bagRows m is { b with bad := true }
        | _, .inr h => .inr h
        | .inl w, .inl data =>
          -- an FP32 element is taken as it stands (R250 tells a signalling NaN)
          let value (x : Nat) : Nat := if m.f 66 1 = 8 then x else (convFF f .f32 .rne 0 x).1
          let vs := (List.range len).map fun e => value (fieldNat data (size * e) size)
          s.bagRows m is { b with rows := b.rows ++ [(bytesToNat w, vs)] }

/-- The bags from the present one on become unpredictable. -/
def State.spoilBags (s : State) (m : Cmd) (b n : Nat) : State :=
  (List.range n).foldl
    (fun s k =>
      let len := 4 * m.f 64 2
      (s.eWrite (m.f 48 8) (len * (b + k)) ((List.range len).map fun i =>
        (s.freeWord (2 ^ 45 + (b + k) * 2 ^ 14 + i)).setWidth 8) 0).1) s

/-- A bag of EMBPOOL. PHASE 1 of the model's record says that some row was uncorrectable. -/
def embBag (s : State) (m : Cmd) : State × Cmd × Option Halted :=
  match s.eRead (m.f 32 8) (4 * m.prog) 8 (2 ^ 50 + m.prog * 8) with
  | .inr h => (s, m, some h)
  | .inl offs =>
    let lo := fieldNat offs 0 4
    let hi := fieldNat offs 4 4
    if hi < lo then (s.spoilBags m m.prog (m.f 60 4 - m.prog), m, some badField)
    else match s.bagRows m ((List.range (hi - lo)).map (lo + ·)) ⟨[], 0, false⟩ with
      | .inr h => (s, m, some h)
      | .inl b =>
        let m := { m with counts := [m.count 0 + b.skipped], phase := if b.bad then 1 else m.phase }
        if b.bad then (s.spoilBags m m.prog 1, m, none)
        else
          let out := (List.range (m.f 64 2)).flatMap fun e =>
            natToBytes 4 (poolElem (m.f 67 1) (b.rows.map fun (w, vs) => (w, vs.getD e 0)))
          let (s, h) := s.eWrite (m.f 48 8) (4 * m.f 64 2 * m.prog) out 0
          (s, m, h)

/-- The end of EMBPOOL: an uncorrectable row fails it after every other bag. -/
def embEnd (s : State) (m : Cmd) : Ran :=
  if m.phase = 1 then .halted s m (.fail .uncorrectable) else finWith (fun m => natToBytes 4 (m.count 0)) s m

/-- EMBPOOL. -/
def State.runEmbpool (s : State) (m : Cmd) : Ran :=
  if !m.poolFields then .halted s m badField else runUnits (m.f 60 4) embBag embEnd unitQuantum s m

/-! ## XCVT (R232, R377) -/

/-- The limits of the block. -/
def Cmd.cvtFields (m : Cmd) : Bool :=
  let ty := m.f 64 1
  m.headerOk && m.spare [(65, 15)] && locField (m.f 16 8) && locField (m.f 24 8) && locField (m.f 32 8)
    && locField (m.f 40 8) && 1 ≤ m.f 48 4 && m.f 48 4 ≤ 2 ^ 24 && 1 ≤ m.f 52 4 && m.f 52 4 ≤ 2 ^ 24
    && [0, 1, 2, 4, 5, 6, 8, 9, 10, 11, 12].contains ty

/-- Zero, of either sign for a floating type. -/
def cvtZero (ty x : Nat) : Bool := if 8 ≤ ty then x % 2 ^ (8 * tySize ty - 1) == 0 else x == 0

/-- An element that was kept: its number in the matrix and its value. -/
def keptCode (e x : Nat) : Nat := e * 2 ^ 64 + x

/-- What phase 0 comes to: the elements kept, oldest first; whether those kept before a suspension were found
again; what stopped it. -/
structure Kept where
  list : List Nat
  same : Bool
  halt : Option Halted
  deriving DecidableEq, Repr

/-- Element `n` of VAL and COL is written. -/
def State.cvtKeep (s : State) (m : Cmd) (n e : Nat) (data : List Byte) : State × Option Halted :=
  let size := tySize (m.f 64 1)
  match s.eWrite (m.f 24 8) (size * n) data (2 ^ 51 + n * 16) with
  | (s, some h) => (s, some h)
  | (s, none) => s.eWrite (m.f 32 8) (4 * n) (natToBytes 4 (e % m.f 52 4)) (2 ^ 52 + n * 16)

/-- The elements in ascending order from a position; those that were kept before are not written again. -/
def State.cvtScan (s : State) (m : Cmd) : List Nat → Kept → State × Kept
  | [], k => (s, k)
  | e :: es, k =>
    let size := tySize (m.f 64 1)
    match s.eRead (m.f 16 8) (e / m.f 52 4 * m.f 56 4 + e % m.f 52 4 * size) size (e * 16) with
    | .inr h => (s, { k with halt := some h })
    | .inl data =>
      let x := bytesToNat data
      let n := k.list.length
      if cvtZero (m.f 64 1) x then s.cvtScan m es k
      else if n = m.f 60 4 then (s, { k with halt := some (.fault (.own 34) 0) })
      else if n < m.prog then
        let was := m.counts.getD n 0
        s.cvtScan m es { k with list := k.list ++ [keptCode e x], same := k.same && was == keptCode e x }
      else match s.cvtKeep m n e data with
        | (s, some h) => (s, { k with halt := some h })
        | (s, none) => s.cvtScan m es { k with list := k.list ++ [keptCode e x] }

/-- The row pointers. -/
def Cmd.rowPointers (m : Cmd) : List Byte :=
  (List.range (m.f 48 4 + 1)).flatMap fun i =>
    natToBytes 4 (m.counts.filter fun c => c / 2 ^ 64 / m.f 52 4 < i).length

/-- Free bytes at an engine address. -/
def State.spoil (s : State) (x n place : Nat) : State :=
  (s.eWrite x 0 ((List.range n).map fun i => (s.freeWord (place + i)).setWidth 8) 0).1

/-- The pages of the row-pointer region are translated before any of it is written. -/
def State.pagesFault (s : State) : List (Word64 × Nat) → Option Halted
  | [] => none
  | (a, _) :: rest =>
    match s.translate a .write with
    | .ok _ _ _ _ => s.pagesFault rest
    | .xlate r l => some (.fault (.xlate r l) a)
    | .perm r => some (.fault (.perm r) a)

/-- Phases 1 and 2 of XCVT. -/
def State.cvtPointers (s : State) (m : Cmd) : Ran :=
  let data := m.rowPointers
  let x := m.f 40 8
  let stop := if locOf x = .glob then s.pagesFault (pagesOf (locAddr x 0) data.length) else none
  match stop with
  | some h => .halted s m h
  | none =>
    match s.eWrite x 0 data (2 ^ 53) with
    | (s, none) => finWith (fun m => natToBytes 4 m.counts.length) s m
    | (s, some (.fail r)) => .halted (s.spoil x data.length (2 ^ 46)) m (.fail r)
    | (s, some h) => .halted s m h

/-- VAL, COL and RPTR of an XCVT become unpredictable. -/
def State.spoilCvt (s : State) (m : Cmd) : State :=
  let n := m.f 60 4
  ((s.spoil (m.f 24 8) (tySize (m.f 64 1) * n) (2 ^ 47)).spoil (m.f 32 8) (4 * n) (2 ^ 48)).spoil
    (m.f 40 8) (4 * (m.f 48 4 + 1)) (2 ^ 49)

/-- XCVT. A source that changed while the command was suspended leaves VAL, COL and RPTR unpredictable. -/
def State.runXcvt (s : State) (m : Cmd) : Ran :=
  if !m.cvtFields then .halted s m badField
  else if m.phase = 1 then s.cvtPointers m
  else
    let (s, k) := s.cvtScan m (List.range (m.f 48 4 * m.f 52 4)) ⟨[], true, none⟩
    match k.halt with
    | some h =>
      if k.same ∧ m.prog ≤ k.list.length then .halted s { m with prog := k.list.length, counts := k.list } h
      else .halted (if h = .fault (.own 34) 0 then s.spoilCvt m else s) m h
    | none =>
      if k.same ∧ m.prog ≤ k.list.length then
        s.cvtPointers { m with phase := 1, prog := 0, counts := k.list }
      else
        finWith (fun m => natToBytes 4 m.counts.length) (s.spoilCvt m) { m with counts := k.list }

end Sys2Proof.Machine
end

