-- ==== Sys2Proof/Machine/Print.lean ====
section
/-!
DEFINITION. Chunk graphs and prints: CGLOAD's checks (R41 to R43, R379), a print's start, its operations, the
landing of their data (R44 to R46, R380), and the switch's reduction (R39).
-/

namespace Sys2Proof.Machine

/-! ## Another context's view -/

/-- The state as a context of some core sees it: its core selected, its frame empty. -/
def State.viewAs (s : State) (core : Nat) (c : CtxNo) : State :=
  let t := s.select core
  { t with fr := { Frame.reset with ctx := c, pc := (t.ctxAt c).pc, pathF := true, notes := s.fr.notes, shut := s.fr.shut } }

/-- Back to the selected core and the frame of another state. -/
def State.backTo (t s : State) : State :=
  { t.select s.coreIx with fr := { s.fr with notes := t.fr.notes, shut := t.fr.shut } }

/-! ## CGLOAD (R41 to R43) -/

/-- An operation as it lies in memory. -/
def graphOp (b : List Byte) : GraphOp :=
  let w0 := fieldNat b 0 8
  let w1 := fieldNat b 8 8
  { opk := nbits w0 60 4
    deps := nbits w0 48 8
    succ := (List.range 4).filterMap fun i =>
      if w0.testBit (12 + i) then some (nbits w0 (40 - 8 * i) 8) else none
    accop := nbits w0 8 4
    fmt := nbits w0 4 4
    peer := BitVec.ofNat 16 (nbits w1 48 16)
    pabs := w1.testBit 47
    srcb := nbits w1 44 3
    dstb := nbits w1 41 3
    dstsp := nbits w1 39 2
    tctr := nbits w1 33 6
    ctrv := w1.testBit 32
    len := nbits w1 0 32
    srcoff := BitVec.ofNat 64 (fieldNat b 16 8)
    dstoff := BitVec.ofNat 64 (fieldNat b 24 8) }

/-- Whether an operation sets a reserved field or code (R43, check 3). -/
def graphOpReserved (b : List Byte) : Bool :=
  let o := graphOp b
  3 < o.opk || nbits (fieldNat b 0 8) 56 4 != 0 || nbits (fieldNat b 0 8) 0 4 != 0 || 6 < o.accop || 3 < o.fmt
    || o.dstsp == 3 || (o.opk == 3 && fieldNat b 8 24 != 0)

/-- Whether a header sets one. -/
def graphHeadReserved (h : List Byte) : Bool :=
  let w := fieldNat h 0 8
  nbits w 33 7 != 0 || nbits w 0 20 != 0 || 8 < nbits w 20 4 || fieldNat h 16 16 != 0

/-- The operations left when those without predecessors among the rest are taken away, so many times. -/
def peel (ops : List GraphOp) : Nat → List Nat → List Nat
  | 0, rest => rest
  | n + 1, rest =>
    let named := rest.flatMap fun i => (ops[i]?.map GraphOp.succ).getD []
    peel ops n (rest.filter fun i => named.contains i)

/-- The first check of R43 that a graph fails. -/
def graphRefusal (h : List Byte) (bs : List (List Byte)) : Option Nat :=
  let w := fieldNat h 0 8
  let n := nbits w 24 9
  let tmask := fieldNat h 8 8
  let ops := bs.map graphOp
  let real := ops.filter fun o => o.opk != 3
  let named (i : Nat) : Nat := (ops.flatMap GraphOp.succ).count i
  if nbits w 48 16 ≠ 1 then some 1
  else if n = 0 ∨ 256 < n then some 2
  else if graphHeadReserved h || bs.any graphOpReserved then some 3
  else if ops.any fun o => !accValid o.accop o.fmt || ((o.opk == 0 || o.opk == 3) && o.accop != 0) then some 4
  else if ops.any fun o => o.succ.any (n ≤ ·) then some 5
  else if ops.zipIdx.any fun (o, i) => o.deps != named i then some 6
  else if peel ops n (List.range n) ≠ [] then some 7
  else if real.any fun o => nbits w 20 4 ≤ o.srcb || nbits w 20 4 ≤ o.dstb then some 8
  else if real.any fun o => o.len < 4 || 2 ^ 24 < o.len || o.len % accSize o.accop != 0 then some 9
  else if real.any fun o => o.ctrv && (o.dstsp != 0 || !tmask.testBit o.tctr) then some 10
  else none

/-- How an access on path F that Translate or a destination stopped counts: a fault there is a refusal (R137,
R365). -/
def Halted.reply : Halted → Reply
  | .fault _ _ => .refused
  | .fail r => r
  | .wait => .ok

/-- What stops an access of a fabric command, which ends without ENGFAULT (R137, R365). -/
def Halted.onFabric (h : Halted) : Halted :=
  match h with
  | .wait => .wait
  | h => .fail h.reply

/-- A global range as a fabric command reads it. -/
def State.fabricRead (s : State) (va : Word64) (n place : Nat) : List Byte ⊕ Halted :=
  match s.globRead place (pagesOf va n) with
  | .inl data => .inl data
  | .inr h => .inr h.onFabric

/-- Whether a print of a slot runs on a core. -/
def Core.printing (k : Core) (g : BitVec 2) : Bool := k.prints.any fun p => p.cmd.graph == g

/-- CGLOAD. -/
def State.runCgload (s : State) (m : Cmd) : Ran :=
  let a := m.f 16 8
  if !(m.headerOk && m.spare [(24, 8)] && a % 32 == 0) then .halted s m badField
  else if s.core.printing m.graph then .more s m
  else match s.fabricRead (BitVec.ofNat 64 a) 32 0 with
    | .inr r => .halted s m r
    | .inl h =>
      let n := nbits (fieldNat h 0 8) 24 9
      let count := if nbits (fieldNat h 0 8) 48 16 = 1 ∧ n ≤ 256 then n else 0
      match s.fabricRead (BitVec.ofNat 64 (a + 32)) (32 * count) 64 with
      | .inr r => .halted s m r
      | .inl body =>
        let bs := (List.range count).map fun i => (body.drop (32 * i)).take 32
        match graphRefusal h bs with
        | some k => .halted s m (.fault (.own k) 0)
        | none =>
          let gr : Graph := ⟨nbits (fieldNat h 0 8) 40 8, nbits (fieldNat h 0 8) 20 4,
            BitVec.ofNat 64 (fieldNat h 8 8), bs.map graphOp⟩
          let i := ix4 (m.graph.setWidth 6)
          .done (s.modCore fun k => { k with graphs := k.graphs.set i.val (some gr) i.isLt })

/-! ## A print (R44, R380) -/

/-- The context of a rank under a node of a launch, on this module. -/
def State.nodeCtx (s : State) (lslot lv node rank : Nat) : Option (Nat × CtxNo) :=
  let t := (s.lslot lslot).info.tree
  s.allContexts.find? fun (n, c) =>
    let x := s.ctxOf n c
    x.bound && x.bind.lslot == lslot && t.node x.bind.coords lv == node && t.rank x.bind.coords lv == rank

/-- The issuing context's rank and node at a level. -/
def State.rankAt (s : State) (lv : Nat) : Nat := s.tree.rank s.ctx.bind.coords lv
def State.nodeAt (s : State) (lv : Nat) : Nat := s.tree.node s.ctx.bind.coords lv

/-- The start of a print: its run checks, its sequence, its counters, its announcement. -/
def State.startPrint (s : State) (m : Cmd) : State × Option Halted :=
  let i := ix4 (m.graph.setWidth 6)
  if !m.headerOk then (s, some badField)
  else match s.core.graphs.get i with
    | none => (s, some (.fault (.own 32) 0))
    | some g =>
      if g.level ≠ m.level.toNat then (s, some (.fault (.own 33) 0))
      else
        let seq := s.core.printSeq.get i + 1
        let lv := m.level.toNat
        let bases := m.args.take g.nbase
        let ready : ReadyMsg := ⟨s.ctx.bind.lslot, lv, s.nodeAt lv, m.graph, seq, s.rankAt lv, bases⟩
        let s := s.modCore fun k =>
          { k with
            printSeq := k.printSeq.set i.val seq i.isLt
            tcnt := (List.range 64).foldl
              (fun t j => if h : j < 64 then (if g.tmask.getLsbD j then t.set j 0 h else t) else t) k.tcnt
            prints := k.prints ++ [⟨m, seq, m.args, g.ops.map GraphOp.deps, g.ops.map fun _ => .waiting, []⟩] }
        let s := s.modFabric fun f => { f with ready := f.ready ++ [ready] }
        (if 1 < s.tree.modules then
            s.emit (.control (.ready s.launch.info.group lv ready.node m.graph seq ready.rank bases))
          else s, none)

/-- A print of a context. -/
def Core.printOf (k : Core) (c : CtxNo) (g : BitVec 2) : Option Print :=
  k.prints.find? fun p => p.cmd.ctx == c && p.cmd.graph == g

/-- Changing a print. -/
def Core.putPrint (k : Core) (p : Print) : Core :=
  { k with prints := k.prints.map fun q => if q.cmd.is p.cmd then p else q }

/-- An operation of the graph that a print runs. -/
def Core.opOf (k : Core) (g : BitVec 2) (i : Nat) : Option GraphOp :=
  match k.graphs.get (ix4 (g.setWidth 6)) with
  | some gr => gr.ops[i]?
  | none => none

/-- The operations that depend on one, through any chain. -/
def reach (ops : List GraphOp) : Nat → List Nat → List Nat
  | 0, xs => xs
  | n + 1, xs =>
    let next := xs.flatMap fun i => (ops[i]?.map GraphOp.succ).getD []
    reach ops n (xs ++ next.filter fun i => !xs.contains i)

/-- Whether an operation has come to its end. -/
def OpState.over : OpState → Bool
  | .waiting | .started => false
  | _ => true

/-- A print after the end of an operation: a done one frees its successors, a failed one bars all that
depend on it (R46). -/
def Print.opEnds (p : Print) (ops : List GraphOp) (i : Nat) (good : Bool) : Print :=
  let succ := (ops[i]?.map GraphOp.succ).getD []
  if good then
    { p with ops := p.ops.set i .done, left := succ.foldl (fun l k => l.set k (l.getD k 0 - 1)) p.left }
  else
    let barred := reach ops ops.length succ
    { p with ops := (p.ops.set i .failed).zipIdx.map fun (st, k) => if barred.contains k then .never else st }

/-- The end of an operation; the end of the last one ends the print (R44, R46). -/
def State.opEnd (s : State) (p : Print) (i : Nat) (good : Bool) (failure : Option Reply) : State :=
  let ops := match s.core.graphs.get (ix4 (p.cmd.graph.setWidth 6)) with
    | some gr => gr.ops
    | none => []
  let p := p.opEnds ops i good
  let s := match failure with
    | some r => s.modCtxOf p.cmd.core p.cmd.ctx fun c => c.recordFail 3 r 0
    | none => s
  let s := s.modCore fun k => k.putPrint p
  if p.ops.all OpState.over then
    (s.modCore fun k => { k with prints := k.prints.filter fun q => !(q.cmd.is p.cmd) }).finishCmd p.cmd
      (p.ops.all (· == .done))
  else s

/-- The rank that an operation names; none outside the node. -/
def State.peerRank (s : State) (o : GraphOp) (lv : Nat) : Option Nat :=
  let r : Int := if o.pabs then o.peer.toNat else (s.rankAt lv : Int) + o.peer.toInt
  if 0 ≤ r ∧ r < s.tree.size lv then some r.toNat else none

/-- The readiness of a rank for a print. -/
def State.readyOf (s : State) (lv : Nat) (g : BitVec 2) (seq : Word32) (rank : Nat) : Option ReadyMsg :=
  s.fabric.ready.find? fun r =>
    r.lslot == s.ctx.bind.lslot && r.level == lv && r.node == s.nodeAt lv && r.graph == g && r.seq == seq
      && r.rank == rank

/-- The data of an operation's source (R380). -/
def State.sourceData (s : State) (p : Print) (o : GraphOp) : List Byte ⊕ Option Reply :=
  let b := (p.bases.getD o.srcb 0).toNat
  if !locField b then .inr none
  else match s.eRead b o.srcoff.toNat o.len 0 with
    | .inl data => .inl data
    | .inr h => .inr (some h.reply)

/-- Whether an operation's source must wait for an earlier access of the context (R154). -/
def State.sourceWaits (s : State) (p : Print) (o : GraphOp) : Bool :=
  match s.eRead (p.bases.getD o.srcb 0).toNat o.srcoff.toNat o.len 0 with
  | .inr .wait => true
  | _ => false

/-! ## Landing (R38, R45) -/

/-- Data cut into elements. -/
def elements (size : Nat) : Nat → List Byte → List (List Byte)
  | 0, _ => []
  | n + 1, data => data.take size :: elements size n (data.drop size)

/-- An element that lands at a place with its old bytes. -/
def landed (o : GraphOp) (old new : List Byte) : List Byte :=
  natToBytes new.length (accumulate o.accop o.fmt (bytesToNat old) (bytesToNat new))

/-- An element lands at the receiver: `a` is its address in the destination space. -/
def State.landElement (s : State) (core : Nat) (c : CtxNo) (o : GraphOp) (a : Word64) (e : List Byte)
    (place : Nat) : State × Reply :=
  let n := e.length
  match o.dstsp with
  | 0 =>
    let slot := (s.ctxOf core c).bind.lslot
    match s.spadWhere core slot a.toNat, s.spadWhere core slot (a.toNat + n - 1) with
    | some (k, off), some _ =>
      let words := (s.coreAt k).badWords.any fun w => off < 4 * w + 4 && 4 * w < off + n
      if (o.accop != 0 && words) || (s.coreAt k).partBad off n then (s, .uncorrectable)
      else
        let s := s.writeSpad k off (landed o (readBytes (s.coreAt k).spad off n) e)
        let up (x : Word32) : Word32 := BitVec.ofNat 32 (min (x.toNat + n / 4) (2 ^ 32 - 1))
        (if o.ctrv then s.modCoreAt core fun k =>
            let t := ix64 (BitVec.ofNat 6 o.tctr)
            { k with tcnt := k.tcnt.set t.val (up (k.tcnt.get t)) t.isLt }
          else s, .ok)
    | _, _ => (s, .refused)
  | 1 =>
    if 2 ^ 24 < a.toNat + n then (s, .refused)
    else
      let die := dieOf core
      if o.accop != 0 && (List.range n).any fun i => s.badDie.contains ((2 ^ 24 * die + a.toNat + i) / 4) then
        (s, .uncorrectable)
      else
        let (s', ok) := s.storeDie die a.toNat (landed o (readBytes s.dieBuf (2 ^ 24 * die + a.toNat) n) e)
        (s', if ok then .ok else .uncorrectable)
  | _ =>
    match (s.viewAs core c).translate a .write with
    | .ok tgt modId pa _ =>
      let (old, r) := if o.accop = 0 then ([], Reply.ok) else s.homeRead (dieOf core) tgt modId pa n place
      if r ≠ .ok then (s, r)
      else (s.noteStream (memoryOf (dieOf core) tgt modId) (pa, n)).homeWrite (dieOf core) tgt modId pa place (landed o old e)
    | _ => (s, .refused)

/-- Elements land one after another until one is refused: those after it do not land (DESIGN CHOICE, log entry 103). -/
def State.landAll (s : State) (core : Nat) (c : CtxNo) (o : GraphOp) : Word64 → List (List Byte) → Nat →
    State × Reply
  | _, [], _ => (s, .ok)
  | a, e :: es, place =>
    match s.landElement core c o a e place with
    | (s, .ok) => s.landAll core c o (a + BitVec.ofNat 64 e.length) es (place + e.length)
    | (s, r) => (s, r)

/-- Whether a destination base keeps the rule of R380. -/
def destBaseOk (dstsp b : Nat) : Bool :=
  match dstsp with
  | 0 => b < 2 ^ 22
  | 1 => b < 2 ^ 24
  | _ => b < 2 ^ 56

/-- Data of an operation lands at the receiver, whose bases resolve its address. -/
def State.land (s : State) (core : Nat) (c : CtxNo) (o : GraphOp) (bases : List Word64) (off : Nat)
    (data : List Byte) : State × Reply :=
  let b := bases.getD o.dstb 0
  if !destBaseOk o.dstsp b.toNat then (s, .refused)
  else
    let size := accSize o.accop
    s.landAll core c o (b + o.dstoff + BitVec.ofNat 64 off) (elements size (data.length / size) data) 0

/-- The failure of a landing, in the receiver's record of path F. -/
def State.recordLanding (s : State) (core : Nat) (c : CtxNo) (r : Reply) : State :=
  if r = .ok then s else s.modCtxOf core c fun x => x.recordFail 3 r 0

/-! ## The events of a print -/

/-- An operation has started. -/
def State.opStarted (s : State) (p : Print) (i : Nat) : State :=
  s.modCore fun k => k.putPrint { p with ops := p.ops.set i .started }

/-- What goes to the receiver's module: the operation's data, flit by flit (R28, R30). -/
def putFlits (dst : Nat) (seq : Word32) (op : Nat) (data : List Byte) : List Out :=
  (cutFlits data).map fun (off, d) => .collective dst seq op off d

/-- Messages leave the module, in order. -/
def State.emitAll (s : State) (os : List Out) : State := s.modFabric fun f => { f with out := f.out ++ os }

/-- The start of a PUT or a PUTACC. -/
def State.putStart (s : State) (p : Print) (i : Nat) (o : GraphOp) : State :=
  let lv := p.cmd.level.toNat
  match s.peerRank o lv with
  | none => s.opEnd p i false none
  | some rank =>
    match s.readyOf lv p.cmd.graph p.seq rank with
    | none => s
    | some _ =>
      match s.nodeCtx s.ctx.bind.lslot lv (s.nodeAt lv) rank with
      | some _ => s.opStarted p i
      | none =>
        if s.sourceWaits p o then s
        else match s.sourceData p o with
        | .inr r => s.opEnd p i false r
        | .inl data => (s.opStarted p i).emitAll (putFlits (s.moduleOf lv rank) p.seq i data)

/-- The in-network operation of a print as the switch knows the own contribution to it (R39, R46). -/
def State.reduction (s : State) (p : Print) (i : Nat) (o : GraphOp) : Reduction :=
  let lv := p.cmd.level.toNat
  ⟨s.launch.info.group, lv, s.nodeAt lv, p.cmd.graph, p.seq, i, o.accop, o.fmt, s.rankAt lv⟩

/-- What goes to the switch, flit by flit (R28, R30). -/
def innetFlits (r : Reduction) (data : List Byte) : List Out := (cutFlits data).map fun (off, d) => .reduction r off d

/-- The start of an INNET: the own bytes go to the switch. -/
def State.innetStart (s : State) (p : Print) (i : Nat) (o : GraphOp) : State :=
  match s.sourceData p o with
  | .inr r => s.opEnd p i false r
  | .inl data => (s.opStarted { p with sent := p.sent ++ [(i, data)] } i).emitAll (innetFlits (s.reduction p i o) data)

/-- Whether an operation of a print may start. -/
def Print.canStart (p : Print) (i : Nat) : Bool := p.ops.getD i .never == .waiting && p.left.getD i 1 == 0

/-- Whether a context of the selected core has stopped for pre-emption: its engines do nothing more (R114). -/
def State.stopped (s : State) (c : CtxNo) : Bool := (s.ctxAt c).state == .preempted

/-- PRINT_OP_START (R44). -/
def execPrintOpStart (c : CtxNo) (g : BitVec 2) (op : Nat) (s : State) : Res :=
  match s.core.printOf c g, s.core.opOf g op with
  | some p, some o =>
    let v := s.viewAs s.coreIx c
    if !p.canStart op ∨ s.stopped c ∨ (o.opk = 2 ∧ v.sourceWaits p o) then .next s
    else
      .next ((match o.opk with
        | 3 => v.opEnd p op true none
        | 2 => v.innetStart p op o
        | _ => v.putStart p op o).backTo s)
  | _, _ => .next s

/-- The movement of a PUT within the module, and its end. Which participant's copy of the operation says where and how
the data lands, when sender's and receiver's graphs differ, is open: within a module the sender's does (DESIGN CHOICE,
log entry 124). -/
def State.putMove (s : State) (p : Print) (i : Nat) (o : GraphOp) (core : Nat) (c : CtxNo) (bases : List Word64) :
    State :=
  match s.sourceData p o with
  | .inr r => s.opEnd p i false r
  | .inl data =>
    match s.land core c o bases 0 data with
    | (s, .ok) => s.opEnd p i true none
    | (s, r) => (s.recordLanding core c r).opEnd p i false (some r)

/-- The end of a started operation: a PUT within the module moves its data; one to another module ends as its
receiver's answer says; an INNET ends here only when the switch refuses it. -/
def State.opDone (s : State) (p : Print) (i : Nat) (o : GraphOp) (r : Reply) : State :=
  let lv := p.cmd.level.toNat
  if o.opk = 2 then (if r = .ok then s else s.opEnd p i false (some r))
  else
    let rank := (s.peerRank o lv).getD 0
    match s.nodeCtx s.ctx.bind.lslot lv (s.nodeAt lv) rank, s.readyOf lv p.cmd.graph p.seq rank with
    | some (core, c), some ready => if s.sourceWaits p o then s else s.putMove p i o core c ready.bases
    | some _, none => s
    | none, _ =>
      if s.tree.modules ≤ 1 then s
      else if r = .ok then s.opEnd p i true none else s.opEnd p i false (some r)

/-- PRINT_OP_DONE (R44, R46). -/
def execPrintOpDone (c : CtxNo) (g : BitVec 2) (op : Nat) (r : Reply) (s : State) : Res :=
  match s.core.printOf c g, s.core.opOf g op with
  | some p, some o =>
    if p.ops.getD op .never ≠ .started then .next s
    else .next (((s.viewAs s.coreIx c).opDone p op o r).backTo s)
  | _, _ => .next s

/-- COLLECTIVE_DATA_RECEIVE (R45): data of another module's PUT lands, and is acknowledged or refused. The receiver's own
copy of the operation says where and how it lands, whatever the sender's says (DESIGN CHOICE, log entry 124). -/
def execCollectiveDataReceive (src : Nat) (c : CtxNo) (g : BitVec 2) (seq : BitVec 32) (op off : Nat)
    (data : List Byte) (s : State) : Res :=
  let x := s.ctxAt c
  let mine (r : ReadyMsg) : Bool :=
    r.lslot == x.bind.lslot && r.graph == g && r.seq == seq
      && r.rank == (s.lslot x.bind.lslot).info.tree.rank x.bind.coords r.level
      && r.node == (s.lslot x.bind.lslot).info.tree.node x.bind.coords r.level
  match s.fabric.ready.find? mine, s.core.opOf g op with
  | some r, some o =>
    if !x.bound ∨ 1 < o.opk ∨ o.len < off + data.length then .next s
    else
      let (t, how) := s.land s.coreIx c o r.bases off data
      .next ((t.recordLanding s.coreIx c how).emit (.response src (BitVec.ofNat 12 op) how []))
  | _, _ => .next s

/-- The switch's result: the fold of each element over the ranks (R39). -/
def switchResult (o : GraphOp) (parts : List (List Byte)) : List Byte :=
  let size := accSize o.accop
  (List.range (o.len / size)).flatMap fun k =>
    natToBytes size (switchFold o.accop o.fmt (parts.map fun d => fieldNat d (size * k) size))

/-- The own contribution to an in-network operation, as it was sent. -/
def Print.contributes (p : Print) (op : Nat) (o : GraphOp) (x : Contribution) : Bool :=
  x.accop == o.accop && x.fmt == o.fmt && p.sent.contains (op, x.data)

/-- Whether a contribution names the length, operator and format of an operation (R46). -/
def GraphOp.agrees (o : GraphOp) (x : Contribution) : Bool :=
  x.accop == o.accop && x.fmt == o.fmt && x.data.length == o.len

/-- SWITCH_REDUCE (R39, R44, R46): every contribution has arrived, this participant's own as it was sent. The result is
written at the own destination; where the contributions differ in length, operator or format, none is. -/
def execSwitchReduce (c : CtxNo) (g : BitVec 2) (op : Nat) (contributions : List Contribution) (s : State) : Res :=
  match s.core.printOf c g, s.core.opOf g op with
  | some p, some o =>
    let v := s.viewAs s.coreIx c
    let lv := p.cmd.level.toNat
    let rank := v.rankAt lv
    if p.ops.getD op .never ≠ .started ∨ o.opk ≠ 2 ∨ contributions.length ≠ v.tree.size lv
        ∨ !(contributions[rank]?).any (p.contributes op o) then .next s
    else if contributions.any fun x => !o.agrees x then
      .next ((v.opEnd p op false (some .refused)).backTo s)
    else
      match v.land s.coreIx c { o with accop := 0 } p.bases 0 (switchResult o (contributions.map Contribution.data)) with
      | (v, .ok) => .next ((v.opEnd p op true none).backTo s)
      | (v, r) => .next ((v.opEnd p op false (some r)).backTo s)
  | _, _ => .next s

/-- What an operation of a print can do by itself: start, or move its data within the module. -/
def State.opEvents (s : State) (p : Print) (i : Nat) : List Instr :=
  let c := p.cmd.ctx
  let g := p.cmd.graph
  let v := s.viewAs s.coreIx c
  let lv := p.cmd.level.toNat
  match s.core.opOf g i with
  | none => []
  | some o =>
    let peer : Option Nat := v.peerRank o lv
    let ready := peer.all fun r => (v.readyOf lv g p.seq r).isSome
    if p.canStart i && (2 ≤ o.opk || ready) then [.printOpStart c g i]
    else if p.ops.getD i .never ≠ .started then []
    else if o.opk = 2 then
      (if s.fabric.planes.isEmpty then [.printOpDone c g i .dead]
      else if v.tree.size lv = 1 then (p.sent.filter (·.1 == i)).map fun x => .switchReduce c g i [⟨o.accop, o.fmt, x.2⟩]
      else [])
    else if (peer.bind (v.nodeCtx v.ctx.bind.lslot lv (v.nodeAt lv))).isSome then [.printOpDone c g i .ok]
    else if s.fabric.planes.isEmpty then [.printOpDone c g i .dead]
    else []

/-- What the prints of the selected core can do by themselves; those of a stopped context wait (R47). -/
def State.printEvents (s : State) : List Instr :=
  (s.core.prints.filter fun p => !s.stopped p.cmd.ctx).flatMap fun p => (List.range p.ops.length).flatMap fun i => s.opEvents p i

end Sys2Proof.Machine
end

