-- ==== Sys2Proof/Machine/Exchange.lean ====
section
/-!
DEFINITION. Expert exchange and repartition (R48 to R55, R378, R381 to R383). The participants exchange in one event,
once all have declared: those of this module, and those of other modules with what they declared.
-/

namespace Sys2Proof.Machine

/-! ## Participants (R378) -/

/-- The command that a context's fabric queue is running, if it is one of a kind at a level; a stop withdraws the
declaration (R47). -/
def State.declared (s : State) (core : Nat) (c : CtxNo) (op : CmdOp) (lv : BitVec 6) : Option Cmd :=
  if (s.ctxOf core c).state = .preempted then none
  else (s.coreAt core).fqueue.find? fun m => m.ctx == c && m.run == .running && m.op == op && m.level == lv

/-- The kind of an exchange, as a declaration names it (R33, R378); none for another command. -/
def CmdOp.exchange : CmdOp → Option Nat
  | .a2aDisp => some 0
  | .a2aComb => some 1
  | .repart => some 2
  | .mcall | .cellld | .flowset | .xwin | .tsld | .tsst | .xcopy | .xgather | .embpool | .xcvt | .cgload | .cgrun
  | .txtEnc | .txtDec | .txtMask => none

/-- Whether a participant's context lies on another module: its command stands here for what it has declared, under a
core's number that this module has not. -/
def Cmd.far (m : Cmd) : Bool := 896 ≤ m.core

/-- The command of a participant on another module, as it has declared it. -/
def Decl.cmd (d : Decl) (m : Cmd) : Cmd :=
  { Cmd.blank m.op with core := 896 + d.rank, level := m.level, block := d.block }

/-- Whether a declaration belongs to the exchange of a command (R33). -/
def State.declares (s : State) (m : Cmd) (d : Decl) : Bool :=
  let lv := m.level.toNat
  d.lslot == s.ctx.bind.lslot && d.level == lv && d.node == s.nodeAt lv && m.op.exchange == some d.kind

/-- The participants' commands in ascending rank, as far as they have declared, here or from another module. -/
def State.participants (s : State) (m : Cmd) (fits : Cmd → Bool) : List (Option Cmd) :=
  let lv := m.level.toNat
  (List.range (s.tree.size lv)).map fun r =>
    match s.nodeCtx s.ctx.bind.lslot lv (s.nodeAt lv) r with
    | some (core, c) => (s.declared core c m.op m.level).filter fits
    | none =>
      if s.tree.modules ≤ 1 then none
      else ((s.fabric.decls.find? fun d => s.declares m d && d.rank == r).map (·.cmd m)).filter fits

/-- Whether every rank of the node has its context on this module. -/
def State.nodeHere (s : State) (m : Cmd) : Bool :=
  let lv := m.level.toNat
  s.tree.modules ≤ 1 ||
  (List.range (s.tree.size lv)).all fun r => (s.nodeCtx s.ctx.bind.lslot lv (s.nodeAt lv) r).isSome

/-- The state as a command's context sees it. -/
def State.asCmd (s : State) (m : Cmd) : State := s.viewAs m.core m.ctx

/-- Bytes that a participant reads from global memory. What one on another module reads there, and whether its
accesses are performed, are free values (log entry 43). -/
def State.partRead (s : State) (m : Cmd) (va n place : Nat) : List Byte ⊕ Halted :=
  if m.far then
    match Config.extReply s.free (2 ^ 20 + m.core) with
    | .ok => .inl ((List.range n).map fun i => Config.extByte s.free (2 ^ 64 * m.core + va + i))
    | r => .inr (.fail r)
  else (s.asCmd m).fabricRead (BitVec.ofNat 64 va) n place

/-- Bytes that a participant writes to global memory, with what stopped it. Those of one on another module are
written there. -/
def State.partWrite (s : State) (m : Cmd) (va : Nat) (data : List Byte) : State × Option Halted :=
  if m.far then (s, none)
  else
  let v := s.asCmd m
  let ps := pagesOf (BitVec.ofNat 64 va) data.length
  let (t, h) := (v.noteGlob ps).globWrite (2 ^ 58) data ps
  (t, h.map Halted.onFabric)

/-- A list of writes of one participant. -/
def State.partWrites (s : State) (m : Cmd) : List (Nat × List Byte) → State × Option Halted
  | [] => (s, none)
  | (va, data) :: rest =>
    match s.partWrite m va data with
    | (s, none) => s.partWrites m rest
    | (s, some r) => (s, some r)

/-- Free bytes. -/
def State.freeBytes (s : State) (n place : Nat) : List Byte :=
  (List.range n).map fun i => (s.freeWord (place + i)).setWidth 8

/-- A participant's outputs become unpredictable. -/
def State.partSpoil (s : State) (m : Cmd) (regions : List (Nat × Nat)) : State :=
  regions.foldl (fun s (va, n) => (s.partWrite m va (s.freeBytes n (2 ^ 59))).1) s

/-- What a participant gives and takes: what stops it, or its writes and its status record. -/
structure Share where
  cmd : Cmd
  writes : List (Nat × List Byte)
  stat : List Byte
  deriving DecidableEq, Repr

/-- The participants of this module. -/
def hereOf (ms : List Cmd) : List Cmd := ms.filter fun m => !m.far

/-- Every participant ends with its error value; the one that met a failure records it. -/
def State.allFail (s : State) (ms : List Cmd) (who : Option (Cmd × Halted)) : State :=
  (hereOf ms).foldl
    (fun s m =>
      match who with
      | some (w, r) => if w.is m then s.failCmd m r.reply 0 else s.finishCmd m false
      | none => s.finishCmd m false) s

/-- The shares are written, rank by rank; the first that cannot be written is answered. -/
def State.writeShares (s : State) : List Share → State × Option (Cmd × Halted)
  | [] => (s, none)
  | x :: xs =>
    match s.partWrites x.cmd x.writes with
    | (s, some r) => (s, some (x.cmd, r))
    | (s, none) =>
      if x.cmd.far then s.writeShares xs
      else match (s.asCmd x.cmd).writeStat x.cmd x.stat with
      | (s, some h) => (s, some (x.cmd, h))
      | (s, none) => s.writeShares xs

/-- Whether a global range of a participant must wait for an earlier access of its context (R154). -/
def State.partWaits (s : State) (m : Cmd) (va n : Nat) : Bool :=
  let v := s.asCmd m
  (pagesOf (BitVec.ofNat 64 va) n).any fun (a, k) =>
    match v.translate a .write with
    | .ok tgt _ pa _ => v.ioBusy tgt pa k
    | _ => false

/-- The end of an exchange: the shares are written and every participant finishes, or a failure ends them all
and leaves their outputs unpredictable. -/
def State.endExchange (s : State) (ms : List Cmd) (outs : Cmd → List (Nat × Nat))
    (r : List Share ⊕ (Cmd × Halted)) : State :=
  let spoilt (s : State) : State := ms.foldl (fun s m => s.partSpoil m (outs m)) s
  match r with
  | .inr (_, .wait) => s
  | .inr who => (spoilt s).allFail ms (some who)
  | .inl shares =>
    if (hereOf ms).any fun m => (outs m).any fun (va, n) => s.partWaits m va n then s
    else
    match s.writeShares shares with
    | (s, some who) => (spoilt s).allFail ms (some who)
    | (s, none) => (hereOf ms).foldl (fun s m => s.finishCmd m true) s

/-- Reading something of every participant. -/
def eachPart {α : Type} (f : Cmd → α ⊕ Halted) : List Cmd → List α ⊕ (Cmd × Halted)
  | [] => .inl []
  | m :: ms =>
    match f m with
    | .inr r => .inr (m, r)
    | .inl x =>
      match eachPart f ms with
      | .inr w => .inr w
      | .inl xs => .inl (x :: xs)

/-- A participant of a node that reaches other modules declares its buffers to them, once (R33, R378). -/
def State.declareFar (s : State) (m : Cmd) : State :=
  let lv := m.level.toNat
  if m.prog = 1 || s.nodeHere m then s
  else
    let msg : ControlMsg :=
      .declare s.launch.info.group lv (s.nodeAt lv) (m.op.exchange.getD 0) (s.rankAt lv) m.block
    (s.emit (.control msg)).modQueue m fun q => putCmd q { m with prog := 1 }

/-- An exchange command: its own fields are judged, then it waits in declaration, then the fields that must
agree are compared, then it runs. The declarations of other modules serve one exchange. -/
def State.runExchange (s : State) (m : Cmd) (fits : Cmd → Bool) (agreed : Cmd → List Nat)
    (outs : Cmd → List (Nat × Nat)) (run : State → List Cmd → List Share ⊕ (Cmd × Halted)) : State :=
  let s := s.declareFar m
  let ps := s.participants m fits
  if ps.any Option.isNone then s
  else
    let ms := ps.filterMap id
    let t :=
      if ms.any fun x => agreed x != agreed m then s.allFail ms none else s.endExchange ms outs (run s ms)
    if (t.coreAt m.core).fqueue.any (·.is m) then t
    else t.modFabric fun f => { f with decls := f.decls.filter fun d => !s.declares m d }

/-! ## A2A.DISP (R48, R381) -/

/-- The limits of the block. -/
def Cmd.dispFields (m : Cmd) : Bool :=
  m.headerOk && m.spare [(82, 14)] && m.f 64 4 ≤ 2 ^ 24 && 1 ≤ m.f 68 4 && m.f 68 4 ≤ 65536
    && 4 ≤ m.f 72 4 && m.f 72 4 ≤ 65536 && m.f 72 4 % 4 == 0 && 1 ≤ m.f 76 4 && m.f 76 4 ≤ 2 ^ 24
    && 1 ≤ m.f 80 1 && m.f 80 1 ≤ 8 && 1 ≤ m.f 81 1

/-- The tokens, ids and routing table of a participant. -/
structure DispIn where
  tok : List Byte
  ids : List Byte
  route : List Byte
  deriving DecidableEq, Repr

/-- Reading them. -/
def State.dispIn (s : State) (m : Cmd) : DispIn ⊕ Halted :=
  match s.partRead m (m.f 16 8) (m.f 64 4 * m.f 72 4) 0, s.partRead m (m.f 24 8) (2 * m.f 64 4 * m.f 80 1) (2 ^ 40),
      s.partRead m (m.f 32 8) (4 * m.f 68 4) (2 ^ 41) with
  | .inl a, .inl b, .inl c => .inl ⟨a, b, c⟩
  | .inr r, _, _ => .inr r
  | _, .inr r, _ => .inr r
  | _, _, .inr r => .inr r

/-- A (token, k) pair on its way: source rank, token, k position, destination rank and slot (none when the id
is not mapped). -/
structure Pair where
  src : Nat
  tok : Nat
  kpos : Nat
  dst : Option (Nat × Nat)
  deriving DecidableEq, Repr

/-- The pairs of a participant in order. -/
def dispPairs (nslots : List Nat) (src : Nat) (m : Cmd) (x : DispIn) : List Pair :=
  let k := m.f 80 1
  (List.range (m.f 64 4 * k)).map fun i =>
    let id := fieldNat x.ids (2 * i) 2
    let e := fieldNat x.route (4 * id) 4
    let rank := e % 65536
    let slot := nbits e 16 8
    let ok := id < m.f 68 4 && nbits e 24 1 == 1 && rank < nslots.length && slot < nslots.getD rank 0
    ⟨src, i / k, i % k, if ok then some (rank, slot) else none⟩

/-- The pairs with their positions in their slot's buffer. -/
def numberPairs : List Pair → List (Nat × Nat) → List (Pair × Nat)
  | [], _ => []
  | p :: ps, before =>
    match p.dst with
    | none => (p, 0) :: numberPairs ps before
    | some d => (p, before.count d) :: numberPairs ps (d :: before)

/-- A row of bits packed into bytes. -/
def packBits (bs : List Bool) : List Byte :=
  (List.range ((bs.length + 7) / 8)).map fun i =>
    BitVec.ofNat 8 (packNat 1 ((List.range 8).map fun j => (bs.getD (8 * i + j) false).toNat))

/-- The shares of a dispatch. -/
def State.runDisp (s : State) (ms : List Cmd) : List Share ⊕ (Cmd × Halted) :=
  match eachPart s.dispIn ms with
  | .inr w => .inr w
  | .inl ins =>
    let nslots := ms.map fun m => m.f 81 1
    let pairs := ((ms.zip ins).zipIdx).flatMap fun ((m, x), r) => dispPairs nslots r m x
    let placed := numberPairs pairs []
    .inl (ms.zipIdx.map fun (m, r) =>
      let cape := m.f 76 4
      let e := m.f 72 4
      let here (slot : Nat) : List (Pair × Nat) :=
        placed.filter fun (p, i) => p.dst == some (r, slot) && decide (i < cape)
      let slots := List.range (m.f 81 1)
      let mine := placed.filter fun (p, _) => p.src == r
      let dropped : Pair × Nat → Bool := fun (p, i) => p.dst.isSome && decide (cape ≤ i)
      let entry (slot : Nat) (x : Pair × Nat) : Nat × List Byte :=
        let tok := ((ins.getD x.1.src ⟨[], [], []⟩).tok.drop (e * x.1.tok)).take e
        (m.f 40 8 + (slot * cape + x.2) * (e + 8),
          tok ++ natToBytes 2 x.1.src ++ natToBytes 1 x.1.kpos ++ [0] ++ natToBytes 4 x.1.tok)
      let count (p : Pair × Nat → Bool) : List Byte := natToBytes 4 (mine.filter p).length
      ⟨m, (slots.flatMap fun slot => (here slot).map (entry slot))
          ++ [(m.f 48 8, slots.flatMap fun slot => natToBytes 4 (here slot).length),
              (m.f 56 8, packBits (mine.map fun x => x.1.dst.isNone || dropped x))],
        count (fun x => x.1.dst.isSome && !dropped x) ++ count dropped ++ count (fun x => x.1.dst.isNone)
          ++ natToBytes 4 ((slots.map fun slot => (here slot).length).foldl (· + ·) 0)⟩)

/-- The outputs of a dispatch. -/
def Cmd.dispOuts (m : Cmd) : List (Nat × Nat) :=
  [(m.f 40 8, m.f 81 1 * m.f 76 4 * (m.f 72 4 + 8)), (m.f 48 8, 4 * m.f 81 1),
    (m.f 56 8, (m.f 64 4 * m.f 80 1 + 7) / 8)]

/-! ## A2A.COMB (R49, R382) -/

/-- The limits of the block: those of the dispatch. -/
def Cmd.combFields (m : Cmd) : Bool :=
  m.headerOk && m.spare [(90, 6)] && m.f 72 4 ≤ 2 ^ 24 && 1 ≤ m.f 76 4 && m.f 76 4 ≤ 65536
    && 4 ≤ m.f 80 4 && m.f 80 4 ≤ 65536 && m.f 80 4 % 4 == 0 && 1 ≤ m.f 84 4 && m.f 84 4 ≤ 2 ^ 24
    && 1 ≤ m.f 88 1 && m.f 88 1 ≤ 8 && 1 ≤ m.f 89 1

/-- What a participant returns: the rank, token and k position of an entry's provenance, and its vector. -/
structure Returned where
  rank : Nat
  tok : Nat
  kpos : Nat
  y : List Byte
  deriving DecidableEq, Repr

/-- The entries of one slot. -/
def State.slotEntries (s : State) (m : Cmd) (slot : Nat) : List Nat → List Returned ⊕ Halted
  | [] => .inl []
  | i :: is =>
    let at_ := slot * m.f 84 4 + i
    let el := 4 * m.f 76 4
    match s.partRead m (m.f 24 8 + at_ * (m.f 80 4 + 8) + m.f 80 4) 8 (at_ * 2 ^ 20),
        s.partRead m (m.f 16 8 + at_ * el) el (at_ * 2 ^ 20 + 64), s.slotEntries m slot is with
    | .inl p, .inl y, .inl rest => .inl (⟨fieldNat p 0 2, fieldNat p 4 4, fieldNat p 2 1, y⟩ :: rest)
    | .inr r, _, _ => .inr r
    | _, .inr r, _ => .inr r
    | _, _, .inr r => .inr r

/-- The entries of every slot. -/
def State.returns (s : State) (m : Cmd) : List Nat → List Returned ⊕ Halted
  | [] => .inl []
  | slot :: rest =>
    match s.partRead m (m.f 32 8 + 4 * slot) 4 (2 ^ 56 + slot) with
    | .inr r => .inr r
    | .inl n =>
      match s.slotEntries m slot (List.range (bytesToNat n)), s.returns m rest with
      | .inl a, .inl b => .inl (a ++ b)
      | .inr r, _ => .inr r
      | _, .inr r => .inr r

/-- What the origin reads: ids, gates, drop bits. -/
def State.combIn (s : State) (m : Cmd) : DispIn ⊕ Halted :=
  let n := m.f 72 4 * m.f 88 1
  match s.partRead m (m.f 40 8) (2 * n) (2 ^ 40), s.partRead m (m.f 48 8) (4 * n) (2 ^ 41),
      s.partRead m (m.f 56 8) ((n + 7) / 8) (2 ^ 42) with
  | .inl a, .inl b, .inl c => .inl ⟨a, b, c⟩
  | .inr r, _, _ => .inr r
  | _, .inr r, _ => .inr r
  | _, _, .inr r => .inr r

/-- A pair to be combined: expert id, k position, gate, vector (none when no entry came back). -/
structure Term where
  e : Nat
  kpos : Nat
  g : Nat
  y : Option (List Byte)
  deriving DecidableEq, Repr

/-- Insertion by expert id and then k position. -/
def insertTerm (x : Term) : List Term → List Term
  | [] => [x]
  | y :: ys => if x.e < y.e ∨ (x.e = y.e ∧ x.kpos < y.kpos) then x :: y :: ys else y :: insertTerm x ys

/-- One element of a token's result (R49). Where a pair whose drop bit is 0 has no entry that came back, the rule says
nothing of the sum, and the whole element is a free value; of several entries of one pair the first by rank, slot and
place is taken (log entry 46). -/
def combElem (free : Word32) (i : Nat) (ts : List Term) : Nat :=
  let val (t : Term) : Option Nat := t.y.map fun y => fieldNat y (4 * i) 4
  if ts.any fun t => t.y.isNone then free.toNat
  else match ts with
    | [] => 0
    | t :: rest => rest.foldl (fun acc u => (ffma .f32 false false .rne 0 u.g ((val u).getD 0) acc).1)
        (fmul .f32 .rne 0 t.g ((val t).getD 0)).1

/-- The shares of a combine. -/
def State.runComb (s : State) (ms : List Cmd) : List Share ⊕ (Cmd × Halted) :=
  match eachPart (fun m => s.returns m (List.range (m.f 89 1))) ms, eachPart s.combIn ms with
  | .inr w, _ => .inr w
  | _, .inr w => .inr w
  | .inl back, .inl ins =>
    let all := back.flatten
    .inl (((ms.zip ins).zipIdx).map fun ((m, x), r) =>
      let k := m.f 88 1
      let el := m.f 76 4
      let terms (t : Nat) : List Term :=
        (((List.range k).filter fun j =>
          !((x.route.getD ((t * k + j) / 8) 0).getLsbD ((t * k + j) % 8))).map fun j =>
            (⟨fieldNat x.tok (2 * (t * k + j)) 2, j, fieldNat x.ids (4 * (t * k + j)) 4,
              (all.find? fun a => a.rank == r && a.tok == t && a.kpos == j).map Returned.y⟩ : Term)).foldl
          (fun acc u => insertTerm u acc) []
      let toks := List.range (m.f 72 4)
      let out := toks.flatMap fun t => (List.range el).flatMap fun i =>
        natToBytes 4 (combElem (s.freeWord (2 ^ 55 + (r * 2 ^ 24 + t) * el + i)) i (terms t))
      ⟨m, [(m.f 64 8, out ++ packBits (toks.map fun t => (terms t).isEmpty))], []⟩)

/-- The outputs of a combine. -/
def Cmd.combOuts (m : Cmd) : List (Nat × Nat) := [(m.f 64 8, m.f 72 4 * 4 * m.f 76 4 + (m.f 72 4 + 7) / 8)]

/-! ## REPART (R51 to R55, R383) -/

/-- The limits of the block. -/
def Cmd.repartFields (m : Cmd) : Bool :=
  let sz := m.f 52 2
  m.headerOk && m.spare [(60, 4)] && 16 ≤ sz && sz ≤ 256 && sz % 8 == 0 && m.f 54 2 % 4 == 0
    && (m.f 58 1 == 2 || m.f 58 1 == 3) && m.f 54 2 + 4 * m.f 58 1 ≤ sz
    && (m.f 56 2 == 0xFFFF || (m.f 56 2 % 4 == 0 && m.f 56 2 + 4 ≤ sz)) && m.f 59 1 ≤ 1
    && m.f 12 4 != 0xFFFFFFFF

/-- The source overlaps a buffer (R50's section): they have a byte in common, which an empty range has with none. -/
def Cmd.repartOverlap (m : Cmd) : Bool :=
  let sz := m.f 52 2
  let src := (m.f 16 8, m.f 40 4 * sz)
  let rangesMeet (a b : Nat × Nat) : Bool := a.2 != 0 && b.2 != 0 && rangesMeet a b
  rangesMeet src (m.f 24 8, m.f 44 4 * sz) || rangesMeet src (m.f 32 8, m.f 48 4 * sz)

/-- Changing an entry of a list of coordinates. -/
def setCoord (x : List Nat) (i v : Nat) : List Nat := x.set i v

/-- The excess work of Hilbert's transform is undone, from q = 2^(n) down to 2. -/
def hilbertUndo (d : Nat) : Nat → List Nat → List Nat
  | 0, x => x
  | n + 1, x =>
    let q := 2 ^ (n + 1)
    let x := (List.range d).foldl
      (fun x i =>
        let xi := x.getD i 0
        let x0 := x.getD 0 0
        if xi &&& q ≠ 0 then setCoord x 0 (x0 ^^^ (q - 1))
        else
          let t := (x0 ^^^ xi) &&& (q - 1)
          let x := setCoord x 0 (x0 ^^^ t)
          setCoord x i (x.getD i 0 ^^^ t)) x
    hilbertUndo d n x

/-- The mask of the last coordinate's bits. -/
def hilbertMask (last : Nat) : Nat → Nat
  | 0 => 0
  | n + 1 => (if last &&& 2 ^ (n + 1) ≠ 0 then 2 ^ (n + 1) - 1 else 0) ^^^ hilbertMask last n

/-- The Hilbert transform of the coordinates. -/
def hilbert (d : Nat) (x : List Nat) : List Nat :=
  let x := hilbertUndo d 20 x
  let x := (List.range (d - 1)).foldl (fun x i => setCoord x (i + 1) (x.getD (i + 1) 0 ^^^ x.getD i 0)) x
  let t := hilbertMask (x.getD (d - 1) 0) 20
  x.map (· ^^^ t)

/-- The key of a record (R51). -/
def repartKey (d curve : Nat) (x : List Nat) : Nat :=
  let y := if curve = 1 then hilbert d x else x
  packNat 1 ((List.range (21 * d)).map fun b =>
    let i := if curve = 1 then d - 1 - b % d else b % d
    nbits (y.getD i 0) (b / d) 1)

/-- A record: its bytes, its place, key and weight. -/
structure Rec where
  bytes : List Byte
  rank : Nat
  ix : Nat
  key : Nat
  weight : Nat
  deriving DecidableEq, Repr

/-- The records of a participant. -/
def repartRecs (m : Cmd) (rank : Nat) (data : List Byte) : List Rec :=
  let sz := m.f 52 2
  let d := m.f 58 1
  (List.range (m.f 40 4)).map fun i =>
    let b := (data.drop (sz * i)).take sz
    let xs := (List.range d).map fun j => fieldNat b (m.f 54 2 + 4 * j) 4 % 2 ^ 21
    ⟨b, rank, i, repartKey d (m.f 59 1) xs, if m.f 56 2 = 0xFFFF then 1 else fieldNat b (m.f 56 2) 4⟩

/-- The bucket of a record (R52). -/
def Rec.bucket (r : Rec) (d : Nat) : Nat := r.key / 2 ^ (21 * d - 12)

/-- Whether a record comes before another by a list of measures, compared in turn. -/
def lexBefore : List Nat → List Nat → Bool
  | a :: as, b :: bs => a < b || (a == b && lexBefore as bs)
  | _, _ => false

/-- Insertion by a measure, keeping equals in order. -/
def insertBy (f : Rec → List Nat) (x : Rec) : List Rec → List Rec
  | [] => [x]
  | y :: ys => if lexBefore (f x) (f y) then x :: y :: ys else y :: insertBy f x ys

/-- Records sorted by a measure. -/
def sortBy (f : Rec → List Nat) (rs : List Rec) : List Rec := rs.foldl (fun acc x => insertBy f x acc) []

/-- Records in order with their exclusive prefixes of weight. -/
def prefixes : Nat → List Rec → List (Rec × Nat)
  | _, [] => []
  | c, r :: rs => (r, c) :: prefixes (c + r.weight) rs

/-- The weights, with 1 for every record where they sum to 0 (R52). -/
def weighted (rs : List Rec) : List Rec :=
  if rs.all fun r => r.weight == 0 then rs.map fun r => { r with weight := 1 } else rs

/-- The shares of a repartition. -/
def State.runRepart (s : State) (ms : List Cmd) : List Share ⊕ (Cmd × Halted) :=
  match eachPart (fun m => s.partRead m (m.f 16 8) (m.f 40 4 * m.f 52 2) 0) ms with
  | .inr w => .inr w
  | .inl datas =>
    let d := match ms with
      | m :: _ => m.f 58 1
      | [] => 2
    let p := ms.length
    let recs := weighted (((ms.zip datas).zipIdx).flatMap fun ((m, data), r) => repartRecs m r data)
    let total := recs.foldl (fun n r => n + r.weight) 0
    let ordered := prefixes 0 (sortBy (fun r => [r.bucket d, r.rank, r.key, r.ix]) recs)
    let bound (dst : Nat) : List Rec :=
      sortBy (fun r => [r.rank, r.key, r.ix])
        ((ordered.filter fun (_, c) => min (p - 1) (c * p / total) == dst).map Prod.fst)
    let room (dst : Nat) : Nat := match ms[dst]? with
      | some m => m.f 44 4 + m.f 48 4
      | none => 0
    let unsent := (List.range p).flatMap fun dst => (bound dst).drop (room dst)
    .inl (ms.zipIdx.map fun (m, r) =>
      let sz := m.f 52 2
      let mine := bound r
      let kept := (recs.filter fun x => x.rank == r && unsent.contains x).map Rec.bytes
      let recv := mine.take (m.f 44 4)
      let ovf := (mine.drop (m.f 44 4)).take (m.f 48 4)
      let word (n : Nat) : List Byte := natToBytes 4 n
      ⟨m, [(m.f 24 8, recv.flatMap Rec.bytes), (m.f 32 8, ovf.flatMap Rec.bytes), (m.f 16 8, kept.flatten),
          (m.f 16 8 + kept.length * sz, s.freeBytes ((m.f 40 4 - kept.length) * sz) (2 ^ 56 + r * 2 ^ 50))],
        word recv.length ++ word ovf.length ++ word kept.length ++ word (mine.drop (room r)).length
          ++ natToBytes 8 total ++ natToBytes 8 (mine.foldl (fun n x => n + x.weight) 0)⟩)

/-- The outputs of a repartition. -/
def Cmd.repartOuts (m : Cmd) : List (Nat × Nat) :=
  let sz := m.f 52 2
  [(m.f 16 8, m.f 40 4 * sz), (m.f 24 8, m.f 44 4 * sz), (m.f 32 8, m.f 48 4 * sz)]

/-! ## The commands -/

/-- A2A.DISP. -/
def State.runA2aDisp (s : State) (m : Cmd) : State ⊕ Halted :=
  if !m.dispFields then .inr badField
  else .inl (s.runExchange m Cmd.dispFields (fun x => [x.f 72 4, x.f 80 1, x.f 76 4]) Cmd.dispOuts State.runDisp)

/-- A2A.COMB. -/
def State.runA2aComb (s : State) (m : Cmd) : State ⊕ Halted :=
  if !m.combFields then .inr badField
  else .inl (s.runExchange m Cmd.combFields (fun x => [x.f 76 4, x.f 80 4, x.f 88 1, x.f 84 4]) Cmd.combOuts
    State.runComb)

/-- REPART: a source that overlaps its buffers ends the command with its error value. -/
def State.runRepartCmd (s : State) (m : Cmd) : State ⊕ Halted :=
  let fits (x : Cmd) : Bool := x.repartFields && !x.repartOverlap
  if !m.repartFields then .inr badField
  else if m.repartOverlap then .inl (s.finishCmd m false)
  else .inl (s.runExchange m fits (fun x => [x.f 52 2, x.f 54 2, x.f 56 2, x.f 58 1, x.f 59 1]) Cmd.repartOuts
    State.runRepart)

end Sys2Proof.Machine
end

