-- ==== Sys2Proof/Machine/Text.lean ====
section
/-!
DEFINITION. The text engine (R198 to R208, R384, R385): stream records, vocabularies, UTF-8, tokenizing,
detokenizing with stop strings, and grammar masks.
-/

namespace Sys2Proof.Machine

/-! ## UTF-8 (R203) -/

/-- What a byte string begins with: a valid sequence, a maximal invalid subpart, or a sequence that its end
leaves incomplete. -/
inductive Utf8Head
  | valid (n : Nat)
  | bad (n : Nat)
  | part
  deriving DecidableEq, Repr

/-- What may follow a lead byte: the range of the next byte and how many bytes follow; none for a byte that
leads nothing. -/
def utf8Lead (b : Nat) : Option (Nat × Nat × Nat) :=
  if b < 0x80 then some (0, 0, 0)
  else if b < 0xC2 then none
  else if b < 0xE0 then some (0x80, 0xBF, 1)
  else if b = 0xE0 then some (0xA0, 0xBF, 2)
  else if b = 0xED then some (0x80, 0x9F, 2)
  else if b < 0xF0 then some (0x80, 0xBF, 2)
  else if b = 0xF0 then some (0x90, 0xBF, 3)
  else if b < 0xF4 then some (0x80, 0xBF, 3)
  else if b = 0xF4 then some (0x80, 0x8F, 3)
  else none

/-- The rest of a sequence after `n` of its bytes: `k` more are needed. -/
def utf8Tail (lo hi : Nat) : Nat → Nat → List Byte → Utf8Head
  | n, 0, _ => .valid n
  | _, _ + 1, [] => .part
  | n, k + 1, b :: bs =>
    if lo ≤ b.toNat ∧ b.toNat ≤ hi then utf8Tail 0x80 0xBF (n + 1) k bs else .bad n

/-- The head of a byte string that is not empty. -/
def utf8Head : List Byte → Utf8Head
  | [] => .part
  | b :: bs =>
    match utf8Lead b.toNat with
    | none => .bad 1
    | some (lo, hi, k) => utf8Tail lo hi 1 k bs

/-- Whether a byte string is valid UTF-8; fuel is its length. -/
def utf8Valid : Nat → List Byte → Bool
  | 0, l => l.isEmpty
  | n + 1, l =>
    match l with
    | [] => true
    | _ =>
      match utf8Head l with
      | .valid k => utf8Valid n (l.drop k)
      | _ => false

/-- The replacement character. -/
def replacement : List Byte := [0xEF, 0xBF, 0xBD]

/-! ## Records and vocabularies (R199 to R201) -/

/-- Sub-cause 40: whether a stream record is well formed for a direction. -/
def streamOk (r : List Byte) (dec : Bool) : Bool :=
  let f (off n : Nat) : Nat := fieldNat r off n
  f 0 2 == 1 && f 2 1 == dec.toNat && f 3 1 ≤ 2 && f 5 1 ≤ 3 && f 6 1 ≤ 8 && (dec || f 6 1 == 0)
    && f 7 1 ≤ 31 && f 16 4 < 2 ^ 24 && f 20 2 ≤ 1024 && f 56 8 == 0 && f 72 56 == 0 && f 1440 608 == 0
    && (List.range (f 6 1)).all fun i =>
      let n := f (64 + i) 1
      1 ≤ n && n ≤ 32 && utf8Valid n ((r.drop (128 + 32 * i)).take n)

/-- The fields of a vocabulary's header. -/
structure Vocab where
  base : Nat
  ntok : Nat
  byteBase : Nat
  nmerge : Nat
  tokOff : Nat
  mrgOff : Nat
  clsOff : Nat
  strOff : Nat
  len : Nat
  deriving DecidableEq, Repr

/-- The header at a virtual address. -/
def vocabOf (base : Nat) (h : List Byte) : Vocab :=
  let f (off n : Nat) : Nat := fieldNat h off n
  ⟨base, f 8 4, f 12 4, f 16 4, f 24 8, f 32 8, f 40 8, f 48 8, f 56 8⟩

/-- Sub-cause 41, for the header. -/
def vocabOk (h : List Byte) : Bool :=
  let v := vocabOf 0 h
  fieldNat h 0 4 == 0x42434F56 && fieldNat h 4 2 == 1 && fieldNat h 6 2 == 0 && fieldNat h 20 4 == 0
    && 257 ≤ v.ntok && v.ntok ≤ 2 ^ 21 && v.byteBase + 255 < v.ntok && v.nmerge ≤ 2 ^ 22
    && v.tokOff + 8 * v.ntok ≤ v.len && v.mrgOff + 16 * v.nmerge ≤ v.len && v.clsOff + 256 ≤ v.len
    && v.strOff ≤ v.len

/-- A malformed vocabulary, record, automaton, block. -/
def badRecord : Halted := .fault (.own 40) 0
def badVocab : Halted := .fault (.own 41) 0
def badAutomaton : Halted := .fault (.own 42) 0
def badTextField : Halted := .fault (.own 44) 0

/-- Bytes of an image in global memory. -/
def State.image (s : State) (base off n place : Nat) : List Byte ⊕ Halted :=
  s.globRead place (pagesOf (BitVec.ofNat 64 (base + off)) n)

/-! ## Tokenizing (R202) -/

/-- A byte of the input to be segmented: how many bytes of this command's input it stands for, how many of the open
segment that the stream brought with it, whether it is a segment of its own, and whether it belongs to the invalid
subpart that stops the stream. -/
structure Item where
  byte : Byte
  cost : Nat
  old : Nat
  solo : Bool
  bad : Bool
  deriving DecidableEq, Repr

/-- The input after R203's policy: the items, whether the last ones are an incomplete sequence, and whether the
policy stopped at an invalid subpart, which is then the last of the items. -/
structure Cleaned where
  items : List Item
  partialTail : Bool
  stopped : Bool
  deriving DecidableEq, Repr

/-- The bytes of the input, and of the stream's open segment, that some items stand for. -/
def costOf (l : List Item) : Nat := (l.map Item.cost).sum
def oldOf (l : List Item) : Nat := (l.map Item.old).sum

/-- An invalid subpart as the policy leaves it. -/
def cleanBad (policy : Nat) (bad : List Item) : List Item :=
  match policy with
  | 0 => bad.map fun x => { x with solo := true }
  | 1 =>
    replacement.zipIdx.map fun (b, i) =>
      if i = 0 then ⟨b, costOf bad, oldOf bad, false, false⟩ else ⟨b, 0, 0, false, false⟩
  | _ => bad.map fun x => { x with bad := true }

/-- R203 over the input; fuel is its length. -/
def cleanInput (policy : Nat) (final : Bool) : Nat → List Item → List Item → Cleaned
  | 0, _, acc => ⟨acc, false, false⟩
  | n + 1, l, acc =>
    if l.isEmpty then ⟨acc, false, false⟩
    else
      let bad (k : Nat) : Cleaned :=
        let acc := acc ++ cleanBad policy (l.take k)
        if 2 ≤ policy then ⟨acc, false, true⟩ else cleanInput policy final n (l.drop k) acc
      match utf8Head (l.map Item.byte) with
      | .valid k => cleanInput policy final n (l.drop k) (acc ++ l.take k)
      | .bad k => bad k
      | .part => if final then bad l.length else ⟨acc ++ l, true, false⟩

/-- A continuation byte of a sequence. -/
def Item.continues (x : Item) : Bool := !x.solo && 0x80 ≤ x.byte.toNat && x.byte.toNat ≤ 0xBF

/-- R203 over the stream's open segment and the input after it. What the segment begins with are the last bytes of a
sequence that a full segment has cut, and they are not judged again: its leading continuation bytes, at most three, and
where it has no others those that follow them in the input. The record does not say how many the sequence still lacks
(DESIGN CHOICE, log entry 125). -/
def cleanStream (policy : Nat) (final : Bool) (old data : List Item) : Cleaned :=
  let cut := (old.takeWhile Item.continues).take 3
  let rest := (if cut.length = old.length ∧ cut ≠ [] then data.takeWhile Item.continues else []).take (3 - cut.length)
  let items := (old ++ data).drop (cut.length + rest.length)
  cleanInput policy final items.length items (cut ++ rest)

/-- The segments: the closed ones in order, and the one still open. -/
structure Segments where
  closed : List (List Item)
  last : List Item
  deriving DecidableEq, Repr

/-- The open segment is closed, if it has bytes. -/
def Segments.close (g : Segments) : Segments :=
  if g.last.isEmpty then g else ⟨g.closed ++ [g.last], []⟩

/-- Segmentation by the class table (R202). -/
def segment (cls : List Byte) (tail : Bool) : List Item → Segments → Segments
  | [], g => g
  | x :: rest, g =>
    let c := cls.getD x.byte.toNat 0
    let g := if x.solo || (c.getLsbD 0 && !x.continues) then g.close else g
    let g : Segments := { g with last := g.last ++ [x] }
    let joined := match rest with
      | y :: _ => y.continues
      | [] => tail
    let g := if x.solo || g.last.length == 1024 || (c.getLsbD 1 && !joined) then g.close else g
    segment cls tail rest g

/-- A merge entry, and whether it keeps the table's order: it stands above the entry before it and below the one
after it by (LEFT, RIGHT). -/
structure Merge where
  left : Nat
  right : Nat
  result : Nat
  rank : Nat
  ordered : Bool
  deriving DecidableEq, Repr

/-- The merge table of an image. -/
def mergesOf (n : Nat) (data : List Byte) : List Merge :=
  let key (i : Nat) : Nat := fieldNat data (16 * i) 4 * 2 ^ 32 + fieldNat data (16 * i + 4) 4
  (List.range n).map fun i =>
    ⟨fieldNat data (16 * i) 4, fieldNat data (16 * i + 4) 4, fieldNat data (16 * i + 8) 4,
      fieldNat data (16 * i + 12) 4, (i == 0 || key (i - 1) < key i) && (i + 1 == n || key i < key (i + 1))⟩

/-- Whether an entry in use is well formed (R200, R201). -/
def Merge.ok (x : Merge) (ntok : Nat) : Bool := x.ordered && decide (x.result < ntok)

/-- The pairs of a token list that merge: the position and the entry. -/
def mergeable (ms : List Merge) : Nat → List Nat → List (Nat × Merge)
  | i, a :: b :: rest =>
    match ms.find? fun x => x.left == a && x.right == b with
    | some x => (i, x) :: mergeable ms (i + 1) (b :: rest)
    | none => mergeable ms (i + 1) (b :: rest)
  | _, _ => []

/-- The merge loop; fuel is the length. None where a merge entry in use is malformed: an entry is used, and so
checked, when a pair of the segment finds it (R200). -/
def mergeLoop (ms : List Merge) (ntok : Nat) : Nat → List Nat → Option (List Nat)
  | 0, toks => some toks
  | n + 1, toks =>
    match mergeable ms 0 toks with
    | [] => some toks
    | x :: xs =>
      let (i, e) := xs.foldl (fun best y => if y.2.rank < best.2.rank then y else best) x
      if (x :: xs).any fun y => !y.2.ok ntok then none
      else mergeLoop ms ntok n (toks.take i ++ [e.result] ++ toks.drop (i + 2))

/-- The tokens of a closed segment. -/
def segTokens (v : Vocab) (ms : List Merge) (seg : List Item) : Option (List Nat) :=
  let toks := seg.map fun x => v.byteBase + x.byte.toNat
  if seg.any Item.solo then some toks else mergeLoop ms v.ntok toks.length toks

/-- What the closed segments come to: tokens, input bytes taken, bytes of the stream's open segment taken, segments
written, whether the next did not fit. -/
structure Encoded where
  toks : List Nat
  taken : Nat
  old : Nat
  segs : Nat
  full : Bool
  deriving DecidableEq, Repr

/-- The segments written one after another while they fit; none for a malformed entry. -/
def encodeSegs (v : Vocab) (ms : List Merge) (cap : Nat) : List (List Item) → Encoded → Option Encoded
  | [], e => some e
  | g :: gs, e =>
    match segTokens v ms g with
    | none => none
    | some ts =>
      if cap < e.toks.length + ts.length then some { e with full := true }
      else encodeSegs v ms cap gs
        { e with toks := e.toks ++ ts, taken := e.taken + costOf g, old := e.old + oldOf g, segs := e.segs + 1 }

/-! ## Detokenizing (R204, R205) -/

/-- A stream while a command decodes: pending bytes, bytes held back, output, its state and error, the stop
string that matched. -/
structure Decoding where
  pend : List Byte
  hold : List Byte
  out : List Byte
  sstate : Nat
  err : Nat
  stop : Option Nat
  deriving DecidableEq, Repr

/-- Whether one list is a suffix of another. -/
def isSuffix (x l : List Byte) : Bool := x.length ≤ l.length && l.drop (l.length - x.length) == x

/-- The stop string that completes at the end of a list: the one that starts earliest, then the lowest. -/
def stopMatch (stops : List (List Byte)) (l : List Byte) : Option (Nat × List Byte) :=
  (stops.zipIdx.filter fun (x, _) => isSuffix x l).foldl
    (fun best (x, i) =>
      match best with
      | some (_, y) => if y.length < x.length then some (i, x) else best
      | none => some (i, x)) none

/-- The length of the longest suffix that is a proper prefix of a stop string. -/
def holdLength (stops : List (List Byte)) (l : List Byte) : Nat :=
  (List.range (l.length + 1)).foldl
    (fun best n =>
      let tail := l.drop (l.length - n)
      if stops.any fun x => decide (n < x.length) && x.take n == tail then n else best) 0

/-- One byte through the stop stage. -/
def stopByte (stops : List (List Byte)) (incl : Bool) (d : Decoding) (b : Byte) : Decoding :=
  if d.sstate ≠ 0 then d
  else
    let l := d.hold ++ [b]
    match stopMatch stops l with
    | some (i, x) =>
      { d with
        hold := [], pend := [], sstate := 1, stop := some i
        out := d.out ++ l.take (l.length - x.length) ++ if incl then x else [] }
    | none =>
      let n := holdLength stops l
      { d with hold := l.drop (l.length - n), out := d.out ++ l.take (l.length - n) }

/-- Bytes through the stop stage. -/
def stopBytes (stops : List (List Byte)) (incl : Bool) (d : Decoding) (l : List Byte) : Decoding :=
  l.foldl (stopByte stops incl) d

/-- An invalid subpart by the policy. -/
def decodeBad (policy : Nat) (stops : List (List Byte)) (incl : Bool) (d : Decoding) (bad : List Byte) :
    Decoding :=
  match policy with
  | 0 => stopBytes stops incl d bad
  | 1 => stopBytes stops incl d replacement
  | _ => { d with sstate := 2, err := 1, pend := [] }

/-- Bytes through UTF-8 assembly; fuel is their length. -/
def assemble (policy : Nat) (stops : List (List Byte)) (incl : Bool) : Nat → List Byte → Decoding → Decoding
  | 0, _, d => { d with pend := [] }
  | n + 1, l, d =>
    if d.sstate ≠ 0 then d
    else if l.isEmpty then { d with pend := [] }
    else match utf8Head l with
      | .valid k => assemble policy stops incl n (l.drop k) (stopBytes stops incl d (l.take k))
      | .bad k => assemble policy stops incl n (l.drop k) (decodeBad policy stops incl d (l.take k))
      | .part => { d with pend := l }

/-- The string of a token; `none` where its entry is malformed. -/
def State.tokenString (s : State) (v : Vocab) (id : Nat) : Option (List Byte) ⊕ Halted :=
  match s.image v.base (v.tokOff + 8 * id) 8 (2 ^ 41 + id * 8) with
  | .inr h => .inr h
  | .inl e =>
    let off := fieldNat e 0 4
    let n := fieldNat e 4 2
    if n = 0 ∨ 64 < n ∨ fieldNat e 6 2 ≠ 0 ∨ v.len < v.strOff + off + n then .inl none
    else match s.image v.base (v.strOff + off) n (2 ^ 42 + id * 64) with
      | .inr h => .inr h
      | .inl x =>
        if v.byteBase ≤ id ∧ id < v.byteBase + 256 ∧ x ≠ [BitVec.ofNat 8 (id - v.byteBase)] then .inl none
        else .inl (some x)

/-- What the tokens come to: the stream, tokens consumed, and whether the output was full. -/
structure Decoded where
  d : Decoding
  used : Nat
  full : Bool
  deriving DecidableEq, Repr

/-- Tokens one after another, while the stream is open and their bytes fit. -/
def State.decodeTokens (s : State) (v : Vocab) (policy : Nat) (stops : List (List Byte)) (incl : Bool)
    (cap : Nat) : List Nat → Decoded → Decoded ⊕ Halted
  | [], x => .inl x
  | id :: ids, x =>
    if x.d.sstate ≠ 0 then .inl x
    else if v.ntok ≤ id then .inl { x with d := { x.d with sstate := 2, err := 2 } }
    else match s.tokenString v id with
      | .inr h => .inr h
      | .inl none => .inr badVocab
      | .inl (some str) =>
        let l := x.d.pend ++ str
        let d := assemble policy stops incl l.length l x.d
        if cap < d.out.length then .inl { x with full := true }
        else s.decodeTokens v policy stops incl cap ids { x with d := d, used := x.used + 1 }

/-- FINAL (R205): PEND is an invalid subpart, HOLD is emitted, the stream is finished; a stop string that PEND completes
stops it instead. -/
def finishDecode (policy : Nat) (stops : List (List Byte)) (incl : Bool) (cap : Nat) (x : Decoded) : Decoded :=
  if x.d.sstate ≠ 0 ∨ x.full then x
  else
    let d := if x.d.pend.isEmpty then x.d
      else decodeBad policy stops incl { x.d with pend := [] } x.d.pend
    let d := if d.sstate = 1 then d else { d with out := d.out ++ d.hold, hold := [], sstate := 3 }
    if cap < d.out.length then { x with full := true } else { x with d := d }

/-! ## Writing the record -/

/-- A record with a field replaced. -/
def setField (r : List Byte) (off n v : Nat) : List Byte := patch r off (natToBytes n v)

/-- The output, then the record, are written; the record as a whole, so not at all where one of its pages refuses it
(R200). -/
def State.textEnd (s : State) (m : Cmd) (out rec : List Byte) : Ran :=
  match s.eWrite (m.f 32 8) 0 out (2 ^ 43) with
  | (s, some h) => .halted s m h
  | (s, none) =>
    match s.globWrite (2 ^ 44) rec (pagesOf (BitVec.ofNat 64 (m.f 16 8)) 2048) with
    | (_, some h) => .halted s m h
    | (s, none) => .done s

/-- The counts of a command. -/
def countFields (r : List Byte) (toks bytes lastIn lastOut : Nat) : List Byte :=
  setField (setField (setField (setField r 32 8 (fieldNat r 32 8 + toks)) 40 8 (fieldNat r 40 8 + bytes)) 48 4
    lastIn) 52 4 lastOut

/-- The record after an encode. -/
def encodeRecord (r : List Byte) (e : Encoded) (seg : List Byte) (sstate err : Nat) : List Byte :=
  let r := countFields r e.toks.length e.taken e.taken e.toks.length
  patch (setField (setField (setField r 20 2 seg.length) 4 1 sstate) 23 1 err) 416 seg

/-- The record after a decode. -/
def decodeRecord (r : List Byte) (x : Decoded) : List Byte :=
  let d := x.d
  let toks := fieldNat r 32 8 + x.used
  let r := countFields r x.used d.out.length x.used d.out.length
  let r := setField (setField (setField r 5 1 d.pend.length) 16 4 (bytesToNat d.pend)) 7 1 d.hold.length
  let r := setField (setField (patch r 384 d.hold) 4 1 d.sstate) 23 1 d.err
  match d.stop with
  | some i => setField (setField r 24 4 i) 28 4 (toks - 1)
  | none => r

/-! ## TXT.ENC and TXT.DEC (R384) -/

/-- The block's fields. -/
def Cmd.textFields (m : Cmd) : Bool :=
  m.headerOk && m.f 12 4 == 0xFFFFFFFF && m.spare [(49, 15)] && m.f 48 1 ≤ 1 && locField (m.f 24 8)
    && locField (m.f 32 8) && m.f 16 8 % 64 == 0

/-- What a stream command reads at its start: the record and the vocabulary. R200 gives no sub-cause to a VOCAB that is
not 64-byte aligned: the header is read there, and the command ends with 41 (DESIGN CHOICE, log entry 126). -/
def State.textStart (s : State) (m : Cmd) (dec : Bool) : (List Byte × Vocab) ⊕ Halted :=
  match s.image (m.f 16 8) 0 2048 0 with
  | .inr h => .inr h
  | .inl r =>
    if !streamOk r dec then .inr badRecord
    else
      let base := fieldNat r 8 8
      match s.image base 0 64 4096 with
      | .inr h => .inr h
      | .inl h => if base % 64 ≠ 0 || !vocabOk h then .inr badVocab else .inl (r, vocabOf base h)

/-- A command on a stream that is not open consumes and writes nothing. -/
def State.textIdle (s : State) (m : Cmd) (r : List Byte) : Ran :=
  s.textEnd m [] (setField (setField r 48 4 0) 52 4 0)

/-- A stream whose record the program has written while the command was queued: what the command writes is
unpredictable (R199). -/
def State.textSpoilt (s : State) (m : Cmd) (n : Nat) : Ran :=
  s.textEnd m (s.freeBytes n (2 ^ 45)) (s.freeBytes 2048 (2 ^ 46))

/-- The open segment after a command: what is still open, or, where the command ended before the end of its input, the
bytes of the old one that no written segment holds, behind the rest of a replacement whose first byte has been
written. -/
def openSegment (old : List Byte) (g : Segments) (e : Encoded) (stopped final : Bool) : List Byte :=
  if e.full ∨ stopped then
    let left := (g.closed.drop e.segs).flatten ++ g.last
    (left.takeWhile fun x => x.cost == 0 && x.old == 0).map Item.byte ++ old.drop e.old
  else if final then [] else g.last.map Item.byte

/-- Whether a segment is closed by what it holds, and not by the byte after it. -/
def closesItself (cls : List Byte) (seg : List Item) : Bool :=
  seg.length == 1024 || seg.getLast?.any fun x => x.solo || (cls.getD x.byte.toNat 0).getLsbD 1

/-- The items whose class entries a command uses: those of the segments up to the one that did not fit, and the byte
that closed it (R200, R202). Bytes that are segments of their own need no class. -/
def classUsers (cls : List Byte) (c : Cleaned) (g : Segments) (e : Encoded) : List Item :=
  let upTo := g.closed.take (e.segs + 1)
  let n := upTo.flatten.length + (if (upTo.getLast?).any (closesItself cls) then 0 else 1)
  (if e.full then c.items.take n else c.items).filter fun x => !x.solo

/-- The segments that may be written: those before the one that holds an invalid subpart under policy 2 (R203). -/
def Segments.sound (g : Segments) : List (List Item) := g.closed.takeWhile fun l => !l.any Item.bad

/-- TXT.ENC. -/
def State.runTxtEnc (s : State) (m : Cmd) : Ran :=
  if !m.textFields then .halted s m badTextField
  else if m.spoilt then s.textSpoilt m (4 * m.f 44 4)
  else match s.textStart m false with
    | .inr h => .halted s m h
    | .inl (r, v) =>
      if fieldNat r 4 1 ≠ 0 then s.textIdle m r
      else
        let final := m.f 48 1 == 1
        match s.eRead (m.f 24 8) 0 (m.f 40 4) (2 ^ 40), s.image v.base v.clsOff 256 8192,
            s.image v.base v.mrgOff (16 * v.nmerge) 16384 with
        | .inr h, _, _ => .halted s m h
        | _, .inr h, _ => .halted s m h
        | _, _, .inr h => .halted s m h
        | .inl data, .inl cls, .inl mrg =>
          let ms := mergesOf v.nmerge mrg
          let old := (r.drop 416).take (fieldNat r 20 2)
          let c := cleanStream (fieldNat r 3 1) final (old.map fun b => ⟨b, 0, 1, false, false⟩)
            (data.map fun b => ⟨b, 1, 0, false, false⟩)
          let g := segment cls c.partialTail c.items ⟨[], []⟩
          let g := if final && !c.stopped then g.close else g
          match encodeSegs v ms (m.f 44 4) g.sound ⟨[], 0, 0, 0, false⟩ with
          | none => .halted s m badVocab
          | some e =>
            if (classUsers cls c g e).any fun x => 4 ≤ (cls.getD x.byte.toNat 0).toNat then .halted s m badVocab
            else
              let halted := e.full || c.stopped
              let seg := openSegment old g e c.stopped final
              let taken := if halted || final then e.taken else e.taken + costOf g.last
              let sstate := if e.full then 0 else if c.stopped then 2 else if final then 3 else 0
              let err := if c.stopped && !e.full then 1 else 0
              let out := e.toks.flatMap fun t => natToBytes 4 t
              s.textEnd m out (encodeRecord r { e with taken := taken } seg sstate err)

/-- TXT.DEC. R200 names neither an INCL above 1 nor an SSTATE above 3: an INCL above 1 emits no stop string, and a
stream of such an SSTATE is one that is not open (DESIGN CHOICE, log entry 127). -/
def State.runTxtDec (s : State) (m : Cmd) : Ran :=
  if !m.textFields then .halted s m badTextField
  else if m.spoilt then s.textSpoilt m (m.f 44 4)
  else match s.textStart m true with
    | .inr h => .halted s m h
    | .inl (r, v) =>
      if fieldNat r 4 1 ≠ 0 then s.textIdle m r
      else match s.eRead (m.f 24 8) 0 (4 * m.f 40 4) (2 ^ 40) with
        | .inr h => .halted s m h
        | .inl data =>
          let ids := (List.range (m.f 40 4)).map fun i => fieldNat data (4 * i) 4
          let policy := fieldNat r 3 1
          let incl := fieldNat r 22 1 == 1
          let stops := (List.range (fieldNat r 6 1)).map fun i =>
            (r.drop (128 + 32 * i)).take (fieldNat r (64 + i) 1)
          let d : Decoding := ⟨(r.drop 16).take (fieldNat r 5 1), (r.drop 384).take (fieldNat r 7 1), [], 0,
            fieldNat r 23 1, none⟩
          match s.decodeTokens v policy stops incl (m.f 44 4) ids ⟨d, 0, false⟩ with
          | .inr h => .halted s m h
          | .inl x =>
            let x := if m.f 48 1 = 1 then finishDecode policy stops incl (m.f 44 4) x else x
            s.textEnd m x.d.out (decodeRecord r x)

/-! ## TXT.MASK (R206, R207, R385) -/

/-- The fields of an automaton's header. -/
structure Automaton where
  base : Nat
  nstate : Nat
  ntok : Nat
  stOff : Nat
  runOff : Nat
  len : Nat
  deriving DecidableEq, Repr

/-- The header; none where it is malformed. -/
def automatonOf (base : Nat) (h : List Byte) : Option Automaton :=
  let f (off n : Nat) : Nat := fieldNat h off n
  let a : Automaton := ⟨base, f 8 4, f 12 4, f 16 8, f 24 8, f 32 8⟩
  if f 0 4 == 0x41544D47 && f 4 2 == 1 && f 6 2 == 0 && f 40 24 == 0 && 1 ≤ a.nstate && a.nstate ≤ 2 ^ 24
      && a.stOff + 16 * a.nstate ≤ a.len && a.runOff ≤ a.len then some a
  else none

/-- The runs of a state: first, count, next. -/
abbrev Runs := List (Nat × Nat × Nat)

/-- Whether runs are well formed from a token onward. -/
def runsOk (a : Automaton) : Nat → Runs → Bool
  | _, [] => true
  | lo, (first, count, next) :: rest =>
    lo ≤ first && 1 ≤ count && first + count ≤ a.ntok && next < a.nstate && runsOk a (first + count) rest

/-- The runs of a state, judged as they are met. -/
def State.runsAt (s : State) (a : Automaton) (st : Nat) : Runs ⊕ Halted :=
  match s.image a.base (a.stOff + 16 * st) 16 (2 ^ 41 + st * 16) with
  | .inr h => .inr h
  | .inl e =>
    let first := fieldNat e 0 4
    let n := fieldNat e 4 4
    if 1 < fieldNat e 8 4 ∨ fieldNat e 12 4 ≠ 0 ∨ a.len < a.runOff + 12 * (first + n) then .inr badAutomaton
    else match s.image a.base (a.runOff + 12 * first) (12 * n) (2 ^ 42 + st * 4096) with
      | .inr h => .inr h
      | .inl data =>
        let runs := (List.range n).map fun i =>
          (fieldNat data (12 * i) 4, fieldNat data (12 * i + 4) 4, fieldNat data (12 * i + 8) 4)
        if runsOk a 0 runs then .inl runs else .inr badAutomaton

/-- The run that holds a token. -/
def runOf (runs : Runs) (t : Nat) : Option Nat :=
  (runs.find? fun (first, count, _) => first ≤ t && t < first + count).map fun (_, _, next) => next

/-- The walk over tokens: final state and tokens followed. -/
def State.walkTokens (s : State) (a : Automaton) : List Nat → Nat → Nat → (Nat × Nat) ⊕ Halted
  | [], st, n => .inl (st, n)
  | t :: ts, st, n =>
    match s.runsAt a st with
    | .inr h => .inr h
    | .inl runs =>
      match runOf runs t with
      | none => .inl (0xFFFFFFFF, n)
      | some next => s.walkTokens a ts next (n + 1)

/-- The bitmap of a state. -/
def maskBytes (a : Automaton) (runs : Runs) : List Byte :=
  packBits ((List.range ((a.ntok + 31) / 32 * 32)).map fun t => decide (t < a.ntok) && (runOf runs t).isSome)

/-- The block's fields. -/
def Cmd.maskFields (m : Cmd) : Bool :=
  m.headerOk && m.spare [(29, 3), (44, 4)] && m.f 28 1 ≤ 1 && locField (m.f 32 8)

/-- TXT.MASK. -/
def State.runTxtMask (s : State) (m : Cmd) : Ran :=
  let fin (s : State) (data : List Byte) : Ran := finWith (fun _ => data) s m
  if !m.maskFields then .halted s m badTextField
  else match s.image (m.f 16 8) 0 64 0 with
    | .inr h => .halted s m h
    | .inl h =>
      match automatonOf (m.f 16 8) h with
      | none => .halted s m badAutomaton
      | some a =>
        let words := (a.ntok + 31) / 32
        if a.nstate ≤ m.f 24 4 then .halted s m badAutomaton
        else if m.f 28 1 = 0 then
          if m.f 40 4 < 4 * words then .halted s m (.fault (.own 43) 0)
          else match s.runsAt a (m.f 24 4) with
            | .inr h => .halted s m h
            | .inl runs =>
              match s.eWrite (m.f 32 8) 0 (maskBytes a runs) (2 ^ 43) with
              | (s, some h) => .halted s m h
              | (s, none) => fin s (natToBytes 4 words)
        else match s.eRead (m.f 32 8) 0 (4 * m.f 40 4) (2 ^ 40) with
          | .inr h => .halted s m h
          | .inl data =>
            match s.walkTokens a ((List.range (m.f 40 4)).map fun i => fieldNat data (4 * i) 4) (m.f 24 4) 0 with
            | .inr h => .halted s m h
            | .inl (st, n) => fin s (natToBytes 4 st ++ natToBytes 4 n)

end Sys2Proof.Machine
end

