-- ==== Sys2Proof/Machine/Command.lean ====
section
/-!
DEFINITION. The start and the end of an engine command (R168, R360, R365): ENGINE_COMMAND_START and
COMMAND_FINISHED.
-/

namespace Sys2Proof.Machine

/-! ## The start (R168, R360) -/

/-- Whether a fence or an acquire of the context holds a later command back (R143, R147). -/
def Ctx.holdsBack (c : Ctx) (m : Cmd) : Bool :=
  let p := (enginePath m.op.engine).val
  c.fences.any (fun f => f.paths.getLsbD p && decide (f.cmd ≤ m.id))
    || c.acquires.any fun a => a.paths.getLsbD p && decide (a.cmd ≤ m.id)

/-- Whether a command's turn has come in its queue: one at a time, in order, on the matrix and copy queues and on a
die's text engine, where a suspended command has left the queue for its context, whose later commands wait for it and
hold up no other context's (R198, R229; log entry 39); in issue order within a context on the fabric queue. -/
def State.turnOf (s : State) (e : Engine) (m : Cmd) : Bool :=
  let q := s.queueOf e
  let before (x y : Cmd) : Bool := x.ctx == y.ctx && x.core == y.core && decide (x.id < y.id)
  let waits (y : Cmd) : Bool := q.any fun x => x.run == .suspended && before x y
  let ahead := q.takeWhile fun x => !(x.is m)
  match e with
  | .matrix | .copy => ahead.isEmpty
  | .fabric => !(q.any fun x => before x m)
  | .text => !(q.any fun x => x.run == .running) && !waits m && !(ahead.any fun x => x.run == .queued && !waits x)

/-- The scoreboard's entries for a command. -/
def State.entriesOf (s : State) (m : Cmd) : List SbEntry := (s.heldRegions m).map fun (w, r) => ⟨m.id, r, w⟩

/-- Insertion by issue order. -/
def insertCmd (m : Cmd) : List Cmd → List Cmd
  | [] => [m]
  | x :: xs => if m.id < x.id then m :: x :: xs else x :: insertCmd m xs

/-- The scoreboard of the selected core is brought up to date (R168): commands that have entered keep the entries of
the regions that they have not finished; the others enter in issue order while entries are free (DESIGN CHOICE, log
entry 97: among the queues of a core too). -/
def State.syncSb (s : State) : State :=
  let cs := (s.commands s.coreIx).foldl (fun acc m => insertCmd m acc) []
  let in_ (m : Cmd) : Bool := s.core.sb.any fun e => e.cmd == m.id
  let kept := (cs.filter in_).flatMap s.entriesOf
  let all := ((cs.filter fun m => !in_ m).foldl
    (fun (acc : List SbEntry × Bool) m =>
      let es := s.entriesOf m
      if acc.2 ∨ 32 < acc.1.length + es.length then (acc.1, true) else (acc.1 ++ es, false)) (kept, false)).1
  s.modCore fun k => { k with sb := all }

/-- Whether a command has not entered its regions into the scoreboard, or they conflict with those of an
earlier-issued command of the core. -/
def State.regionsWait (s : State) (m : Cmd) : Bool :=
  let rs := s.heldRegions m
  (!rs.isEmpty && !s.core.sb.any fun e => e.cmd == m.id)
    || (s.commands m.core).any fun x => decide (x.id < m.id) && conflict (s.heldRegions x) rs

/-- The command that a context may start on an engine. -/
def State.startable (s : State) (e : Engine) (c : CtxNo) : Option Cmd :=
  let s := s.syncSb
  (s.queueOf e).find? fun m =>
    m.ctx == c && m.core == s.coreIx && m.run == .queued && s.turnOf e m && !(s.ctxAt c).holdsBack m
      && !s.regionsWait m

/-- A command that runs. A routine that has not begun stands at its entry, the word that does not finish where a stop
meets it before its first (R187, R191). -/
def Cmd.entered (m : Cmd) (k : Core) : Cmd :=
  if m.op = .mcall ∧ !m.routine.started then
    { m with run := .running, routine := { m.routine with upc := k.microAddr m.slot.toNat 0 } }
  else { m with run := .running }

/-- A command starts: its regions stand in the scoreboard, and it runs. -/
def State.startCmd (s : State) (m : Cmd) : State := s.syncSb.modQueue m fun q => putCmd q (m.entered s.core)

/-! ## The end (R150, R229, R365) -/

/-- The outputs of a copy or text command: engine address, offset and length of each run of bytes. -/
def Cmd.outputs (m : Cmd) : List (Nat × Nat × Nat) :=
  match m.op with
  | .tsst => (List.range (m.f 26 2)).map fun i => (m.f 16 4, i * m.f 20 4, 4 * m.f 28 2)
  | .xcopy =>
    if m.f 49 1 = 0 then (List.range (m.f 32 4)).map fun i => (m.f 24 8, i * m.f 44 4, m.f 36 4)
    else (List.range (m.f 36 4 / m.f 48 1)).map fun e => (m.f 24 8, e * m.f 44 4, m.f 32 4 * m.f 48 1)
  | .xgather => (List.range (m.f 44 4)).map fun i => (m.f 32 8, i * m.f 52 4, m.f 48 4)
  | .embpool => [(m.f 48 8, 0, 4 * m.f 64 2 * m.f 60 4)]
  | .xcvt =>
    [(m.f 24 8, 0, tySize (m.f 64 1) * m.f 60 4), (m.f 32 8, 0, 4 * m.f 60 4),
      (m.f 40 8, 0, 4 * (m.f 48 4 + 1))]
  | .txtEnc => [(m.f 32 8, 0, 4 * m.f 44 4)]
  | .txtDec => [(m.f 32 8, 0, m.f 44 4)]
  | .txtMask => if m.f 28 1 = 0 then [(m.f 32 8, 0, m.f 40 4)] else []
  | _ => []

/-- The tile-store rectangle of a TSLD becomes unpredictable. -/
def State.spoilTile (s : State) (m : Cmd) : State :=
  (List.range (m.f 26 2)).foldl
    (fun s i => s.tileWrite (m.f 24 1 + i) (m.f 25 1)
      ((List.range (m.f 28 2)).map fun j => s.freeWord (2 ^ 50 + i * 256 + j))) s

/-- The payload of a failed transfer or text command is unpredictable (R150). -/
def State.spoilOutputs (s : State) (m : Cmd) : State :=
  let s := if m.op = .tsld then s.spoilTile m else s
  m.outputs.foldl (fun s (x, off, n) => (s.eWrite x off (s.freeBytes n (2 ^ 51 + off)) 0).1) s

/-- A fault that comes before the command has written anything, or after which its own rule says what its
outputs are. -/
def Cmd.ownRule (m : Cmd) (h : Halted) : Bool :=
  match h with
  | .fault (.own n) _ => n != 35 && n != 36 && n != 37
  | .fault f _ => f.suspends
  | .fail _ => m.op == .embpool && m.phase == 1
  | .wait => true

/-- What a stopped command leaves of its payload. -/
def State.spoilFor (s : State) (m : Cmd) (h : Halted) : State := if m.ownRule h then s else s.spoilOutputs m

/-- A command that is stopped ends or suspends. A fabric command ends without ENGFAULT unless its own check
stopped it. -/
def State.haltCmd (s : State) (m : Cmd) (h : Halted) : State :=
  let s := s.spoilFor m h
  match h with
  | .wait => s.modQueue m fun q => putCmd q m
  | .fail r => s.failCmd m r 0
  | .fault f va =>
    match m.op.engine, f with
    | .fabric, .own _ => s.engFault m f va
    | .fabric, _ => s.failCmd m .refused 0
    | _, _ => s.engFault m f va

/-- A run's outcome. -/
def State.settleRan (r : Ran) (m : Cmd) : State :=
  match r with
  | .done t => t.finishCmd m true
  | .more t m' => t.modQueue m' fun q => putCmd q m'
  | .halted t m' h => t.haltCmd m' h

/-- An exchange's outcome. -/
def State.settleExchange (s : State) (m : Cmd) (r : State ⊕ Halted) : State :=
  match r with
  | .inl t => t
  | .inr h => s.haltCmd m h

/-- A running command does its work, as far as one event takes it. -/
def State.runCmd (s : State) (m : Cmd) : State :=
  match m.op with
  | .mcall => State.settleRan (s.runMcall m) m
  | .cellld => State.settleRan (s.runCellld m) m
  | .flowset => State.settleRan (s.runFlowset m) m
  | .xwin => State.settleRan (s.runXwin m) m
  | .tsld => State.settleRan (s.runTile m tsldRow) m
  | .tsst => State.settleRan (s.runTile m tsstRow) m
  | .xcopy => State.settleRan (s.runXcopy m) m
  | .xgather => State.settleRan (s.runXgather m) m
  | .embpool => State.settleRan (s.runEmbpool m) m
  | .xcvt => State.settleRan (s.runXcvt m) m
  | .cgload => State.settleRan (s.runCgload m) m
  | .cgrun => s
  | .a2aDisp => s.settleExchange m (s.runA2aDisp m)
  | .a2aComb => s.settleExchange m (s.runA2aComb m)
  | .repart => s.settleExchange m (s.runRepartCmd m)
  | .txtEnc => State.settleRan (s.runTxtEnc m) m
  | .txtDec => State.settleRan (s.runTxtDec m) m
  | .txtMask => State.settleRan (s.runTxtMask m) m

/-- ENGINE_COMMAND_START (R168): the next command of a context on an engine starts. -/
def execEngineCommandStart (e : Engine) (c : CtxNo) (s : State) : Res :=
  match (s.startable e c).filter fun _ => !s.stopped c with
  | none => .next s
  | some m =>
    let m := m.entered s.core
    let t := (s.startCmd m).forCmd m
    if m.op = .cgrun then
      match t.startPrint m with
      | (t, none) => .next (t.backTo s)
      | (t, some h) => .next ((t.haltCmd m h).backTo s)
    else .next (t.backTo s)

/-- The command that a context is running on an engine. -/
def State.runningCmd (s : State) (e : Engine) (c : CtxNo) : Option Cmd :=
  (s.queueOf e).find? fun m => m.ctx == c && m.core == s.coreIx && m.run == .running

/-- COMMAND_FINISHED (R360): the running command of a context on an engine does its work, writes its outputs, its
status record and its completion or error value, and leaves; it suspends, or goes on later, where it must. -/
def execCommandFinished (e : Engine) (c : CtxNo) (s : State) : Res :=
  match s.runningCmd e c with
  | none => .next s
  | some m =>
    let t := s.forCmd m
    if m.dying then .next (((t.spoilOutputs m).finishCmd m false).backTo s).syncSb
    else if s.stopped c then .next s
    else .next ((t.runCmd m).backTo s).syncSb

/-- What the engines of the selected core can do by themselves. -/
def State.engineEvents (s : State) : List Instr :=
  ([.matrix, .copy, .fabric, .text] : List Engine).flatMap fun e => allCtxs.flatMap fun c =>
    (if (s.startable e c).isSome && !s.stopped c then [Instr.engineCommandStart e c] else [])
      ++ (if (s.runningCmd e c).any fun m => m.dying || (m.op != .cgrun && !s.stopped c) then [.commandFinished e c]
        else [])

end Sys2Proof.Machine
end

