-- ==== Sys2Proof/Machine/Ports.lean ====
section
/-!
DEFINITION. Events of the fabric and memory ports (R26, R28 to R36, R144, R154): responses and timeouts,
requests of other modules at this home, the loss of lanes, planes and memory links, and dropped flits.
-/

namespace Sys2Proof.Machine

/-! ## Responses (R34, R35) -/

/-- The outstanding request with a tag; pool and host requests have tags of their own. -/
def Fabric.withTag (f : Fabric) (io : Bool) (tag : BitVec 12) : Option Request :=
  f.reqs.find? fun r => r.sent && r.io == io && r.tag == tag

/-- RESPONSE_RECEIVE (R34): the tag is free, and the value or the failure arrives. -/
def execResponseReceive (io : Bool) (tag : BitVec 12) (r : Reply) (data : List Byte) (s : State) : Res :=
  match s.fabric.withTag io tag with
  | some q => .next (s.reply q r data)
  | none => .next s

/-- REMOTE_REQUEST_TIMEOUT (R35): the request of another module's memory is abandoned. -/
def execRemoteRequestTimeout (tag : BitVec 12) (s : State) : Res :=
  match s.fabric.withTag false tag with
  | some q => .next (s.reply q .timeout [])
  | none => .next s

/-! ## Requests of other modules (R29, R30, R36) -/

/-- Whether `n` bytes at an address of a flit lie in this module's HBM. -/
def inHbm (addr : BitVec 56) (n : Nat) : Bool := addr.toNat + n ≤ hbmSize

/-- The core that holds the context of a rank within the sender's node of a level, for a launch of a group to which the
sender belongs (R130, R345). Of several such launches the one in the lowest slot that has it counts, so that every store
to one rank goes to one core; without one the core is open (log entry 99). -/
def State.coreOfFar (s : State) (src lv rank : Nat) : Nat :=
  let of (slot : Nat) (l : LSlot) : Option Nat :=
    match s.hub.groups.find? (·.id == l.info.group) with
    | none => none
    | some g =>
      let t := l.info.tree
      let ms := (List.range 144).filter fun m => g.counted.any (·.1 == m)
      ((moduleNodes t ms).getD []).findSome? fun (m, cs) =>
        if m != src then none
        else
          let want := cs.take (lv + 1) ++ unrank ((t.fan.take (t.cl + 1)).drop (lv + 1)) rank
          (s.allContexts.find? fun (n, c) =>
            let x := s.ctxOf n c
            x.bound && x.bind.lslot == slot && x.bind.coords == want).map Prod.fst
  ((s.hub.slots.findSome? fun (n, l) => if l.state == .running && l.info.group != 0 then of n l else none)).getD
    ((s.freeWord 970).toNat % 896)

/-- The core of this module and the offset in its scratchpad that an address of a flit of another module names for `n`
bytes; none where it names no such place (R126, R130). -/
def State.peerPlace (s : State) (src : Nat) (addr : BitVec 56) (n : Nat) : Option (Nat × Nat) :=
  let a := addr.toNat
  let off := a % 2 ^ (if addr.getLsbD 55 then 36 else 20)
  let die := nbits a 43 3
  if spadSize < off + n then none
  else if a.testBit 55 then
    ((List.range 28).find? fun p => (s.podAt (28 * die + p)).active && (s.podAt (28 * die + p)).phys == nbits a 38 5).map
      fun p => (4 * (28 * die + p) + nbits a 36 2, off)
  else if a.testBit 54 then some (s.coreOfFar src (nbits a 44 5) (nbits a 20 24), off)
  else none

/-- READ_REQUEST_RECEIVE: the bytes, or what kept them. -/
def execReadRequestReceive (src : Nat) (tag : BitVec 12) (addr : BitVec 56) (len : Nat) (s : State) : Res :=
  if !inHbm addr len then
    match s.peerPlace src addr len with
    | none => .next (s.emit (.response src tag .refused []))
    | some (n, off) =>
      let k := s.coreAt n
      if (List.range len).any fun i => k.badWords.contains ((off + i) / 4) then
        .next (s.emit (.response src tag .uncorrectable []))
      else .next (s.emit (.response src tag .ok (readBytes k.spad off len)))
  else if s.hbmBad addr.toNat len then .next (s.emit (.response src tag .uncorrectable []))
  else .next (s.emit (.response src tag .ok (s.readHbm addr.toNat len)))

/-- A request that this home has already performed (R29): the one that arrives has its source, tag and address and asks
for the same. One that comes by the plane of the first is a new request whose tag has been free in between, since a link
delivers each flit once and a source sends again only on another plane. Of one that comes by another plane only its
sender knows whether it is sent again or new: that is a free value (log entry 48). -/
def State.duplicate (s : State) (src : Nat) (tag : BitVec 12) (addr : Nat) (kind : ReqKind) : Option Served :=
  s.fabric.seen.find? fun x => x.src == src && x.tag == tag && x.addr == addr && x.kind == kind
    && x.plane != s.arrivalPort && Config.inFlight s.free 0 9 0 0

/-- What this home remembers of a source and a tag. -/
def State.remember (s : State) (x : Served) : State :=
  s.modFabric fun f => { f with seen := (f.seen.filter fun y => !(y.src == x.src && y.tag == x.tag)) ++ [x] }

/-- A request has been performed or was performed before: it is answered, and remembered under its source and tag with
the plane by which it came. -/
def State.serve (s : State) (x : Served) : State :=
  (s.remember { x with plane := s.arrivalPort }).emit (.response x.src x.tag x.reply x.data)

/-- A write of another module at this home: to HBM, or to a core's scratchpad (R126). A part of a word that holds an
uncorrectable error is not written. -/
def State.farWrite (s : State) (src : Nat) (addr : BitVec 56) (data : List Byte) : State × Reply :=
  if inHbm addr data.length then
    let (t, ok) := (s.noteStream 0 (addr.toNat, data.length)).storeHbm addr.toNat data
    (t, if ok then .ok else .uncorrectable)
  else match s.peerPlace src addr data.length with
    | none => (s, .refused)
    | some (n, off) =>
      if (s.coreAt n).partBad off data.length then (s, .uncorrectable) else (s.writeSpad n off data, .ok)

/-- WRITE_REQUEST_RECEIVE: performed once; a duplicate is answered as before. -/
def execWriteRequestReceive (src : Nat) (tag : BitVec 12) (addr : BitVec 56) (data : List Byte) (s : State) : Res :=
  let a := addr.toNat
  match s.duplicate src tag a (.write data) with
  | some x => .next (s.serve x)
  | none => .next ((s.farWrite src addr data).1.serve ⟨src, 0, tag, a, .write data, (s.farWrite src addr data).2, []⟩)

/-- ATOMIC_REQUEST_RECEIVE: performed by the home atomic unit in the order of arrival (R36). -/
def execAtomicRequestReceive (src : Nat) (tag : BitVec 12) (addr : BitVec 56) (op : AtomOp) (ty : Ty)
    (operand cmp : Word64) (s : State) : Res :=
  let a := addr.toNat
  let kind : ReqKind := .atomic op ty operand cmp
  match s.duplicate src tag a kind with
  | some x => .next (s.serve x)
  | none =>
    if !inHbm addr (atomWidth ty) then .next (s.serve ⟨src, 0, tag, a, kind, .refused, []⟩)
    else
      let (t, old, ok) := (s.noteStream 0 (a, atomWidth ty)).atomicHbm a op ty operand cmp
      .next (t.serve (if ok then ⟨src, 0, tag, a, kind, .ok, natToBytes (atomWidth ty) old⟩
        else ⟨src, 0, tag, a, kind, .uncorrectable, []⟩))

/-! ## Links (R26, R29, R30, R144) -/

/-- FABRIC_PORT_DEGRADE (R26): a port goes on with two lanes, or with one. -/
def execFabricPortDegrade (port lanes : Nat) (s : State) : Res :=
  if h : port < 18 then
    if s.fabric.planes.contains port ∧ (lanes = 1 ∨ lanes = 2) ∧ lanes < s.fabric.lanes[port] then
      .next (s.modFabric fun f => { f with lanes := f.lanes.set port lanes h })
    else .next s
  else .next s

/-- Whether a message is a request. -/
def Out.isRequest : Out → Bool
  | .request _ => true
  | .response _ _ _ _ | .collective _ _ _ _ _ | .reduction _ _ _ | .control _ | .replay _ _ | .mctp _ | .spdm _ _ => false

/-- PLANE_LOSS (R26, R29): the plane leaves the list, and what was sent on it is sent again, in its order, on
the planes that are left. Its link is gone; messages other than requests that stood in its replay buffer wait again,
before the rest (log entry 100). -/
def execPlaneLoss (port : Nat) (s : State) : Res :=
  if s.fabric.planes.contains port then
    let lost : Request → Bool := fun r => r.sent && !r.io && r.plane == port
    let again := s.fabric.reqs.filter lost
    let t := s.modFabric fun f =>
      let g := { f with planes := f.planes.filter (· != port), lanes := f.lanes.setIfInBounds port 0 }
      let waits : Out → Bool
        | .request r => !(lost r)
        | _ => true
      { g with
        reqs := g.reqs.map fun r => if lost r then { r with plane := g.planeOf r.addr } else r
        out := (((f.link port).replay.map Prod.fst).filter fun o => !o.isRequest) ++ f.out.filter waits
        links := f.links.setIfInBounds port Link.reset }
    .next (again.foldl (fun t r => t.sendOut { r with plane := t.fabric.planeOf r.addr }) t)
  else .next s

/-- POOL_LINK_FAULT (R144, R154): the pool accesses in flight through a memory port fail, with POOL set. -/
def execPoolLinkFault (port : Nat) (s : State) : Res :=
  let mine : Request → Bool := fun r => r.sent && r.tgt.toNat == 2 + port
  if port < 2 then
    .next ((s.fabric.reqs.filter mine).foldl (fun t r => t.reply r .poolError []) s)
  else .next s

/-- CRC_FAIL_FLIT_RECEIVE (R30): the flit is dropped, ACK stops there, and its sender has to replay from it. -/
def execCrcFailFlitReceive (port : Nat) (vc : BitVec 2) (s : State) : Res := .next (s.dropFlit port vc)

/-- What the fabric does by itself: with no plane left, a request of another module's memory meets a dead
path. -/
def State.portEvents (s : State) : List Instr :=
  if s.fabric.planes.isEmpty then
    (s.fabric.reqs.filter fun r => r.sent && !r.io).map fun r => Instr.responseReceive false r.tag .dead []
  else []

end Sys2Proof.Machine
end

