-- ==== Sys2Proof/Machine/Launch.lean ====
section
/-!
DEFINITION. Launch queues and records (R67 to R73): taking and checking a record and its code object, wait words,
signal words, and how a head fails, is withdrawn or ends.
-/

namespace Sys2Proof.Machine

/-! ## Masters and dropped writes (R57, R66) -/

/-- Whether a master can reach the device: its host port has trained, or it is the management controller (R14). -/
def State.reaches (s : State) (m : Nat) : Bool :=
  match m with
  | 0 => (s.hub.hosts.get 0).up
  | 1 => (s.hub.hosts.get 1).up
  | 2 => true
  | _ => false

/-- Whether a master is the owner. -/
def State.owns (s : State) (m : Nat) : Bool := s.hub.own.state != .free && s.hub.own.owner.toNat == m

/-- The three counts of WSTAT (R66): lack of ownership, context state, malformed. -/
inductive Dropped
  | owner | state | malformed
  deriving DecidableEq, Repr

/-- A 16-bit saturating count at a place of a WSTAT word rises by one. -/
def bumpCount (w : Word64) (lo : Nat) : Word64 := if bits w lo 16 = 0xFFFF then w else w + (1 <<< lo)

/-- A write of a master is dropped and counted. -/
def State.drop (s : State) (m : Nat) (why : Dropped) : State :=
  let lo := match why with
    | .owner => 0
    | .state => 16
    | .malformed => 32
  let s := s.modHub fun h =>
    { h with own := { h.own with wstat := h.own.wstat.setIfInBounds m (bumpCount (h.own.wstat.toList.getD m 0) lo) } }
  if m = 2 ∧ why = .owner then s.emit (.mctp 0x82) else s

/-- A write that only the owner may make: another master's is dropped and counted. -/
def State.asOwner (s : State) (m : Nat) (f : State → Res) : Res :=
  if !s.reaches m then .next s else if s.owns m then f s else .next (s.drop m .owner)

/-! ## Queues (R67) -/

/-- A launch queue, and changing it. -/
def State.queue (s : State) (q : Fin 8) : LQueue := s.hub.queues.get q
def State.modLQueue (s : State) (q : Fin 8) (f : LQueue → LQueue) : State :=
  s.modHub fun h => { h with queues := h.queues.set q.val (f (h.queues.get q)) q.isLt }

/-- The fields of LQCTL. -/
def LQueue.enabled (q : LQueue) : Bool := q.ctl.getLsbD 15
def LQueue.blockLow (q : LQueue) : Bool := q.ctl.getLsbD 14
def LQueue.log2n (q : LQueue) : Nat := bits q.ctl 8 5

/-- Bytes of HBM as the launch unit reads them; what does not lie wholly within it reads as zeros (R67, R74). -/
def State.hubRead (s : State) (pa n : Nat) : List Byte :=
  if pa + n ≤ hbmSize then s.readHbm pa n else List.replicate n 0

/-- The record at the head of a queue. -/
def State.headRecord (s : State) (q : Fin 8) : List Byte :=
  let x := s.queue q
  s.hubRead (x.base.toNat + 256 * (x.head.toNat % 2 ^ x.log2n)) 256

/-! ## Event words (R69) -/

/-- An event-word address. -/
structure EventAddr where
  peer : Bool
  modId : Nat
  pa : Nat
  deriving DecidableEq, Repr

/-- Its fields. -/
def eventAddr (x : Nat) : EventAddr := ⟨x.testBit 55, nbits x 47 8, nbits x 0 40⟩

/-- Whether an event-word address keeps the rules of R69. -/
def eventAddrOk (x : Nat) : Bool :=
  let e := eventAddr x
  nbits x 56 8 == 0 && nbits x 40 7 == 0 && (if e.peer then decide (e.modId ≤ 143) else e.modId == 0)
    && decide (e.pa < hbmSize) && e.pa % 8 == 0

/-- Whether it names HBM of this module. -/
def EventAddr.here (e : EventAddr) : Bool := !e.peer || e.modId == Config.rackPosition.val

/-! ## The record (R68) -/

/-- Fields of a record. -/
def recF (r : List Byte) (off n : Nat) : Nat := fieldNat r off n

/-- The first field that fails, by its byte offset. -/
def recordFault (r : List Byte) : Option Nat :=
  let nwait := recF r 2 1
  let nsig := recF r 3 1
  let pair (base n i : Nat) : List (Nat × Bool) :=
    let a := base + 16 * i
    if i < n then [(a, !eventAddrOk (recF r a 8)), (a + 8, recF r (a + 14) 2 != 0)] else []
  let checks : List (Nat × Bool) :=
    [(0, recF r 0 2 != 1), (2, decide (4 < nwait)), (3, decide (4 < nsig)), (5, decide (1 < recF r 5 1)),
      (8, recF r 8 8 % 64 != 0), (24, recF r 24 8 % 65536 != 0), (44, recF r 44 4 != 0)]
      ++ (List.range 4).flatMap (pair 112 nwait) ++ (List.range 4).flatMap (pair 176 nsig)
      ++ [(248, recF r 248 8 != 0)]
  (checks.find? Prod.snd).map Prod.fst

/-- What a record says of its launch. -/
def recordInfo (r : List Byte) : LaunchInfo :=
  { LaunchInfo.none with
    record := r
    ptroot := BitVec.ofNat 64 (recF r 16 8)
    instArea := BitVec.ofNat 64 (recF r 24 8)
    instLen := BitVec.ofNat 64 (recF r 32 8)
    spillq := recF r 40 4
    avoid := BitVec.ofNat 8 (recF r 4 1)
    rsvpod := (recF r 5 1).testBit 0
    group := recF r 6 2
    code := recF r 8 8 }

/-! ## The code object (R74) -/

/-- The number of the first check that a code object's header fails, given its address in HBM. -/
def codeFault (pa : Nat) (h : List Byte) : Option Nat :=
  let f (off n : Nat) : Nat := fieldNat h off n
  let len := f 48 8
  let bad (off n : Nat) : Bool := off % 8 != 0 || decide (len < off + n)
  if f 0 4 ≠ 0x48435A41 then some 1
  else if f 4 2 ≠ 1 then some 2
  else if 1 < f 6 1 then some 3
  else if f 7 1 ≠ 0 ∨ f 44 4 ≠ 0 ∨ f 56 8 ≠ 0 then some 4
  else if bad (f 8 4) (f 12 4) || f 12 4 == 0 || bad (f 16 4) (f 20 4) || bad (f 24 4) (f 28 4)
      || decide (len < f 32 4 + 16 * f 36 4) || decide (hbmSize < pa + len) then some 5
  else if f 40 4 % 8 ≠ 0 ∨ f 12 4 ≤ f 40 4 then some 6
  else none

/-- Rounded up to 64 KiB. -/
def pad64k (n : Nat) : Nat := (n + 65535) / 65536 * 65536

/-- A relocation entry (R76). -/
def relocOf (b : List Byte) : Reloc :=
  ⟨fieldNat b 0 4, fieldNat b 4 1, fieldNat b 5 1, fieldNat b 6 1, fieldNat b 7 1, BitVec.ofNat 64 (fieldNat b 8 8)⟩

/-- The tree of a tree section (R87). -/
def treeOf (b : List Byte) : Tree :=
  let depth := (b.length - 16) / 8
  ⟨fieldNat b 3 1, fieldNat b 4 2, (List.range depth).map fun k => fieldNat b (16 + 8 * k) 4,
    (List.range depth).map fun k => fieldNat b (20 + 8 * k) 1⟩

/-- A launch with what its code object says. -/
def State.withCode (s : State) (l : LaunchInfo) (h : List Byte) : LaunchInfo :=
  let f (off n : Nat) : Nat := fieldNat h off n
  let section_ := s.hubRead (l.code + f 24 4) (f 28 4)
  let table := s.hubRead (l.code + f 32 4) (16 * f 36 4)
  { l with
    profile := f 6 1 == 1
    codeOff := f 8 4
    codeLen := f 12 4
    dataOff := f 16 4
    dataLen := f 20 4
    codeSize := pad64k (f 12 4)
    instSize := pad64k (f 12 4) + pad64k (f 20 4)
    entry := f 40 4
    relocs := (List.range (f 36 4)).map fun i => relocOf (table.drop (16 * i))
    tree := treeOf section_
    section_ := section_ }

/-! ## The end of a head (R70, R72, R73) -/

/-- The signal words are written, in ascending order, each as one store of 8 bytes. -/
def State.writeSignals (s : State) (r : List Byte) (status cause : Byte) : State :=
  (List.range (min 4 (recF r 3 1))).foldl
    (fun s i =>
      let e := eventAddr (recF r (176 + 16 * i) 8)
      let data := natToBytes 8 (recF r (184 + 16 * i) 6 + cause.toNat * 2 ^ 48 + status.toNat * 2 ^ 56)
      if !eventAddrOk (recF r (176 + 16 * i) 8) then s
      else if e.here then (s.storeHbm e.pa data).1
      else s.ask 1 e.modId e.pa 0 (.write data) .signal s.fabric.next) s

/-- The head of a queue is over: the queue goes on behind it. -/
def State.headDone (s : State) (q : Fin 8) : State :=
  s.modLQueue q fun x => { x with head := x.head + 1, wait := 0, stage := .none, slot := 0, peer := [] }

/-- Reads of wait words that a head has sent complete nothing any longer. -/
def State.forgetWaits (s : State) (q : Fin 8) : State :=
  s.modFabric fun f => { f with reqs := f.reqs.map fun r =>
    match r.who with
    | .waitWord n _ => if n = q.val then { r with who := .signal } else r
    | _ => r }

/-- A member tells the others of its group something. -/
def State.tell (s : State) (m : ControlMsg) : State := s.emit (.control m)

/-- This module. -/
def me : Nat := Config.rackPosition.val

/-- A group as this module knows it, and changing it. -/
def State.group? (s : State) (g : Nat) : Option Group := s.hub.groups.find? (·.id == g)
def State.modGroup (s : State) (g : Nat) (f : Group → Group) : State :=
  s.modHub fun h => { h with groups := h.groups.map fun x => if x.id = g then f x else x }
def State.dropGroup (s : State) (g : Nat) : State :=
  s.modHub fun h => { h with groups := h.groups.filter fun x => x.id != g }

/-- Whether a head has announced itself to its group, when it has one. -/
def HeadStage.inGroup : HeadStage → Bool
  | .announced | .bind | .bound | .going => true
  | _ => false

/-- This module takes its announcement back; what the others have announced stands (R93). -/
def State.leaveGroup (s : State) (g : Nat) : State :=
  s.modGroup g fun x =>
    { x with members := x.members.filter (·.1 != me), bound := [], waiting := [], held := [], modules := 0 }

/-- The head fails: LSTAT shows it, its signal words are written and HEAD advances. -/
def State.failHead (s : State) (q : Fin 8) (status cause : Byte) : State :=
  let slot := (s.queue q).slot
  let info := (s.lslot slot).info
  let inGroup := (s.queue q).stage.inGroup
  let s := (s.forgetWaits q).modSlot slot fun l => { l with state := .ended, status := status, cause := cause }
  let s := s.writeSignals info.record status cause
  (if !inGroup then s else if status = 10 then s.leaveGroup info.group else s.dropGroup info.group).headDone q

/-- The leader of a group (R93): the lowest of the members that it counts. -/
def Group.leader (g : Group) : Nat := g.counted.foldl (fun m x => min m x.1) 144

/-- This module has no binding for a group any longer: it says so to the leader, or as the leader sends retry. -/
def State.tellWaiting (s : State) (group : Nat) : State :=
  match s.group? group with
  | none => s
  | some g =>
    if g.leader = me then
      (s.modGroup group fun g => { g with held := [], bound := [], waiting := [] }).tell (.retry group)
    else (s.modGroup group fun g => { g with held := [] }).tell (.waiting group me)

/-- The head is withdrawn (R71): what it holds is released, and its record is read afresh later. One whose group has
its go completes its start. -/
def State.withdraw (s : State) (q : Fin 8) : State :=
  if (s.queue q).stage = .going then s
  else
  let slot := (s.queue q).slot
  let info := (s.lslot slot).info
  let s := s.forgetWaits q
  let held := (s.queue q).stage != .none && (s.queue q).stage != .waitSlot
  let s := if held then s.modSlot slot fun _ => LSlot.reset else s
  let s :=
    if (s.queue q).stage = .bind ∨ (s.queue q).stage = .bound then
      s.tellWaiting info.group
    else s
  s.modLQueue q fun x => { x with wait := 0, stage := .none, slot := 0, peer := [] }

/-! ## Taking a record (R70) -/

/-- Whether the device has booted: without the hub firmware no launch runs (R80). -/
def State.booted (s : State) : Bool := s.hub.boot.phase == 2

/-- The lowest launch slot that no launch uses. -/
def State.freeSlot (s : State) : Option Nat :=
  (List.range 256).find? fun n => (s.lslot n).state = .empty || (s.lslot n).state = .ended

/-- LAUNCH_RECORD_TAKE: a head takes a launch slot, is read and checked, and waits for its wait words. -/
def execLaunchRecordTake (q : Fin 8) (s : State) : Res :=
  let x := s.queue q
  if !s.booted ∨ !x.enabled ∨ x.head = x.tail ∨ (x.stage ≠ .none ∧ x.stage ≠ .waitSlot) then .next s
  else match s.freeSlot with
    | none => .next (s.modLQueue q fun x => { x with stage := .waitSlot, wait := 3 })
    | some n =>
      let r := s.headRecord q
      let info := recordInfo r
      let s := s.modSlot n fun _ =>
        { LSlot.reset with
          state := .waiting, queue := q.val, user := BitVec.ofNat 64 (recF r 240 8), info := info }
      let s := s.modLQueue q fun x => { x with stage := .waitWords, slot := n, wait := 1, peer := List.replicate 4 .unread }
      match recordFault r with
      | some off =>
        -- a record that cannot be read whole has NSIG 0, and so do the signals of one whose NSIG is bad
        let s := s.modSlot n fun l =>
          if off ≤ 3 && decide (4 < recF r 3 1) then { l with info := { l.info with record := [] } } else l
        .next (s.failHead q 1 (BitVec.ofNat 8 off))
      | none => .next s

/-! ## Wait words (R69) -/

/-- How a wait word stands: the word as read, none when it is not known yet. -/
inductive WaitState
  | met | unmet | unread | unreadable
  | failed (status : Byte)
  deriving DecidableEq, Repr

/-- A word against its target. -/
def judgeWait (w target : Nat) : WaitState :=
  if w / 2 ^ 56 % 256 ≠ 0 then .failed (BitVec.ofNat 8 (w / 2 ^ 56))
  else if target ≤ w % 2 ^ 48 then .met else .unmet

/-- The state of wait word `i` of a queue's head. -/
def State.waitState (s : State) (q : Fin 8) (i : Nat) : WaitState :=
  let r := (s.lslot (s.queue q).slot).info.record
  let e := eventAddr (recF r (112 + 16 * i) 8)
  let target := recF r (120 + 16 * i) 6
  if e.here then
    if s.hbmBad e.pa 8 then .unreadable else judgeWait (bytesToNat (s.readHbm e.pa 8)) target
  else match (s.queue q).peer.getD i .unread with
    | .value x => judgeWait x.toNat target
    | .unreadable => .unreadable
    | _ => .unread

/-- The wait words of a queue's head. -/
def State.waitStates (s : State) (q : Fin 8) : List WaitState :=
  (List.range (recF (s.lslot (s.queue q).slot).info.record 2 1)).map (s.waitState q)

/-- The first cause of DEPFAIL among the wait words. -/
def depFail : List WaitState → Option Byte
  | [] => none
  | .failed st :: _ => some st
  | .unreadable :: _ => some 0xFF
  | _ :: rest => depFail rest

/-- The words on other modules whose value is not known, or was not enough, are read again. -/
def State.askWaits (s : State) (q : Fin 8) : State :=
  let r := (s.lslot (s.queue q).slot).info.record
  (List.range (recF r 2 1)).foldl
    (fun s i =>
      let e := eventAddr (recF r (112 + 16 * i) 8)
      let again := match (s.queue q).peer.getD i .unread with
        | .unread => true
        | .value _ => s.waitState q i == .unmet
        | _ => false
      if e.here || !again then s
      else
        (s.modLQueue q fun x => { x with peer := x.peer.set i .asked }).ask 1 e.modId e.pa 0 (.read 8)
          (.waitWord q.val i) s.fabric.next) s

/-- Whether MODULES members with a tree's digest have announced themselves. -/
def Group.closed (g : Group) (t : Tree) (digest : List Byte) : Bool :=
  decide (t.modules ≤ (g.members.filter fun m => m.2 == digest).length)

/-- A group member announces itself (R93 step 1). Where MODULES members have already done so, whether this module is one
of them or not, it fails alone (R93 step 6). -/
def State.announce (s : State) (q : Fin 8) (info : LaunchInfo) : State :=
  let digest := Config.shake256 info.section_ 256
  if (s.group? info.group).any fun g => g.closed info.tree digest then s.failHead q 4 11
  else
  let s := match s.group? info.group with
    | some _ => s
    | none => s.modHub fun h => { h with groups := h.groups ++ [(⟨info.group, [], [], [], [], 0, []⟩ : Group)] }
  let s := s.modGroup info.group fun g =>
    { g with
      modules := info.tree.modules
      members := if g.members.any (·.1 == me) then g.members else g.members ++ [(me, digest)] }
  (s.tell (.announce info.group me digest)).modLQueue q fun x => { x with stage := .announced, wait := 2 }

/-- The checks of R94 that need nothing but the tree section and the record. -/
def treeFault (b : List Byte) : Option Nat :=
  let t := treeOf b
  let depth := fieldNat b 2 1
  let fs := t.fan
  let ps := t.phys
  -- the levels bound at context or above; the others are below CL
  let upper := (ps.takeWhile (2 ≤ ·)).length
  let below := (ps.zipIdx).filter fun (_, k) => upper ≤ k
  let leafLane := ps.getLastD 9 == 0
  let leaves := t.fan.drop upper |>.foldl (· * ·) 1
  let under (m : Nat) : Nat := (t.fan.drop (m + 1)).foldl (· * ·) 1
  if b.length < 16 || fieldNat b 0 2 != 1 || fieldNat b 6 10 != 0 || b.length != 16 + 8 * depth
      || ((List.range depth).any fun k => fieldNat b (21 + 8 * k) 3 != 0) || ps.any (8 < ·) then some 1
  else if depth = 0 ∨ 32 < depth then some 2
  else if fs.getD 0 0 ≠ 1 || fs.any fun f => f == 0 || decide (2 ^ 24 < f) then some 3
  else if (ps.zip (ps.drop 1)).any fun (p, c) => p < c then some 4
  else if 3 ≤ ps.getLastD 9 || below.any fun (p, _) => 1 < p then some 5
  else if (!below.isEmpty && decide ((if leafLane then 128 else 8) < leaves))
      || (below.any fun (p, k) => p == 1 && 16 % (under k * if leafLane then 1 else 16) != 0)
      || ((ps.zipIdx).any fun (p, k) => p == 0 && decide (k + 1 < depth)) then some 6
  else if depth ≤ t.gang || t.physAt t.gang < 2 || 6 < t.physAt t.gang then some 7
  else none

/-! ## Registers of a queue (R67, R71) -/

/-- LQTAIL_WRITE. -/
def execLqtailWrite (m : Nat) (q : Fin 8) (value : Word64) (s : State) : Res :=
  s.asOwner m fun s =>
    let x := s.queue q
    let t : Word32 := value.setWidth 32
    if bits value 32 32 ≠ 0 ∨ 2 ^ x.log2n < (t - x.head).toNat then .next (s.drop m .malformed)
    else .next (s.modLQueue q fun x => { x with tail := t })

/-- A write of LQCTL. -/
def State.writeLqctl (s : State) (m : Nat) (q : Fin 8) (value : Word64) : State :=
  let x := s.queue q
  let n := bits value 8 5
  if s.hub.boot.phase = 3 then s
  else if value &&& 0xFFFFFFFFFFFF20FF ≠ 0 ∨ n < 4 ∨ 16 < n ∨ (x.enabled ∧ n ≠ x.log2n) then s.drop m .malformed
  else
    let s := s.modLQueue q fun x => { x with ctl := value }
    if value.getLsbD 15 then s else s.withdraw q

/-- LQCTL_DISABLE (R71): a write of LQCTL that clears ENABLE. -/
def execLqctlDisable (m : Nat) (q : Fin 8) (value : Word64) (s : State) : Res :=
  s.asOwner m fun s =>
    if value.getLsbD 15 then .next s else .next (s.writeLqctl m q value)

end Sys2Proof.Machine
end

