-- ==== Sys2Proof/Machine/Binder.lean ====
section
/-!
DEFINITION. The tree binder (R89 to R94), the launch's instances, relocation and registers (R70 steps 5 to 8, R75,
R76, R104), and the control flits of launch groups, prints and barriers (R93, R44, R97).
-/

namespace Sys2Proof.Machine

/-! ## Units of the module (R82) -/

/-- How many contexts a unit of a physical level has on one module. -/
def unitSpan (phys : Nat) : Nat :=
  match phys with
  | 2 => 1
  | 3 => 4
  | 4 => 16
  | 5 => 448
  | _ => 3584

/-- Whether a context lies in a unit. -/
def inUnit (u : Unit_) (k : Nat) : Bool := k / unitSpan u.1 == u.2

/-- The units of a level inside a unit, ascending. -/
def unitsIn (phys : Nat) (u : Unit_) : List Unit_ :=
  (List.range (unitSpan u.1 / unitSpan phys)).map fun i => (phys, u.2 * (unitSpan u.1 / unitSpan phys) + i)

/-- The units of a level of the module. -/
def allUnits (phys : Nat) : List Unit_ := unitsIn (min phys 6) (6, 0)

/-! ## Eligible contexts (R89) -/

/-- Context k of the module. -/
def State.ctxNo (s : State) (k : Nat) : Ctx := s.ctxOf (k / 4) ⟨k % 4, Nat.mod_lt _ (by decide)⟩

/-- Contexts that this module holds bound for groups that have not started. -/
def State.heldCtxs (s : State) : List (Nat × Nat) :=
  s.hub.groups.flatMap fun g => g.held.map fun (k, _) => (k, g.id)

/-- The launch slots with contexts in a pod. -/
def State.podLaunches (s : State) (p : Nat) : List Nat :=
  (List.range 16).filterMap fun i =>
    let c := s.ctxNo (16 * p + i)
    if c.bound then some c.bind.lslot else none

/-- Whether a die's bit is clear in AVOID and the pod is one that the binder uses now. -/
def State.usable (s : State) (info : LaunchInfo) (k : Nat) : Bool :=
  !info.avoid.getLsbD (k / 448) && (s.podAt (k / 16)).active && !(s.podAt (k / 16)).failed

/-- The filters of R89 for a pod, but the profile. Whether contexts that are bound for a group and not started make their
pod hold a context is open: here they do for the RSVPOD of another launch, and not for the profile, in pass 1 or at a
start (DESIGN CHOICE, log entry 128). -/
def State.podOpen (s : State) (info : LaunchInfo) (slot p : Nat) : Bool :=
  let ls := s.podLaunches p
  !(ls.any fun l => l != slot && (s.lslot l).state == .running && (s.lslot l).info.rsvpod)
    && !(info.rsvpod && ((ls.any (· != slot)) || s.heldCtxs.any fun (k, g) => k / 16 == p && g != info.group))

/-- Whether a context is free and not held for a group. -/
def State.freeCtx (s : State) (k : Nat) : Bool :=
  (s.ctxNo k).state == .free && !(s.heldCtxs.any fun (j, _) => j == k)

/-- The contexts that a launch may take, in the first pass or the second. -/
def State.eligible (s : State) (info : LaunchInfo) (slot : Nat) (first : Bool) : List Nat :=
  let pods := (List.range 224).filter fun p =>
    s.usable info (16 * p) && s.podOpen info slot p
      && (!first || (s.podLaunches p).isEmpty || (s.podAt p).lprof == info.profile)
  pods.flatMap fun p => ((List.range 16).map (16 * p + ·)).filter s.freeCtx

/-- The built pods of a die that stand by: neither failed nor under a logical pod. -/
def State.spare (s : State) (die : Nat) : Option Nat :=
  (List.range 32).find? fun b =>
    !s.hub.ecc.pods.contains (32 * die + b)
      && !(List.range 28).any fun i => (s.podAt (28 * die + i)).active && (s.podAt (28 * die + i)).phys == b

/-- The same for a device on which no launch runs: a failed pod has its spare, where its die has one left (R25). -/
def State.onDevice (s : State) (info : LaunchInfo) (k : Nat) : Bool :=
  !info.avoid.getLsbD (k / 448) && (s.podAt (k / 16)).active
    && (!(s.podAt (k / 16)).failed || (s.spare (k / 448)).isSome)

/-- The contexts of an empty device. -/
def State.emptyDevice (s : State) (info : LaunchInfo) : List Nat := (List.range 3584).filter (s.onDevice info)

/-! ## First fit (R90) -/

/-- Contexts placed so far, each with its coordinates. -/
abbrev Marks := List (Nat × List Nat)

/-- How many eligible contexts a unit has left. -/
def room (elig : List Nat) (marks : Marks) (u : Unit_) : Nat :=
  (elig.filter fun k => inUnit u k && !marks.any (·.1 == k)).length

/-- The placement of a node of level `k` with its coordinates inside a unit; `fuel` counts the levels. -/
def placeNode (t : Tree) (elig : List Nat) : Nat → Nat → Unit_ → List Nat → Marks → Option Marks
  | 0, _, _, _, _ => none
  | fuel + 1, k, u, cs, marks =>
    if k = t.cl then
      (elig.find? fun x => inUnit u x && !marks.any (·.1 == x)).map fun x => marks ++ [(x, cs)]
    else
      let packs := t.physAt (k + 1) == t.physAt k || min (t.physAt (k + 1)) 6 == u.1
      ((List.range (t.fanAt (k + 1))).foldl
        (fun (acc : Option (Marks × List Unit_)) j =>
          match acc with
          | none => none
          | some (marks, used) =>
            let cand := if packs then [u] else (unitsIn (t.physAt (k + 1)) u).filter fun v => !used.contains v
            cand.findSome? fun v =>
              if t.size (k + 1) ≤ room elig marks v then
                (placeNode t elig fuel (k + 1) v (cs ++ [j]) marks).map fun m => (m, v :: used)
              else none)
        (some (marks, []))).map Prod.fst

/-- The placement of the whole tree on this module. -/
def placeTree (t : Tree) (elig : List Nat) : Option Marks :=
  (allUnits (t.physAt 0)).findSome? fun u => placeNode t elig 33 0 u [0] []

/-! ## Trees over several modules (R93) -/

/-- The placement of some subtrees of a level, one after another. -/
def placeSubtrees (t : Tree) (h : Nat) (elig : List Nat) : List (List Nat) → Marks → Option Marks
  | [], marks => some marks
  | cs :: rest, marks =>
    match placeNode t elig 33 h (6, 0) cs marks with
    | some m => placeSubtrees t h elig rest m
    | none => none

/-! ## Capacity (check 8 of R94) -/

/-- The lanes of one unit of a physical level. -/
def unitLanes (phys : Nat) : Nat :=
  match phys with
  | 0 => 1
  | 1 => 16
  | _ => 128 * unitSpan phys

/-- How many units of a level one unit of the level above has at most, on a device without launches. -/
def unitsOf (empty : List Nat) (members : List Nat) (child parent : Nat) : Nat :=
  if child < 2 then unitLanes parent / unitLanes child
  else if child < 6 then
    ((allUnits parent).map fun u =>
      ((unitsIn child u).filter fun v => empty.any (inUnit v)).length).foldl max 0
  else ((upperUnits members parent (8, 0)).map fun u => (upperUnits members child u).length).foldl max 0

/-- Check 8 for the levels from `lo` on. -/
def capacityFault (t : Tree) (empty members : List Nat) (lo : Nat) : Bool :=
  let levels := List.range t.phys.length
  let spreads := levels.any fun k =>
    k != 0 && decide (t.physAt k < t.physAt (k - 1))
      && decide (unitsOf empty members (t.physAt k) (t.physAt (k - 1)) < t.fanAt k)
  let crowded := levels.any fun k =>
    lo ≤ k && k ≤ t.cl
      && decide (((allUnits (t.physAt k)).map fun u => (empty.filter (inUnit u)).length).foldl max 0 < t.size k)
  spreads || crowded

/-- How many nodes a level has. -/
def Tree.nodes (t : Tree) (l : Nat) : Nat := (t.fan.take (l + 1)).foldl (· * ·) 1

/-- Check 10 of R94. -/
def spanFault (t : Tree) (group : Nat) : Bool :=
  if t.modules = 0 ∨ 144 < t.modules then true
  else if t.modules = 1 then t.phys.any (6 < ·)
  else group == 0 || match t.moduleLevel with
    | none => true
    | some l => t.nodes l != t.modules

/-! ## The outcome of a binding (R89, R91) -/

/-- A binding, a wait for resources, or a refusal with its cause. -/
inductive Bound
  | ok (marks : Marks)
  | later
  | refuse (cause : Nat)
  deriving DecidableEq, Repr

/-- Two passes, and the run with every context free. -/
def State.tryPlace (s : State) (info : LaunchInfo) (slot : Nat) (place : List Nat → Option Marks) : Bound :=
  match place (s.eligible info slot true) with
  | some m => .ok m
  | none => match place (s.eligible info slot false) with
    | some m => .ok m
    | none => if (place (s.emptyDevice info)).isSome then .later else .refuse 9

/-- The binding of a launch of one module. -/
def State.bindSingle (s : State) (info : LaunchInfo) (slot : Nat) : Bound :=
  let t := info.tree
  let empty := s.emptyDevice info
  if capacityFault t empty [me] 0 then .refuse 8
  else if (placeTree t empty).isNone then .refuse 9
  else if spanFault t info.group then .refuse 10
  else s.tryPlace info slot (placeTree t)

/-- The binding of this module's part of a group's tree. -/
def State.bindMember (s : State) (info : LaunchInfo) (slot : Nat) (members : List Nat) : Bound :=
  let t := info.tree
  let h := t.moduleLevel.getD 0
  if capacityFault t (s.emptyDevice info) members h then .refuse 8
  else match moduleNodes t members with
    | none => .refuse 9
    | some nodes =>
      let mine := (nodes.filter fun (m, _) => m == me).map Prod.snd
      s.tryPlace info slot fun elig => placeSubtrees t h elig mine []

/-! ## From the wait words to the binding (R70 steps 3 and 4) -/

/-- The cause of a tree that fails check 10 with MODULES other than 1: checks 8 and 9 come before it (R94). No member
has announced itself then, so that every module counts as one (log entry 107). -/
def State.spanRefusal (s : State) (info : LaunchInfo) : Byte :=
  let t := info.tree
  let empty := s.emptyDevice info
  let placed := match t.moduleLevel with
    | some l => (placeNode t empty 33 l (6, 0) (List.replicate (l + 1) 0) []).isSome
    | none => (placeTree t empty).isSome
  if capacityFault t empty (List.range 144) (t.moduleLevel.getD 0) then 8 else if placed then 10 else 9

/-- The wait words are met: the code object is read and checked, and the launch goes on to its binding, or a group
member to its announcement (R70 step 3, R93, R94). -/
def State.toBinding (s : State) (q : Fin 8) : State :=
  let slot := (s.queue q).slot
  let info := (s.lslot slot).info
  let h := s.hubRead info.code 64
  match codeFault info.code h with
  | some n => s.failHead q 2 (BitVec.ofNat 8 n)
  | none =>
    let info := s.withCode info h
    let s := s.modSlot slot fun l => { l with info := info }
    match treeFault info.section_ with
    | some c => s.failHead q 4 (BitVec.ofNat 8 c)
    | none =>
      if info.tree.modules = 1 then s.modLQueue q fun x => { x with stage := .bind, wait := 0 }
      else if spanFault info.tree info.group then s.failHead q 4 (s.spanRefusal info)
      else s.announce q info

/-- WAIT_WORDS_MET: the head's wait words are tested. -/
def execWaitWordsMet (q : Fin 8) (s : State) : Res :=
  if (s.queue q).stage ≠ .waitWords then .next s
  else
    let ws := s.waitStates q
    match depFail ws with
    | some c => .next (s.failHead q 6 c)
    | none =>
      if ws.all (· == .met) then .next ((s.forgetWaits q).toBinding q) else .next (s.askWaits q)

/-! ## Instances and relocation (R75 to R77) -/

/-- Bytes written by the launch unit to a launch's global space, 64 KiB at a time (R70 step 6): whether every
page took them. -/
def State.hubWrite (s : State) (ptroot va : Word64) (data : List Byte) : Nat → State × Bool
  | 0 => (s, true)
  | n + 1 =>
    if data.isEmpty then (s, true)
    else match (translateFrom s.hbm ptroot va .write).1 with
      | .ok tgt modId pa _ =>
        if tgt = 6 then (s, false)
        else match s.homeWrite 0 tgt modId pa (2 ^ 40 + n) (data.take 65536) with
          | (s, .ok) => s.hubWrite ptroot (va + 65536) (data.drop 65536) n
          | (s, _) => (s, false)
      | _ => (s, false)

/-- Where a gang node's context of rank 0 runs: its context's number in the module. -/
structure GangPlace where
  gang : Nat
  ctx : Nat
  deriving DecidableEq, Repr

/-- The value of a relocation entry of an instance (R76). -/
def State.relocValue (s : State) (info : LaunchInfo) (g : GangPlace) (r : Reloc) : Int :=
  let code : Word64 := info.instArea + BitVec.ofNat 64 (g.gang * info.instSize) + r.addend
  let data : Word64 := code + BitVec.ofNat 64 info.codeSize
  let pod := s.podAt (g.ctx / 16)
  match r.kind with
  | 0 => bits code 0 32
  | 1 => bits code 32 24
  | 2 => bits data 0 32
  | 3 => bits data 32 24
  | 4 => (4 * pod.phys + g.ctx / 4 % 4 : Nat) + r.addend.toInt
  | 5 => (pod.phys : Nat) + r.addend.toInt
  | 6 => (g.ctx / 448 : Nat) + r.addend.toInt
  | 7 => (me : Nat) + r.addend.toInt
  | _ => (g.gang : Nat) + r.addend.toInt

/-- Whether an entry keeps the limits of R76. -/
def Reloc.ok (r : Reloc) (info : LaunchInfo) : Bool :=
  decide (r.sect ≤ 1) && decide (r.kind ≤ 8) && r.off % 8 == 0 && decide (1 ≤ r.width) && decide (r.width ≤ 32)
    && decide (r.lsb + r.width ≤ 64)
    && decide (r.off + 8 ≤ if r.sect = 0 then info.codeLen else info.dataLen)

/-- A word with an entry's field replaced; none when the value does not fit. -/
def Reloc.patch (r : Reloc) (w : Nat) (v : Int) : Option Nat :=
  if v < 0 ∨ (2 ^ r.width : Int) ≤ v then none
  else some (w % 2 ^ r.lsb + v.toNat * 2 ^ r.lsb + w / 2 ^ (r.lsb + r.width) * 2 ^ (r.lsb + r.width))

/-- The place of an entry's word in its instance. -/
def Reloc.place (r : Reloc) (info : LaunchInfo) : Nat := (if r.sect = 0 then 0 else info.codeSize) + r.off

/-- An instance's bytes after its relocation; none on RELOC. -/
def State.relocate (s : State) (info : LaunchInfo) (g : GangPlace) (bytes : List Byte) : Option (List Byte) :=
  info.relocs.foldl
    (fun acc r => match acc with
      | none => none
      | some b =>
        if !r.ok info then none
        else
          let a := r.place info
          (r.patch (fieldNat b a 8) (s.relocValue info g r)).map fun w => patch b a (natToBytes 8 w))
    (some bytes)

/-- The bytes of an instance before relocation: what pads a section is open. -/
def State.instanceBytes (s : State) (info : LaunchInfo) : List Byte :=
  let section_ (off len place : Nat) : List Byte :=
    s.hubRead (info.code + off) len ++ s.freeBytes (pad64k len - len) place
  section_ info.codeOff info.codeLen (2 ^ 41) ++ section_ info.dataOff info.dataLen (2 ^ 42)

/-- Why a start fails: its STATUS and CAUSE. -/
abbrev StartFault := Byte × Byte

/-- The instances of the module's gang nodes, one after another. -/
def State.copyInstances (s : State) (info : LaunchInfo) : List GangPlace → State × Option StartFault
  | [] => (s, none)
  | g :: gs =>
    let bytes := s.instanceBytes info
    let va := info.instArea + BitVec.ofNat 64 (g.gang * info.instSize)
    match s.hubWrite info.ptroot va bytes (info.instSize / 65536 + 1) with
    | (s, false) => (s, some (3, 1))
    | (s, true) =>
      match s.relocate info g bytes with
      | none => (s, some (5, 0))
      | some b =>
        match s.hubWrite info.ptroot va b (info.instSize / 65536 + 1) with
        | (s, false) => (s, some (3, 1))
        | (s, true) => s.copyInstances info gs

/-! ## Contexts (R70 steps 7 and 8) -/

/-- A context of a launch at its start. -/
def Ctx.atStart (info : LaunchInfo) (slot gang now : Nat) (coords : List Nat) : Ctx :=
  let area : Word64 := BitVec.ofNat 64 (info.areas + 65536 * info.tree.rank coords 0)
  let args := (List.range 8).map fun i => BitVec.ofNat 64 (recF info.record (48 + 8 * i) 8)
  let c : Ctx := { Ctx.reset with
    state := .ready
    readySince := now
    bind := ⟨slot, gang, coords⟩
    pc := info.instArea + BitVec.ofNat 64 (gang * info.instSize + info.entry)
    ctrl := { Ctrl.reset with rsb := area } }
  let c := c.giveArgs args
  { c with dirty := 0, resident := 0 }

/-- The register space of a context in memory: every line of it (R160). -/
def State.writeRegs (s : State) (info : LaunchInfo) (c : Ctx) : State × Bool :=
  (List.range 69).foldl
    (fun (s, ok) n => if ok then s.hubWrite info.ptroot (c.lineAddr n) (c.regs.lineBytes n) 1 else (s, false))
    (s, true)

/-- The contexts' register spaces, one context after another; none after one that could not be written. -/
def State.writeCtxs (s : State) (info : LaunchInfo) (slot : Nat) (marks : Marks) : State × Option StartFault :=
  marks.foldl
    (fun (r : State × Option StartFault) mark =>
      if r.2.isSome then r
      else
        let c := Ctx.atStart info slot (info.tree.node mark.2 info.tree.gang) 0 mark.2
        let w := r.1.writeRegs info c
        (w.1, if w.2 then none else some (3, 1)))
    (s, none)

/-- The contexts start. A pod that held no context takes the code object's profile (R89). -/
def State.startCtxs (s : State) (info : LaunchInfo) (slot : Nat) (marks : Marks) : State :=
  let pods := distinct (marks.map fun (k, _) => k / 16)
  let s := pods.foldl
    (fun s p => if (s.podLaunches p).isEmpty then s.modPod p fun x => { x with lprof := info.profile } else s) s
  marks.foldl
    (fun s (k, coords) =>
      let n := k / 4
      let c := Ctx.atStart info slot (info.tree.node coords info.tree.gang) ((s.coreAt n).synced s.round).now coords
      ((s.syncCore n).modCtxOf n ⟨k % 4, Nat.mod_lt _ (by decide)⟩ fun _ => c).modCoreAt n fun x => { x with last := 3 }) s

/-- The gang nodes of some placed contexts, each with its context of rank 0. -/
def gangPlaces (t : Tree) (marks : Marks) : List GangPlace :=
  (distinct (marks.map fun (_, cs) => t.node cs t.gang)).filterMap fun g =>
    (marks.find? fun (_, cs) => t.node cs t.gang == g && t.rank cs t.gang == 0).map fun (k, _) => ⟨g, k⟩

/-- Heads that wait are bound again, once this step is over (R91). -/
def State.retryLater (s : State) : State := { s with agenda := s.agenda ++ [⟨s.coreIx, .bindRetry⟩] }

/-- LAUNCH_START: steps 5 to 8 of R70. What members that started before this one have sent is taken up then. -/
def State.startHead (s : State) (q : Fin 8) (marks : Marks) : State :=
  let slot := (s.queue q).slot
  let info := (s.lslot slot).info
  let t := info.tree
  let need := t.gangs * info.instSize + 65536 * t.size 0
  if info.instLen.toNat < need then s.failHead q 3 0
  else
    match s.copyInstances info (gangPlaces t marks) with
    | (s, some (st, c)) => s.failHead q st c
    | (s, none) =>
      match s.writeCtxs info slot marks with
      | (s, some (st, c)) => s.failHead q st c
      | (s, none) =>
        let s := s.startCtxs info slot marks
        let s := s.modSlot slot fun l => { l with state := .running, nctx := marks.length }
        let early := ((s.group? info.group).map Group.early).getD []
        let s := s.modGroup info.group fun g => { g with held := [], early := [] }
        let s := { s with agenda := s.agenda ++ early.map fun m => (⟨s.coreIx, .controlFlitReceive m⟩ : Event) }
        (s.headDone q).retryLater

/-! ## Binding a head (R70 step 4, R91 to R93) -/

/-- A queue before this one whose head waits for resources holds this one back (R70). -/
def State.heldBack (s : State) (q : Fin 8) : Bool :=
  ([0, 1, 2, 3, 4, 5, 6, 7] : List (Fin 8)).any fun p =>
    decide (p.val < q.val) && (s.queue p).wait == 2 && (s.queue p).blockLow && (s.queue p).enabled

/-- The head waits for resources. -/
def State.waitForRoom (s : State) (q : Fin 8) : State :=
  s.modLQueue q fun x => { x with stage := .bind, wait := 2 }

/-- The members that a group counts: the first MODULES that announced themselves. -/
def Group.first (g : Group) (t : Tree) : List (Nat × List Byte) := g.members.take t.modules

/-- A group's announcements are complete: digests are compared (R93 step 6), and the members go on to bind. Where they
differ every member fails: those that count more members hear of it. -/
def State.groupReady (s : State) (q : Fin 8) (info : LaunchInfo) (g : Group) : State :=
  let ms := g.first info.tree
  if ms.length < info.tree.modules then s
  else match ms.find? (·.1 == me) with
    | none => s.failHead q 4 11
    | some (_, mine) =>
      let leader := ms.foldl (fun m x => min m x.1) 144
      let theirs := ((ms.find? (·.1 == leader)).map Prod.snd).getD []
      if ms.any fun x => x.2 != theirs then
        (s.tell (.refusedBy info.group me)).failHead q 4 (if mine = theirs then 12 else 11)
      else s.modLQueue q fun x => { x with stage := .bind, wait := 0 }

/-- Something that a member reports to the leader, who keeps its own report. -/
def State.report (s : State) (info : LaunchInfo) (marks : Marks) : State :=
  match s.group? info.group with
  | none => s
  | some g =>
    let s := s.modGroup info.group fun g => { g with held := marks }
    if g.leader = me then s.modGroup info.group fun g => { g with bound := g.bound ++ [me] }
    else s.tell (.bound info.group me)

/-- A head at its binding. -/
def State.bindHead (s : State) (q : Fin 8) : State :=
  let slot := (s.queue q).slot
  let info := (s.lslot slot).info
  if info.tree.modules = 1 then
    match s.bindSingle info slot with
    | .ok marks => s.startHead q marks
    | .later => s.waitForRoom q
    | .refuse c => s.failHead q 4 (BitVec.ofNat 8 c)
  else match s.group? info.group with
    | none => s
    | some g =>
      match s.bindMember info slot ((g.first info.tree).map Prod.fst) with
      | .ok marks =>
        (s.report info marks).modLQueue q fun x => { x with stage := .bound, wait := 2 }
      | .later => (s.tellWaiting info.group).waitForRoom q
      | .refuse c => (s.tell (.refusedBy info.group me)).failHead q 4 (BitVec.ofNat 8 c)

/-- Whether the leader may send go: MODULES members have announced themselves, every one has reported bound, and no
queue before this one holds the head back (R70, R93). -/
def State.mayGo (s : State) (q : Fin 8) (info : LaunchInfo) (g : Group) : Bool :=
  let ms := (g.first info.tree).map Prod.fst
  g.leader == me && ms.length == info.tree.modules && ms.all g.bound.contains && !s.heldBack q

/-- Every member has reported bound: the leader sends go and starts. -/
def State.groupGo (s : State) (q : Fin 8) (info : LaunchInfo) (g : Group) : State :=
  if s.mayGo q info g then (s.tell (.go info.group)).startHead q g.held else s

/-- A lower queue whose head can be bound comes first (R70). -/
def State.outranked (s : State) (q : Fin 8) : Bool :=
  ([0, 1, 2, 3, 4, 5, 6, 7] : List (Fin 8)).any fun p =>
    decide (p.val < q.val) && (s.queue p).stage == .bind && (s.queue p).wait != 2 && !s.heldBack p

/-- TREE_BIND. -/
def execTreeBind (q : Fin 8) (s : State) : Res :=
  let x := s.queue q
  let info := (s.lslot x.slot).info
  match x.stage, s.group? info.group with
  | .announced, some g => .next (s.groupReady q info g)
  | .bound, some g => .next (s.groupGo q info g)
  | .going, some g => .next (if s.heldBack q then s else s.startHead q g.held)
  | .bind, _ => if x.wait = 2 ∨ s.heldBack q ∨ s.outranked q then .next s else .next (s.bindHead q)
  | _, _ => .next s

/-- The heads that wait for resources, in order, are bound again. -/
def State.rebind (s : State) : State :=
  ([0, 1, 2, 3, 4, 5, 6, 7] : List (Fin 8)).foldl
    (fun s q =>
      if (s.queue q).stage = .bind ∧ (s.queue q).wait = 2 ∧ !s.heldBack q then s.bindHead q else s) s

/-! ## Control flits (R93, R97, R44) -/

/-- The queue whose head belongs to a group. -/
def State.queueOfGroup (s : State) (g : Nat) : Option (Fin 8) :=
  ([0, 1, 2, 3, 4, 5, 6, 7] : List (Fin 8)).find? fun q =>
    (s.queue q).stage.inGroup && (s.lslot (s.queue q).slot).info.group == g && g != 0

/-- The launch slot of a group's launch that has started here. -/
def State.slotOfGroup (s : State) (g : Nat) : Option Nat :=
  if g = 0 then none
  else (List.range 256).find? fun n => (s.lslot n).state == .running && (s.lslot n).info.group == g

/-- A member's announcement is noted; one that comes after those of MODULES members is not (R93 step 6). -/
def State.noteMember (s : State) (g m : Nat) (digest : List Byte) : State :=
  let s := match s.group? g with
    | some _ => s
    | none => s.modHub fun h => { h with groups := h.groups ++ [(⟨g, [], [], [], [], 0, []⟩ : Group)] }
  s.modGroup g fun x =>
    if x.members.any (·.1 == m) || (x.modules != 0 && decide (x.modules ≤ x.members.length)) then x
    else { x with members := x.members ++ [(m, digest)] }

/-- A binding that a group's head holds is released, and it waits to be bound again. -/
def State.releaseHead (s : State) (g : Nat) : State :=
  let t := s.modGroup g fun x => { x with held := [], bound := [], waiting := [] }
  match s.queueOfGroup g with
  | some q =>
    if (s.queue q).stage = .going then s else if (s.queue q).stage = .announced then t else t.waitForRoom q
  | none => t

/-- A member takes its announcement back before the group has started: the others wait again until MODULES members
have announced themselves (R93). -/
def State.memberLeaves (s : State) (g m : Nat) : State :=
  let counted := (s.group? g).any fun x => x.counted.any (·.1 == m)
  let s := s.modGroup g fun x => { x with members := x.members.filter (·.1 != m) }
  match s.queueOfGroup g with
  | some q =>
    if !counted || (s.queue q).stage == .announced || (s.queue q).stage == .going then s
    else
      (s.modGroup g fun x => { x with held := [], bound := [], waiting := [] }).modLQueue q fun x =>
        { x with stage := .announced, wait := 2 }
  | none => s

/-- A message to a launch that has started here is taken up; one that comes before waits for the start (R44, R97). -/
def State.toLaunch (s : State) (g : Nat) (msg : ControlMsg) (f : Nat → State) : State :=
  match s.slotOfGroup g with
  | some n => f n
  | none => s.modGroup g fun x => { x with early := x.early ++ [msg] }

/-- A barrier arrival of another module. -/
def State.remoteArrival (s : State) (slot level node number : Nat) : State :=
  let b := s.upperAt slot level node number
  let (g, k) := arrival b.gen b.count ((s.lslot slot).info.tree.size level)
  s.setUpper { b with gen := g, count := k }

/-- What this module records when a group fails at another member: 11 where its own digest differs from the leader's,
else 12 (R93 steps 5 and 6). -/
def State.refusalCause (s : State) (g : Nat) : Byte :=
  match s.group? g with
  | none => 12
  | some x =>
    let digest (m : Nat) : Option (List Byte) := (x.members.find? (·.1 == m)).map Prod.snd
    if digest me = digest x.leader then 12 else 11

/-- CONTROL_FLIT_RECEIVE. -/
def execControlFlitReceive (msg : ControlMsg) (s : State) : Res :=
  match msg with
  | .announce g m digest => if m = me then .next s else .next (s.noteMember g m digest)
  | .go g =>
    match s.queueOfGroup g, s.group? g with
    | some q, some x =>
      if (s.queue q).stage ≠ .bound then .next s
      else if s.heldBack q then .next (s.modLQueue q fun x => { x with stage := .going })
      else .next (s.startHead q x.held)
    | _, _ => .next s
  | .retry g => .next (s.releaseHead g)
  | .waiting g m =>
    match s.group? g with
    | some x => if x.leader = me ∧ m ≠ me then .next ((s.releaseHead g).tell (.retry g)) else .next s
    | none => .next s
  | .withdraw g m => .next (s.memberLeaves g m)
  | .freed g m =>
    match s.queueOfGroup g with
    | some q =>
      if m ≠ me ∧ (s.queue q).stage = .bind ∧ (s.queue q).wait = 2 ∧ !s.heldBack q then .next (s.bindHead q)
      else .next s
    | none => .next s
  | .refusedBy g m =>
    match s.queueOfGroup g with
    | some q => if m = me then .next s else .next (s.failHead q 4 (s.refusalCause g))
    | none => .next s
  | .bound g m =>
    .next (s.modGroup g fun x => if x.bound.contains m then x else { x with bound := x.bound ++ [m] })
  | .ready g level node slot seq rank bases =>
    .next (s.toLaunch g msg fun n =>
      s.modFabric fun f => { f with ready := f.ready ++ [⟨n, level, node, slot, seq, rank, bases⟩] })
  | .unready g level node slot seq rank =>
    .next (s.toLaunch g msg fun n => s.modFabric fun f => { f with ready := f.ready.filter fun r =>
      !(r.lslot == n && r.level == level && r.node == node && r.graph == slot && r.seq == seq && r.rank == rank) })
  | .declare g level node kind rank block =>
    .next (s.toLaunch g msg fun n =>
      s.modFabric fun f => { f with decls := f.decls ++ [⟨n, level, node, kind, rank, block⟩] })
  | .undeclare g level node kind rank =>
    .next (s.toLaunch g msg fun n => s.modFabric fun f => { f with decls := f.decls.filter fun d =>
      !(d.lslot == n && d.level == level && d.node == node && d.kind == kind && d.rank == rank) })
  | .arrive g level node number => .next (s.toLaunch g msg fun n => s.remoteArrival n level node number.toNat)

end Sys2Proof.Machine
end

