-- ==== Sys2Proof/Machine/End.lean ====
section
/-!
DEFINITION. How a launch ends (R72, R73): what its contexts left running, its last fence, its end status, what it
frees; and the owner's ABORT.
-/

namespace Sys2Proof.Machine

/-! ## What a launch still has in flight -/

/-- The contexts of a launch in the cores. -/
def State.ctxsOf (s : State) (slot : Nat) : List (Nat × CtxNo) :=
  s.allContexts.filter fun (n, c) => (s.ctxOf n c).bound && (s.ctxOf n c).bind.lslot == slot

/-- The cores that hold contexts of a launch. -/
def State.coresOf (s : State) (slot : Nat) : List Nat := distinct ((s.ctxsOf slot).map Prod.fst)

/-- Its commands, on every engine. -/
def State.launchCmds (s : State) (slot : Nat) : List Cmd :=
  (s.coresOf slot).flatMap fun n => (s.commands n).filter fun m =>
    (s.ctxOf n m.ctx).bound && (s.ctxOf n m.ctx).bind.lslot == slot

/-- Whether a command waits for participants that a launch which is discarded never provides: a print of which no
operation has started, or an exchange in declaration. -/
def State.waitsForPeers (s : State) (m : Cmd) : Bool :=
  m.run == .running && match m.op with
    | .cgrun => ((s.coreAt m.core).prints.find? fun p => p.cmd.is m).all fun p => !p.ops.contains .started
    | .a2aDisp | .a2aComb | .repart => true
    | _ => false

/-- A command that is discarded leaves its queue with its error value. -/
def State.endCmd (s : State) (m : Cmd) : State :=
  (s.modCoreAt m.core fun k => { k with prints := k.prints.filter fun p => !p.cmd.is m }).finishCmd m false

/-- Whether the accesses of a launch's contexts are over. -/
def State.accessesOver (s : State) (slot : Nat) : Bool :=
  (s.ctxsOf slot).all fun (n, c) =>
    let x := s.ctxOf n c
    x.pend.isEmpty && x.behind.isEmpty && x.releases.isEmpty && x.fences.isEmpty && x.acquires.isEmpty
      && !s.fabric.reqs.any fun r => r.who.owner == some (n, c)

/-- The write-backs of a launch that are outstanding. -/
def State.writebacksOut (s : State) (slot : Nat) : Bool :=
  s.fabric.reqs.any fun r => match r.who with
    | .writeback _ l => l == slot
    | _ => false

/-! ## Freeing (R73 step 2, R91, R123) -/

/-- A context that is freed: nothing of it is outstanding; its control registers, its captured results, its return
stack and its loop entries stay as they are until a launch takes the context (R66, R223). -/
def Ctx.freed (c : Ctx) : Ctx :=
  { Ctx.reset with
    pc := c.pc, ctrl := c.ctrl, latent := c.latent, retStack := c.retStack, spilled := c.spilled, loops := c.loops }

/-- A barrier of a launch that ends is nobody's: whoever arrives next takes it over (R356). -/
def Barrier.freed (b : Barrier) (slot : Nat) : Barrier :=
  if b.lslot = slot then { b with lslot := slot + 256, count := 0 } else b

/-- A core without a launch: its contexts, its lines and its routines are gone. -/
def Core.freeLaunch (k : Core) (slot : Nat) : Core :=
  let gone : CtxNo → Bool := fun c => (k.ctxs.get c).bound && (k.ctxs.get c).bind.lslot == slot
  let keep : Cmd → Bool := fun m => !gone m.ctx
  let k := { k with
    mqueue := k.mqueue.filter keep
    cqueue := k.cqueue.filter keep
    fqueue := k.fqueue.filter keep
    prints := k.prints.filter fun p => keep p.cmd
    fills := k.fills.filter fun (c, _) => !gone c
    lines := k.lines.filter fun l => l.lslot != slot
    array := { k.array with slots := k.array.slots.filter fun (_, r) =>
      match r with
      | some r => r.lslot != slot
      | none => true }
    barriers := k.barriers.map fun (b : Barrier) => b.freed slot }
  k.mapCtxs fun c => if c.bound && c.bind.lslot == slot then c.freed else c

/-- A hardware queue at the end of a launch: its messages stay, their charges and windows are nobody's (R123). -/
def HQueue.freeLaunch (h : HQueue) (slot : Nat) (ctxs : List (Nat × CtxNo)) : HQueue :=
  let orphan (m : QMsg) : QMsg := if m.lslot = slot then { m with lslot := 256 } else m
  { h with
    onchip := h.onchip.map orphan
    spilled := h.spilled.map orphan
    getters := h.getters.filter fun g => !ctxs.contains g }

/-- What a saved core image keeps when a launch ends; one without a context of any launch frees its slot (R113). -/
def SavedImage.freeLaunch (i : SavedImage) (slot : Nat) : Option SavedImage :=
  let keep : Cmd → Bool := fun m =>
    !((i.image.ctxs.get m.ctx).bound && (i.image.ctxs.get m.ctx).bind.lslot == slot)
  let k := i.image.freeLaunch slot
  if allCtxs.any fun c => (k.ctxs.get c).bound then some { i with image := k, text := i.text.filter fun x => keep x.2 } else none

/-- The contexts of a launch and all that the module keeps for it are freed. -/
def State.freeLaunch (s : State) (slot : Nat) : State :=
  let ctxs := s.ctxsOf slot
  let s := s.coreNumbers.foldl (fun s n => s.modCoreAt n (·.freeLaunch slot)) s
  let s := { s with
    pods := s.pods.filterMap fun ((p, x) : Nat × Pod) =>
      let x : Pod := { x with xlat := x.xlat.filter fun t => t.lslot != slot }
      if x = Pod.reset p then none else some (p, x)
    upper := s.upper.filter fun b => b.lslot != slot }
  let s := s.modHub fun h => { h with
    saved := h.saved.filterMap fun (i : SavedImage) => i.freeLaunch slot
    xlat := h.xlat.filter fun t => t.lslot != slot
    hqueues := h.hqueues.map fun ((q, x) : Nat × HQueue) => (q, x.freeLaunch slot ctxs) }
  (s.modFabric fun f => { f with
    ready := f.ready.filter fun r => r.lslot != slot
    decls := f.decls.filter fun d => d.lslot != slot }).freeMonitors

/-- Members of groups that wait for contexts hear that some are free (R93). -/
def State.tellFreed (s : State) : State :=
  ([0, 1, 2, 3, 4, 5, 6, 7] : List (Fin 8)).foldl
    (fun s q =>
      let info := (s.lslot (s.queue q).slot).info
      if (s.queue q).stage.inGroup && 1 < info.tree.modules then s.tell (.freed info.group me) else s) s

/-! ## The end (R73) -/

/-- The last fence's status word: the union of the contexts' failure records. -/
def State.lastFence (s : State) (slot : Nat) : Word64 :=
  let ws := (s.launchCtxs slot).map fun c => c.report 0x1F
  let n := min ((ws.map fun w => bits w 32 32).foldl (· + ·) 0) (2 ^ 32 - 1)
  let low : Word64 := ws.foldl (fun a w => a ||| (w &&& 0xFFFFFFFF)) 0
  BitVec.ofNat 64 (n * 2 ^ 32) ||| low

/-- The launch is over: its status after its last fence, its contexts freed, its signal words written. When a GROUP may
be announced anew is open: this module forgets the group here, whatever the other members still do (DESIGN CHOICE, log
entry 129). -/
def State.closeLaunch (s : State) (slot : Nat) : State :=
  let l := s.lslot slot
  let w := s.lastFence slot
  let bad := l.status = 0 ∧ bits w 32 32 ≠ 0
  let status : Byte := if bad then 7 else l.status
  let cause : Byte := if bad then w.setWidth 8 else l.cause
  let s := s.freeLaunch slot
  let s := if l.info.group = 0 then s else s.dropGroup l.info.group
  let s := s.writeSignals l.info.record status cause
  (s.modSlot slot fun l => { l with state := .ended, status := status, cause := cause }).tellFreed.retryLater

/-- The contexts of a launch that have not been halted, and those of them that can be now: a running one is halted by
its core's own cycle (R72). -/
def State.unhalted (s : State) (slot : Nat) : List (Nat × CtxNo) :=
  (s.ctxsOf slot).filter fun (n, c) => (s.ctxOf n c).state != .halted
def State.haltable (s : State) (slot : Nat) : List (Nat × CtxNo) :=
  (s.unhalted slot).filter fun (n, c) =>
    (s.ctxOf n c).state != .running && !s.movingData slot (s.ctxOf n c).bind.gang

/-- What the end of a launch does next, once what it waits for is over; none while it waits. -/
def State.endNext (s : State) (slot : Nat) : Option State :=
  let l := s.lslot slot
  let ms := s.launchCmds slot
  if l.state ≠ .ending then none
  else if !(s.haltable slot).isEmpty then some ((s.haltable slot).foldl (fun s (n, c) => s.haltCtx n c) s)
  else if !(s.unhalted slot).isEmpty then none
  else match ms.filter fun m => m.run == .suspended with
    | m :: rest => some ((m :: rest).foldl (fun s m => s.giveUp m) s)
    | [] =>
      match ms.filter fun m => l.status != 0 && s.waitsForPeers m with
      | m :: rest => some ((m :: rest).foldl (fun s m => s.endCmd m) s)
      | [] =>
        if !ms.isEmpty || !s.accessesOver slot then none
        else if (s.coresOf slot).any fun n => (s.coreAt n).lines.any fun x => x.lslot == slot && x.dirty != 0 then
          some ((s.coresOf slot).foldl (fun s n => s.clean n true fun x => x.lslot == slot) s)
        else if s.writebacksOut slot then none
        else some (s.closeLaunch slot)

/-- LAUNCH_END. -/
def execLaunchEnd (slot : Nat) (s : State) : Res := .next ((s.endNext slot).getD s)

/-! ## ABORT (R72, R93) -/

/-- The queue whose head holds a launch slot. -/
def State.queueOfSlot (s : State) (slot : Nat) : Option (Fin 8) :=
  ([0, 1, 2, 3, 4, 5, 6, 7] : List (Fin 8)).find? fun q =>
    (s.queue q).slot == slot && (s.queue q).stage != .none && (s.queue q).stage != .waitSlot

/-- A write of 1 to ABORT: a launch that waits fails, one that runs ends, with ABORTED. -/
def State.abort (s : State) (slot : Nat) : State :=
  match (s.lslot slot).state, s.queueOfSlot slot with
  | .waiting, some q =>
    let s := if (s.queue q).stage.inGroup then s.tell (.withdraw (s.lslot slot).info.group me) else s
    s.failHead q 10 0
  | .running, _ => s.endLaunch slot 10 0
  | _, _ => s

/-- LAUNCH_ABORT. -/
def execLaunchAbort (m : Nat) (slot : Nat) (s : State) : Res :=
  s.asOwner m fun s => if 255 < slot then .next s else .next (s.abort slot)

/-- The launches that can go on ending. -/
def State.endEvents (s : State) : List Instr :=
  (s.hub.slots.filter fun (n, _) => (s.endNext n).isSome).map fun (n, _) => .launchEnd n

end Sys2Proof.Machine
end

