-- ==== Sys2Proof/Machine/Gang.lean ====
section
/-!
DEFINITION. Gang pre-emption, resume and migration (R47, R77, R100, R112 to R118, R208, R225 to R227), pod failure
(R25, R118), and the second binding of what waits (R91).
-/

namespace Sys2Proof.Machine

/-! ## Pre-emption sets (R112, R113) -/

/-- A gang: its launch slot and the index of its node. -/
abbrev GangId := Nat × Nat

/-- The gang of a context. -/
def Ctx.gang (c : Ctx) : GangId := (c.bind.lslot, c.bind.gang)

/-- The contexts of a core that belong to a gang which has not ended. -/
def Core.inGangs (k : Core) : List Ctx := (allCtxs.map k.ctxs.get).filter fun c => c.bound && c.state != .halted

/-- The gangs with contexts in a core. -/
def Core.gangs (k : Core) : List GangId := distinct (k.inGangs.map Ctx.gang)

/-- Whether a core holds a context of some gangs. -/
def Core.meets (k : Core) (gs : List GangId) : Bool := k.gangs.any gs.contains

/-- Some gangs with every gang that shares a core with them, so many times over. -/
def closeOver (ks : List Core) : Nat → List GangId → List GangId
  | 0, gs => gs
  | n + 1, gs => closeOver ks n (distinct (gs ++ (ks.filter fun k => k.meets gs).flatMap Core.gangs))

/-- The gang number that means every gang of the launch. -/
def everyGang : BitVec 32 := 0xFFFFFFFF

/-- The gangs of a list that a GANGCMD names. -/
def named (slot : Nat) (gang : BitVec 32) (gs : List GangId) : List GangId :=
  gs.filter fun g => g.1 == slot && (gang == everyGang || g.2 == gang.toNat)

/-- Whether the launch slot has no such gang. -/
def State.noGang (s : State) (slot : Nat) (gang : BitVec 32) : Bool :=
  gang != everyGang && ((s.lslot slot).state == .empty || decide ((s.lslot slot).info.tree.gangs ≤ gang.toNat))

/-- The cores, and the gangs that they run. -/
def State.coreList (s : State) : List Core := s.coreNumbers.map s.coreAt
def State.gangsHere (s : State) : List GangId := distinct (s.coreList.flatMap Core.gangs)

/-- The cores that hold a context of some gangs. -/
def State.coresWith (s : State) (gs : List GangId) : List Nat := s.coreNumbers.filter fun n => (s.coreAt n).meets gs

/-- How many contexts some gangs have in some cores. -/
def countIn (ks : List Core) (gs : List GangId) : Nat :=
  (ks.flatMap Core.inGangs).countP fun c => gs.contains c.gang

/-- GANGRES: its RESULT and NSET. -/
def State.gangResult (s : State) (slot result n : Nat) : State :=
  s.modSlot slot fun l => { l with gangRes := BitVec.ofNat 64 (result * 2 ^ 56 + n) }

/-- The free save slots, in order. -/
def State.saveSlots (s : State) : List Nat :=
  (List.range (bits s.hub.psaven 0 11)).filter fun n => !s.hub.saved.any fun i => i.slot == n

/-- A pre-empt request: it is refused, or its set begins to stop. -/
def State.beginPreempt (s : State) (slot : Nat) (gang : BitVec 32) : State :=
  let want := named slot gang s.gangsHere
  if s.noGang slot gang then s.gangResult slot 3 0
  else if want.isEmpty then s.gangResult slot 4 0
  else
    let gs := closeOver s.coreList s.coreList.length want
    let n := countIn s.coreList gs
    if s.saveSlots.length < (s.coresWith gs).length then s.gangResult slot 5 n
    else (s.gangResult slot 2 n).modHub fun h => { h with stop := some ⟨⟨slot, .preempt gang⟩, gs, n, []⟩ }

/-! ## Reaching the contexts' own memory -/

/-- Bytes written to a context's own area, where its page takes them. The Bool says whether it did. -/
def State.areaWrite (s : State) (n : Nat) (c : CtxNo) (va : Word64) (data : List Byte) : State × Bool :=
  match s.translateWith (s.podAt (podOf n)).xlat (s.ctxOf n c).bind.lslot va .write with
  | .ok tgt modId pa _ =>
    let (t, r) := s.homeWrite (dieOf n) tgt modId pa (2 ^ 43) data
    (t, r == .ok)
  | _ => (s, false)

/-- Bytes read from it; none where they cannot be read. -/
def State.areaRead (s : State) (n : Nat) (c : CtxNo) (va : Word64) (len : Nat) : Option (List Byte) :=
  match s.translateWith (s.podAt (podOf n)).xlat (s.ctxOf n c).bind.lslot va .read with
  | .ok tgt modId pa _ =>
    match s.homeRead (dieOf n) tgt modId pa len (2 ^ 44) with
    | (data, .ok) => some data
    | _ => none
  | _ => none

/-- The bytes that the buffer keeps in memory for a captured result (R225): those of v and x results. -/
def Latent.bytes (l : Latent) : Nat :=
  match l.valid, l.flight.dest with
  | true, .v _ _ _ => 64
  | true, .x _ => 32
  | _, _ => 0

/-- The place of buffer entry `i` in the context area. -/
def Ctx.valueAddr (c : Ctx) (i : Nat) : Word64 := c.ctrl.rsb + BitVec.ofNat 64 (0xC000 + 64 * i)

/-- The values of a context's buffer go to its context area. The Bool says whether all of them did. -/
def State.writeValues (s : State) (n : Nat) (c : CtxNo) : State × Bool :=
  let x := s.ctxOf n c
  (x.latent.zipIdx).foldl
    (fun (r : State × Bool) (l, i) =>
      if l.bytes = 0 then r
      else
        let (t, ok) := r.1.areaWrite n c (x.valueAddr i) (natToBytes l.bytes l.flight.value.toNat)
        (t, r.2 && ok)) (s, true)

/-- The buffer as it is read back: its entries, and the first that cannot be read (R22, R233). -/
def State.readValues (s : State) (n : Nat) (c : CtxNo) : List Latent × Option (Nat × Word64) :=
  let x := s.ctxOf n c
  (x.latent.zipIdx).foldl
    (fun (acc, bad) (l, i) =>
      if l.bad && l.valid then (acc, bad.or (some (i, x.valueAddr i)))
      else if l.bytes = 0 then (acc ++ [l], bad)
      else match s.areaRead n c (x.valueAddr i) l.bytes with
        | some b => (acc ++ [{ l with flight := { l.flight with value := BitVec.ofNat 512 (bytesToNat b) } }], bad)
        | none => (acc, bad.or (some (i, x.valueAddr i)))) ([], none)

/-! ## Announcements (R44, R47) -/

/-- The readiness of a print of a context. -/
def State.readyMsg (s : State) (n : Nat) (p : Print) : ReadyMsg :=
  let x := s.ctxOf n p.cmd.ctx
  let t := (s.lslot x.bind.lslot).info.tree
  let lv := p.cmd.level.toNat
  let nbase := match (s.coreAt n).graphs.get (ix4 (p.cmd.graph.setWidth 6)) with
    | some g => g.nbase
    | none => 8
  ⟨x.bind.lslot, lv, t.node x.bind.coords lv, p.cmd.graph, p.seq, t.rank x.bind.coords lv, p.bases.take nbase⟩

/-- A declaration of a context's exchange to other modules is withdrawn; the resume makes it afresh (R47, R378). -/
def State.withdrawDecl (s : State) (n : Nat) (c : CtxNo) : State :=
  let x := s.ctxOf n c
  let info := (s.lslot x.bind.lslot).info
  ((s.coreAt n).fqueue.filter fun m => m.ctx == c && m.op.exchange.isSome && m.prog == 1).foldl
    (fun s m =>
      let lv := m.level.toNat
      let msg : ControlMsg := .undeclare info.group lv (info.tree.node x.bind.coords lv) (m.op.exchange.getD 0)
        (info.tree.rank x.bind.coords lv)
      (s.tell msg).modQueue m fun q => putCmd q { m with prog := 0 }) s

/-- Announcements of a context's prints are withdrawn. -/
def State.withdrawReady (s : State) (n : Nat) (c : CtxNo) : State :=
  ((s.coreAt n).prints.filter fun p => p.cmd.ctx == c).foldl
    (fun s p =>
      let r := s.readyMsg n p
      let info := (s.lslot r.lslot).info
      let s := s.modFabric fun f => { f with ready := f.ready.filter (· != r) }
      if 1 < info.tree.modules then s.tell (.unready info.group r.level r.node r.graph r.seq r.rank) else s) s

/-- They are made again. -/
def State.renewReady (s : State) (n : Nat) (c : CtxNo) : State :=
  ((s.coreAt n).prints.filter fun p => p.cmd.ctx == c).foldl
    (fun s p =>
      let r := s.readyMsg n p
      let info := (s.lslot r.lslot).info
      let s := s.modFabric fun f => { f with ready := f.ready ++ [r] }
      if 1 < info.tree.modules then s.tell (.ready info.group r.level r.node r.graph r.seq r.rank r.bases) else s) s

/-! ## Stopping a context (R114, R115) -/

/-- Whether a gang's data is moving, or a text command of it is in progress (R47, R208). -/
def State.moving (s : State) (g : GangId) : Bool :=
  s.movingData g.1 g.2 || s.allContexts.any fun (n, c) =>
    let x := s.ctxOf n c
    x.bound && x.gang == g
      && (tget [] s.text (dieOf n)).any fun m => m.core == n && m.ctx == c && m.run == .running && !m.dying

/-- Whether a context belongs to the set that is stopping and has not stopped. -/
def State.stopping (s : State) (n : Nat) (c : CtxNo) : Bool :=
  let x := s.ctxOf n c
  x.bound && x.state != .preempted && x.state != .halted && s.hub.stop.any fun st => st.gangs.contains x.gang

/-- Whether a context that stands at a boundary may stop there: its reads, atomics and fences have returned, and at
most 64 results are in flight. -/
def State.mayStop (s : State) (n : Nat) (c : CtxNo) : Bool :=
  let x := s.ctxOf n c
  s.stopping n c && x.bubbles == 0 && x.waits.entering.isNone && x.pend.isEmpty && x.fences.isEmpty
    && x.acquires.isEmpty && (x.state != .idle || (x.settled && x.resident == 0))
    && decide ((x.performCtrl).flight.length + (x.latent.filter (·.valid)).length ≤ 64) && !s.moving x.gang

/-- A stopped context keeps its held bundle; a WAITA issues at the resume with cause 3 (R115). -/
def Ctx.stop (c : Ctx) : Ctx :=
  { c.capture false with
    state := .preempted
    waits := { c.waits with
      prior := if c.state = .running then .ready else c.state
      waita := c.waits.waita.map fun (r : WaitRec) => { r with cause := some 3 } } }

/-- Something that happens to the selected core or to another, with its trace events recorded there. -/
def State.onCore (s : State) (n : Nat) (f : State → State) : State :=
  if n = s.coreIx then f s
  else
    let t := (s.select n).modFr fun fr => { fr with notes := [], shut := none }
    ((f t).flushNotes.select s.coreIx).modFr fun fr => { fr with notes := s.fr.notes, shut := s.fr.shut }

/-- A core has put not all of a context's state into memory: a failed pod's gangs cannot go on with it (R25). -/
def State.noteUnsaved (s : State) (n : Nat) (ok : Bool) : State :=
  if ok then s
  else s.modHub fun h => { h with stop := h.stop.map fun st => { st with lost := n :: st.lost } }

/-- A context of the selected core stops: results in flight are captured, its lines go home, its announcements are
withdrawn. -/
def State.captureCtx (s : State) (c : CtxNo) : State :=
  let n := s.coreIx
  let t := (s.landEffects c (s.ctxAt c).flight).modCtxAt c Ctx.performCtrl
  let x := t.ctxAt c
  let t := (t.noteAt c rankOther 3 6 x.hm.toNat x.pc).withdrawReady n c |>.withdrawDecl n c
  let (t, values) := (t.modCtxAt c Ctx.stop).writeValues n c
  let (t, lines) := t.flushCtx n c
  ((t.leaveQueues n c).freeMonitors).noteUnsaved n (values && lines)

/-- A context stops. An engine fault that is due at the boundary is delivered first, and the context stops before its
handler's first bundle, unless its launch ends with the fault (R227, R230). -/
def State.stopCtx (s : State) (n : Nat) (c : CtxNo) : State :=
  s.onCore n fun t =>
    if !(t.ctxAt c).faultDue then t.captureCtx c
    else
      let t := (t.modCtxAt c (·.ready t.core.now)).deliverFault c
      let x := t.ctxAt c
      if x.hm && x.waits.entering.isNone then (t.modCtxAt c fun x => { x with bubbles := 0 }).captureCtx c else t

/-! ## Saving the cores (R113, R114 steps 2 to 5) -/

/-- The cores of a set that is stopping. -/
def State.stopCores (s : State) (st : Stop) : List Nat :=
  s.coreNumbers.filter fun n => allCtxs.any fun c =>
    (s.ctxOf n c).bound && st.gangs.contains (s.ctxOf n c).gang

/-- Whether every context of a core has stopped and nothing is on its way to it or from it (R345). -/
def State.coreQuiet (s : State) (n : Nat) : Bool :=
  (allCtxs.all fun c => !(s.ctxOf n c).bound || (s.ctxOf n c).state == .preempted)
    && !(s.fabric.reqs.any fun r => r.cleans n || (r.who.owner.any fun w => w.1 == n))
    && !((s.commands n).any fun m => m.dying)
    && !(s.allContexts.any fun (m, c) =>
      (s.ctxOf m c).state != .preempted && (s.ctxOf m c).behind.any fun (_, a) => match a with
        | .peer md target _ _ _ => md == me && target == n
        | _ => false)

/-- The 2 MiB of a save slot receive a core image (R113, R114 step 5). How an image is laid out is open: its bytes are
free values. -/
def State.writeImage (s : State) (slot : Nat) : State :=
  let base := bits s.hub.psaveb 0 56 + 2 ^ 21 * slot
  if hbmSize < base + 2 ^ 21 then s else s.writeHbm base (s.freeBytes (2 ^ 21) (2 ^ 61))

/-- A die's text commands with their places in its queue. -/
def State.textPlaces (s : State) (die : Nat) : List (Nat × Cmd) := (tget [] s.text die).zipIdx.map fun (m, i) => (i, m)

/-- A core's image goes to a save slot, and its contexts are free. Its counters and its trace stay with the core. -/
def State.saveCore (s : State) (set : List GangId) (text : List (Nat × Cmd)) (slot n : Nat) : State :=
  let k := s.coreAt n
  let mine : Cmd → Bool := fun m => m.core == n
  let q := tget [] s.text (dieOf n)
  let image : Core := { k with counters := Counters.reset, trace := Trace.reset, lines := [], fills := [] }
  let s := { s.writeImage slot with text := tset [] s.text (dieOf n) (q.filter fun m => !mine m) }
  let s := s.modHub fun h => { h with saved := h.saved ++ [⟨slot, n, image, text.filter fun (_, m) => mine m, set⟩] }
  let suspends := k.mqueue.any fun m => m.op == .mcall && m.run == .running
  s.modCoreAt n fun k => { k.mapCtxs (fun _ => Ctx.reset) with
    mqueue := [], cqueue := [], fqueue := [], sb := [], prints := [], lines := [], fills := []
    counters := if suspends then { k.counters with mxsusp := k.counters.mxsusp + 1 } else k.counters }

/-- The cores of a set are saved in ascending order, each in the first free slot. -/
def State.saveAll (s : State) (set : List GangId) (ns : List Nat) : State :=
  ns.foldl (fun t n => match t.saveSlots with
    | slot :: _ => t.saveCore set (s.textPlaces (dieOf n)) slot n
    | [] => t) s

/-! ## Restarting gangs (R77, R115 to R117, R226, R227) -/

/-- A field of an instance is rewritten for its gang's new place; none when the value does not fit or its word is out
of reach. -/
def State.rewrite (s : State) (info : LaunchInfo) (g : GangPlace) (r : Reloc) : Option State :=
  let va := info.instArea + BitVec.ofNat 64 (g.gang * info.instSize + r.place info)
  match (translateFrom s.hbm info.ptroot va .read).1 with
  | .ok tgt modId pa _ =>
    match s.homeRead (g.ctx / 448) tgt modId pa 8 (2 ^ 45) with
    | (b, .ok) =>
      match r.patch (bytesToNat b) (s.relocValue info g r) with
      | some w =>
        match s.hubWrite info.ptroot va (natToBytes 8 w) 1 with
        | (s, true) => some s
        | _ => none
      | none => none
    | _ => none
  | _ => none

/-- The fields of KIND 4 to 8 of a gang that has moved; its launch ends with RELOC when one does not fit (R77). -/
def State.rewriteGang (s : State) (g : GangId) : State :=
  let info := (s.lslot g.1).info
  let first := s.allContexts.find? fun (n, c) =>
    let x := s.ctxOf n c
    x.bound && x.gang == g && info.tree.rank x.bind.coords info.tree.gang == 0
  match first with
  | none => s
  | some (n, c) =>
    let done := (info.relocs.filter fun r => 4 ≤ r.kind).foldl
      (fun (acc : Option State) r => acc.bind fun t => t.rewrite info ⟨g.2, 4 * n + c.val⟩ r) (some s)
    match done with
    | some t => t
    | none => s.endLaunch g.1 5 0

/-- A context goes on from where it stopped. One that was WAITING has no hold any longer: it is READY in the next cycle
of its core, so that its bundle is presented afresh (R102, R115). -/
def Ctx.restart (c : Ctx) (moved : Bool) (latent : List Latent) (bad : Option (Nat × Word64)) (now : Nat) : Ctx :=
  { c with
    state := c.waits.prior
    readySince := now
    resident := 0
    dirty := 0
    latent := latent
    ctrl := { c.ctrl with status := if moved then c.ctrl.status ||| 2 else c.ctrl.status }
    waits := { c.waits with hold := .none, heldC := false, cycles := 0, replayStop := true, lateErr := bad } }

/-- RESUME of one context. -/
def State.restartCtx (s : State) (n : Nat) (c : CtxNo) (moved : Bool) : State :=
  let t := s.select n
  let (latent, bad) := t.readValues n c
  let t := t.modCtxAt c fun x => x.restart moved latent bad t.core.now
  let t := (t.traceAt c 3 7 moved.toNat (t.ctxAt c).pc).modCore fun k => { k with last := 3 }
  (t.renewReady n c).select s.coreIx

/-- The stopped gangs of a set start again, those that have moved with their fields rewritten and a new move
epoch; those of a launch that has ended meanwhile do not (R77). -/
def State.restart (s : State) (gs moved : List GangId) : State :=
  let s := (distinct (moved.map Prod.fst)).foldl (fun s l => s.modSlot l fun x => { x with mep := x.mep + 1 }) s
  let s := moved.foldl (fun s g => s.rewriteGang g) s
  (s.allContexts.filter fun (n, c) => (s.ctxOf n c).state == .preempted && gs.contains (s.ctxOf n c).gang
      && (s.lslot (s.ctxOf n c).bind.lslot).state == .running).foldl
    (fun s (n, c) => s.restartCtx n c (moved.contains (s.ctxOf n c).gang)) s

/-! ## Takeover (R25, R118) -/

/-- The launches with contexts on some cores end because their pod has failed. -/
def State.podFails (s : State) (die : Nat) (ns : List Nat) : State :=
  (distinct (ns.flatMap fun n => (s.coreAt n).gangs.map Prod.fst)).foldl
    (fun s l => s.endLaunch l 8 (BitVec.ofNat 8 die)) s

/-- The queued text commands of some gangs go to the tail of their die's queue, in their order (R208). -/
def State.requeueText (s : State) (gs : List GangId) : State :=
  let mine (m : Cmd) : Bool := m.run == .queued && gs.contains (s.ctxOf m.core m.ctx).gang
  { s with text := s.text.map fun (d, q) => (d, (q.filter fun m => !mine m) ++ q.filter mine) }

/-- A failed pod's gangs have stopped: the spare takes its logical index and they go on there at once; a core whose
image cannot be read, one of `lost`, whose state could not be flushed, or a die without a spare, ends their launches. -/
def State.takeOver (s : State) (p : Nat) (gs : List GangId) (lost : List Nat) : State :=
  let cores := [4 * p, 4 * p + 1, 4 * p + 2, 4 * p + 3]
  let s := s.requeueText gs
  match s.spare (p / 28) with
  | none =>
    let s := (s.podFails (p / 28) cores).modPod p fun x => { x with active := false, failed := false }
    s.restart gs []
  | some b =>
    let s := s.podFails (p / 28) (cores.filter fun n =>
      lost.contains n || !(s.coreAt n).badWords.isEmpty || !(s.coreAt n).badTile.isEmpty)
    let s := s.modPod p fun x => { x with phys := b, failed := false, monitor := [], xlat := [] }
    let s := cores.foldl
      (fun s n => s.modCoreAt n fun k =>
        { k with counters := Counters.reset, trace := Trace.reset, badWords := [], badTile := [] }) s
    let moved := gs.filter fun g => cores.any fun n => (s.coreAt n).gangs.contains g
    s.restart gs moved

/-! ## Resume (R100, R116) -/

/-- The launches of an image. -/
def SavedImage.launches (i : SavedImage) : List Nat := distinct (i.image.gangs.map Prod.fst)

/-- Whether a core's contexts may be used by an image: as the device stands, or with every context free. -/
def State.coreOpen (s : State) (i : SavedImage) (empty : Bool) (n : Nat) : Bool :=
  (i.launches.all fun l =>
    if empty then s.onDevice (s.lslot l).info (4 * n)
    else s.usable (s.lslot l).info (4 * n) && s.podOpen (s.lslot l).info l (n / 4))
    && (empty || allCtxs.all fun c => s.freeCtx (4 * n + c.val))

/-- The contexts last bound to a launch, as context number and context: in cores and in saved images. -/
def State.lastBound (s : State) (slot : Nat) : List (Nat × Ctx) :=
  let of (n : Nat) (k : Core) : List (Nat × Ctx) :=
    (allCtxs.map fun c => (4 * n + c.val, k.ctxs.get c)).filter fun (_, c) => c.bound && c.bind.lslot == slot
  (s.coreNumbers.flatMap fun n => of n (s.coreAt n)) ++ s.hub.saved.flatMap fun i => of i.coreIx i.image

/-- Whether a core lies in the parent unit of every gang of an image. -/
def State.inParents (s : State) (i : SavedImage) (n : Nat) : Bool :=
  i.image.gangs.all fun (l, _) =>
    let t := (s.lslot l).info.tree
    let phys := if t.gang = 0 then 6 else max 3 (min 6 (t.physAt (t.gang - 1)))
    (4 * n) / unitSpan phys == (4 * i.coreIx) / unitSpan phys

/-- The contexts last bound to a launch, where some images have their places already. -/
def State.lastBoundWith (s : State) (done : List (SavedImage × Nat)) (slot : Nat) : List (Nat × Ctx) :=
  let of (i : SavedImage) (n : Nat) : List (Nat × Ctx) :=
    (allCtxs.map fun c => (4 * n + c.val, i.image.ctxs.get c)).filter fun (_, c) => c.bound && c.bind.lslot == slot
  s.lastBound slot ++ done.flatMap fun (i, n) => of i n

/-- Whether an image on a core would lie in a unit last bound to a sibling of one of its gangs, or given to one just
now. -/
def State.onSibling (s : State) (done : List (SavedImage × Nat)) (i : SavedImage) (n : Nat) : Bool :=
  allCtxs.any fun c =>
    let x := i.image.ctxs.get c
    let t := (s.lslot x.bind.lslot).info.tree
    let phys := min 6 (t.physAt t.gang)
    x.bound && decide (0 < t.gang) && t.physAt t.gang != t.physAt (t.gang - 1)
      && (s.lastBoundWith done x.bind.lslot).any fun (k, y) =>
        y.bind.gang != x.bind.gang
          && t.node y.bind.coords (t.gang - 1) == t.node x.bind.coords (t.gang - 1)
          && k / unitSpan phys == (4 * n + c.val) / unitSpan phys

/-- Places for some images, each with its core: the one it comes from, else the first that will do; or the image that
finds none. -/
def State.placeImages (s : State) (empty : Bool) : List SavedImage → List (SavedImage × Nat) →
    List (SavedImage × Nat) ⊕ SavedImage
  | [], done => .inl done
  | i :: rest, done =>
    let open_ (n : Nat) : Bool := !(done.any fun d => d.2 == n) && s.coreOpen i empty n
    let next := if open_ i.coreIx then some i.coreIx
      else (List.range 896).find? fun n => s.inParents i n && !s.onSibling done i n && open_ n
    match next with
    | some n => s.placeImages empty rest (done ++ [(i, n)])
    | none => .inr i

/-- An image's commands as they stand on their new core. -/
def Cmd.onCore (n : Nat) (m : Cmd) : Cmd := { m with core := n }

/-- An image returns to a core. The core keeps its own counters and trace. -/
def State.loadImage (s : State) (i : SavedImage) (n : Nat) : State :=
  let s := (s.syncCore n).modCoreAt n fun k =>
    { i.image with
      counters := k.counters, trace := k.trace, last := 3, seen := k.seen
      mqueue := i.image.mqueue.map (Cmd.onCore n)
      cqueue := i.image.cqueue.map (Cmd.onCore n)
      fqueue := i.image.fqueue.map (Cmd.onCore n)
      prints := i.image.prints.map fun (p : Print) => { p with cmd := p.cmd.onCore n } }
  s.modHub fun h => { h with saved := h.saved.filter fun j => j.slot != i.slot }

/-- Insertion by place. -/
def insertPlace (x : Nat × Cmd) : List (Nat × Cmd) → List (Nat × Cmd)
  | [] => [x]
  | y :: ys => if x.1 < y.1 then x :: y :: ys else y :: insertPlace x ys

/-- The text commands of a set re-enter the queues of the dies at their tails, in their original order (R208). -/
def State.loadText (s : State) (places : List (SavedImage × Nat)) : State :=
  let cs := places.flatMap fun (i, n) => i.text.map fun (k, m) => (k, m.onCore n)
  (cs.foldl (fun acc x => insertPlace x acc) []).foldl
    (fun s (_, m) => { s with text := tset [] s.text (dieOf m.core) (tget [] s.text (dieOf m.core) ++ [m]) }) s

/-- Every image of a set has its place: the gangs start. -/
def State.resumeAt (s : State) (places : List (SavedImage × Nat)) : State :=
  let gs := distinct (places.flatMap fun (i, _) => i.image.gangs)
  let moved := gs.filter fun g => places.any fun (i, n) => n != i.coreIx && i.image.gangs.contains g
  ((places.foldl (fun s (i, n) => s.loadImage i n) s).loadText places).restart gs moved

/-- The images of a resume: those of the pre-emption sets of the named gangs. -/
def State.imagesOf (s : State) (slot : Nat) (gang : BitVec 32) : List SavedImage :=
  let want := named slot gang (distinct (s.hub.saved.flatMap fun i => i.image.gangs))
  let sets := s.hub.saved.filter fun i => i.image.meets want
  s.hub.saved.filter fun i => sets.any fun j => j.set == i.set

/-- How the resume of a set comes out. -/
inductive Resumed
  | done | waits | failed
  deriving DecidableEq, Repr

/-- A pre-emption set resumes as a whole, or waits; a gang of it that has no place even with every context free ends its
launch with PODFAIL (R100, R116). -/
def State.resumeSet (s : State) (set : List GangId) : State × Resumed :=
  let imgs := s.hub.saved.filter fun i => i.set == set
  match s.placeImages false imgs [] with
  | .inl places => (s.resumeAt places, .done)
  | .inr _ =>
    match s.placeImages true imgs [] with
    | .inl _ => (s, .waits)
    | .inr i => (i.launches.foldl (fun s l => s.endLaunch l 8 (BitVec.ofNat 8 (dieOf i.coreIx))) s, .failed)

/-- A resume: every set that it names resumes on its own. It is done, or some set waits and it is tried again. -/
def State.tryResume (s : State) (slot : Nat) (gang : BitVec 32) : State :=
  let imgs := s.imagesOf slot gang
  let n := (imgs.map fun i => i.image.inGangs.length).foldl (· + ·) 0
  let (s, rs) := (distinct (imgs.map SavedImage.set)).foldl
    (fun (a : State × List Resumed) set => let (t, r) := a.1.resumeSet set; (t, a.2 ++ [r])) (s, [])
  if rs.contains .waits then
    (s.gangResult slot 2 n).modSlot slot fun l =>
      { l with resuming := if l.resuming.contains gang then l.resuming else l.resuming ++ [gang] }
  else
    let s := s.modSlot slot fun l => { l with resuming := l.resuming.filter (· != gang) }
    if rs.contains .failed then s else s.gangResult slot 1 n

/-- A resume request. -/
def State.beginResume (s : State) (slot : Nat) (gang : BitVec 32) : State :=
  if s.noGang slot gang then s.gangResult slot 3 0
  else if (s.imagesOf slot gang).isEmpty then s.gangResult slot 4 0
  else s.tryResume slot gang

/-! ## One request at a time (R112) -/

/-- A pod that has failed: its gangs begin to stop, or the spare takes over at once. -/
def State.beginTakeover (s : State) (r : GangReq) (p : Nat) : State :=
  let mine := ([4 * p, 4 * p + 1, 4 * p + 2, 4 * p + 3].flatMap fun n => (s.coreAt n).gangs)
  let gs := closeOver s.coreList s.coreList.length mine
  if mine.isEmpty then s.takeOver p [] []
  else s.modHub fun h => { h with stop := some ⟨r, gs, countIn s.coreList gs, []⟩ }

/-- The requests that wait are performed in their order, as long as none is in progress. -/
def State.serveGangs (s : State) : Nat → State
  | 0 => s
  | n + 1 =>
    match s.hub.stop, s.hub.gangs with
    | none, r :: rest =>
      let s := s.modHub fun h => { h with gangs := rest }
      (match r.op with
        | .preempt g => s.beginPreempt r.slot g
        | .resume g => s.beginResume r.slot g
        | .takeover p => s.beginTakeover r p).serveGangs n
    | _, _ => s

/-- A request arrives. -/
def State.askGang (s : State) (r : GangReq) : State :=
  let s := s.modHub fun h => { h with gangs := h.gangs ++ [r] }
  s.serveGangs s.hub.gangs.length

/-- A well-formed GANGCMD of the owner. -/
def State.gangCommand (s : State) (slot : Nat) (op : GangOp) (value : Word64) : State :=
  if 255 < slot then s
  else (s.modSlot slot fun l => { l with gangCmd := value, gangRes := 2 <<< 56 }).askGang ⟨slot, op⟩

/-- GANG_PREEMPT: GANGCMD with OP 1. -/
def execGangPreempt (m : Nat) (slot : Nat) (gang : BitVec 32) (s : State) : Res :=
  s.asOwner m fun s => .next (s.gangCommand slot (.preempt gang) (0x4000000000000000 ||| gang.setWidth 64))

/-- GANG_RESUME: GANGCMD with OP 2. -/
def execGangResume (m : Nat) (slot : Nat) (gang : BitVec 32) (s : State) : Res :=
  s.asOwner m fun s => .next (s.gangCommand slot (.resume gang) (0x8000000000000000 ||| gang.setWidth 64))

/-! ## GANG_STOP (R114) -/

/-- The contexts of the set that may stop now: those that are not RUNNING stand at a boundary. -/
def State.canStop (s : State) : List (Nat × CtxNo) :=
  s.allContexts.filter fun (n, c) => (s.ctxOf n c).state != .running && s.mayStop n c

/-- The set has stopped: its cores are saved, or a failed pod's gangs go on on the spare. -/
def State.setStopped (s : State) (st : Stop) : State :=
  let ns := s.stopCores st
  let s := s.modHub fun h => { h with stop := none }
  let s := match st.req.op with
    | .takeover p => s.takeOver p st.gangs st.lost
    | _ => (s.saveAll st.gangs ns).gangResult st.req.slot 1 st.nset
  s.serveGangs s.hub.gangs.length

/-- What the stop of the set in progress does next; none while it waits. -/
def State.stopNext (s : State) (st : Stop) : Option State :=
  match s.canStop with
  | x :: rest => some ((x :: rest).foldl (fun s (n, c) => if s.mayStop n c then s.stopCtx n c else s) s)
  | [] =>
    let ns := s.stopCores st
    let dirty := ns.filter fun n => !(s.coreAt n).lines.isEmpty
    if ns.any fun n => allCtxs.any fun c => (s.ctxOf n c).bound && (s.ctxOf n c).state != .preempted then none
    else if !dirty.isEmpty then some (dirty.foldl (fun s n => s.clean n true fun _ => true) s)
    else if ns.all s.coreQuiet then some (s.setStopped st) else none

/-- GANG_STOP: the stop of a launch slot's request goes on. -/
def execGangStop (slot : Nat) (s : State) : Res :=
  match s.hub.stop with
  | some st => if st.req.slot = slot then .next ((s.stopNext st).getD s) else .next s
  | none => .next s

/-- The stop in progress, if it can go on. -/
def State.stopEvents (s : State) : List Instr :=
  match s.hub.stop with
  | some st => if (s.stopNext st).isSome then [.gangStop st.req.slot] else []
  | none => []

/-! ## POD_FAILURE and BIND_RETRY -/

/-- POD_FAILURE (R25, R118): a built pod fails. -/
def execPodFailure (die pod : Nat) (s : State) : Res :=
  if 7 < die ∨ 31 < pod ∨ s.hub.ecc.pods.contains (32 * die + pod) then .next s
  else
    let s := s.modHub fun h => { h with ecc := { h.ecc with pods := h.ecc.pods ++ [32 * die + pod] } }
    match (List.range 28).find? fun i => (s.podAt (28 * die + i)).active && (s.podAt (28 * die + i)).phys == pod with
    | none => .next s
    | some i =>
      let p := 28 * die + i
      let slot := (s.podLaunches p).foldl min 255
      .next ((s.modPod p fun x => { x with failed := true }).askGang ⟨slot, .takeover p⟩)

/-- A resume that waits is tried again; GANGRES shows it only while it is the slot's last command, with the NSET of the
whole request (R112). -/
def State.retryResume (s : State) (slot : Nat) (gang : BitVec 32) : State :=
  let old := s.lslot slot
  let s := s.tryResume slot gang
  s.modSlot slot fun l => { l with
    gangRes := if old.gangCmd = (0x8000000000000000 ||| gang.setWidth 64) then
        (l.gangRes &&& 0xFF00000000000000) ||| (old.gangRes &&& 0xFFFFFFFF)
      else old.gangRes }

/-- BIND_RETRY (R91, R116): the heads that wait for contexts are bound again, and the resumes that wait are tried
again. -/
def execBindRetry (s : State) : Res :=
  let s := s.rebind
  .next ((s.hub.slots.flatMap fun (n, l) => l.resuming.map fun g => (n, g)).foldl
    (fun s (n, g) => s.retryResume n g) s)

end Sys2Proof.Machine
end

