-- ==== Sys2Proof/Machine/Ownership.lean ====
section
/-!
DEFINITION. Ownership of the device (R57 to R62), host links (R14), islands and power (R15 to R21), error correction
and sparing (R22 to R24).
-/

namespace Sys2Proof.Machine

/-! ## OWNCLM (R59, R60) -/

/-- Changing the ownership registers. -/
def State.modOwn (s : State) (f : Owner → Owner) : State := s.modHub fun h => { h with own := f h.own }

/-- Whether a request is malformed (R59). -/
def ownMalformed (m : Nat) (v : Word64) : Bool :=
  let op := bits v 0 3
  op == 0 || decide (5 < op) || bits v 12 20 != 0 || bits v 3 7 != 0
    || ((op == 1 || op == 2 || op == 5) && (decide (bits v 32 16 < 10) || decide (60000 < bits v 32 16)))
    || (op == 4 && (bits v 10 2 == 3 || bits v 10 2 == m))

/-- The RESULT of a request: its form, then EPOCH, state and requester (R60). -/
def Owner.judge (o : Owner) (m : Nat) (v : Word64) : Nat :=
  let op := bits v 0 3
  let stateOk := match op with
    | 1 => o.state == .free
    | 2 => o.state != .free
    | 3 | 4 => o.state == .owned
    | _ => o.state == .handover
  let whoOk := match op with
    | 1 => true
    | 5 => o.htgt.toNat == m
    | _ => o.owner.toNat == m
  if ownMalformed m v then 5
  else if bits v 48 16 ≠ o.epoch.toNat then 2
  else if !stateOk then 3
  else if !whoOk then 4
  else 1

/-- The device has no owner. -/
def Owner.release (o : Owner) : Owner :=
  { o with state := .free, owner := 3, htgt := 3, lease := 0, accept := 0, epoch := o.epoch + 1 }

/-- A handover is withdrawn; the owner stays. -/
def Owner.withdraw (o : Owner) : Owner :=
  { o with state := .owned, htgt := 3, accept := 0, epoch := o.epoch + 1 }

/-- The effect of a request that is done (R60). -/
def Owner.perform (o : Owner) (m : Nat) (v : Word64) : Owner :=
  let lease := BitVec.ofNat 16 (bits v 32 16)
  match bits v 0 3 with
  | 1 => { o with state := .owned, owner := BitVec.ofNat 2 m, lease := lease, epoch := o.epoch + 1 }
  | 2 => { (if o.state = .handover then o.withdraw else o) with lease := lease }
  | 3 => o.release
  | 4 => { o with state := .handover, htgt := BitVec.ofNat 2 (bits v 10 2), accept := 100, epoch := o.epoch + 1 }
  | _ => { o.withdraw with owner := o.htgt, lease := lease }

/-- The requester's OWNRES (R59). -/
def Owner.answer (o : Owner) (m result op : Nat) : Owner :=
  { o with res := o.res.setIfInBounds m (BitVec.ofNat 64 (o.epoch.toNat * 2 ^ 48 + result * 16 + op)) }

/-- A write of OWNCLM. R59 answers a request with a reserved bit set by RESULT 5; R66 counts such an owner's write as
malformed, and excepts OWNCLM only for its WO fields. The model answers it and counts nothing (DESIGN CHOICE, log
entry 110). -/
def State.ownRequest (s : State) (m : Nat) (v : Word64) : State :=
  if !s.reaches m then s
  else s.modOwn fun o =>
    let r := o.judge m v
    (if r = 1 then o.perform m v else o).answer m r (bits v 0 3)

/-- The word of a request. -/
def ownWord (epoch lease : BitVec 16) (tgt : BitVec 2) (op : BitVec 3) : Word64 :=
  epoch ++ lease ++ 0#20 ++ tgt ++ 0#7 ++ op

/-- OWN_CLAIM, OWN_RENEW, OWN_RELEASE, OWN_HANDOVER, OWN_ACCEPT. -/
def execOwnClaim (m : Nat) (epoch lease : BitVec 16) (s : State) : Res :=
  .next (s.ownRequest m (ownWord epoch lease 0 1))
def execOwnRenew (m : Nat) (epoch lease : BitVec 16) (s : State) : Res :=
  .next (s.ownRequest m (ownWord epoch lease 0 2))
def execOwnRelease (m : Nat) (epoch : BitVec 16) (s : State) : Res :=
  .next (s.ownRequest m (ownWord epoch 0 0 3))
def execOwnHandover (m : Nat) (epoch : BitVec 16) (tgt : BitVec 2) (s : State) : Res :=
  .next (s.ownRequest m (ownWord epoch 0 tgt 4))
def execOwnAccept (m : Nat) (epoch lease : BitVec 16) (s : State) : Res :=
  .next (s.ownRequest m (ownWord epoch lease 0 5))

/-- LEASE_EXPIRY: the lease runs out. -/
def execLeaseExpiry (s : State) : Res :=
  .next (s.modOwn fun o => if o.state = .free then o else o.release)

/-- HANDOVER_TIMEOUT: the acceptance timer runs out. -/
def execHandoverTimeout (s : State) : Res :=
  .next (s.modOwn fun o => if o.state = .handover then o.withdraw else o)

/-- One millisecond of the lease and of the acceptance timer; a lease that ends comes first (R60, R61). -/
def Owner.tick (o : Owner) : Owner :=
  if o.state = .free then o
  else if o.lease.toNat ≤ 1 then o.release
  else
    let o := { o with lease := o.lease - 1 }
    if o.state ≠ .handover then o
    else if o.accept ≤ 1 then o.withdraw else { o with accept := o.accept - 1 }

/-! ## Host links (R14) -/

/-- HOST_LINK_TRAIN: a host port trains or fails to. -/
def execHostLinkTrain (port : Nat) (r : TrainResult) (s : State) : Res :=
  let x : LinkStat := match r with
    | .trained width rate cxl => ⟨true, width, rate, cxl⟩
    | .failed => ⟨false, 0, 0, false⟩
  .next (s.modHub fun h => { h with hosts := h.hosts.setIfInBounds port x })

/-! ## Islands and power (R15 to R21) -/

/-- An island, and changing it. -/
def State.island (s : State) (i : Nat) : Island := tget Island.reset s.hub.power.islands i
def State.modIsland (s : State) (i : Nat) (f : Island → Island) : State :=
  s.modHub fun h => { h with power := { h.power with
    islands := tset Island.reset h.power.islands i (f (tget Island.reset h.power.islands i)) } }

/-- ISLCTL of an island (R16). -/
def State.islctl (s : State) (i : Nat) : Nat :=
  let x := s.island i
  x.pin.toNat * 2 ^ 31 + x.cause.toNat * 2 ^ 29 + x.cur * 2 ^ 24 + x.tgt * 2 ^ 16 + i

/-- A write that sets RO bits of a register with RW fields: where it would change them it is counted, and the RW
fields take the write all the same (R66, log entry 52). -/
def State.countRo (s : State) (m : Nat) (ro now v : Word64) : State :=
  if v &&& ro ≠ 0 ∧ v &&& ro ≠ now &&& ro then s.drop m .malformed else s

/-- A write of ISLCTL: one that is out of range is ignored as a whole (R16). When TGT is raised above CUR while a
transition is in progress, a pod island shows CAUSE 0 although CUR is below TGT: the rules give that case no code
(DESIGN CHOICE, log entry 111). -/
def State.writeIslctl (s : State) (m i : Nat) (v : BitVec 32) : State :=
  let tgt := (v.extractLsb' 16 5).toNat
  let pin := v.getLsbD 31
  if 255 < i then s
  else if v &&& 0x00E0FF00 ≠ 0 then s.drop m .malformed
  else if 18 < tgt then s
  else (s.countRo m 0x7F0000FF (BitVec.ofNat 64 (s.islctl i)) (v.setWidth 64)).modIsland i fun x =>
    let cause : BitVec 2 :=
      if tgt < x.cur then 3 else if tgt = x.cur then 0
      else if 224 ≤ i then 3 else if x.cause = 3 then 0 else x.cause
    { x with pin := pin, tgt := tgt, cause := cause, due := x.due.filter fun d => d.1 ≤ max tgt x.cur }

/-- ISLCTL_WRITE. -/
def execIslctlWrite (m i : Nat) (v : BitVec 32) (s : State) : Res :=
  s.asOwner m fun s => .next (s.writeIslctl m i v)

/-- Whether every core of an island stands at a bundle boundary (R17). Only pod islands have cores, those of their
logical pod. -/
def State.islandAtBoundary (s : State) (i : Nat) : Bool :=
  decide (224 ≤ i) || (List.range 4).all fun j =>
    let k := s.coreAt (4 * i + j)
    k.running.all k.atBoundary

/-- The step that the power manager has given an island is the one it runs at. -/
def Island.settle (x : Island) : Island :=
  match x.due with
  | some (cur, why) => { x with cur := cur, cause := if x.tgt < cur then 3 else if cur = x.tgt then 0 else why, due := none }
  | none => x

/-- ISLAND_TRANSITION (R17): at a bundle boundary of its cores the island's clock stops and goes on at its new step. -/
def execIslandTransition (i : Nat) (s : State) : Res :=
  let x := s.island i
  .next (if !s.islandAtBoundary i then s
    else if x.due.isSome then s.modIsland i Island.settle
    else if x.cause = 3 then s.modIsland i fun x => { x with cur := x.tgt, cause := 0 } else s)

/-- The islands with a transition in progress, whose cores have come to a boundary. -/
def State.islandEvents (s : State) : List Instr :=
  (s.hub.power.islands.filter fun (i, x) => (x.cause == 3 || x.due.isSome) && s.islandAtBoundary i).map fun (i, _) =>
    .islandTransition i

/-- A pod island goes one step down, for a cause (R20, R21). Where its TGT is below CUR, R16 asks for CAUSE 3 and R20
and R21 for 1 or 2: the model shows 3 until CUR is at TGT and 0 there. A hot island at step 0 is not lowered and keeps
its CAUSE (DESIGN CHOICE, log entry 111). -/
def Island.lower (x : Island) (why : BitVec 2) : Island :=
  if x.cur = 0 then x
  else
    let cur := x.cur - 1
    { x with cur := cur, cause := if x.tgt < cur then 3 else if cur = x.tgt then 0 else why }

/-- A pod island goes one step up, to its target at most. -/
def Island.raise (x : Island) : Island :=
  if x.cur < x.tgt then { x with cur := x.cur + 1, cause := if x.cur + 1 = x.tgt then 0 else x.cause } else x

/-- What one interval does to a pod island (R20, R21). -/
def Island.interval (x : Island) (above under allLow hot limited : Bool) : Island :=
  if hot then x.lower 2
  else if above && (!x.pin || allLow) then x.lower 1
  else if under && !limited then x.raise
  else x

/-- A new step for an island: it takes it at once where its cores stand at a boundary, and else when they come to one
(R17). -/
def Island.take (x y : Island) (now : Bool) : Island :=
  if now || y.cur == x.cur then y else { x with due := some (y.cur, y.cause) }

/-- POWER_MANAGER_TICK: an interval of 1 ms, with the board power, the pod islands whose junctions are at 105 °C or
above and those below 100 °C. The lease and the acceptance timer run on. -/
def execPowerManagerTick (meas : BitVec 16) (hot cool : List Nat) (s : State) : Res :=
  let p := s.hub.power
  let limited := (p.hot ++ hot.filter fun i => !p.hot.contains i).filter fun i => !cool.contains i
  let above := decide (p.cap.toNat < meas.toNat)
  let under := decide (100 * meas.toNat < 98 * p.cap.toNat)
  let allLow := (List.range 224).all fun i => (s.island i).pin || (s.island i).cur == 0
  let s := (List.range 224).foldl
    (fun s i => s.modIsland i fun x =>
      x.take (x.settle.interval above under allLow (hot.contains i) (limited.contains i)) (s.islandAtBoundary i)) s
  .next ((s.modHub fun h =>
    { h with
      power := { h.power with meas := meas, hot := limited }
      ecc := { h.ecc with now := h.ecc.now + 1 } }).modOwn Owner.tick)

/-- A write of PWRCAP: a cap out of range is ignored (R19). -/
def State.writePwrcap (s : State) (m : Nat) (v : Word64) : State :=
  let cap := bits v 0 16
  let s := s.countRo m 0xFFFF0000 (BitVec.ofNat 64 (s.hub.power.meas.toNat * 2 ^ 16)) v
  if cap < 300 ∨ 640 < cap then s
  else s.modHub fun h => { h with power := { h.power with cap := BitVec.ofNat 16 cap } }

/-! ## Error correction and sparing (R22 to R24) -/

/-- Places are logged, each once. -/
def State.logPlaces (s : State) (ps : List EccPlace) : State :=
  s.modHub fun h => { h with ecc := { h.ecc with
    logged := h.ecc.logged ++ ps.filter fun p => !h.ecc.logged.contains p } }

/-- Errors that a scrubber or an access has met and corrected are counted and logged with the millisecond (R22). -/
def State.logCorrected (s : State) (ps : List EccPlace) : State :=
  s.modHub fun h => { h with ecc := { h.ecc with
    corrected := h.ecc.corrected ++ ps.map fun p => (h.ecc.now, p) } }

/-- HBM_PATROL_SCRUB: corrected errors are logged and change nothing else, uncorrectable ones are logged and stay.
Where errors arise, and which can be corrected, no rule says: they are free values. -/
def execHbmPatrolScrub (s : State) : Res :=
  .next ((s.logPlaces (s.badHbm.map EccPlace.hbm)).logCorrected
    (((Config.corrected s.free 0).filter fun u => 32 * u < hbmSize).map EccPlace.hbm))

/-- The 64-bit units that a mask names. -/
def badUnits (m : BitVec 16) : List Nat := (List.range 16).filter m.getLsbD

/-- A place of an SRAM array, by the kind of the array and the numbers that name it there. -/
def sramPlace (x : Nat × List Nat) : EccPlace :=
  let n (i : Nat) : Nat := x.2.getD i 0
  let core : Nat := n 0 % 896
  let c : CtxNo := ⟨n 1 % 4, Nat.mod_lt _ (by decide)⟩
  match x.1 % 7 with
  | 0 => .spad core (n 1 % (spadSize / 4))
  | 1 => .tile core (n 1 % 65536)
  | 2 => .die (n 0 % 2 ^ 25)
  | 3 => .regs core c (n 2 % (69 * 32))
  | 4 => .line core (n 1 % 256) (n 2 / 128 * 128) (n 3 % 16)
  | 5 => .latent core c (n 2 % 64) (n 3 % 8)
  | _ => .queue (n 0 % 4096) (n 1 % 8) (n 2 % 16)

/-- The uncorrectable places of a core: its scratchpad and tile store, its contexts' register lines and captured
results, its cached lines (R22). -/
def State.badPlaces (s : State) (n : Nat) : List EccPlace :=
  let k := s.coreAt n
  k.badWords.map (EccPlace.spad n) ++ k.badTile.map (EccPlace.tile n)
    ++ (k.lines.flatMap fun l => (badUnits l.bad).map fun u => .line n l.lslot l.va u)
    ++ allCtxs.flatMap fun c =>
      let x := k.ctxs.get c
      x.badRegs.map (EccPlace.regs n c)
        ++ (x.latent.zipIdx.filter fun (l, _) => l.bad).map fun (_, i) => .latent n c i 0

/-- The uncorrectable messages in the queues' buffers. -/
def State.badMessages (s : State) : List EccPlace :=
  s.hub.hqueues.flatMap fun (q, h) => h.onchip.zipIdx.flatMap fun (m, i) => (badUnits m.bad).map fun u => .queue q i u

/-- SRAM_PATROL_SCRUB: as the scrub of HBM, over every array on the module. -/
def execSramPatrolScrub (s : State) : Res :=
  .next ((s.logPlaces (s.coreNumbers.flatMap s.badPlaces ++ s.badDie.map EccPlace.die ++ s.badMessages)).logCorrected
    ((Config.correctedSram s.free 0).map sramPlace))

/-- Accesses meet errors in any array, which are corrected, counted and logged and change nothing else (R22). -/
def State.meetErrors (s : State) : State :=
  s.logCorrected ((((Config.corrected s.free 1).filter fun u => 32 * u < hbmSize).map EccPlace.hbm)
    ++ (Config.correctedSram s.free 1).map sramPlace)

/-- A row of HBM, by its stack and its row there (R12, R24). -/
def rowOfUnit (u : Nat) : Nat := stackOf (32 * u) + 12 * Config.rowOf u

/-- The corrected errors of a row in the last 24 hours. -/
def Ecc.rowErrors (e : Ecc) (row : Nat) : Nat :=
  (e.corrected.filter fun (t, p) => decide (e.now < t + 86400000) && match p with
    | .hbm u => rowOfUnit u == row
    | _ => false).length

/-- ROW_SPARING: a row, numbered as `rowOfUnit` does, that has reached 16 corrected errors within 24 hours goes on in a spare row with the same
contents (R24). -/
def execRowSparing (row : Nat) (s : State) : Res :=
  if s.hub.ecc.rowErrors row < 16 then .next s
  else .next (s.modHub fun h => { h with ecc := { h.ecc with
    spared := if h.ecc.spared.contains row then h.ecc.spared else h.ecc.spared ++ [row] } })

/-- PSEUDO_CHANNEL_FAILURE: its contents are rebuilt in the stack's spare but for those of its lines of 128 bytes that
are lost, which are marked uncorrectable. -/
def execPseudoChannelFailure (stack channel : Nat) (lost : List Nat) (s : State) : Res :=
  let mine (l : Nat) : Bool :=
    128 * l < hbmSize && stackOf (128 * l) == stack && Config.channelOf (4 * l) == channel
  let units := (lost.filter mine).flatMap fun l => [4 * l, 4 * l + 1, 4 * l + 2, 4 * l + 3]
  if 11 < stack then .next s
  else .next ({ s with badHbm := s.badHbm ++ units.filter fun u => !s.badHbm.contains u }.modHub fun h =>
    { h with ecc := { h.ecc with channels := h.ecc.channels ++ [(stack, channel)] } })

end Sys2Proof.Machine
end

