-- ==== Sys2Proof/Machine/Boot.lean ====
section
/-!
DEFINITION. Measured boot (R78 to R80) and attestation over SPDM (R81).
-/

namespace Sys2Proof.Machine

/-! ## Boot (R78 to R80) -/

/-- Why an image of a stage is refused, as REASON has it; stage 5 is measured and not signed. R78 gives the hash of the
firmware key no output length: 512 bits are taken, as R79 has them (DESIGN CHOICE, log entry 112). -/
def imageFault (stage : Nat) (key : List Byte) (x : BootImage) : Option (BitVec 4) :=
  if !x.wellFormed then some 3
  else if stage = 5 then none
  else if stage = 1 ∧ Config.shake256 x.key 512 ≠ Config.fusedKeyHash then some 4
  else if !Config.slhDsaVerify (if stage = 1 then x.key else key) x.bytes x.signature then some 1
  else if x.version < Config.minVersion stage then some 2
  else none

/-- A stage is measured: D of its image, and the chain (R79). -/
def Boot.measure (b : Boot) (stage version : Nat) (d : List Byte) : Boot :=
  let before := match b.log.getLast? with
    | some (_, _, _, c) => c
    | none => []
  let c := if stage = 0 then List.replicate 64 0 else Config.shake256 (before ++ d) 512
  { b with log := b.log ++ [(stage, version, d, c)] }

/-- The stages from one on: each is measured before it runs, and a fault stops the boot. -/
def Boot.stages (b : Boot) (stage : Nat) (key : List Byte) : List BootImage → Boot
  | [] => { b with phase := if 5 < stage then 2 else 1 }
  | x :: rest =>
    if 5 < stage then { b with phase := 2 }
    else
      let b := (b.measure stage x.version (Config.shake256 x.bytes 512))
      match imageFault stage key x with
      | some r => { b with phase := 3, reason := r }
      | none => ({ b with stage := BitVec.ofNat 8 stage }).stages (stage + 1) (if stage = 1 then x.key else key) rest

/-- MEASURED_BOOT: the images of stages 1 to 5, in order. Only signed images carry a security version: the boot ROM is
logged with 0 (DESIGN CHOICE, log entry 112). -/
def execMeasuredBoot (images : List BootImage) (s : State) : Res :=
  if s.hub.boot.phase = 2 ∨ s.hub.boot.phase = 3 then .next s
  else
    let b := (Boot.measure ⟨0, 0, 1, []⟩ 0 0 Config.romDigest).stages 1 [] images
    .next (s.modHub fun h => { h with boot := b })

/-! ## SPDM (R81) -/

/-- The connection of a transport. -/
def spdmIx : Transport → Fin 3
  | .doeH0 => 0
  | .doeH1 => 1
  | .mctp => 2

/-- Whether a transport is up. -/
def State.transportUp (s : State) (t : Transport) : Bool := s.reaches (spdmIx t).val

/-- Changing a connection. -/
def State.modSpdm (s : State) (t : Transport) (f : Spdm → Spdm) : State :=
  s.modHub fun h => { h with spdm := h.spdm.set (spdmIx t).val (f (h.spdm.get (spdmIx t))) (spdmIx t).isLt }

/-- What the responder can do (R81): it signs measurements, and has neither key exchange nor mutual authentication. -/
inductive SpdmCap
  | cert | chal | measSig | chunk | keyEx | mutAuth
  deriving DecidableEq, Repr

/-- CERT_CAP, CHAL_CAP, MEAS_CAP with signature, CHUNK_CAP. -/
def spdmCaps : List SpdmCap := [.cert, .chal, .measSig, .chunk]

/-- The bit of a capability in the flags of a CAPABILITIES response (PRESUMED from SPDM 1.3, log entry 59). -/
def SpdmCap.flag : SpdmCap → Nat
  | .cert => 0x2
  | .chal => 0x4
  | .measSig => 0x10
  | .mutAuth => 0x100
  | .keyEx => 0x200
  | .chunk => 0x20000

/-- The algorithms that an ALGORITHMS response selects (R81): the base hash, no base asymmetric algorithm, one extended
one, and the length of its signatures in bytes. -/
structure SpdmAlgorithms where
  hash : Nat
  baseAsym : Nat
  extAsym : List (BitVec 32)
  signature : Nat
  deriving DecidableEq, Repr

/-- SHA3-512, and SLH-DSA-SHAKE-256s as an extended asymmetric algorithm with signatures of 29,792 bytes. -/
def spdmAlgorithms : SpdmAlgorithms := ⟨0x20, 0, [Config.extAsym], 29792⟩

/-- The responder's CAPABILITIES and ALGORITHMS as they stand at the head of every transcript (PRESUMED from SPDM 1.3,
log entry 59): the flags, then BaseHashSel, BaseAsymSel and the list of ExtAsymSel. -/
def spdmNegotiated : List Byte :=
  natToBytes 4 (spdmCaps.map SpdmCap.flag).sum ++ natToBytes 4 spdmAlgorithms.hash
    ++ natToBytes 4 spdmAlgorithms.baseAsym ++ natToBytes 1 spdmAlgorithms.extAsym.length
    ++ spdmAlgorithms.extAsym.flatMap fun a => natToBytes 4 a.toNat

/-- A signature by the extended algorithm. -/
def slhSign (msg : List Byte) : List Byte :=
  (Config.slhDsaSign msg ++ List.replicate spdmAlgorithms.signature 0).take spdmAlgorithms.signature

/-- A request of a capability that the responder has not is refused. -/
def State.ifCapable (s : State) (t : Transport) (cap : SpdmCap) (f : State → State) : State :=
  if !s.transportUp t then s else if spdmCaps.contains cap then f s else s.emit (.spdm t .refused)

/-- A measurement block in raw bit stream form: its index, the measurement specification, its size, the value's type
with bit 7 set for a raw bit stream, the value's size, the value (PRESUMED from SPDM 1.3, log entry 59). -/
def spdmBlock (index type : Nat) (value : List Byte) : List Byte :=
  natToBytes 1 index ++ natToBytes 1 1 ++ natToBytes 2 (value.length + 3) ++ natToBytes 1 (128 + type)
    ++ natToBytes 2 value.length ++ value

/-- The type of a stage's value: immutable ROM, mutable firmware, firmware configuration. -/
def spdmType (stage : Nat) : Nat := if stage = 0 then 0 else if stage = 5 then 3 else 1

/-- The measurement blocks: index i + 1 with D_i, and one further block with the whole log. -/
def Boot.blocks (b : Boot) : List Byte :=
  (b.log.flatMap fun (i, _, d, _) => spdmBlock (i + 1) (spdmType i) d)
    ++ spdmBlock (b.log.length + 1) 4
      (b.log.flatMap fun (i, v, d, c) => natToBytes 1 i ++ natToBytes 8 v ++ d ++ c)

/-- A request whose response carries a signature over the nonce and the transcript: it is slow. -/
def State.slowSign (s : State) (t : Transport) (nonce body : List Byte) : State :=
  let x := s.hub.spdm.get (spdmIx t)
  let said := spdmNegotiated ++ x.transcript ++ nonce ++ body
  (s.modSpdm t fun x =>
    { x with deferred := body ++ slhSign (Config.sha3 said), transcript := [] }).emit
    (.spdm t (.notReady 20))

/-- SPDM_GET_MEASUREMENTS. -/
def execSpdmGetMeasurements (t : Transport) (nonce : List Byte) (s : State) : Res :=
  .next (s.ifCapable t .measSig fun s => s.slowSign t nonce s.hub.boot.blocks)

/-- SPDM_CHALLENGE: over the digest of the certificate chain and the measurements. -/
def execSpdmChallenge (t : Transport) (nonce : List Byte) (s : State) : Res :=
  .next (s.ifCapable t .chal fun s =>
    s.slowSign t nonce (Config.sha3 Config.certificate ++ Config.sha3 s.hub.boot.blocks))

/-- SPDM_RESPOND_IF_READY: the deferred response is large, and CHUNK_GET fetches it. -/
def execSpdmRespondIfReady (t : Transport) (s : State) : Res :=
  let x := s.hub.spdm.get (spdmIx t)
  if !s.transportUp t then .next s
  else if x.deferred.isEmpty then .next (s.emit (.spdm t .refused))
  else .next ((s.modSpdm t fun x => { x with chunks := x.deferred, deferred := [], next := 0 }).emit
    (.spdm t (.large x.deferred.length)))

/-- SPDM_CHUNK_GET: the next chunk. -/
def execSpdmChunkGet (t : Transport) (seq : Nat) (s : State) : Res :=
  .next (s.ifCapable t .chunk fun s =>
    let x := s.hub.spdm.get (spdmIx t)
    if x.chunks.isEmpty ∨ seq ≠ x.next then s.emit (.spdm t .refused)
    else
      let n := Config.chunkSize + 1
      let rest := x.chunks.drop n
      (s.modSpdm t fun x => { x with chunks := rest, next := x.next + 1 }).emit
        (.spdm t (.chunk seq rest.isEmpty (x.chunks.take n))))

/-- SPDM_GET_CERTIFICATE: slot 0. -/
def execSpdmGetCertificate (t : Transport) (s : State) : Res :=
  .next (s.ifCapable t .cert fun s =>
    (s.modSpdm t fun x => { x with transcript := x.transcript ++ Config.certificate }).emit
      (.spdm t (.whole Config.certificate)))

end Sys2Proof.Machine
end

