-- ==== Sys2Proof/Machine/Window.lean ====
section
/-!
DEFINITION. What a master reads in the state window (R58, R59, R63 to R67, R73, R80, R103, R112, R113, R119, R136,
R169, R225, R228, R236, R303, R356), and in device memory through BAR2. A read is no step: it changes nothing (R57,
R65).
-/

namespace Sys2Proof.Machine

/-- Two 32-bit registers side by side. -/
def pairWord (lo hi : Nat) : Word64 := BitVec.ofNat 64 (hi % 2 ^ 32 * 2 ^ 32 + lo % 2 ^ 32)

/-- OWNSTAT as master `m` reads it (R58). -/
def Owner.stat (o : Owner) (m : Nat) : Word64 :=
  let state : BitVec 2 := match o.state with
    | .free => 0
    | .owned => 1
    | .handover => 2
  o.epoch ++ o.lease ++ 0#20 ++ o.htgt ++ o.owner ++ 0#4 ++ state ++ BitVec.ofNat 2 m

/-- Where the physical position of each logical pod is read, which R11 says is readable and R63 gives no place: one
byte for each pod in ascending order from 0x400 (DESIGN CHOICE, log entry 108). -/
def physMap (off : Nat) : Bool := 0x400 ≤ off && off < 0x4E0

/-- The first 8 KiB. -/
def State.readGlobal (s : State) (m off : Nat) : Word64 :=
  match off with
  | 0x0 => pairWord 0xA209 Config.rackPosition.val
  | 0x40 => BitVec.ofNat 64 (s.hub.boot.stage.toNat * 2 ^ 8 + s.hub.boot.reason.toNat * 2 ^ 4 + s.hub.boot.phase.toNat)
  | 0x100 => s.hub.own.stat m
  | 0x110 => s.hub.own.res.toList.getD m 0
  | 0x120 => s.hub.own.wstat.get 0
  | 0x128 => s.hub.own.wstat.get 1
  | 0x130 => s.hub.own.wstat.get 2
  | 0x200 => s.hub.psaveb
  | 0x208 => s.hub.psaven
  | 0x300 => s.hub.xlinv.va
  | 0x308 => if s.hub.xlinv.busy then s.hub.xlinv.ctl ||| 0x8000000000000000 else s.hub.xlinv.ctl
  | 0x1000 => BitVec.ofNat 64 (s.hub.power.meas.toNat * 2 ^ 16 + s.hub.power.cap.toNat)
  | _ =>
    if 0x1400 ≤ off ∧ off < 0x1800 then
      pairWord (s.islctl ((off - 0x1400) / 4)) (s.islctl ((off - 0x1400) / 4 + 1))
    else if physMap off then BitVec.ofNat 64 (packNat 8 ((List.range 8).map fun i => (s.podAt (off - 0x400 + i)).phys))
    else 0

/-- A launch queue (R67). -/
def LQueue.read (q : LQueue) (off : Nat) : Word64 :=
  match off with
  | 0 => q.base
  | 8 => q.ctl
  | 16 => q.tail.setWidth 64
  | 24 => q.head.setWidth 64
  | 32 => q.wait.setWidth 64
  | _ => 0

/-- The code of LSTAT.STATE (R73). -/
def LaunchState.code : LaunchState → Nat
  | .empty => 0
  | .waiting => 1
  | .running => 2
  | .ending => 3
  | .ended => 4

/-- Whether a launch's tree is bound. -/
def LaunchState.hasTree : LaunchState → Bool
  | .running | .ending => true
  | .empty | .waiting | .ended => false

/-- A launch slot (R73, R112), with the tree section of a bound launch from offset 64 as far as the slot reaches (R63;
DESIGN CHOICE, log entry 108). ABORT is written only. -/
def LSlot.read (l : LSlot) (off : Nat) : Word64 :=
  match off with
  | 0 => BitVec.ofNat 64 (l.status.toNat * 2 ^ 56 + l.cause.toNat * 2 ^ 48 + l.queue * 2 ^ 32 + l.nctx * 2 ^ 16
      + l.state.code)
  | 16 => l.user
  | 24 => l.gangCmd
  | 32 => l.gangRes
  | _ => if 64 ≤ off ∧ l.state.hasTree then BitVec.ofNat 64 (fieldNat l.info.section_ (off - 64) 8) else 0

/-- The code of CTXHDR.HOLD (R103). -/
def Hold.code : Hold → Nat
  | .none => 0
  | .waita => 1
  | .waitc => 2
  | .barrier => 3
  | .qput => 4
  | .qget => 5
  | .pending => 6

/-- CTXHDR (R103). -/
def State.ctxHdr (s : State) (x : Ctx) : Word64 :=
  let hold :=
    if x.waits.entering.isSome then Hold.code .pending
    else if x.state = .waiting ∨ (x.state = .preempted ∧ x.waits.prior = .waiting) then x.waits.hold.code else 0
  let mep := if x.bound then (s.lslot x.bind.lslot).mep.toNat else 0
  BitVec.ofNat 64 (x.bind.gang * 2 ^ 32 + x.bind.lslot % 256 * 2 ^ 24
    + mep * 2 ^ 16 + hold * 2 ^ 8 + x.state.code)

/-- KIND, GROUP, REG and LMASK of a captured result (R225). -/
def Dest.fields : Dest → Nat × Nat × Nat × Nat
  | .s r => (0, 0, r.toNat, 0)
  | .p r => (1, 0, r.toNat, 0)
  | .v r g l => (2, g.val, r.toNat, l.toNat)
  | .q r g l => (3, g.val, r.toNat, l.toNat)
  | .x r => (4, 0, r.toNat, 0)
  | .lc r => (5, 0, r.toNat, 0)
  | .m r => (6, 0, r.toNat, 0)
  | .cr r => (7, 0, r.toNat, 0)
  | .flags => (7, 0, 0, 0)

/-- A word of a buffer entry (R225). -/
def Latent.read (l : Latent) (second : Bool) : Word64 :=
  let f := l.flight
  let (kind, group, reg, mask) := f.dest.fields
  if second then
    match f.dest with
    | .v _ _ _ | .x _ => 0
    | .p _ => f.value.setWidth 64 &&& 1
    | .q _ _ _ => f.value.setWidth 64 &&& 0xFFFF
    | _ => f.value.setWidth 64
  else BitVec.ofNat 64 (l.valid.toNat * 2 ^ 63 + l.byTrap.toNat * 2 ^ 62 + kind * 2 ^ 59 + group * 2 ^ 56
    + reg * 2 ^ 50 + f.rem * 2 ^ 46 + f.seq % 64 * 2 ^ 40 + mask * 2 ^ 24)

/-- A word of a loop entry (R303); its reserved bits read as zeros (R5). -/
def LoopEntry.read (e : LoopEntry) (second : Bool) : Word64 :=
  if second then bundleBits e.exit
  else BitVec.ofNat 64 (e.active.toNat * 2 ^ 63 + e.order % 4 * 2 ^ 61) ||| bundleBits e.start

/-- A core image as if it stood in its core, whose counters have stayed there. -/
def State.asImage (s : State) (i : SavedImage) : State :=
  let s := s.select i.coreIx
  { s with
    core := { i.image with counters := s.core.counters, seen := s.core.seen }
    text := tset [] s.text (dieOf i.coreIx) (i.text.map Prod.snd) }

/-- The saved image that holds a context of a core: pre-empted, or halted there by the end of its launch (R102). -/
def State.imageWith (s : State) (n : Nat) (c : CtxNo) : Option SavedImage :=
  s.hub.saved.find? fun i => i.coreIx == n && (i.image.ctxs.get c).bound

/-- The slot of a context of the selected core (R64). -/
def State.readCtx (s : State) (c : CtxNo) (off : Nat) : Word64 :=
  let x := s.ctxAt c
  if off < 0x200 then
    if off / 8 ≤ 18 then (s.modFr fun f => { f with ctx := c }).rdCr (BitVec.ofNat 6 (off / 8)) else 0
  else if off = 0x200 then s.ctxHdr x
  else if 0x400 ≤ off ∧ off < 0x800 then
    match x.latent[(off - 0x400) / 16]? with
    | some l => l.read (off % 16 == 8)
    | none => 0
  else if 0x800 ≤ off ∧ off < 0x880 then x.retStack.reverse.getD ((off - 0x800) / 8) 0
  else if off = 0x880 then BitVec.ofNat 64 (x.retStack.length * 2 ^ 16 + x.spilled)
  else if 0x8C0 ≤ off ∧ off < 0x900 then
    (x.loops.get ⟨(off - 0x8C0) / 16 % 4, Nat.mod_lt _ (by decide)⟩).read (off % 16 == 8)
  else 0

/-- A context slot: a context whose core has been saved is read where its image holds it, while no other launch has its
place. The core's clock is that of the present round. -/
def State.readSlot (s : State) (k off : Nat) : Word64 :=
  let n := k / 4
  let c : CtxNo := ⟨k % 4, Nat.mod_lt _ (by decide)⟩
  let s := s.syncCore n
  match (s.ctxOf n c).bound, s.imageWith n c with
  | false, some i => (s.asImage i).readCtx c off
  | _, _ => (s.select n).readCtx c off

/-- A hardware queue (R119). -/
def HQueue.read (h : HQueue) (off : Nat) : Word64 :=
  match off with
  | 0 => h.cfg
  | 8 => h.ring
  | 16 => h.tmo
  | 24 => BitVec.ofNat 64 (h.spilled.length * 2 ^ 32 + h.onchip.length * 2 ^ 24)
  | 32 => h.putn
  | 40 => h.getn
  | _ => 0

/-- BARN of a barrier (R356). -/
def Barrier.read (b : Barrier) : Nat := b.lslot % 256 * 2 ^ 24 + b.gen.toNat * 2 ^ 8 + b.count

/-- A core's barriers and tile arrival counters (R356). -/
def Core.readBars (k : Core) (off : Nat) : Word64 :=
  let bar (i : Nat) : Nat := (k.barriers.toList.getD i ⟨0, 0, 0⟩).read
  let tcnt (i : Nat) : Nat := (k.tcnt.toList.getD i 0).toNat
  if off < 0x200 then pairWord (bar (off / 4)) (bar (off / 4 + 1))
  else if off < 0x300 then pairWord (tcnt ((off - 0x200) / 4)) (tcnt ((off - 0x200) / 4 + 1))
  else 0

/-- The counters in the order of their offsets (R169, R170). -/
def Counters.list (k : Counters) : List Word64 :=
  [k.cycles, k.issued, k.bubblecy, k.freezecy, k.bankstall, k.rcfillcy, k.pendcy, k.tagcy, k.sbcy, k.nullcy,
    k.nullbun, k.idlecy, k.mxbusy, k.mxstep, k.mxpipew, k.mxsusp]

/-- TRPOS (R236). -/
def Trace.pos (t : Trace) : Word64 :=
  BitVec.ofNat 64 (t.frozen.toNat * 2 ^ 63 + t.fired.toNat * 2 ^ 62 + t.trig % 2 ^ 14 * 2 ^ 32
    + min t.lost 65535 * 2 ^ 16 + t.next % 2 ^ 14)

/-- A core's counters and its trace registers. -/
def Core.readCounters (k : Core) (off : Nat) : Word64 :=
  match off with
  | 0x80 => k.trace.trshut
  | 0x88 => k.trace.pos
  | 0x90 => k.trace.trmatch
  | 0x98 => if k.trace.dumpBusy then k.trace.dumpBase ||| 0x8000000000000000 else k.trace.dumpBase
  | _ => k.counters.list.getD (off / 8) 0

/-- An aligned 8-byte unit of the state window. -/
def windowUnit (off : Nat) : Nat := off / 8 * 8

/-- The 8 bytes of the state window at an aligned offset, as master `m` reads them; what no region assigns reads
zero (R63). -/
def State.windowRead (s : State) (m off : Nat) : Word64 :=
  if off % 8 ≠ 0 then 0
  else if off < 0x2000 then s.readGlobal m off
  else if off < 0x2200 then (s.queue ⟨(off - 0x2000) / 64 % 8, Nat.mod_lt _ (by decide)⟩).read (off % 64)
  else if off < 0x10000 then 0
  else if off < 0x20000 then (s.lslot ((off - 0x10000) / 256)).read (off % 256)
  else if off < 0x100000 then 0
  else if off < 0xF00000 then s.readSlot ((off - 0x100000) / 4096) (off % 4096)
  else if off < 0x1000000 then (s.hqueue ((off - 0xF00000) / 256)).read (off % 256)
  else if off < 0x10E0000 then (s.coreAt ((off - 0x1000000) / 1024)).readBars (off % 1024)
  else if off < 0x1100000 then 0
  else if off < 0x11E0000 then ((s.coreAt ((off - 0x1100000) / 1024)).synced s.round).readCounters (off % 1024)
  else 0

/-- The 4 bytes at an aligned offset (R56). -/
def State.windowRead4 (s : State) (m off : Nat) : Word32 :=
  if off % 4 ≠ 0 then 0 else (s.windowRead m (windowUnit off)).extractLsb' (8 * (off % 8)) 32

/-- An 8-byte unit with 4 of its bytes replaced by what a master writes. -/
def State.windowMerge (s : State) (m off : Nat) (v : Word32) : Word64 :=
  let old := s.windowRead m (windowUnit off)
  if off % 8 = 0 then (old &&& 0xFFFFFFFF00000000) ||| v.setWidth 64
  else (old &&& 0xFFFFFFFF) ||| (v.setWidth 64 <<< 32)

/-- BAR2 of a host port as its host reads it, owner or not (R56, R57): bytes of HBM; none where the port is down or has
no BAR2, or beyond HBM. What a host reads of an uncorrectable unit, no rule says: its bytes are free values. -/
def State.bar2Read (s : State) (m pa n : Nat) : Option (List Byte) :=
  if 1 < m || !s.reaches m || s.hub.boot.phase == 3 || decide (hbmSize < pa + n) then none
  else some ((s.readHbm pa n).mapIdx fun i b =>
    if s.hbmBad (pa + i) 1 then (s.freeWord (2 ^ 62 + i)).setWidth 8 else b)

end Sys2Proof.Machine
end

