-- ==== Sys2Proof/Machine/Hub.lean ====
section
/-!
DEFINITION. Writes from outside: the state window (R63 to R67, R112, R113, R119, R136, R228, R236, R303), device
memory (R57), and what completes them.
-/

namespace Sys2Proof.Machine

/-! ## Translation invalidation (R136) -/

/-- A write of XLINVC. -/
def State.writeXlinvc (s : State) (m : Nat) (v : Word64) : State :=
  if s.hub.xlinv.busy ∨ bits v 40 22 ≠ 0 then s.drop m .malformed
  else (s.countRo m 0x8000000000000000 0 v).modHub fun h => { h with xlinv := { h.xlinv with ctl := v &&& 0x7FFFFFFFFFFFFFFF, busy := true } }

/-- XLINVC_WRITE. -/
def execXlinvcWrite (m : Nat) (v : Word64) (s : State) : Res := s.asOwner m fun s => .next (s.writeXlinvc m v)

/-- Whether an invalidation covers a range of virtual addresses of a launch. -/
def XlInv.covers (x : XlInv) (slot va len : Nat) : Bool :=
  bits x.ctl 32 8 == slot
    && (x.ctl.getLsbD 62 || rangesMeet (va, len) (x.va.toNat, 65536 * bits x.ctl 0 32))

/-- Whether an access that used a removed translation may not have been performed: an access or a release of a context
that waits, a request that is out, a store that stands in a cached line. -/
def State.usesRemoved (s : State) : Bool :=
  (s.coreNumbers.any fun n => (s.coreAt n).lines.any fun l => l.dirty != 0 && s.hub.xlinv.covers l.lslot l.va 128)
  || (s.fabric.reqs.any fun r => match r.who with
    | .writeback _ slot => s.hub.xlinv.covers slot (r.va / 128 * 128) 128
    | _ => false)
  || s.allContexts.any fun (n, c) =>
    let x := s.ctxOf n c
    x.bound
      && ((x.behind.any fun (_, a) => s.hub.xlinv.covers x.bind.lslot a.range.1 a.range.2)
        || (x.releases.any fun r => s.hub.xlinv.covers x.bind.lslot r.va r.width)
        || s.fabric.reqs.any fun r =>
          r.who.owner == some (n, c) && s.hub.xlinv.covers x.bind.lslot (r.va / 128 * 128) 128)

/-- XLAT_INVALIDATE_DONE: the translations are gone, and BUSY clears. -/
def execXlatInvalidateDone (s : State) : Res :=
  if !s.hub.xlinv.busy ∨ s.usesRemoved then .next s
  else
    let keep (l : List Xlat) : List Xlat := l.filter fun t => !s.hub.xlinv.covers t.lslot t.va t.size
    let s := { s with pods := s.pods.filterMap fun ((p, x) : Nat × Pod) =>
      let x : Pod := { x with xlat := keep x.xlat }
      if x = Pod.reset p then none else some (p, x) }
    .next (s.modHub fun h => { h with xlat := keep h.xlat, xlinv := { h.xlinv with busy := false } })

/-! ## Hardware queues (R119) -/

/-- Every message of a queue is discarded, and the charges of its ring return. -/
def State.emptyQueue (s : State) (q : Nat) : State :=
  let h := s.hqueue q
  let s := h.spilled.foldl
    (fun s m => s.modProducer m fun c => { c with waits := { c.waits with quota := c.waits.quota - h.bytes } }) s
  s.modHqueue q fun h => { h with onchip := [], spilled := [], getters := [] }

/-- A write of QCFG. One that clears ENABLE and changes other fields besides takes effect whole: R119 drops writes while
ENABLE is 1 and excepts ENABLE := 0 (DESIGN CHOICE, log entry 110). -/
def State.writeQcfg (s : State) (m q : Nat) (v : Word64) : State :=
  let h := s.hqueue q
  let rlog := bits v 8 5
  if bits v 40 24 ≠ 0 ∨ bits v 24 7 ≠ 0 ∨ bits v 13 2 ≠ 0 ∨ bits v 0 4 ≠ 0 ∨ rlog < 4 ∨ 20 < rlog
      ∨ (h.cfg.getLsbD 31 ∧ v.getLsbD 31) then s.drop m .malformed
  else
    let s := if v.getLsbD 31 then s else s.emptyQueue q
    s.modHqueue q fun h => { h with cfg := v }

/-- QUEUE_DISABLE: QCFG with ENABLE cleared. -/
def execQueueDisable (m q : Nat) (s : State) : Res :=
  s.asOwner m fun s =>
    if 4095 < q then .next s else .next (s.writeQcfg m q ((s.hqueue q).cfg &&& ~~~0x80000000))

/-- A write within a queue's descriptor. -/
def State.writeHqueue (s : State) (m q off : Nat) (v : Word64) : State :=
  match off with
  | 0 => s.writeQcfg m q v
  | 8 =>
    if (s.hqueue q).cfg.getLsbD 31 ∨ bits v 56 8 ≠ 0 ∨ bits v 0 12 ≠ 0 then s.drop m .malformed
    else s.modHqueue q fun h => { h with ring := v }
  | 16 => if bits v 32 32 ≠ 0 then s.drop m .malformed else s.modHqueue q fun h => { h with tmo := v }
  | 24 | 32 | 40 => s.drop m .malformed
  | _ => s

/-! ## The trace sheet (R236) -/

/-- Changing a core's trace. -/
def State.modTrace (s : State) (n : Nat) (f : Trace → Trace) : State :=
  s.modCoreAt n fun k => { k with trace := f k.trace }

/-- A write of TRSHUT; one with ARM 1 arms the shutter. -/
def State.writeTrshut (s : State) (m n : Nat) (v : Word64) : State :=
  if v &&& 0x4F00FFFFFFFFC000 ≠ 0 then s.drop m .malformed
  else s.modTrace n fun t =>
    if v.getLsbD 63 then { t with trshut := v, fired := false, frozen := false, lost := 0, post := 0 }
    else { t with trshut := v }

/-- TRSHUT_WRITE. -/
def execTrshutWrite (m n : Nat) (v : Word64) (s : State) : Res :=
  s.asOwner m fun s => if 895 < n then .next s else .next (s.writeTrshut m n v)

/-- A write of TRDUMP begins a copy. -/
def State.writeTrdump (s : State) (m n : Nat) (v : Word64) : Res :=
  if (s.coreAt n).trace.dumpBusy ∨ bits v 56 7 ≠ 0 ∨ bits v 0 18 ≠ 0 then .next (s.drop m .malformed)
  else if hbmSize < bits v 0 56 + 2 ^ 18 then .fault .beyondHbm
  else .next ((s.countRo m 0x8000000000000000 0 v).modTrace n fun t =>
    { t with dumpBase := v &&& 0x00FFFFFFFFFFFFFF, dumpBusy := true, atDump := t.entries })

/-- TRDUMP_WRITE. -/
def execTrdumpWrite (m n : Nat) (v : Word64) (s : State) : Res :=
  s.asOwner m fun s => if 895 < n then .next s else s.writeTrdump m n v

/-- Bytes go to HBM line by line of 128 bytes. -/
def State.storeLines (s : State) (pa : Nat) (data : List Byte) : Nat → State
  | 0 => s
  | n + 1 =>
    if data.isEmpty then s
    else
      let k := 128 - pa % 128
      ((s.storeHbm pa (data.take k)).1).storeLines (pa + k) (data.drop k) n

/-- TRDUMP_COPY_DONE: the entries are in memory. Where one has changed since the copy began, either stands. -/
def execTrdumpCopyDone (n : Nat) (s : State) : Res :=
  let t := (s.coreAt n).trace
  if !t.dumpBusy then .next s
  else
    let entry (i : Nat) : List Byte :=
      let now := tget (0, 0) t.entries i
      let then_ := tget (0, 0) t.atDump i
      let e := if now = then_ ∨ Config.inFlight s.free 0 8 i 0 then now else then_
      natToBytes 8 e.1.toNat ++ natToBytes 8 e.2.toNat
    let data := (List.range 16384).flatMap entry
    .next ((s.storeLines t.dumpBase.toNat data 2049).modTrace n fun t => { t with dumpBusy := false, atDump := [] })

/-- The copies that run. -/
def State.dumpEvents (s : State) : List Event :=
  (s.coreNumbers.filter fun n => (s.coreAt n).trace.dumpBusy).map fun n => ⟨n, .trdumpCopyDone n⟩

/-! ## Context slots (R64, R66) -/

/-- Doing something to a core image there. -/
def State.onImage (s : State) (i : SavedImage) (f : State → State) : State :=
  let t := f (s.asImage i)
  let image : Core := { t.core with counters := Counters.reset, seen := i.image.seen }
  let text := i.text.filterMap fun (k, x) => ((tget [] t.text (dieOf i.coreIx)).find? (·.is x)).map fun y => (k, y)
  ({ t with core := (s.select i.coreIx).core, text := s.text }.modHub fun h =>
    { h with saved := h.saved.map fun (j : SavedImage) =>
        if j.slot = i.slot then { j with image := image, text := text } else j }).select s.coreIx

/-- A control register as the owner may write it: whether the value is well formed (R66, R219 to R274). -/
def State.windowCrOk (s : State) (idx : Nat) (v : Word64) : Bool :=
  match idx with
  | 9 => bits v 56 8 == 0 && bits v 11 1 == 0 && decide (bits v 0 11 ≤ 1024)
  | 10 => bits v 56 8 == 0 && bits v 0 6 == 0
  | _ => s.crOk (BitVec.ofNat 6 idx) v

/-- A control register of a context of the selected core is written by master `m`. The read-only bits of STATUS and ECMD
stay as they are (R66, log entry 52). -/
def State.windowCr (s : State) (m : Nat) (c : CtxNo) (idx : Nat) (v : Word64) : State :=
  match idx with
  | 0 =>
    (s.countRo m 0x5 (s.ctxAt c).statusWord v).modCtxAt c fun x => { x with ctrl := x.ctrl.write 0 v }
  | 15 => if v.getLsbD 63 then s.discard .matrix c else s
  | 17 =>
    let s := s.countRo m 0x30000003FFFFFFFF (s.ecmd c) v
    let s := if v.getLsbD 63 then s.discard .copy c else s
    if v.getLsbD 62 then s.discard .text c else s
  | _ => s.modCtxAt c fun x => { x with ctrl := x.ctrl.write (BitVec.ofNat 6 idx) v }

/-- The register class of a buffer entry's KIND, with its size; none for the reserved code. -/
def kindDest (kind group reg : Nat) (mask : BitVec 16) : Option (Dest × Nat) :=
  let r : Reg := BitVec.ofNat 6 reg
  let g : Fin 8 := ⟨group % 8, Nat.mod_lt _ (by decide)⟩
  match kind with
  | 0 => some (.s r, 64)
  | 1 => some (.p r, 16)
  | 2 => some (.v r g mask, 32)
  | 3 => some (.q r g mask, 8)
  | 4 => some (.x r, 16)
  | 5 => some (.lc r, 4)
  | 6 => some (.m r, 8)
  | _ => none

/-- An empty buffer entry. -/
def Latent.empty : Latent := ⟨⟨.s 0, 0, 1, 0, 0, 0⟩, false, false, false⟩

/-- Word 0 of a buffer entry (R225). An entry that the core could not have captured has a free value for its
register; one of the reserved kind names none. -/
def State.entryWord0 (s : State) (old : Latent) (i : Nat) (v : Word64) : Latent :=
  let rem := bits v 46 4
  match kindDest (bits v 59 3) (bits v 56 3) (bits v 50 6) (BitVec.ofNat 16 (bits v 24 16)) with
  | none => { old with valid := false }
  | some (d, n) =>
    let ok := rem != 0 && decide (bits v 50 6 < n)
    let x := if ok then old.flight.value else (List.range 16).foldl
      (fun a j => (a <<< 32) ||| (s.freeWord (2 ^ 46 + 16 * i + j)).setWidth 512) (0 : BitVec 512)
    ⟨{ old.flight with dest := d, value := x, rem := max 1 rem, seq := bits v 40 6 }, v.getLsbD 62, v.getLsbD 63, old.bad⟩

/-- A buffer entry is written. -/
def State.windowLatent (s : State) (c : CtxNo) (i : Nat) (second : Bool) (v : Word64) : State :=
  s.modCtxAt c fun x =>
    let l := x.latent ++ List.replicate (i + 1 - x.latent.length) Latent.empty
    let old := l.getD i Latent.empty
    let new := if second then { old with flight := { old.flight with value := v.setWidth 512 } }
      else s.entryWord0 old i v
    { x with latent := l.set i new }

/-- RSCNT: the resident entries that are gained have free values (R228). -/
def State.windowRscnt (s : State) (c : CtxNo) (v : Word64) : State :=
  let n := bits v 16 5
  s.modCtxAt c fun x =>
    let fresh := (List.range (n - x.retStack.length)).map fun i =>
      (s.freeWord (2 ^ 47 + 2 * i)) ++ (s.freeWord (2 ^ 47 + 2 * i + 1))
    { x with retStack := fresh ++ x.retStack.drop (x.retStack.length - n), spilled := bits v 0 12 }

/-- A return-stack entry; entry 0 is the oldest. -/
def State.windowReturn (s : State) (c : CtxNo) (i : Nat) (v : Word64) : State :=
  s.modCtxAt c fun x =>
    let l := x.retStack.reverse
    { x with retStack := (l.set i v).reverse }

/-- A word of a loop entry (R303). -/
def State.windowLoop (s : State) (c : CtxNo) (i : Fin 4) (second : Bool) (v : Word64) : State :=
  s.modCtxAt c fun x =>
    let e := x.loops.get i
    let e := if second then { e with exit := bundleBits v } else
      { e with active := v.getLsbD 63, order := bits v 61 2, start := bundleBits v }
    { x with loops := x.loops.set i.val e i.isLt }

/-- A write of master `m` within the slot of a context of the selected core; none where it is malformed. -/
def State.windowCtx (s : State) (m : Nat) (c : CtxNo) (off : Nat) (v : Word64) : Option State :=
  let t := s.modFr fun f => { f with ctx := c }
  if off < 0x200 then
    if t.windowCrOk (off / 8) v then some (s.windowCr m c (off / 8) v) else none
  else if off = 0x200 then none
  else if 0x400 ≤ off ∧ off < 0x800 then
    let second := off % 16 == 8
    if !second && bits v 0 24 != 0 then none else some (s.windowLatent c ((off - 0x400) / 16) second v)
  else if 0x800 ≤ off ∧ off < 0x880 then some (s.windowReturn c ((off - 0x800) / 8) v)
  else if off = 0x880 then
    if v &&& 0xFFFFFFFFFFE0F000 ≠ 0 ∨ 16 < bits v 16 5 ∨ 2048 < bits v 0 12 then none else some (s.windowRscnt c v)
  else if 0x8C0 ≤ off ∧ off < 0x900 then
    let second := off % 16 == 8
    if v &&& (if second then 0xFF00000000000007 else 0x1F00000000000007) ≠ 0 then none
    else some (s.windowLoop c ⟨(off - 0x8C0) / 16 % 4, Nat.mod_lt _ (by decide)⟩ second v)
  else some s

/-- A write of the owner to a context slot: performed while the context is idle or pre-empted, in its core or, while no
other launch has its place there, in its image. -/
def State.writeSlot (s : State) (m k off : Nat) (v : Word64) : State :=
  let n := k / 4
  let c : CtxNo := ⟨k % 4, Nat.mod_lt _ (by decide)⟩
  let x := s.ctxOf n c
  if x.state = .idle ∨ x.state = .preempted then
    match (s.select n).windowCtx m c off v with
    | some t => t.select s.coreIx
    | none => s.drop m .malformed
  else match x.bound, s.imageWith n c with
    | false, some i =>
      if (i.image.ctxs.get c).state ≠ .preempted then s.drop m .state
      else if ((s.asImage i).windowCtx m c off v).isSome then s.onImage i fun t => (t.windowCtx m c off v).getD t
      else s.drop m .malformed
    | _, _ => s.drop m .state

/-! ## Launch queues and slots -/

/-- A write of LQTAIL (R67). -/
def State.writeLqtail (s : State) (m : Nat) (q : Fin 8) (v : Word64) : State :=
  match execLqtailWrite m q v s with
  | .next t => t
  | _ => s

/-- A write within a launch queue. -/
def State.writeQueue (s : State) (m : Nat) (q : Fin 8) (off : Nat) (v : Word64) : State :=
  match off with
  | 0 =>
    if (s.queue q).enabled ∨ bits v 56 8 ≠ 0 ∨ bits v 0 12 ≠ 0 then s.drop m .malformed
    else s.modLQueue q fun x => { x with base := v }
  | 8 => s.writeLqctl m q v
  | 16 => s.writeLqtail m q v
  | 24 | 32 => s.drop m .malformed
  | _ => s

/-- A write of GANGCMD (R112). Reserved bits read as zeros (R5). -/
def State.writeGangcmd (s : State) (slot : Nat) (v : Word64) : State :=
  let gang : BitVec 32 := v.setWidth 32
  let op := bits v 62 2
  if bits v 32 30 ≠ 0 ∨ op = 0 ∨ op = 3 then
    (s.modSlot slot fun l => { l with gangCmd := v &&& 0xC0000000FFFFFFFF }).gangResult slot 6 0
  else s.gangCommand slot (if op = 1 then .preempt gang else .resume gang) v

/-- A write within a launch slot. -/
def State.writeLslot (s : State) (m slot off : Nat) (v : Word64) : State :=
  match off with
  | 0 | 16 | 32 => s.drop m .malformed
  | 8 => if bits v 1 63 ≠ 0 then s.drop m .malformed else if v.getLsbD 0 then s.abort slot else s
  | 24 => s.writeGangcmd slot v
  | _ => s

/-! ## The state window (R63) -/

/-- Whether the save area holds an image or is in use (R113). -/
def State.savesBusy (s : State) : Bool :=
  !s.hub.saved.isEmpty || s.hub.stop.isSome || !s.hub.gangs.isEmpty
    || s.hub.slots.any fun (_, l) => !l.resuming.isEmpty

/-- A write in the first 8 KiB. -/
def State.writeGlobal (s : State) (m off : Nat) (v : Word64) : State :=
  match off with
  | 0x0 | 0x8 | 0x40 | 0x100 | 0x110 | 0x120 | 0x128 | 0x130 => s.drop m .malformed
  | 0x200 =>
    if bits v 56 8 ≠ 0 ∨ bits v 0 21 ≠ 0 then s.drop m .malformed
    else if s.savesBusy then s.drop m .state else s.modHub fun h => { h with psaveb := v }
  | 0x208 =>
    if 1024 < v.toNat then s.drop m .malformed
    else if s.savesBusy then s.drop m .state else s.modHub fun h => { h with psaven := v }
  | 0x300 =>
    if s.hub.xlinv.busy ∨ bits v 56 8 ≠ 0 ∨ bits v 0 16 ≠ 0 then s.drop m .malformed
    else s.modHub fun h => { h with xlinv := { h.xlinv with va := v } }
  | 0x308 => s.writeXlinvc m v
  | 0x1000 => s.writePwrcap m v
  | _ =>
    if 0x1400 ≤ off ∧ off < 0x1800 then
      (s.writeIslctl m ((off - 0x1400) / 4) (v.setWidth 32)).writeIslctl m ((off - 0x1400) / 4 + 1)
        (v.extractLsb' 32 32)
    else if physMap off then s.drop m .malformed
    else s

/-- A write within a core's counter block. -/
def State.writeCounters (s : State) (m n off : Nat) (v : Word64) : Res :=
  if off < 0x80 ∨ off = 0x88 then .next (s.drop m .malformed)
  else if off = 0x80 then .next (s.writeTrshut m n v)
  else if off = 0x90 then
    if bits v 56 8 ≠ 0 then .next (s.drop m .malformed)
    else .next (s.modTrace n fun t => { t with trmatch := v })
  else if off = 0x98 then s.writeTrdump m n v
  else .next s

/-- A write of the owner to the state window, by region; what no region assigns is dropped. -/
def State.windowWrite (s : State) (m off : Nat) (v : Word64) : Res :=
  if off % 8 ≠ 0 then .next s
  else if off < 0x2000 then .next (s.writeGlobal m off v)
  else if off < 0x2200 then
    .next (s.writeQueue m ⟨(off - 0x2000) / 64 % 8, Nat.mod_lt _ (by decide)⟩ (off % 64) v)
  else if off < 0x10000 then .next s
  else if off < 0x20000 then .next (s.writeLslot m ((off - 0x10000) / 256) (off % 256) v)
  else if off < 0x100000 then .next s
  else if off < 0xF00000 then .next (s.writeSlot m ((off - 0x100000) / 4096) (off % 4096) v)
  else if off < 0x1000000 then .next (s.writeHqueue m ((off - 0xF00000) / 256) (off % 256) v)
  else if off < 0x10E0000 then .next (if off % 1024 < 0x400 then s.drop m .malformed else s)
  else if off < 0x1100000 then .next s
  else if off < 0x11E0000 then s.writeCounters m ((off - 0x1100000) / 1024) (off % 1024) v
  else .next s

/-- A write of 4 or 8 bytes (R56). Of an 8-byte register 4 bytes are written with what the others read as (DESIGN
CHOICE, log entry 69); ISLCTL has 4 bytes of its own. -/
def State.windowStore (s : State) (m off : Nat) (w : WindowWord) : Res :=
  match w with
  | .eight v => s.windowWrite m off v
  | .four v =>
    if off % 4 ≠ 0 then .next s
    else if 0x1400 ≤ off ∧ off < 0x1800 then .next (s.writeIslctl m ((off - 0x1400) / 4) v)
    else s.windowWrite m (windowUnit off) (s.windowMerge m off v)

/-- What a write to OWNCLM asks for; none where it does not write it. -/
def State.claimWord (s : State) (m off : Nat) (w : WindowWord) : Option Word64 :=
  match w with
  | .eight v => if off = 0x108 then some v else none
  | .four v => if off % 4 = 0 ∧ windowUnit off = 0x108 then some (s.windowMerge m off v) else none

/-- STATE_WINDOW_WRITE: OWNCLM is for any master, the rest for the owner. -/
def execStateWindowWrite (m off : Nat) (w : WindowWord) (s : State) : Res :=
  match s.claimWord m off w with
  | some v => .next (s.ownRequest m v)
  | none => s.asOwner m fun s => s.windowStore m off w

/-- DEVICE_MEMORY_WRITE: through BAR2 of a host port. Without the hub's firmware the host ports have the state window
only (R80). -/
def execDeviceMemoryWrite (m pa : Nat) (data : List Byte) (s : State) : Res :=
  if 1 < m ∨ s.hub.boot.phase = 3 then .next s
  else s.asOwner m fun s =>
    if hbmSize < pa + data.length then .fault .beyondHbm
    else .next ((s.noteStream 0 (pa, data.length)).storeLines pa data (data.length / 128 + 2))

/-! ## What the hub can do by itself -/

/-- The launch unit: a record to take, wait words that are met or have failed or are to be asked for, a tree to bind,
launches that end, a set that stops. -/
def State.launchEvents (s : State) : List Instr :=
  ([0, 1, 2, 3, 4, 5, 6, 7] : List (Fin 8)).flatMap fun q =>
    let x := s.queue q
    let ws := s.waitStates q
    let due := (depFail ws).isSome || ws.all (· == .met) || ws.zipIdx.any fun (w, i) =>
      match w, x.peer.getD i .asked with
      | .unread, .unread => true
      | .unmet, .value _ => true
      | _, _ => false
    let group := s.group? (s.lslot x.slot).info.group
    (if s.booted && x.enabled && x.head != x.tail && (x.stage == .none || (x.stage == .waitSlot && s.freeSlot.isSome))
        then [Instr.launchRecordTake q] else [])
      ++ (if x.stage == .waitWords && due then [.waitWordsMet q] else [])
      ++ (if (x.stage == .bind && x.wait != 2 && !s.heldBack q && !s.outranked q)
            || (x.stage == .announced && group.any fun g =>
              decide ((s.lslot x.slot).info.tree.modules ≤ (g.first (s.lslot x.slot).info.tree).length))
            || (x.stage == .bound && group.any (s.mayGo q (s.lslot x.slot).info))
            || (x.stage == .going && !s.heldBack q)
          then [.treeBind q] else [])

/-- What the hub can do by itself. -/
def State.hubEvents (s : State) : List Instr :=
  s.launchEvents ++ s.endEvents ++ s.stopEvents ++ s.islandEvents
    ++ (if s.hub.xlinv.busy && !s.usesRemoved then [.xlatInvalidateDone] else [])

end Sys2Proof.Machine
end

