-- ==== Sys2Proof/Machine/Dispatch.lean ====
section
/-!
DEFINITION. The dispatch of an instruction or event to its meaning, one arm per constructor.
-/

namespace Sys2Proof.Machine

/-- The meaning of every syllable and event. A syllable acts in the issue frame of the state. -/
def exec (i : Instr) (s : State) : Host.Outcome State Fault Refusal :=
  match i with
  | .add la ld o => Sys2Proof.Machine.execAdd la ld o s
  | .sub o => Sys2Proof.Machine.execSub o s
  | .and o => Sys2Proof.Machine.execAnd o s
  | .or o => Sys2Proof.Machine.execOr o s
  | .xor o => Sys2Proof.Machine.execXor o s
  | .andn o => Sys2Proof.Machine.execAndn o s
  | .shl o => Sys2Proof.Machine.execShl o s
  | .shr o => Sys2Proof.Machine.execShr o s
  | .sar o => Sys2Proof.Machine.execSar o s
  | .rol o => Sys2Proof.Machine.execRol o s
  | .min o => Sys2Proof.Machine.execMin o s
  | .max o => Sys2Proof.Machine.execMax o s
  | .mul o => Sys2Proof.Machine.execMul o s
  | .mulh o => Sys2Proof.Machine.execMulh o s
  | .clz d a ty => Sys2Proof.Machine.execClz d a ty s
  | .popc d a ty => Sys2Proof.Machine.execPopc d a ty s
  | .addi o => Sys2Proof.Machine.execAddi o s
  | .subi o => Sys2Proof.Machine.execSubi o s
  | .andi o => Sys2Proof.Machine.execAndi o s
  | .ori o => Sys2Proof.Machine.execOri o s
  | .xori o => Sys2Proof.Machine.execXori o s
  | .shli o => Sys2Proof.Machine.execShli o s
  | .shri o => Sys2Proof.Machine.execShri o s
  | .sari o => Sys2Proof.Machine.execSari o s
  | .mini o => Sys2Proof.Machine.execMini o s
  | .maxi o => Sys2Proof.Machine.execMaxi o s
  | .movi d imm ext => Sys2Proof.Machine.execMovi d imm ext s
  | .muli o => Sys2Proof.Machine.execMuli o s
  | .cmp k cond a b ty => Sys2Proof.Machine.execCmp k cond a b ty s
  | .cmpi k cond a imm ext => Sys2Proof.Machine.execCmpi k cond a imm ext s
  | .sel d a b p => Sys2Proof.Machine.execSel d a b p s
  | .ext d a pos w1 sgn => Sys2Proof.Machine.execExt d a pos w1 sgn s
  | .dep d a b pos w1 => Sys2Proof.Machine.execDep d a b pos w1 s
  | .addsc d a b sh => Sys2Proof.Machine.execAddsc d a b sh s
  | .pand o => Sys2Proof.Machine.execPand o s
  | .por o => Sys2Proof.Machine.execPor o s
  | .pxor o => Sys2Proof.Machine.execPxor o s
  | .br disp => Sys2Proof.Machine.execBr disp s
  | .brC disp => Sys2Proof.Machine.execBrC disp s
  | .call disp => Sys2Proof.Machine.execCall disp s
  | .jmpi a => Sys2Proof.Machine.execJmpi a s
  | .calli a => Sys2Proof.Machine.execCalli a s
  | .loop d a len => Sys2Proof.Machine.execLoop d a len s
  | .crd d idx => Sys2Proof.Machine.execCrd d idx s
  | .cwr a idx => Sys2Proof.Machine.execCwr a idx s
  | .cwrBindb a => Sys2Proof.Machine.execCwrBindb a s
  | .cwrSeqtb a => Sys2Proof.Machine.execCwrSeqtb a s
  | .mupcAbort c => Sys2Proof.Machine.execMupcAbort c s
  | .ecmdDisct c => Sys2Proof.Machine.execEcmdDisct c s
  | .ecmdDiscx c => Sys2Proof.Machine.execEcmdDiscx c s
  | .lvid d lv sel => Sys2Proof.Machine.execLvid d lv sel s
  | .phyid d sel => Sys2Proof.Machine.execPhyid d sel s
  | .spawn c a b => Sys2Proof.Machine.execSpawn c a b s
  | .trap code => Sys2Proof.Machine.execTrap code s
  | .waitc d t b c => Sys2Proof.Machine.execWaitc d t b c s
  | .bara d lv n => Sys2Proof.Machine.execBara d lv n s
  | .barw a lv n => Sys2Proof.Machine.execBarw a lv n s
  | .bar d lv n => Sys2Proof.Machine.execBar d lv n s
  | .qput a b => Sys2Proof.Machine.execQput a b s
  | .qget d a b => Sys2Proof.Machine.execQget d a b s
  | .vadd o => Sys2Proof.Machine.execVadd o s
  | .vsub o => Sys2Proof.Machine.execVsub o s
  | .vmul o => Sys2Proof.Machine.execVmul o s
  | .vmulh o => Sys2Proof.Machine.execVmulh o s
  | .vand o => Sys2Proof.Machine.execVand o s
  | .vor o => Sys2Proof.Machine.execVor o s
  | .vxor o => Sys2Proof.Machine.execVxor o s
  | .vandn o => Sys2Proof.Machine.execVandn o s
  | .vshl o => Sys2Proof.Machine.execVshl o s
  | .vshr o => Sys2Proof.Machine.execVshr o s
  | .vsar o => Sys2Proof.Machine.execVsar o s
  | .vmin o => Sys2Proof.Machine.execVmin o s
  | .vmax o => Sys2Proof.Machine.execVmax o s
  | .vadds o => Sys2Proof.Machine.execVadds o s
  | .vsubs o => Sys2Proof.Machine.execVsubs o s
  | .vsel o qc => Sys2Proof.Machine.execVsel o qc s
  | .vfadd o => Sys2Proof.Machine.execVfadd o s
  | .vfsub o => Sys2Proof.Machine.execVfsub o s
  | .vfmul o => Sys2Proof.Machine.execVfmul o s
  | .vfma o => Sys2Proof.Machine.execVfma o s
  | .vfms o => Sys2Proof.Machine.execVfms o s
  | .vfnma o => Sys2Proof.Machine.execVfnma o s
  | .vfmin o => Sys2Proof.Machine.execVfmin o s
  | .vfmax o => Sys2Proof.Machine.execVfmax o s
  | .vfminp o => Sys2Proof.Machine.execVfminp o s
  | .vfmaxp o => Sys2Proof.Machine.execVfmaxp o s
  | .vfabs o => Sys2Proof.Machine.execVfabs o s
  | .vfneg o => Sys2Proof.Machine.execVfneg o s
  | .vcmp o => Sys2Proof.Machine.execVcmp o s
  | .vfcmp o => Sys2Proof.Machine.execVfcmp o s
  | .vcvt o => Sys2Proof.Machine.execVcvt o s
  | .vperm o => Sys2Proof.Machine.execVperm o s
  | .vbcast h d a lane => Sys2Proof.Machine.execVbcast h d a lane s
  | .vred o => Sys2Proof.Machine.execVred o s
  | .vscan o => Sys2Proof.Machine.execVscan o s
  | .vqcnt h d all qc => Sys2Proof.Machine.execVqcnt h d all qc s
  | .vmov h d b bs => Sys2Proof.Machine.execVmov h d b bs s
  | .gxfer h d a fix g => Sys2Proof.Machine.execGxfer h d a fix g s
  | .vdot2 o => Sys2Proof.Machine.execVdot2 o s
  | .vdot4 o => Sys2Proof.Machine.execVdot4 o s
  | .vdot8 o => Sys2Proof.Machine.execVdot8 o s
  | .vrng o => Sys2Proof.Machine.execVrng o s
  | .qand o => Sys2Proof.Machine.execQand o s
  | .qor o => Sys2Proof.Machine.execQor o s
  | .qxor o => Sys2Proof.Machine.execQxor o s
  | .qandn o => Sys2Proof.Machine.execQandn o s
  | .vmovi h d imm => Sys2Proof.Machine.execVmovi h d imm s
  | .rcp o => Sys2Proof.Machine.execRcp o s
  | .rsq o => Sys2Proof.Machine.execRsq o s
  | .sqrt o => Sys2Proof.Machine.execSqrt o s
  | .exp2 o => Sys2Proof.Machine.execExp2 o s
  | .log2 o => Sys2Proof.Machine.execLog2 o s
  | .sinpi o => Sys2Proof.Machine.execSinpi o s
  | .cospi o => Sys2Proof.Machine.execCospi o s
  | .tanh o => Sys2Proof.Machine.execTanh o s
  | .sigm o => Sys2Proof.Machine.execSigm o s
  | .xcad d a b ty => Sys2Proof.Machine.execXcad d a b ty s
  | .xpopc d a b => Sys2Proof.Machine.execXpopc d a b s
  | .xexp d a b sh half => Sys2Proof.Machine.execXexp d a b sh half s
  | .xmps o => Sys2Proof.Machine.execXmps o s
  | .xins d a idx ty => Sys2Proof.Machine.execXins d a idx ty s
  | .xget d a idx ty => Sys2Proof.Machine.execXget d a idx ty s
  | .xsplat d a ty => Sys2Proof.Machine.execXsplat d a ty s
  | .xadds d a b ty => Sys2Proof.Machine.execXadds d a b ty s
  | .xscan d a excl ty => Sys2Proof.Machine.execXscan d a excl ty s
  | .xcmp d a b cond ty => Sys2Proof.Machine.execXcmp d a b cond ty s
  | .xtoq d a hi => Sys2Proof.Machine.execXtoq d a hi s
  | .ld o => Sys2Proof.Machine.execLd o s
  | .st o => Sys2Proof.Machine.execSt o s
  | .vld o => Sys2Proof.Machine.execVld o s
  | .vst o => Sys2Proof.Machine.execVst o s
  | .vstPk6 o => Sys2Proof.Machine.execVstPk6 o s
  | .vgath o => Sys2Proof.Machine.execVgath o s
  | .vscat o => Sys2Proof.Machine.execVscat o s
  | .vldb o => Sys2Proof.Machine.execVldb o s
  | .pst o => Sys2Proof.Machine.execPst o s
  | .ldg o => Sys2Proof.Machine.execLdg o s
  | .ldgAcq o => Sys2Proof.Machine.execLdgAcq o s
  | .stg o => Sys2Proof.Machine.execStg o s
  | .stgRel o => Sys2Proof.Machine.execStgRel o s
  | .vldg o => Sys2Proof.Machine.execVldg o s
  | .vstg o => Sys2Proof.Machine.execVstg o s
  | .atomgAdd o => Sys2Proof.Machine.execAtomgAdd o s
  | .atomgMin o => Sys2Proof.Machine.execAtomgMin o s
  | .atomgMax o => Sys2Proof.Machine.execAtomgMax o s
  | .atomgAnd o => Sys2Proof.Machine.execAtomgAnd o s
  | .atomgOr o => Sys2Proof.Machine.execAtomgOr o s
  | .atomgXor o => Sys2Proof.Machine.execAtomgXor o s
  | .atomgSwap o => Sys2Proof.Machine.execAtomgSwap o s
  | .atomgCas o => Sys2Proof.Machine.execAtomgCas o s
  | .fence d lv => Sys2Proof.Machine.execFence d lv s
  | .fencex d lv paths => Sys2Proof.Machine.execFencex d lv paths s
  | .waita d a b disp ty acq => Sys2Proof.Machine.execWaita d a b disp ty acq s
  | .linv a disp len => Sys2Proof.Machine.execLinv a disp len s
  | .mcall o => Sys2Proof.Machine.execMcall o s
  | .mstat d eng => Sys2Proof.Machine.execMstat d eng s
  | .mput d a => Sys2Proof.Machine.execMput d a s
  | .mget d a => Sys2Proof.Machine.execMget d a s
  | .cellld d a b c => Sys2Proof.Machine.execCellld d a b c s
  | .flowset d a => Sys2Proof.Machine.execFlowset d a s
  | .xwin d a => Sys2Proof.Machine.execXwin d a s
  | .tsld d a => Sys2Proof.Machine.execTsld d a s
  | .tsst d a => Sys2Proof.Machine.execTsst d a s
  | .xcopy d a => Sys2Proof.Machine.execXcopy d a s
  | .xgather d a => Sys2Proof.Machine.execXgather d a s
  | .embpool d a => Sys2Proof.Machine.execEmbpool d a s
  | .xcvt d a => Sys2Proof.Machine.execXcvt d a s
  | .cgload d a g => Sys2Proof.Machine.execCgload d a g s
  | .cgrun d a b lv g => Sys2Proof.Machine.execCgrun d a b lv g s
  | .printOpStart c g op => Sys2Proof.Machine.execPrintOpStart c g op s
  | .printOpDone c g op r => Sys2Proof.Machine.execPrintOpDone c g op r s
  | .a2aDisp d a lv => Sys2Proof.Machine.execA2aDisp d a lv s
  | .a2aComb d a lv => Sys2Proof.Machine.execA2aComb d a lv s
  | .repart d a lv => Sys2Proof.Machine.execRepart d a lv s
  | .txtEnc d a => Sys2Proof.Machine.execTxtEnc d a s
  | .txtDec d a => Sys2Proof.Machine.execTxtDec d a s
  | .txtMask d a => Sys2Proof.Machine.execTxtMask d a s
  | .engineCommandStart e c => Sys2Proof.Machine.execEngineCommandStart e c s
  | .engineFaultDelivery c => Sys2Proof.Machine.execEngineFaultDelivery c s
  | .pendingArrival c => Sys2Proof.Machine.execPendingArrival c s
  | .registerCacheFill c line => Sys2Proof.Machine.execRegisterCacheFill c line s
  | .holdEnd c => Sys2Proof.Machine.execHoldEnd c s
  | .nullifierSkip n => Sys2Proof.Machine.execNullifierSkip n s
  | .trapEntry c cause epc eaddr einfo => Sys2Proof.Machine.execTrapEntry c cause epc eaddr einfo s
  | .waitaWake word space => Sys2Proof.Machine.execWaitaWake word space s
  | .waitaTimeout c => Sys2Proof.Machine.execWaitaTimeout c s
  | .waitcTimeout c => Sys2Proof.Machine.execWaitcTimeout c s
  | .qgetTimeout c => Sys2Proof.Machine.execQgetTimeout c s
  | .qputTimeout c => Sys2Proof.Machine.execQputTimeout c s
  | .fenceComplete c => Sys2Proof.Machine.execFenceComplete c s
  | .releasePerform c => Sys2Proof.Machine.execReleasePerform c s
  | .translationWalk lslot va kind => Sys2Proof.Machine.execTranslationWalk lslot va kind s
  | .lineWritebackFail lslot line r => Sys2Proof.Machine.execLineWritebackFail lslot line r s
  | .remoteRequestTimeout tag => Sys2Proof.Machine.execRemoteRequestTimeout tag s
  | .readRequestReceive src tag addr len => Sys2Proof.Machine.execReadRequestReceive src tag addr len s
  | .writeRequestReceive src tag addr data => Sys2Proof.Machine.execWriteRequestReceive src tag addr data s
  | .atomicRequestReceive src tag addr op ty operand cmp => Sys2Proof.Machine.execAtomicRequestReceive src tag addr op ty operand cmp s
  | .responseReceive io tag r data => Sys2Proof.Machine.execResponseReceive io tag r data s
  | .collectiveDataReceive src c g seq op off data => Sys2Proof.Machine.execCollectiveDataReceive src c g seq op off data s
  | .switchReduce c g op contributions => Sys2Proof.Machine.execSwitchReduce c g op contributions s
  | .controlFlitReceive msg => Sys2Proof.Machine.execControlFlitReceive msg s
  | .fabricPortDegrade port lanes => Sys2Proof.Machine.execFabricPortDegrade port lanes s
  | .planeLoss port => Sys2Proof.Machine.execPlaneLoss port s
  | .hostLinkTrain port r => Sys2Proof.Machine.execHostLinkTrain port r s
  | .measuredBoot images => Sys2Proof.Machine.execMeasuredBoot images s
  | .spdmGetMeasurements t nonce => Sys2Proof.Machine.execSpdmGetMeasurements t nonce s
  | .spdmChunkGet t seq => Sys2Proof.Machine.execSpdmChunkGet t seq s
  | .spdmRespondIfReady t => Sys2Proof.Machine.execSpdmRespondIfReady t s
  | .ownClaim m epoch lease => Sys2Proof.Machine.execOwnClaim m epoch lease s
  | .ownRenew m epoch lease => Sys2Proof.Machine.execOwnRenew m epoch lease s
  | .ownRelease m epoch => Sys2Proof.Machine.execOwnRelease m epoch s
  | .ownHandover m epoch tgt => Sys2Proof.Machine.execOwnHandover m epoch tgt s
  | .ownAccept m epoch lease => Sys2Proof.Machine.execOwnAccept m epoch lease s
  | .stateWindowWrite m off value => Sys2Proof.Machine.execStateWindowWrite m off value s
  | .deviceMemoryWrite m pa data => Sys2Proof.Machine.execDeviceMemoryWrite m pa data s
  | .lqtailWrite m q value => Sys2Proof.Machine.execLqtailWrite m q value s
  | .lqctlDisable m q value => Sys2Proof.Machine.execLqctlDisable m q value s
  | .launchRecordTake q => Sys2Proof.Machine.execLaunchRecordTake q s
  | .waitWordsMet q => Sys2Proof.Machine.execWaitWordsMet q s
  | .treeBind q => Sys2Proof.Machine.execTreeBind q s
  | .launchEnd slot => Sys2Proof.Machine.execLaunchEnd slot s
  | .launchAbort m slot => Sys2Proof.Machine.execLaunchAbort m slot s
  | .gangPreempt m slot gang => Sys2Proof.Machine.execGangPreempt m slot gang s
  | .gangResume m slot gang => Sys2Proof.Machine.execGangResume m slot gang s
  | .gangStop slot => Sys2Proof.Machine.execGangStop slot s
  | .podFailure die pod => Sys2Proof.Machine.execPodFailure die pod s
  | .xlinvcWrite m value => Sys2Proof.Machine.execXlinvcWrite m value s
  | .queueDisable m q => Sys2Proof.Machine.execQueueDisable m q s
  | .islctlWrite m island value => Sys2Proof.Machine.execIslctlWrite m island value s
  | .islandTransition island => Sys2Proof.Machine.execIslandTransition island s
  | .powerManagerTick meas hot cool => Sys2Proof.Machine.execPowerManagerTick meas hot cool s
  | .trshutWrite m core value => Sys2Proof.Machine.execTrshutWrite m core value s
  | .trdumpWrite m core value => Sys2Proof.Machine.execTrdumpWrite m core value s
  | .rowSparing row => Sys2Proof.Machine.execRowSparing row s
  | .pseudoChannelFailure stack channel lost => Sys2Proof.Machine.execPseudoChannelFailure stack channel lost s
  | .commandFinished e c => Sys2Proof.Machine.execCommandFinished e c s
  | .poolLinkFault port => Sys2Proof.Machine.execPoolLinkFault port s
  | .crcFailFlitReceive port vc => Sys2Proof.Machine.execCrcFailFlitReceive port vc s
  | .trdumpCopyDone core => Sys2Proof.Machine.execTrdumpCopyDone core s
  | .spdmGetCertificate t => Sys2Proof.Machine.execSpdmGetCertificate t s
  | .spdmChallenge t nonce => Sys2Proof.Machine.execSpdmChallenge t nonce s
  | .nop => Sys2Proof.Machine.execNop s
  | .ret => Sys2Proof.Machine.execRet s
  | .seqsel => Sys2Proof.Machine.execSeqsel s
  | .yield => Sys2Proof.Machine.execYield s
  | .halt => Sys2Proof.Machine.execHalt s
  | .tret => Sys2Proof.Machine.execTret s
  | .resultLanding => Sys2Proof.Machine.execResultLanding s
  | .timesliceExpiry => Sys2Proof.Machine.execTimesliceExpiry s
  | .leaseExpiry => Sys2Proof.Machine.execLeaseExpiry s
  | .handoverTimeout => Sys2Proof.Machine.execHandoverTimeout s
  | .bindRetry => Sys2Proof.Machine.execBindRetry s
  | .xlatInvalidateDone => Sys2Proof.Machine.execXlatInvalidateDone s
  | .hbmPatrolScrub => Sys2Proof.Machine.execHbmPatrolScrub s
  | .sramPatrolScrub => Sys2Proof.Machine.execSramPatrolScrub s

end Sys2Proof.Machine
end

