-- ==== Sys2Proof/Machine/Issue.lean ====
section
/-!
DEFINITION. One clock cycle of a core (R105 to R110, R156 to R163, R217, R218, R222, R301, R302): presenting
the running context's bundle, judging its syllables, freezing, holding or issuing it, and the end of the
cycle.
-/

namespace Sys2Proof.Machine

/-- Going on with the next state of an outcome. -/
def andThen (r : Res) (f : State → Res) : Res :=
  match r with
  | .next s => f s
  | .fault e => .fault e
  | .refused e => .refused e

/-! ## Judging (R217, R218) -/

/-- What judging the active syllables of a bundle has found so far. -/
structure Found where
  tags : Nat
  touched : List (Bool × Nat × Nat)
  fills : List (CtxNo × Nat)
  frozen : List FreezeCause
  held : Option Hold
  /-- The C slot's syllable is among those that hold the bundle. -/
  heldC : Bool
  branch : Bool
  /-- Some syllable waits in a freeze, for a register or for its guard, so that its own traps, which come before those of
  the later syllables, are not known yet. -/
  blind : Bool
  deriving DecidableEq, Repr

/-- Whether a syllable of a slot can only proceed: the vector, special-function and index units have no
cause, freeze or hold of their own. -/
def alwaysProceeds (slot : BitVec 4) : Bool := (2 ≤ slot.toNat && slot.toNat ≤ 5) || slot == 8

/-- The registers that a syllable reads, its guard among them. -/
def Placed.reads (p : Placed) : List Use := (sylUses p.syl).filter fun u => !u.write

/-- Whether some lane of a vector or memory syllable is active: one that acts on no lane raises no execution cause
(R218). -/
def State.hasLane (s : State) (p : Placed) : Bool :=
  match laneUse p.syl.instr, vecHdr p.syl.instr with
  | some (gm, q), _ => s.activeLanes gm q != 0
  | none, some h => s.activeLanes h.gm h.q != 0
  | none, none => true

/-- A cause that a syllable's registers raise: an uncorrectable value, or a register line that cannot be read
(R161, R233): its code, EADDR and DETAIL, the load whose value it is, and whether the syllable's own checks read the
register. -/
structure BadReg where
  code : Byte
  eaddr : Word64
  detail : BitVec 32
  load : Option Nat
  checked : Bool
  deriving DecidableEq, Repr

/-- The registers that a syllable's STALEWIN, XLATE, PERM and ALIGN checks read: the address and not the data of a store
or an atomic, the operands of any other (R218). -/
def Placed.checked (p : Placed) : List Use :=
  let vec (o : VMArgs) : List Use := rs o.m.a :: rq (o.q.setWidth 6) o.gm :: match o.ofs with
    | .vec b => [rv b o.gm]
    | .index b => [rx b]
    | _ => []
  match p.syl.instr with
  | .st o | .stg o | .stgRel o => [rs o.m.a]
  | .vst o | .vstPk6 o | .vscat o | .vstg o => vec o
  | .pst o => rs o.m.a :: if o.vec then [rq (o.q.setWidth 6) o.gm] else []
  | .atomgAdd o | .atomgMin o | .atomgMax o | .atomgAnd o | .atomgOr o | .atomgXor o | .atomgSwap o | .atomgCas o =>
    [rs o.a]
  | .waita _ a _ _ _ _ | .cellld _ a _ _ | .cgrun _ a _ _ _ | .spawn _ a _ => [rs a]
  | .mcall _ => [rm 4]
  | _ => if alwaysProceeds p.syl.slot then [] else p.reads

/-- Whether a register line that is not resident can be fetched, or is being fetched. -/
def State.fetchable (s : State) (c : CtxNo) (n : Nat) : Bool :=
  s.core.fills.contains (c, n) || match s.readLine c n with
    | .inl _ => true
    | .inr _ => false

/-- The cause of a register line that is not resident and cannot be read (R233). -/
def State.lineCause (s : State) (c : CtxNo) (n : Nat) (checked : Bool) : Option BadReg :=
  if s.core.fills.contains (c, n) then none
  else match s.readLine c n with
    | .inr (k, a, d) => some ⟨k, a, d, none, checked⟩
    | .inl _ => none

/-- The first register line of a syllable that cannot be read, or that holds an uncorrectable error in a unit that it
reads (R22, R23, R233). -/
def State.badLine (s : State) (c : CtxNo) (p : Placed) : Option BadReg :=
  let x := s.ctxAt c
  let here := (x.unsoundUnits (sylUses p.syl)).head?.map fun i =>
    (⟨cDATAERR, x.lineAddr (i / 32), 2, none, (x.unsoundUnits p.checked).contains i⟩ : BadReg)
  here.or <|
  (x.missing (sylUses p.syl)).findSome? fun n => s.lineCause c n ((x.missing p.checked).contains n)

/-- The first uncorrectable value that a syllable touches. -/
def Ctx.badValue (c : Ctx) (p : Placed) : Option BadReg :=
  (c.poisoned (sylUses p.syl)).map fun (id, d, a) => ⟨cDATAERR, a, 3, some id, p.checked.any (·.touches d)⟩

/-- The cause that a syllable's registers raise: one with no active lane raises none, unless it is not known which lanes
are active. -/
def State.badReg (s : State) (p : Placed) : Option BadReg :=
  let x := s.ctx
  if s.hasLane p || !(x.unsoundUnits (p.reads.filter (·.cls == .q))).isEmpty then
    (s.badLine s.fr.ctx p).or (x.badValue p)
  else none

/-- The trap of a syllable whose registers raise a cause. A bad load raises it once, for all its destinations. -/
def State.badTrap (s : State) (p : Placed) (b : BadReg) : State :=
  let s := (s.onSyllable p).trap b.code b.eaddr b.detail
  match b.load with
  | some id => s.modCtx fun c => { c with poison := c.poison.filter fun (n, _, _) => n != id }
  | none => s

/-- Whether a syllable's own cause comes before the cause that one of its registers raises (R218): LEVEL and ILLSTATE
always, STALEWIN to ALIGN where they do not read the register. -/
def ownFirst (code : Byte) (b : BadReg) : Bool :=
  code == cLEVEL || code == cILLSTATE
    || (!b.checked && (code == cSTALEWIN || code == cXLATE || code == cPERM || code == cALIGN))

/-- A register line that a SPAWN needs of its target is fetched at once with the bundle's own (R161). -/
def State.spawnFill (s : State) (p : Placed) : List (CtxNo × Nat) :=
  match p.syl.instr with
  | .spawn c _ _ =>
    let x := s.ctxAt c
    if c ≠ s.fr.ctx ∧ x.bind.lslot = s.ctx.bind.lslot ∧ x.state = .idle ∧ x.resident.getLsbD 0 = false then [(c, 0)]
    else []
  | _ => []

/-- The operation of a syllable's engine command. -/
def commandOp : Instr → Option CmdOp
  | .mcall _ => some .mcall
  | .cellld _ _ _ _ => some .cellld
  | .flowset _ _ => some .flowset
  | .xwin _ _ => some .xwin
  | .tsld _ _ => some .tsld
  | .tsst _ _ => some .tsst
  | .xcopy _ _ => some .xcopy
  | .xgather _ _ => some .xgather
  | .embpool _ _ => some .embpool
  | .xcvt _ _ => some .xcvt
  | .txtEnc _ _ => some .txtEnc
  | .txtDec _ _ => some .txtDec
  | .txtMask _ _ => some .txtMask
  | .cgload _ _ _ => some .cgload
  | .cgrun _ _ _ _ _ => some .cgrun
  | .a2aDisp _ _ _ => some .a2aDisp
  | .a2aComb _ _ _ => some .a2aComb
  | .repart _ _ _ => some .repart
  | _ => none

/-- Whether a command syllable freezes whatever its operands are: its queue is full, or the graph that it runs is still
being loaded (R168, R380). -/
def State.commandWaits (s : State) (i : Instr) : Bool :=
  (match commandOp i with
    | some op => s.queueFull op.engine
    | none => false)
  || match i with
    | .cgrun _ _ _ _ g => s.loadingGraph g
    | _ => false

/-- What a syllable that waits for its operands adds: the freezes that do not depend on them (R159). -/
def State.judgeLate (s : State) (p : Placed) (f : Found) : Found :=
  let target := s.spawnFill p
  { f with
    frozen := f.frozen ++ (if s.commandWaits p.syl.instr then [FreezeCause.scoreboard] else [])
      ++ if target.isEmpty then [] else [FreezeCause.fill]
    fills := f.fills ++ target.filter fun y => !f.fills.contains y }

/-- Whether a syllable's guard and lanes are known while line 4, with the predicates, is not resident: they are p0 and
q0. -/
def Placed.seen (p : Placed) : Bool := (p.reads.filter fun u => u.cls == .p || u.cls == .q).all Use.exempt

/-- What judging one active syllable adds: a trap where it is the bundle's first, or what it found. It is judged once
what its checks read has come: all its operands, or those of its address where its data cannot be read. -/
def State.judgeOne (s : State) (p : Placed) (f : Found) : Found ⊕ Res :=
  let c := s.fr.ctx
  let x := s.ctx
  let bad := s.badReg p
  let needs := match bad with
    | some b => if b.checked then [] else p.checked
    | none => p.reads
  let gone := x.missing needs
  let late := x.touched needs
  let stop (r : Res) : Found ⊕ Res := if f.blind then .inl f else .inr r
  if !x.resident.getLsbD 4 && !p.seen then .inl { f with blind := true }
  else if !gone.isEmpty && gone.all (s.fetchable c) then .inl { s.judgeLate p f with blind := true }
  else if !late.isEmpty then .inl { s.judgeLate p f with blind := f.blind || !late.any (·.long) }
  else if alwaysProceeds p.syl.slot then
    match bad with
    | some b => stop (.next (s.badTrap p b))
    | none => .inl f
  else
    match exec p.syl.instr ((s.onSyllable p).modFr fun fr => { fr with tags := f.tags, touched := f.touched }) with
    | .fault e => stop (.fault e)
    | .refused e => stop (.refused e)
    | .next u =>
      let g : Found := { f with
        tags := u.fr.tags, touched := u.fr.touched, branch := f.branch || u.fr.branch.isSome }
      match u.fr.verdict, bad with
      | .trapped, none => stop (.next u)
      | .trapped, some b => stop (.next (if gone.isEmpty && ownFirst u.fr.trapCode b then u else s.badTrap p b))
      | _, some b => stop (.next (s.badTrap p b))
      | .proceed, none => .inl g
      | .held h, none => .inl { g with held := some (g.held.getD h), heldC := g.heldC || p.syl.slot == 10 }
      | .frozen why, none => .inl { g with
          frozen := f.frozen ++ [why]
          fills := f.fills ++ u.core.fills.filter fun y => !f.fills.contains y }

/-- Each active syllable is judged on the state before the bundle: the first trap stands, as does a stop of the
machine; otherwise what they found together. -/
def State.judgeAll (s : State) : List Placed → Found → Found ⊕ Res
  | [], f => .inl f
  | p :: ps, f =>
    match s.judgeOne p f with
    | .inl g => s.judgeAll ps g
    | .inr r => .inr r

/-- What presenting a bundle comes to. -/
inductive Presented
  /-- A trap has been taken, or the machine stops. -/
  | stop (r : Res)
  /-- A freeze before issue: its causes, and the register lines being fetched. -/
  | freeze (why : List FreezeCause) (fills : List (CtxNo × Nat))
  | hold (h : Hold) (heldC : Bool) (acts : List Placed)
  | issue (b : Bundle) (f : Found)

/-- Whether the predicates of a context can be read: line 4 is resident, and its unit of predicates is sound. -/
def Ctx.seesGuards (c : Ctx) : Bool := c.resident.getLsbD 4 && !c.badRegs.contains 128

/-- The syllables that may be active: where a guard cannot be read, the syllable is judged for that. -/
def State.mayAct (s : State) (ps : List Placed) : List Placed :=
  ps.filter fun p => s.guardTrue p || (p.syl.gp != 0 && !s.ctx.seesGuards)

/-- The bundle of the issue frame's context is presented: faults that wait for delivery (R230), the fetch and the
encoding, then the active syllables' causes, syllable by syllable, and what the bundle waits for: all of its freezes
together, and a hold once nothing freezes it (R106, R159, R163). A syllable whose operands are pending is judged when
they have come; a later one that traps before then traps (DESIGN CHOICE, log entry 95). A bundle that is held takes its
place in line, arms its WAITAs and arrives at its barrier with the syllables whose operands are there (R106, R120). -/
def State.presentBundle (s : State) : Presented :=
  let c := s.fr.ctx
  let x := s.ctx
  if !x.waits.faults.isEmpty && !x.hm then .stop (.next (s.unland.deliverFault c))
  else match s.bundleAt s.fr.pc with
    | .inr e => .stop (.next (s.trapWith e.code s.fr.pc e.eaddr e.info))
    | .inl b =>
      let s := s.modFr fun f => { f with next := b.next }
      match x.waits.lateErr with
      | some (i, a) => .stop (.next ((s.modCtx fun x => { x with waits := { x.waits with lateErr := none } }).trapWith
          cDATAERR s.fr.pc a (einfo 0 0 (BitVec.ofNat 32 (5 + 256 * i)))))
      | none =>
      let us := b.uses
      let missing := (x.missing us).filter (s.fetchable c)
      let pend := x.touched us
      let acts := s.mayAct b.syls
      let fills := s.core.fills ++ ((missing.map fun n => (c, n)).filter fun y => !s.core.fills.contains y)
      -- the guards and the lane predicates stand on line 4
      match if x.resident.getLsbD 4 then none else s.lineCause c 4 true, b.syls with
      | some e, p :: _ => .stop (.next (s.badTrap p e))
      | _, _ =>
      match s.judgeAll acts ⟨0, [], fills, [], none, false, false, false⟩ with
      | .inr r => .stop r
      | .inl f =>
        let why := (if missing.isEmpty then [] else [FreezeCause.fill])
          ++ (if pend.all (·.long) then [] else [FreezeCause.pending]) ++ f.frozen
        if !why.isEmpty then .freeze why f.fills
        else if !pend.isEmpty then
          .hold .pending f.heldC (acts.filter fun p => (x.touched p.reads).isEmpty)
        else match f.held with
          | some h => .hold h f.heldC acts
          | none => .issue b f

/-! ## Freezing -/

/-- A freeze cycle counts once, and once for each cause (R159, R169). -/
def Counters.freeze (k : Counters) (why : List FreezeCause) : Counters :=
  let n (p : FreezeCause → Bool) : Word64 := if why.any p then 1 else 0
  { k with
    freezecy := k.freezecy + 1
    bankstall := k.bankstall + n (· == .bank)
    rcfillcy := k.rcfillcy + n (· == .fill)
    pendcy := k.pendcy + n (fun c => c == .pending || c == .table)
    tagcy := k.tagcy + n (· == .tag)
    sbcy := k.sbcy + n (· == .scoreboard) }

/-- A freeze cycle. -/
def State.freezeCycle (s : State) (why : List FreezeCause) (fills : List (CtxNo × Nat)) : State :=
  s.modCore fun k => { k with counters := k.counters.freeze why, fills := fills }

/-! ## Holding (R106) -/

/-- What a held bundle leaves: its WAITAs are armed, its QGET stands in line, its BAR has arrived. -/
def State.holdEffects (s : State) : List Placed → State
  | [] => s
  | p :: ps =>
    let t := s.onSyllable p
    let u := match p.syl.instr with
      | .bar _ lv n => if t.tree.levelOk lv false then t.barArrive lv.toNat n else t
      | i => match exec i t with
        | .next u => match u.fr.verdict with
          | .held _ => u
          | _ => t
        | _ => t
    u.holdEffects ps

/-- The presenting context goes to WAITING (R102, R106). A hold of the C slot's syllable goes on counting until its bundle
issues. -/
def State.holdBundle (s : State) (h : Hold) (heldC : Bool) (acts : List Placed) : State :=
  let s := (s.modFr fun f => { f with judging := false }).holdEffects acts
  (s.modCtx fun c =>
    { c with
      state := .waiting
      waits := { c.waits with
        hold := h, heldC := heldC || c.waits.heldC, cycles := if c.waits.heldC then c.waits.cycles else 0 } }).modCore
    fun k => { k with counters := { k.counters with bubblecy := k.counters.bubblecy + 1 } }

/-! ## Issuing -/

/-- The syllables of a bundle are performed in order. A vector syllable whose guard is false keeps its
destination, and a syllable chained to it takes those lanes (R314). -/
def State.performAll (s : State) : List Placed → Res
  | [] => .next s
  | p :: ps =>
    if s.guardTrue p then andThen (exec p.syl.instr (s.onSyllable p)) fun t => t.performAll ps
    else
      let t := s.onSyllable p
      match chainDest p.syl.instr with
      | some (h, d) => (t.chainOut h (t.rdV d)).performAll ps
      | none => t.performAll ps

/-- The memory effects that come after the bundle's loads. -/
def State.commit (s : State) : State :=
  let s' := s.fr.deferred.foldl
    (fun s d => match d with
      | .spad core addr data => s.writeSpad core addr data
      | .access n a =>
        (s.noteWrite s.coreIx a).access s.coreIx s.fr.ctx n a) s
  s'.modFr fun f => { f with deferred := [] }

/-- The loop-end check over the entries in order of start, with the counters as the bundle reads them
(R302): the state after it and where the body goes on. -/
def State.loopEnds (s : State) (reads : Fin 4 → Word32) (exit : Word64) : Nat → State × Option Word64
  | 0 => (s, none)
  | n + 1 =>
    let entries := allCtxs.filter fun i =>
      let e := s.ctx.loops.get i
      e.active && e.exit == exit
    let first := entries.foldl
      (fun (b : Option (Fin 4)) i => match b with
        | none => some i
        | some j => if (s.ctx.loops.get i).order < (s.ctx.loops.get j).order then some i else b) none
    match first with
    | none => (s, none)
    | some i =>
      let r : Reg := BitVec.ofNat 6 i.val
      let put (s : State) (x : Word32) : State :=
        if s.fr.lcWritten.contains r then s else s.put (.lc r) (x.setWidth 512) 1
      let c := reads i
      if 1 < c.toNat then (put s (c - 1), some (s.ctx.loops.get i).start)
      else ((put s 0).modCtx (·.stopLoop i)).loopEnds reads exit n

/-- Where the context goes on after its bundle, and whether two bubbles follow. -/
def State.goOn (s : State) (reads : Fin 4 → Word32) : State × Word64 × Bool :=
  match s.fr.branch with
  | some (_, t) => (s, t, true)
  | none =>
    let (s', back) := s.loopEnds reads s.fr.next 4
    match s.fr.goto, back with
    | some t, _ => (s', t, true)
    | none, some t => (s', t, false)
    | none, none => (s', s.fr.next, false)

/-- The slot of the syllable that takes the branch, and whether it is SEQSEL, as KIND 1 has them. -/
def State.branchSlot (s : State) (b : Bundle) : Nat :=
  match s.fr.branch with
  | some (slot, _) =>
    slot.toNat + if b.syls.any fun p => p.syl.slot == slot && p.syl.instr == .seqsel then 16 else 0
  | none =>
    match b.syls.find? fun p => match p.syl.instr with | .loop _ _ _ => true | _ => false with
    | some p => p.syl.slot.toNat
    | none => 0

/-- Traps after a bundle that has issued: SWTRAP, or STEP (R218, R222, R310). -/
def State.trapsAfter (s : State) (status : Word64) (slot : BitVec 4) : State :=
  let c := s.fr.ctx
  match s.fr.trapAfter with
  | some (code, syl) =>
    s.trapEntryAt c ⟨cSWTRAP, s.ctx.pc, 0, einfo syl slot (code.setWidth 32)⟩
  | none =>
    if status.getLsbD 3 && !status.getLsbD 0 && s.fr.leaves != some .idle then
      s.trapEntryAt c ⟨cSTEP, s.ctx.pc, 0, 0⟩
    else s

/-- The end of an issued bundle: its memory effects, its loop ends, the place it goes on from, its counters
and freezes, YIELD and HALT, and the traps that follow it. -/
def State.finishBundle (s : State) (b : Bundle) (status : Word64) (reads : Fin 4 → Word32) : State :=
  let (freeze, s) := s.shareBanks
  let s := s.commit
  let (s, pc, taken) := s.goOn reads
  let pcNow := s.fr.pc
  let s := if taken then s.note rankBranch 0 1 (s.branchSlot b) pc else s
  let s := s.noteShutter 2 (s.core.trace.trmatch == pcNow) pcNow
  let s := s.modCtx fun c => { c with
    pc := pc
    bubbles := if taken then 2 else 0
    bubbleWhy := .branch
    seq := c.seq + 1
    state := s.fr.leaves.getD c.state
    readySince := if s.fr.leaves = some .ready then s.core.now else c.readySince
    waits := { c.waits with hold := .none, heldC := false, cycles := 0 } }
  let s := s.modCore fun k => { k with
    counters := { k.counters with issued := k.counters.issued + 1 }
    freeze := freeze
    freezeWhy := .bank
    last := s.fr.ctx }
  s.trapsAfter status 10

/-- A bundle issues: every active syllable takes its whole effect. -/
def State.issueBundle (s : State) (b : Bundle) (f : Found) : Res :=
  let status := s.ctx.ctrl.status
  let reads : Fin 4 → Word32 := fun i => s.rdLc (BitVec.ofNat 6 i.val)
  let s := s.modFr fun fr => { fr with
    judging := false, tags := 0, touched := f.touched, anyBranch := f.branch, preland := none
    next := b.next }
  andThen (s.performAll b.syls) fun t => .next (t.finishBundle b status reads)

/-! ## A cycle -/

/-- A bubble of the RUNNING context, or a cycle in which none runs: results in flight advance. -/
def State.bubbleCycle (s : State) (f : Counters → Counters) : State :=
  s.landCycle.modCore fun k => { k with counters := f k.counters }

/-- The cycle of a RUNNING context at a bundle: results land, captured results that are due go back to
flight, and the bundle is presented (R222, R226). -/
def State.bundleCycle (s : State) (c : CtxNo) : Res :=
  let before := s.ctxAt c
  let plain := s.landCycle
  let s1 := (((s.modCtxAt c Ctx.replay).landCycle).present c 0).modFr fun f => { f with preland := some before }
  match s1.presentBundle with
  | .stop r => andThen r fun t => .next (t.tagLine c false)
  | .freeze why fills => .next ((s.freezeCycle why fills).tagLine c (why.contains .tag))
  | .hold h heldC acts =>
    let s2 := (s1.holdBundle h heldC acts).modCtxAt c fun x => x.unlandTo (plain.ctxAt c)
    let keep := plain.fr.notes.filter fun n => n.kind == 2 && n.ctx == c
    .next (((s2.dropPredNotes c).modFr fun f => { f with notes := f.notes ++ keep }).tagLine c false)
  | .issue b f => andThen (s1.issueBundle b f) fun t => .next (t.tagLine c false)

/-- What presenting the RUNNING context's bundle in this cycle would come to. -/
def State.presented (s : State) (c : CtxNo) : Presented :=
  ((s.modCtxAt c Ctx.replay).landCycle.present c 0).presentBundle

/-- Whether the RUNNING context's bundle freezes before issue: a time slice does not end there (R108). -/
def State.freezes (s : State) (c : CtxNo) : Bool :=
  match s.presented c with
  | .freeze _ _ => true
  | _ => false

/-- Who has the issue slot in this cycle: a READY context that has waited 64 cycles takes it at the running
context's boundary (R108). -/
def State.slotHolder (s : State) (c : CtxNo) : State × CtxNo :=
  if s.core.sliceDue && s.core.atBoundary c && !s.freezes c then
    match execTimesliceExpiry s with
    | .next t => (t, (t.core.running).getD c)
    | _ => (s, c)
  else (s, c)

/-- Whether the RUNNING context stands at the boundary at which its gang's stop takes it: a trap comes first, a freeze
is over first, and the gang's data is not moving (R47, R114, R227). -/
def State.mustStop (s : State) (c : CtxNo) : Bool :=
  s.stopping s.coreIx c && !s.moving (s.ctxAt c).gang && match s.presented c with
    | .freeze _ _ => false
    | .stop _ => false
    | _ => true

/-- The cycle of a context that stops: it waits a bubble while reads or more than 64 results are outstanding. -/
def State.stopCycle (s : State) (c : CtxNo) : State :=
  let s := if s.mayStop s.coreIx c then s.stopCtx s.coreIx c else s
  s.bubbleCycle id

/-- The cycle's own work, before its end. -/
def State.cycleWork (s : State) : Res :=
  if 0 < s.core.freeze ∨ s.core.tableRead then
    let why := (if 0 < s.core.freeze then [s.core.freezeWhy] else []) ++ if s.core.tableRead then [.table] else []
    .next ((s.freezeCycle why s.core.fills).modCore fun k => { k with freeze := k.freeze - 1, tableRead := false })
  else match s.core.running with
    | none =>
      .next (s.bubbleCycle fun k =>
        if s.core.choose.isNone then { k with idlecy := k.idlecy + 1 } else k)
    | some c =>
      let (s, c) := s.slotHolder c
      let x := s.ctxAt c
      if x.waits.entering.isSome then
        if x.mustWait then .next (s.bubbleCycle id)
        else .next (((s.modCtxAt c Ctx.enterHandler).modCtxAt c fun x => { x with bubbles := 1 }).bubbleCycle id)
      else if 0 < x.bubbles then
        .next ((s.modCtxAt c fun x => { x with bubbles := x.bubbles - 1 }).bubbleCycle fun k =>
          match x.bubbleWhy with
          | .branch => { k with bubblecy := k.bubblecy + 1 }
          | .skip => { k with nullcy := k.nullcy + 1 }
          | .trap => k)
      else if s.mustStop c then .next (s.stopCycle c)
      else s.bundleCycle c

/-- A clock cycle of a context that has not stopped: a hold of the C slot's syllable and its parked WAITAs grow older until
their bundle issues, also while it is presented again (R120, R152, R354). -/
def Ctx.age (c : Ctx) : Ctx :=
  if c.state = .waiting ∨ c.state = .ready ∨ c.state = .running then
    { c with waits := { c.waits with
        cycles := c.waits.cycles + c.waits.heldC.toNat
        waita := c.waits.waita.map fun (r : WaitRec) => { r with age := r.age + 1 } } }
  else c

/-- Whether every context of a launch is IDLE with its registers in memory; a context that its gang's
pre-emption holds IDLE counts (R110). -/
def State.allIdle (s : State) (slot : Nat) : Bool :=
  (s.launchCtxs slot).all fun x =>
    (x.state == .idle && x.settled && x.resident == 0) || (x.state == .preempted && x.waits.prior == .idle)

/-- A launch whose contexts are all IDLE ends with DONE in the same cycle (R72, R110). -/
def State.endIdle (s : State) : State :=
  allCtxs.foldl
    (fun s c =>
      let x := s.ctxAt c
      if x.state = .idle ∧ s.allIdle x.bind.lslot then s.endLaunch x.bind.lslot 0 0 else s) s

/-- The end of a cycle: trace events are recorded, lines of IDLE contexts go home, a launch that is done
ends, the holds whose condition the cycle has met end, the selector chooses, and the clock ticks. -/
def State.endCycle (s : State) : State :=
  let s := s.flushNotes
  let s := s.flushIdle.endIdle.haltEnding
  let s := s.endHolds.select?.syncSb
  { (s.modCore fun k =>
      let k := k.mapCtxs Ctx.age
      { k with
        counters := { k.counters with cycles := k.counters.cycles + 1 }
        trace := { k.trace with inCycle := 0 } }) with
    fr := Frame.reset, free := s.free + 1 }

/-- One clock cycle of the selected core. -/
def State.cycle (s : State) : Res := andThen s.beginCycle.cycleWork fun t => .next t.endCycle

end Sys2Proof.Machine
end

