-- ==== Sys2Proof/Machine/Internal.lean ====
section
/-!
DEFINITION. The events that come about by themselves, as they are enabled in a state, and which of them is next.
-/

namespace Sys2Proof.Machine

/-- Events of a context of the selected core that are enabled. -/
def State.ctxEvents (s : State) (c : CtxNo) : List Instr :=
  let x := s.ctxAt c
  (if x.pend.any fun p => p.ripe && p.due.isNone then [.pendingArrival c] else [])
    ++ (if s.holdOver c then [.holdEnd c] else [])
    ++ (if x.waits.waita.any WaitRec.expired then [.waitaTimeout c] else [])
    ++ (if x.fences.any fun f => s.fenceMet s.coreIx c f &&
          ((!f.flushed && s.fenceCleans s.coreIx c f)
            || !((f.paths.getLsbD 0 || s.fenceCleans s.coreIx c f) && s.fabric.reqs.any (·.cleans s.coreIx)))
        then [.fenceComplete c] else [])
    ++ (if x.releases.any fun r => x.releaseCleans r || s.releaseMet s.coreIx c r then [.releasePerform c] else [])

/-- Events of the selected core that are enabled. -/
def State.coreEvents (s : State) : List Instr :=
  (s.core.fills.map fun (c, n) => .registerCacheFill c n) ++ allCtxs.flatMap s.ctxEvents ++ s.printEvents
    ++ s.engineEvents

/-- The enabled events, each with its core. -/
def State.enabled (s : State) : List Event :=
  (s.coreNumbers.flatMap fun n => (s.select n).coreEvents.map fun i => ⟨n, i⟩)
    ++ ((s.portEvents ++ s.hubEvents).map fun i => ⟨s.coreIx, i⟩) ++ s.dumpEvents

/-- The event that comes next: the enabled ones take turns (an event and a clock cycle together advance the
counter by two). -/
def State.nextInternal (s : State) : Option Event :=
  let es := s.enabled
  es[s.free / 2 % es.length]?

end Sys2Proof.Machine
end

