-- ==== Sys2Proof/Machine/Install.lean ====
section
/-!
DEFINITION. What one step does, and the placing of an instruction so that the next step runs it: a launch of one
context in launch slot 0, its page tables, and the instruction at its pc.
-/

namespace Sys2Proof.Machine

/-! ## A step -/

/-- Whether a core holds a context of a launch. -/
def Core.inUse (k : Core) : Bool := allCtxs.any fun c => (k.ctxs.get c).bound

/-- The next core in number that holds contexts becomes the selected one, so that the cores take turns; a round of
clock cycles is over when the turn comes back to the first. -/
def State.rotate (s : State) : State :=
  let ns := s.coreNumbers.filter fun n => (s.coreAt n).inUse
  match ns.find? (s.coreIx < ·), ns with
  | some n, _ => s.select n
  | none, n :: _ => { s.select n with round := s.round + 1 }
  | none, [] => { s with round := s.round + 1 }

/-- Whether a constructor is an event: it is no well-formed syllable. -/
def isEvent (i : Instr) : Bool := !i.wf && i.fields.isNone

/-- An event takes place at its core; a syllable is no event. -/
def State.happen (s : State) (e : Event) : Res :=
  if isEvent e.what then andThen (exec e.what (s.select e.core)) fun t => .next { t.flushNotes with free := t.free + 1 }
  else .next s

/-- The message that an event receives by a fabric port; none for the other events (R30, R31). The switch is 0xFFFF, as
where it is sent to (log entry 101). -/
def State.flitOf (s : State) : Instr → Option Arrival
  | .readRequestReceive src tag addr len => some ⟨0, some 0, src, tag, addr.toNat, (ReqKind.read len).payload⟩
  | .writeRequestReceive src tag addr data => some ⟨1, some 0, src, tag, addr.toNat, data⟩
  | .atomicRequestReceive src tag addr op ty x y =>
    some ⟨2, some 0, src, tag, addr.toNat, (ReqKind.atomic op ty x y).payload⟩
  | .responseReceive io tag r data =>
    if io then none
    else some ⟨3, some 1, ((s.fabric.withTag false tag).map Request.modId).getD 0, tag, replyNumber r, data⟩
  | .collectiveDataReceive src _ _ seq op _ data =>
    some ⟨4, some 2, src, 0, seq.toNat * 2 ^ 32 + op % 256, data⟩
  | .switchReduce c g op parts =>
    let seq := ((s.core.printOf c g).map Print.seq).getD 0
    some ⟨5, some 3, 0xFFFF, 0, seq.toNat * 2 ^ 32 + op % 256,
      ((s.core.opOf g op).map fun o => switchResult o (parts.map Contribution.data)).getD []⟩
  | .controlFlitReceive _ => some ⟨6, none, 0xFFFF, 0, 0, []⟩
  | _ => none

/-- An event of the agenda. One that receives a message by a fabric port takes its flits, with what they acknowledge
(R29 to R32). Where one of them is dropped, its sender replays, and the message comes again before anything else
(R30). -/
def State.happenOutside (s : State) (e : Event) : Res :=
  match (s.select e.core).flitOf e.what with
  | none => s.happen e
  | some a =>
    if s.takesFlits a then (s.flitArrives a).happen e
    else
      let t := s.dropFlit s.arrivalPort ((a.vc.map fun v => BitVec.ofNat 2 v.val).getD 0)
      .next { t with agenda := e :: t.agenda, free := t.free + 1 }

/-- The place of an event among those that reach the hub in one cycle (R61): a lease or a handover that runs out comes
before the ownership requests, and these come in ascending master id; other events have none. -/
def ownRank : Instr → Option Nat
  | .leaseExpiry | .handoverTimeout => some 0
  | .ownClaim m _ _ | .ownRenew m _ _ | .ownRelease m _ | .ownHandover m _ _ | .ownAccept m _ _ => some (m + 1)
  | .stateWindowWrite m off _ => if windowUnit off = 0x108 then some (m + 1) else none
  | _ => none

/-- The ownership events at the head of the agenda are of one cycle: where the first of them in R61's order stands.
Any other event comes in the order of the agenda (log entry 55). -/
def agendaPick (es : List Event) : Nat :=
  let ranks := (es.map fun e => ownRank e.what).takeWhile Option.isSome
  let least := (ranks.filterMap id).foldl min ((ranks.head?.join).getD 0)
  (ranks.idxOf? (some least)).getD 0

/-- One step of the module. -/
def State.advance (s : State) : Res :=
  match s.agenda[agendaPick s.agenda]? with
  | some e => State.happenOutside { s with agenda := s.agenda.eraseIdx (agendaPick s.agenda) } e
  | none =>
    if s.turn then
      let s := { s with turn := false }
      match s.nextInternal with
      | some e => andThen (s.happen e) fun t => .next t.meetErrors.linkStep.rotate
      | none => .next ({ s with free := s.free + 1 }.meetErrors.linkStep.rotate)
    else State.cycle { s with turn := true }

/-! ## Placing an instruction -/

/-- The words of an instruction of `nbits` bits with their STOP bits: an IMM syllable stays in the bundle of
the syllable before it. -/
def stopWords (nbits w : Nat) : List Word64 :=
  let stop : Word64 := 0x8000000000000000
  let w0 : Word64 := BitVec.ofNat 64 w
  let w1 : Word64 := BitVec.ofNat 64 (w / 2 ^ 64)
  if 64 < nbits && isImm w1 then [w0 &&& ~~~stop, w1 ||| stop] else [w0 ||| stop]

/-- Where the placed instruction stands: the instance area's first page. -/
def placeVa : Word64 := 0x4000000000

/-- Page tables that map the instance area's page and the context area after it (R132), and the words. -/
def placeMemory (m : Memory) (ws : List Word64) : Memory :=
  let put (m : Memory) (e : Nat × Nat) : Memory := writeNat m e.1 8 e.2
  let tables : List (Nat × Nat) :=
    [(0x100000, 0x8000000000002000), (0x200800, 0x8000000000002010), (0x201000, 0x8000000000002020),
     (0x202000, 0xC000C00000000030), (0x202008, 0xC000C00000000031)]
  let m := tables.foldl put m
  (ws.zipIdx).foldl (fun m (w, i) => writeNat m (0x300000 + 8 * i) 8 w.toNat) m

/-- The launch of one context that the placed instruction belongs to. -/
def placeInfo : LaunchInfo :=
  { LaunchInfo.none with
    ptroot := 0x100000, instArea := placeVa, instLen := 0x20000, codeLen := 0x10000
    instSize := 0x10000, codeSize := 0x10000, tree := ⟨0, 1, [1], [2]⟩ }

/-- The context that runs the placed instruction: running, with every register line at hand. -/
def Ctx.placed (c : Ctx) : Ctx :=
  { c with
    state := .running
    bind := ⟨0, 0, [0]⟩
    pc := placeVa
    bubbles := 0
    resident := BitVec.allOnes 69
    ctrl := { c.ctrl with rsb := placeVa + 0x10000 }
    waits := { c.waits with entering := none, faults := [] } }

/-- Another context of the core does not take the issue slot. -/
def Ctx.aside (c : Ctx) : Ctx :=
  match c.state with
  | .ready | .running => { c with state := .waiting }
  | _ => c

/-- The state with an instruction of `nbits` bits placed. -/
def State.install (s : State) (nbits w : Nat) : State :=
  let s := { s with hbm := placeMemory s.hbm (stopWords nbits w), agenda := [], turn := false }
  let s := s.modSlot 0 fun l => { l with state := .running, info := placeInfo }
  s.modCore fun k =>
    let k := k.mapCtxs Ctx.aside
    { k with freeze := 0, tableRead := false, ctxs := k.ctxs.set 0 (k.ctxs.get 0).placed }

end Sys2Proof.Machine
end

