-- ==== Sys2Proof/Machine/Step.lean ====
section
/-!
DEFINITION. One step of the module: the next event of the agenda; without one, an event that comes about by
itself and a clock cycle of the selected core take turns. And how an instruction is placed to be the next.
-/

namespace Sys2Proof.Machine

/-- One step. -/
def step (s : State) : Host.Outcome State Fault Refusal := s.advance

/-- The state with an instruction of `nbits` bits placed so that the next step runs it. -/
def State.withFetchWord (s : State) (nbits w : Nat) : State := s.install nbits w

end Sys2Proof.Machine
end

