-- ==== Sys2Proof/Safety.lean ====
section
/-!
DEFINITION. What a safe run is: the module's memories keep their canonical form and the fixed registers
keep their values, and no step stops the machine.
-/

namespace Sys2Proof.Safety

open Sys2Proof.Machine

/-- s0 reads as 0, p0 as true, q0 as all ones (R156, R261). -/
def fixedRegs (c : Ctx) : Bool :=
  c.regs.s.get 0 == 0 && c.regs.p.get 0 && c.regs.q.get 0 == BitVec.allOnes 128

/-- A core's memories are in canonical form, and its contexts' fixed registers hold their values. -/
def coreOk (k : Core) : Bool :=
  Memory.wf k.spad && Memory.wf k.tile && allCtxs.all fun c => fixedRegs (k.ctxs.get c)

/-- A state whose memories are canonical and whose fixed registers hold their values, in every core, in every saved
image, and in the context as it stood before this cycle's landings; the table of cores is canonical too. -/
def stateOk (s : State) : Bool :=
  Memory.wf s.hbm && Memory.wf s.dieBuf && coreOk s.core && Tab.wf Core.reset s.others
    && s.others.all (fun (_, k) => coreOk k) && s.hub.saved.all (fun i => coreOk i.image)
    && s.fr.preland.all fixedRegs

/-- A run of `n` steps that does not stop and whose states are all well kept. -/
def safeRun : Nat → State → Bool
  | 0, s => stateOk s
  | n + 1, s => stateOk s && match step s with
    | .next t => safeRun n t
    | .fault _ => false
    | .refused _ => false

end Sys2Proof.Safety
end

