-- ==== Sys2Proof/Certificates/Slice0/Obligations.lean ====
section
/-!
DEFINITION. The statements for the provers, with the few words they are written in.
-/

namespace Sys2Proof.Claims

open Sys2Proof.Machine

/-! ## Words of the statements -/

/-- Results put in flight by the issuing syllable, each with its latency (R156): nothing else changes. -/
def flies (s : State) (rs : List (Dest × BitVec 512 × Nat)) : State :=
  s.modCtx fun c => { c with
    flight := c.flight ++ rs.map fun r => ⟨r.1, r.2.1, r.2.2, c.seq, s.fr.slot, s.fr.pc⟩ }

/-- A scalar result; a write to s0 is discarded (R156). -/
def toS (d : Reg) (x : Word64) (lat : Nat) : List (Dest × BitVec 512 × Nat) :=
  if d = 0 then [] else [(.s d, x.setWidth 512, lat)]

/-- A predicate result, after one cycle; a write to p0 is discarded (R156). -/
def toP (d : Reg) (b : Bool) : List (Dest × BitVec 512 × Nat) :=
  if d = 0 then [] else [(.p d, if b then 1 else 0, 1)]

/-- The predicate pair of a compare (R297). -/
def toPair (k : BitVec 3) (b : Bool) : List (Dest × BitVec 512 × Nat) :=
  toP (0#2 ++ k ++ 0#1) b ++ toP (0#2 ++ k ++ 1#1) (!b)

/-- The low n = 8 × Size(TY) bits of a scalar (R294). -/
def low (ty : Ty) (x : Word64) : BitVec (tyBits ty) := x.setWidth (tyBits ty)

/-- An n-bit result extended to 64 bits by the signedness of TY (R294). -/
def wide (ty : Ty) (x : BitVec (tyBits ty)) : Word64 :=
  if ty.isSigned then x.signExtend 64 else x.setWidth 64

/-- The smaller of two n-bit values, signed or not. -/
def least {n : Nat} (sg : Bool) (a b : BitVec n) : BitVec n :=
  if (if sg then a.slt b else a.ult b) then a else b

/-- The larger. -/
def most {n : Nat} (sg : Bool) (a b : BitVec n) : BitVec n :=
  if (if sg then a.slt b else a.ult b) then b else a

/-- The high half of the exact 2n-bit product, signed or not. -/
def highHalf {n : Nat} (sg : Bool) (a b : BitVec n) : BitVec n :=
  if sg then ((a.signExtend (2 * n) * b.signExtend (2 * n)) >>> n).setWidth n
  else ((a.setWidth (2 * n) * b.setWidth (2 * n)) >>> n).setWidth n

/-- The conditions of R297 on n-bit values. -/
def compares {n : Nat} (c : Cond) (a b : BitVec n) : Bool :=
  match c with
  | .eq => a == b
  | .ne => a != b
  | .lt => a.slt b
  | .ge => b.sle a
  | .ltu => a.ult b
  | .geu => b.ule a
  | .le => a.sle b
  | .leu => a.ule b

/-- The immediate of R293. -/
def immediate (imm : BitVec 32) (ext : Option (BitVec 32)) : Word64 :=
  match ext with
  | some e => e ++ imm
  | none => imm.signExtend 64

/-- A taken branch of the issuing syllable: the first branch of its bundle wins, and a later one takes no effect
(R268). -/
def branched (s : State) (t : Word64) : State :=
  match s.fr.branch with
  | none => s.modFr fun f => { f with branch := some (f.slot, t) }
  | some _ => s

/-- The target of a form I branch (R268). -/
def relative (s : State) (disp : BitVec 32) : Word64 := s.fr.pc + 8 * disp.signExtend 64

end Sys2Proof.Claims

open Sys2Proof Sys2Proof.Machine Sys2Proof.Claims

/-! ## Scalar instructions -/

/-- R294 and R296: every form R arithmetic instruction takes the low n bits of its sources, puts the result of the
table, extended by the signedness of its type, in flight to s[D] with the latency of R157, and does nothing else. -/
def Obligations.ScalarArithmetic : Prop :=
  ∀ (s : State) (o : SArgs), o.ty.isInt →
    let sg := o.ty.isSigned
    let n := tyBits o.ty
    let a := low o.ty (s.rdS o.a)
    let b := low o.ty (s.rdS o.b)
    let c := b.toNat % n
    let result (r : BitVec n) (lat : Nat) : Res := .next (flies s (toS o.d (wide o.ty r) lat))
    exec (.add false false o) s = result (a + b) 1
      ∧ exec (.sub o) s = result (a - b) 1
      ∧ exec (.and o) s = result (a &&& b) 1
      ∧ exec (.or o) s = result (a ||| b) 1
      ∧ exec (.xor o) s = result (a ^^^ b) 1
      ∧ exec (.andn o) s = result (a &&& ~~~b) 1
      ∧ exec (.shl o) s = result (a <<< c) 1
      ∧ exec (.shr o) s = result (a >>> c) 1
      ∧ exec (.sar o) s = result (a.sshiftRight c) 1
      ∧ exec (.rol o) s = result (a.rotateLeft c) 1
      ∧ exec (.min o) s = result (least sg a b) 1
      ∧ exec (.max o) s = result (most sg a b) 1
      ∧ exec (.mul o) s = result (a * b) 3
      ∧ exec (.mulh o) s = result (highHalf sg a b) 3

/-- R294: CLZ counts the leading zero bits within n bits, n when there is no 1; POPC counts the 1 bits. -/
def Sys2Proof.Claims.BitCounts : Prop :=
  ∀ (s : State) (d a : Reg) (ty : Ty), ty.isInt →
    let n := tyBits ty
    let x := low ty (s.rdS a)
    let result (k : Nat) : Res := .next (flies s (toS d (BitVec.ofNat 64 k) 1))
    (∃ k, k ≤ n ∧ (∀ i, i < k → x.getLsbD (n - 1 - i) = false) ∧ (k < n → x.getLsbD (n - 1 - k) = true)
        ∧ exec (.clz d a ty) s = result k)
      ∧ exec (.popc d a ty) s = result ((List.range n).countP x.getLsbD)

/-- R294: with LA = 1 ADD reads a loop counter, zero-extended; with LD = 1 it writes one, which counts as written by a
syllable of the bundle (R302). -/
def Sys2Proof.Claims.AddOnLoopCounters : Prop :=
  ∀ (s : State) (la : Bool) (o : SArgs), o.ty.isInt →
    let a : Word64 := if la then (s.rdLc o.a).setWidth 64 else s.rdS o.a
    let e := wide o.ty (low o.ty a + low o.ty (s.rdS o.b))
    exec (.add la false o) s = .next (flies s (toS o.d e 1))
      ∧ exec (.add la true o) s = .next ((flies s [(.lc o.d, (e.setWidth 32).setWidth 512, 1)]).modFr fun f =>
          { f with lcWritten := o.d :: f.lcWritten })

/-- R293, R295 and R296: the form I arithmetic instructions on 64 bits. -/
def Sys2Proof.Claims.ImmediateArithmetic : Prop :=
  ∀ (s : State) (o : IArgs) (h : ShArgs) (d : Reg) (imm : BitVec 32) (ext : Option (BitVec 32)),
    let a := s.rdS o.a
    let i := immediate o.imm o.ext
    let x := s.rdS h.a
    let result (r : Word64) (lat : Nat) : Res := .next (flies s (toS o.d r lat))
    let shifted (r : Word64) : Res := .next (flies s (toS h.d r 1))
    exec (.addi o) s = result (a + i) 1
      ∧ exec (.subi o) s = result (a - i) 1
      ∧ exec (.andi o) s = result (a &&& i) 1
      ∧ exec (.ori o) s = result (a ||| i) 1
      ∧ exec (.xori o) s = result (a ^^^ i) 1
      ∧ exec (.shli h) s = shifted (x <<< h.cnt)
      ∧ exec (.shri h) s = shifted (x >>> h.cnt)
      ∧ exec (.sari h) s = shifted (x.sshiftRight h.cnt.toNat)
      ∧ exec (.mini o) s = result (least true a i) 1
      ∧ exec (.maxi o) s = result (most true a i) 1
      ∧ exec (.muli o) s = result (a * i) 3
      ∧ exec (.movi d imm ext) s = .next (flies s (toS d (immediate imm ext) 1))

/-- R293 to R296 and R302: counts of bits, ADD on loop counters, and the form I arithmetic instructions. -/
def Obligations.ScalarCounts : Prop := Claims.BitCounts ∧ Claims.AddOnLoopCounters ∧ Claims.ImmediateArithmetic

/-- R297: a compare writes its condition to p[2K] and the complement to p[2K + 1]; with K = 0 the first write is
discarded and p1 still takes the complement. -/
def Sys2Proof.Claims.CompareWritesPair : Prop :=
  ∀ (s : State) (k : BitVec 3) (cond : Cond) (a b : Reg) (ty : Ty) (imm : BitVec 32) (ext : Option (BitVec 32)),
    ty.isInt →
    exec (.cmp k cond a b ty) s
        = .next (flies s (toPair k (compares cond (low ty (s.rdS a)) (low ty (s.rdS b)))))
      ∧ exec (.cmpi k cond a imm ext) s
        = .next (flies s (toPair k (compares cond (s.rdS a) (immediate imm ext))))

/-- R298: SEL, EXT, DEP and ADDSC on 64 bits. -/
def Sys2Proof.Claims.SelectAndFields : Prop :=
  ∀ (s : State) (d a b p : Reg) (pos w1 : BitVec 6) (sgn : Bool) (sh : BitVec 3),
    let x := s.rdS a
    let y := s.rdS b
    let w := w1.toNat + 1
    let result (r : Word64) : Res := .next (flies s (toS d r 1))
    exec (.sel d a b p) s = result (if s.rdP p then x else y)
      ∧ (pos.toNat + w ≤ 64 →
          exec (.ext d a pos w1 sgn) s = result
            (if sgn then (x.extractLsb' pos.toNat w).signExtend 64 else (x.extractLsb' pos.toNat w).setWidth 64)
          ∧ ∃ r : Word64, exec (.dep d a b pos w1) s = result r
            ∧ ∀ i, i < 64 → r.getLsbD i
              = if pos.toNat ≤ i ∧ i < pos.toNat + w then y.getLsbD (i - pos.toNat) else x.getLsbD i)
      ∧ exec (.addsc d a b sh) s = result (x + y * 2 ^ sh.toNat)

/-- R299: predicates combined, each operand negated where its N bit is 1. -/
def Sys2Proof.Claims.PredicateCombinations : Prop :=
  ∀ (s : State) (o : PArgs),
    let x := xor (s.rdP o.a) o.na
    let y := xor (s.rdP o.b) o.nb
    exec (.pand o) s = .next (flies s (toP o.d (x && y)))
      ∧ exec (.por o) s = .next (flies s (toP o.d (x || y)))
      ∧ exec (.pxor o) s = .next (flies s (toP o.d (xor x y)))

/-- R297 to R299: compares, selects and bit fields, predicate combinations. -/
def Obligations.ComparesAndPredicates : Prop := Claims.CompareWritesPair ∧ Claims.SelectAndFields ∧ Claims.PredicateCombinations

/-! ## Control -/

/-- The issuing branch has lost its bundle to an earlier one: the bundle is past its judging, and a branch of it has been
taken (R268). -/
def beaten (s : State) : Prop := s.fr.judging = false ∧ s.fr.branch ≠ none

/-- R268 and R300: a branch to an aligned target is taken, and wins unless an earlier syllable of its bundle has; a
misaligned target raises ALIGN with EADDR holding the target. A call that has lost its bundle has no effect. The model's
choices in it: log entry 31. -/
def Sys2Proof.Claims.Branches : Prop :=
  ∀ (s : State) (disp : BitVec 32) (a : Reg),
    let t := relative s disp
    let u := s.rdS a
    (t % 8 = 0 → exec (.br disp) s = .next (branched s t) ∧ exec (.brC disp) s = .next (branched s t))
      ∧ (u % 8 = 0 → exec (.jmpi a) s = .next (branched s u))
      ∧ (t % 8 ≠ 0 → ∃ d, exec (.br disp) s = .next (s.trap cALIGN t d)
          ∧ exec (.brC disp) s = .next (s.trap cALIGN t d)
          ∧ (¬ beaten s → exec (.call disp) s = .next (s.trap cALIGN t d)))
      ∧ (u % 8 ≠ 0 → ∃ d, exec (.jmpi a) s = .next (s.trap cALIGN u d)
          ∧ (¬ beaten s → exec (.calli a) s = .next (s.trap cALIGN u d)))
      ∧ (beaten s → exec (.call disp) s = .next s ∧ exec (.calli a) s = .next s)

/-- R300 and R228: a call to an aligned target pushes the next bundle address when it wins; RET pops its target. With
16 entries resident the oldest is written at its home, from which a RET with none resident reads it again; an
overflow and an underflow raise SPILL with EADDR 0. A call or a return that has lost its bundle to an earlier branch has no
effect. -/
def Obligations.ReturnStack : Prop :=
  ∀ (s : State) (disp : BitVec 32) (a : Reg),
    let c := s.ctx
    let lost := beaten s
    let calls (r : Word64 → Res) : Prop :=
      (relative s disp % 8 = 0 → exec (.call disp) s = r (relative s disp))
        ∧ (s.rdS a % 8 = 0 → exec (.calli a) s = r (s.rdS a))
    let home (i : Nat) : Word64 := c.ctrl.rsb + BitVec.ofNat 64 (0x8000 + 8 * i)
    (c.retStack.length < 16 → calls fun t => .next (if s.fr.branch.isNone then
        (branched s t).modCtx fun x => { x with retStack := s.fr.next :: x.retStack } else s))
      ∧ (16 ≤ c.retStack.length → c.spilled < 2048 → ¬ lost → ∀ tgt m pa nc s',
          s.translate (home c.spilled) .write = .ok tgt m pa nc →
          s.homeWrite (dieOf s.coreIx) tgt m pa 1024 (natToBytes 8 (c.retStack.getLastD 0).toNat) = (s', .ok) →
          calls fun t => .next (if s.fr.branch.isNone then
            branched (s'.modCtx fun x => { x with
              retStack := s.fr.next :: x.retStack.dropLast, spilled := x.spilled + 1 }) t else s))
      ∧ (16 ≤ c.retStack.length → 2048 ≤ c.spilled → ¬ lost → calls fun _ => .next (s.trap cSPILL 0 4))
      ∧ (∀ x rest, c.retStack = x :: rest → x % 8 = 0 → exec .ret s = .next (if s.fr.branch.isNone then
          branched (s.modCtx fun y => { y with retStack := rest }) x else s))
      ∧ (∀ x rest, c.retStack = x :: rest → x % 8 ≠ 0 → ¬ lost → ∃ d, exec .ret s = .next (s.trap cALIGN x d))
      ∧ (c.retStack = [] → 0 < c.spilled → ¬ lost → ∀ tgt m pa nc data,
          s.translate (home (c.spilled - 1)) .read = .ok tgt m pa nc →
          s.homeRead (dieOf s.coreIx) tgt m pa 8 1032 = (data, .ok) →
          let x : Word64 := BitVec.ofNat 64 (bytesToNat data)
          x % 8 = 0 → exec .ret s = .next (if s.fr.branch.isNone then
            branched (s.modCtx fun y => { y with spilled := y.spilled - 1 }) x else s))
      ∧ (c.retStack = [] → c.spilled = 0 → ¬ lost → exec .ret s = .next (s.trap cSPILL 0 5))
      ∧ (lost → exec .ret s = .next s ∧ exec (.call disp) s = .next s ∧ exec (.calli a) s = .next s)

/-- What starting or leaving a loop keeps of the other entries: each stays as it is, in the order in which they were
started. -/
def Sys2Proof.Claims.othersKept (d : Fin 4) (l m : Vector LoopEntry 4) : Prop :=
  ∀ i j, i ≠ d → j ≠ d →
    (m.get i).active = (l.get i).active ∧ (m.get i).start = (l.get i).start ∧ (m.get i).exit = (l.get i).exit
      ∧ ((l.get i).active = true → (l.get j).active = true → (l.get i).order ≤ (l.get j).order →
        (m.get i).order ≤ (m.get j).order)

/-- R301: LOOP with a count above 0 writes its counter and makes its entry active and the most recently started, the
other entries keeping their order behind it; with count 0 it writes 0 and leaves the loop, its entry inactive, unless a
branch of its bundle is taken. Nothing else changes. An entry holds bits 55:3 of its addresses (R303). The model's
choices in it: log entry 16. -/
def Obligations.LoopStartsOrLeaves : Prop :=
  ∀ (s : State) (d a : Reg) (len : BitVec 32),
    let cnt : Word32 := (s.rdS a).setWidth 32
    let exit := s.fr.next + 8 * len.setWidth 64
    let written (next : Option Word64) (l : Vector LoopEntry 4) : State :=
      ((flies s [(.lc d, cnt.setWidth 512, 1)]).modFr fun f =>
        { f with lcWritten := d :: f.lcWritten, goto := next }).modCtx fun c => { c with loops := l }
    (cnt ≠ 0 → ∃ l, exec (.loop d a len) s = .next (written s.fr.goto l) ∧ othersKept (ix4 d) s.ctx.loops l
        ∧ l.get (ix4 d) = ⟨true, 0, s.fr.next &&& 0x00FFFFFFFFFFFFF8, exit &&& 0x00FFFFFFFFFFFFF8⟩
        ∧ ∀ i, i ≠ ix4 d → (l.get i).active = true → 0 < (l.get i).order)
      ∧ (cnt = 0 → s.fr.anyBranch = false → ∃ l, exec (.loop d a len) s = .next (written (some exit) l)
          ∧ othersKept (ix4 d) s.ctx.loops l ∧ (l.get (ix4 d)).active = false)
      ∧ (cnt = 0 → s.fr.anyBranch = true → exec (.loop d a len) s = .next s)

/-- R125 and R307: SEQSEL takes a branch to the instance's code base plus OFFSET where entry 16 × OCC + DLEN of the
sequence cache is valid, its reserved bits are 0 and its OFFSET is aligned and below CODELEN; otherwise nothing happens. -/
def Sys2Proof.Claims.SequenceSelect : Prop :=
  ∀ s : State,
    let i := 16 * (s.ctx.ctrl.occ.extractLsb' 0 3).toNat + (s.ctx.ctrl.dlen.extractLsb' 0 4).toNat
    let e := s.ctx.seqCache.getD i 0
    let off : Word64 := (e.extractLsb' 0 32).setWidth 64
    exec .seqsel s = .next
      (if e.getLsbD 63 ∧ e.extractLsb' 32 31 = 0 ∧ off % 8 = 0 ∧ off.toNat < s.launch.info.codeLen then
        branched s (s.instBase + off) else s)

/-- R268, R300, R125 and R307: branches, and the branch of SEQSEL. -/
def Obligations.BranchesAndSequences : Prop := Claims.Branches ∧ Claims.SequenceSelect

/-! ## Control registers, identity, contexts -/

/-- R304, R269, R191 and R231: CRD puts the named register in flight to s[D]. MUPC and RPROG describe the context's
matrix command that is suspended, after a fault or since its context stopped for pre-emption, ECMD its transfer command
that is, and its text command that a fault has suspended; their discard bits read 0. -/
def Obligations.ControlRegisterReads : Prop :=
  ∀ (s : State) (d : Reg),
    let k := s.ctx.ctrl
    let c := s.fr.ctx
    let reads (i : Reg) (x : Word64) : Prop := exec (.crd d i) s = .next (flies s (toS d x 1))
    reads 0 (if s.ctx.hm ∧ s.ctx.waits.faults ≠ [] then k.status ||| 4 else k.status)
      ∧ reads 1 k.epc ∧ reads 2 k.ecause ∧ reads 3 k.eaddr ∧ reads 4 k.einfo ∧ reads 5 k.tvec ∧ reads 6 k.rsb
      ∧ reads 7 (if s.pod.lprof then 1 else 0) ∧ reads 8 k.fmtb ∧ reads 9 k.bindb ∧ reads 10 k.seqtb
      ∧ reads 11 k.occ ∧ reads 12 k.dlen ∧ reads 14 k.trcctl ∧ reads 18 s.core.counters.cycles
      ∧ ((∀ f, f ∈ s.ctx.flight → f.dest ≠ .flags) → reads 13 k.fpflags)
      ∧ (s.interrupted .matrix c = none → reads 15 0 ∧ reads 16 0)
      ∧ (∀ m, s.interrupted .matrix c = some m → ∃ x y, reads 15 x ∧ reads 16 y
          ∧ x.getLsbD 63 = false ∧ x.getLsbD 62 = true ∧ x.extractLsb' 48 8 = m.slot
          ∧ x.extractLsb' 46 2 = m.routine.pipe ∧ x.extractLsb' 0 12 = BitVec.ofNat 12 m.routine.upc
          ∧ (m.routine.ncol ≤ 256 → m.routine.wrow ≤ 128 → m.routine.drow ≤ 128 →
            y.extractLsb' 32 32 = BitVec.ofNat 32 m.routine.kdone
              ∧ y.extractLsb' 23 9 = BitVec.ofNat 9 m.routine.ncol
              ∧ y.extractLsb' 15 8 = BitVec.ofNat 8 m.routine.wrow
              ∧ y.extractLsb' 7 8 = BitVec.ofNat 8 m.routine.drow))
      ∧ ∃ x, reads 17 x ∧ x.getLsbD 63 = false ∧ x.getLsbD 62 = false
          ∧ x.getLsbD 61 = (s.interrupted .copy c).isSome ∧ x.getLsbD 60 = (s.suspended .text c).isSome
          ∧ (s.interrupted .copy c = none → x.setWidth 60 = 0)
          ∧ ∀ m, s.interrupted .copy c = some m → x.setWidth 32 = BitVec.ofNat 32 m.prog

/-- R304 with R191, R215, R219, R220, R231, R235, R248, R270 and R273: a CWR of a value that its register takes is in
flight for one cycle; another value, or a register that cannot be written, raises PERM reason 6. EADDR 0 beside that
reason is the model's choice: log entry 31. -/
def Obligations.ControlRegisterWrites : Prop :=
  ∀ (s : State) (a idx : Reg), idx ≠ 9 → idx ≠ 10 →
    let x := s.rdS a
    let takes : Prop :=
      (idx = 0 ∧ x &&& 0x00000000FFFFFFF0 = 0) ∨ ((idx = 1 ∨ idx = 5) ∧ x &&& 0xFF00000000000007 = 0)
        ∨ (idx = 8 ∧ x &&& 0xFF000000000001FF = 0) ∨ (idx = 11 ∧ x < 8) ∨ (idx = 12 ∧ x < 16)
        ∨ (idx = 13 ∧ x < 128) ∨ (idx = 14 ∧ x < 32)
        ∨ (idx = 15 ∧ x <<< 1 = 0 ∧ (x ≠ 0 → s.suspended .matrix s.fr.ctx ≠ none))
        ∨ (idx = 17 ∧ x &&& 0x0FFFFFFC00000000 = 0
          ∧ (x.getLsbD 63 → s.suspended .copy s.fr.ctx ≠ none)
          ∧ (x.getLsbD 62 → s.suspended .text s.fr.ctx ≠ none))
    (takes → exec (.cwr a idx) s = .next (flies s [(.cr idx, x.setWidth 512, 1)]))
      ∧ (¬ takes → exec (.cwr a idx) s = .next (s.trap cPERM 0 6))

/-- R124, R145 and R304: a CWR of SEQTB or BINDB reads its table, which stands in the context's sequence cache or binding
store once the CWR has landed, and freezes the core for the read; a malformed address, or a failing entry, traps and
changes nothing. The model's choices in it: log entries 14, 31 and 32, and that EADDR is 0 beside PERM reason 6, which is
of entry 31. -/
def Sys2Proof.Claims.TableWrites : Prop :=
  ∀ (s : State) (a : Reg),
    let x := s.rdS a
    let n := (x.extractLsb' 0 11).toNat
    (x >>> 56 ≠ 0 → exec (.cwrSeqtb a) s = .next (s.trap cPERM 0 6) ∧ exec (.cwrBindb a) s = .next (s.trap cPERM 0 6))
      ∧ (x >>> 56 = 0 → x % 64 ≠ 0 → exec (.cwrSeqtb a) s = .next (s.trap cALIGN x 6))
      ∧ (x >>> 56 = 0 → x % 64 = 0 → ∀ c e d, s.readTable x 64 2048 16 = .bad c e d →
          exec (.cwrSeqtb a) s = .next (s.trap c e d))
      ∧ (x >>> 56 = 0 → x % 64 = 0 → ∀ data, s.readTable x 64 2048 16 = .ok data →
          ∃ t, exec (.cwrSeqtb a) s = .next t ∧ t.core.tableRead = true
            ∧ t.ctx.flight = (flies s [(.cr 10, x.setWidth 512, 1)]).ctx.flight
            ∧ (∃ l, t.ctx.newSeq = some l
              ∧ ∀ i, i < 128 → l[i]? = some (BitVec.ofNat 64 (fieldNat data (8 * i) 8)))
            ∧ t.ctx.seqCache = s.ctx.seqCache ∧ t.hbm = s.hbm)
      ∧ (x >>> 56 = 0 → (x.getLsbD 11 ∨ 1024 < n) → exec (.cwrBindb a) s = .next (s.trap cPERM 0 6))
      ∧ (x >>> 56 = 0 → x.getLsbD 11 = false → n ≤ 1024 →
          ∀ data, s.readTable (x &&& 0x00FFFFFFFFFFF000) 32 4096 n = .ok data →
          (∀ c e d, s.checkBinds n 0 data = .bad c e d → exec (.cwrBindb a) s = .next (s.trap c e d))
            ∧ ∀ es, s.checkBinds n 0 data = .ok es → ∃ t, exec (.cwrBindb a) s = .next t
              ∧ t.core.tableRead = true ∧ t.ctx.newBind = some es ∧ es.length = n
              ∧ t.ctx.bindStore = s.ctx.bindStore
              ∧ t.ctx.flight = (flies s [(.cr 9, x.setWidth 512, 1)]).ctx.flight ∧ t.hbm = s.hbm)

/-- R191, R231 and R150: ABORT makes a suspended matrix command end with its error value; DISCT and DISCX give up the
suspended transfer and text command, which its engine then ends; where none is suspended nothing happens. -/
def Sys2Proof.Claims.Discards : Prop :=
  ∀ (s : State) (c : CtxNo),
    (∀ m, s.suspended .matrix c = some m → exec (.mupcAbort c) s = .next
        (if m.op.engine = .matrix then s.finishCmd m false
          else s.modQueue m fun q => putCmd q { m with run := .running, dying := true }))
      ∧ (∀ m, s.suspended .copy c = some m → m.op.engine = .copy →
          ∃ t, exec (.ecmdDisct c) s = .next t
            ∧ t.core.cqueue = s.core.cqueue.map fun x => if x.is m then { m with run := .running, dying := true } else x)
      ∧ (∀ m, s.suspended .text c = some m → m.op.engine = .text →
          ∃ t, exec (.ecmdDiscx c) s = .next t
            ∧ t.queueOf .text
              = (s.queueOf .text).map fun x => if x.is m then { m with run := .running, dying := true } else x)
      ∧ (s.suspended .matrix c = none → exec (.mupcAbort c) s = .next s)
      ∧ (s.suspended .copy c = none → exec (.ecmdDisct c) s = .next s)
      ∧ (s.suspended .text c = none → exec (.ecmdDiscx c) s = .next s)

/-- R304, R124, R145, R191, R231 and R150: writes of the context's tables, and discards of suspended commands. -/
def Obligations.TablesAndDiscards : Prop := Claims.TableWrites ∧ Claims.Discards

/-- The levels of a tree after level l, down to its context level. -/
def Sys2Proof.Claims.below (t : Tree) (l : Nat) (xs : List Nat) : List Nat := (xs.take (t.cl + 1)).drop (l + 1)

/-- The value of coordinates in mixed radix, most significant first. -/
def Sys2Proof.Claims.radix : List (Nat × Nat) → Nat → Nat
  | [], r => r
  | (c, f) :: rest, r => radix rest (r * f + c)

/-- R305, R306, R130: LVID gives the coordinate, rank, size or fan-out of a level from L0 to LCL and raises LEVEL for
another; PHYID gives the physical identity, or the physical window with its fields. -/
def Obligations.Identity : Prop :=
  ∀ (s : State) (d : Reg) (lv : BitVec 6),
    let t := s.tree
    let l := lv.toNat
    let co := s.ctx.bind.coords
    let named : Prop := l < 32 ∧ l < t.phys.length ∧ l ≤ t.cl
    let gives (r : Res) (x : Nat) : Prop := r = .next (flies s (toS d (BitVec.ofNat 64 x) 1))
    (named →
        gives (exec (.lvid d lv .coord) s) (if l = 0 then 0 else co.getD l 0)
        ∧ gives (exec (.lvid d lv .rank) s) (radix ((below t l co).zip (below t l t.fan)) 0)
        ∧ gives (exec (.lvid d lv .size) s) ((below t l t.fan).prod)
        ∧ gives (exec (.lvid d lv .fan) s) (t.fan.getD l 1))
      ∧ (¬ named → ∀ sel, exec (.lvid d lv sel) s = .next (s.trap cLEVEL 0 (lv.setWidth 32)))
      ∧ gives (exec (.phyid d .module) s) Config.rackPosition.val
      ∧ gives (exec (.phyid d .die) s) (s.coreIx / 112)
      ∧ gives (exec (.phyid d .ppod) s) (s.podAt (s.coreIx / 4)).phys
      ∧ gives (exec (.phyid d .lpod) s) (s.coreIx / 4 % 28)
      ∧ gives (exec (.phyid d .core) s) (s.coreIx % 4)
      ∧ gives (exec (.phyid d .ctx) s) s.fr.ctx.val
      ∧ gives (exec (.phyid d .mep) s) s.launch.mep.toNat
      ∧ ∃ w : Word64, gives (exec (.phyid d .win) s) w.toNat
        ∧ w.extractLsb' 62 2 = 2 ∧ w.extractLsb' 54 8 = s.launch.mep
        ∧ (w.extractLsb' 46 8).toNat = Config.rackPosition.val
        ∧ (w.extractLsb' 43 3).toNat = s.coreIx / 112 % 8
        ∧ (w.extractLsb' 38 5).toNat = (s.podAt (s.coreIx / 4)).phys % 32
        ∧ (w.extractLsb' 36 2).toNat = s.coreIx % 4 ∧ w.setWidth 36 = 0

/-- R308 and R109: SPAWN gives an IDLE context of the same launch its entry and its arguments, over its results in
flight, and makes it READY; it asks for line 0 of the target's registers where that is not resident. The model's
choices in it: log entry 31. -/
def Sys2Proof.Claims.Spawn : Prop :=
  ∀ (s : State) (c : CtxNo) (a b : Reg),
    let e := s.rdS a
    let x := s.ctxAt c
    let free : Prop := c ≠ s.fr.ctx ∧ x.bind.lslot = s.ctx.bind.lslot ∧ x.state = .idle
    (e % 8 = 0 → free → x.resident.getLsbD 0 = true → ∃ t, exec (.spawn c a b) s = .next t
        ∧ (t.ctxAt c).pc = e ∧ (t.ctxAt c).state = .ready ∧ (t.ctxAt c).readySince = s.core.now
        ∧ (∀ i : Fin 8, (t.ctxAt c).regs.s.get ⟨i.val + 1, by omega⟩ = s.rdS (b + BitVec.ofNat 6 i.val))
        ∧ (∀ f, f ∈ (t.ctxAt c).flight ↔ f ∈ x.flight ∧ ∀ r, f.dest = .s r → r = 0 ∨ 8 < r.toNat)
        ∧ (∀ n : Fin 64, n = 0 ∨ 8 < n.val → (t.ctxAt c).regs.s.get n = x.regs.s.get n)
        ∧ (∀ k, k ≠ c → t.ctxAt k = s.ctxAt k) ∧ t.hbm = s.hbm ∧ t.core.spad = s.core.spad ∧ t.fr = s.fr)
      ∧ (e % 8 = 0 → free → x.resident.getLsbD 0 = false → ∃ t, exec (.spawn c a b) s = .next t
          ∧ t.fr.verdict = .frozen .fill ∧ (c, 0) ∈ t.core.fills ∧ t.core.ctxs = s.core.ctxs)
      ∧ (e % 8 ≠ 0 → ∃ d, exec (.spawn c a b) s = .next (s.trap cALIGN e d))
      ∧ (e % 8 = 0 → ¬ free → exec (.spawn c a b) s = .next (s.trap cSPAWNBUSY 0
          (match x.state with
          | .free => 0 | .idle => 1 | .ready => 2 | .running => 3 | .waiting => 4 | .preempted => 5 | .halted => 6)))

/-- R110, R309, R310: YIELD, HALT and TRAP mark their bundle, which takes its whole effect first; NOP has none. -/
def Sys2Proof.Claims.BundleMarks : Prop :=
  ∀ (s : State) (code : BitVec 16),
    exec .nop s = .next s
      ∧ exec .yield s = .next (s.modFr fun f => { f with leaves := some .ready })
      ∧ exec .halt s = .next (s.modFr fun f => { f with leaves := some .idle })
      ∧ exec (.trap code) s = .next (s.modFr fun f => { f with trapAfter := some (code, f.syl) })

/-- R109, R110, R308, R309 and R310: SPAWN, and the instructions that mark their bundle. -/
def Obligations.SpawnAndMarks : Prop := Claims.Spawn ∧ Claims.BundleMarks

/-! ## Exceptions -/

/-- The boundary at which a trap is taken: the context stands in no queue's line, and control-register writes and flags
in flight are performed (R304). -/
def Sys2Proof.Claims.boundary (s : State) (c : CtxNo) : State :=
  ((s.leaveQueues s.coreIx c).landEffects c (s.ctxAt c).flight).modCtxAt c Ctx.performCtrl

/-- R222 and R223: a trap outside handler mode saves its cause, bits 55:3 of its pc (R220), its address and its information, captures the
results in flight, keeps SSTEP in bit 32 of STATUS, enters handler mode and goes to TVEC with two bubbles. Without a
handler, or in handler mode, the launch ends with FAULT and the cause; in handler mode nothing is saved. The trace shutter
sees the trap either way. -/
def Obligations.TrapEntry : Prop :=
  ∀ (s : State) (c : CtxNo) (cause : Byte) (epc eaddr info : Word64),
    let s1 := boundary s c
    let x := s1.ctxAt c
    let enters (t : State) : Prop := exec (.trapEntry c cause epc eaddr info) s = .next t
    let saved (y : Ctx) : Prop :=
      y.ctrl.ecause = cause.setWidth 64 ∧ y.ctrl.epc = epc &&& 0x00FFFFFFFFFFFFF8 ∧ y.ctrl.eaddr = eaddr ∧ y.ctrl.einfo = info
    (x.ctrl.status.getLsbD 0 = true →
        enters ((s1.shutterTrap c cause).endLaunch x.bind.lslot 9 cause))
      ∧ (x.ctrl.status.getLsbD 0 = false → x.ctrl.tvec = 0 → (s1.lslot x.bind.lslot).state = .running →
          ∃ t, enters t ∧ saved (t.ctxAt c) ∧ (t.ctxAt c).state = x.state
            ∧ (t.lslot x.bind.lslot).state = .ending ∧ (t.lslot x.bind.lslot).status = 9 ∧ (t.lslot x.bind.lslot).cause = cause)
      ∧ (x.ctrl.status.getLsbD 0 = false → x.ctrl.tvec ≠ 0 → x.mustWait = true → ∃ t, enters t
          ∧ (t.ctxAt c).ctrl.ecause = cause.setWidth 64 ∧ (t.ctxAt c).waits.hold = .pending
          ∧ (t.ctxAt c).waits.entering = some ⟨cause, epc, eaddr, info⟩ ∧ (t.ctxAt c).pc = x.pc)
      ∧ (x.ctrl.status.getLsbD 0 = false → x.ctrl.tvec ≠ 0 → x.mustWait = false → ∃ t, enters t ∧
          let y := t.ctxAt c
          saved y ∧ y.pc = x.ctrl.tvec ∧ y.bubbles = 2 ∧ y.ctrl.tvec = x.ctrl.tvec
            ∧ y.ctrl.status = ((x.ctrl.status >>> 3 &&& 1) <<< 32) ||| (x.ctrl.status &&& 6) ||| 1
            ∧ y.flight = [] ∧ y.latent.length = x.latent.length + x.flight.length
            ∧ (∀ l, l ∈ x.latent → l ∈ y.latent)
            ∧ (∀ f, f ∈ x.flight → ∃ l, l ∈ y.latent ∧ l.byTrap = true ∧ l.valid = true
                ∧ l.flight.dest = f.dest ∧ l.flight.value = f.value ∧ l.flight.rem = f.rem)
            ∧ y.regs = x.regs ∧ y.retStack = x.retStack ∧ y.loops = x.loops
            ∧ (∀ k, k ≠ c → t.ctxAt k = s1.ctxAt k) ∧ t.hbm = s1.hbm ∧ t.core.spad = s1.core.spad)

/-- R224 and R311: TRET in handler mode branches to EPC, restores SSTEP from bit 32 of STATUS, leaves handler mode,
makes the captured results due and lets suspended commands go on; it raises ILLSTATE outside handler mode and BADSTATUS
where a reserved saved bit is set, and takes no effect where an S-slot branch is taken. -/
def Obligations.TrapReturn : Prop :=
  ∀ s : State,
    let c := s.ctx
    let st := c.ctrl.status
    (st.getLsbD 0 = false → exec .tret s = .next (s.trap cILLSTATE 0 0))
      ∧ (st.getLsbD 0 = true → st >>> 33 ≠ 0 → exec .tret s = .next (s.trap cBADSTATUS 0 0))
      ∧ (st.getLsbD 0 = true → st >>> 33 = 0 → s.fr.branch ≠ none → exec .tret s = .next s)
      ∧ (st.getLsbD 0 = true → st >>> 33 = 0 → s.fr.branch = none → ∃ t, exec .tret s = .next t
          ∧ t.fr.branch = some (s.fr.slot, c.ctrl.epc)
          ∧ t.ctx.ctrl = { c.ctrl with status := (st &&& 6) ||| ((st >>> 32) <<< 3) }
          ∧ t.ctx.waits = { c.waits with replayTrap := true }
          ∧ t.ctx.regs = c.regs ∧ t.ctx.flight = c.flight ∧ t.ctx.latent = c.latent
          ∧ (∀ m, m ∈ t.core.mqueue ++ t.core.cqueue → m.ctx = s.fr.ctx → m.core = s.coreIx → m.run ≠ .suspended)
          ∧ (∀ k, k ≠ s.fr.ctx → t.ctxAt k = s.ctxAt k) ∧ t.hbm = s.hbm ∧ t.core.spad = s.core.spad)

/-! ## Waiting and shared synchronisation state -/

/-- R354: WAITC is held while its counter is below s[B] and its hold has not lasted s[C] cycles; otherwise it writes the
count to s[D]. -/
def Sys2Proof.Claims.WaitForCounter : Prop :=
  ∀ (s : State) (d t b c : Reg),
    let n := s.core.tcnt.get (ix64 t)
    let below : Prop := n < (s.rdS b).setWidth 32
    let ranOut : Prop := s.rdS c ≠ 0 ∧ s.ctx.waits.heldC = true ∧ (s.rdS c).toNat ≤ s.ctx.waits.cycles
    (¬ below ∨ ranOut → exec (.waitc d t b c) s = .next (flies s (toS d (n.setWidth 64) 1)))
      ∧ (below → ¬ ranOut →
          exec (.waitc d t b c) s = .next (s.modFr fun f => { f with verdict := .held .waitc }))

/-- R355 and R356: an arrival returns the open generation and counts one; the last of SIZE(LV) arrivals closes the
generation and starts the count again. A barrier of another launch without arrivals is taken over with generation 0.
The model's choices in it: log entry 77. -/
def Sys2Proof.Claims.BarrierArrivals : Prop :=
  ∀ (s : State) (d : Reg) (lv : BitVec 6) (n : BitVec 7), s.tree.levelOk lv false = true →
    let size := s.tree.size lv.toNat
    let slot := s.ctx.bind.lslot
    let b := s.core.barriers.get ⟨n.toNat, n.isLt⟩
    let node := s.tree.node s.ctx.bind.coords lv.toNat
    let u := s.upperAt slot lv.toNat node n.toNat
    let after (g : BitVec 16) (k : Nat) : BitVec 16 × Nat := if k + 1 = size then (g + 1, 0) else (g, k + 1)
    let returns (t : State) (g : BitVec 16) : Prop :=
      t.ctx.flight = (flies s (toS d (g.setWidth 64) 1)).ctx.flight
    let g := if b.lslot = slot then b.gen else 0
    (s.tree.physAt lv.toNat = 3 → (b.lslot = slot ∨ b.count = 0) → ∃ t, exec (.bara d lv n) s = .next t ∧ returns t g
        ∧ t.core.barriers.get ⟨n.toNat, n.isLt⟩ = ⟨slot, (after g b.count).1, (after g b.count).2⟩
        ∧ (∀ i, i.val ≠ n.toNat → t.core.barriers.get i = s.core.barriers.get i)
        ∧ t.upper = s.upper ∧ t.fr = s.fr ∧ t.hbm = s.hbm)
      ∧ (s.tree.physAt lv.toNat = 3 → b.lslot ≠ slot → b.count ≠ 0 →
          exec (.bara d lv n) s = .next (s.modFr fun f => { f with verdict := .held .barrier }))
      ∧ (s.tree.physAt lv.toNat ≠ 3 → ∃ t, exec (.bara d lv n) s = .next t ∧ returns t u.gen
          ∧ t.upperAt slot lv.toNat node n.toNat
            = { u with gen := (after u.gen u.count).1, count := (after u.gen u.count).2 }
          ∧ (6 < s.tree.physAt lv.toNat → 1 < s.tree.modules →
            .control (.arrive s.launch.info.group lv.toNat node n) ∈ t.fabric.out)
          ∧ t.core.barriers = s.core.barriers ∧ t.fr = s.fr ∧ t.hbm = s.hbm)

/-- R355: BARW is held until the generation in s[A] is complete, G having passed it by at most 32,767. BAR arrives once,
at its first presentation, waits for the generation it returned, and then writes it and clears the record. -/
def Sys2Proof.Claims.BarrierWaits : Prop :=
  ∀ (s : State) (d a : Reg) (lv : BitVec 6) (n : BitVec 7),
    let passed (u : State) (g : BitVec 16) : Prop :=
      0 < (u.barrierGen lv.toNat n - g).toNat ∧ (u.barrierGen lv.toNat n - g).toNat ≤ 32767
    let holds (u : State) : State := u.modFr fun f => { f with verdict := .held .barrier }
    let x : BitVec 16 := (s.rdS a).setWidth 16
    let s1 := s.barArrive lv.toNat n
    (s.tree.levelOk lv false = false → ∀ i, i = .bara d lv n ∨ i = .barw a lv n ∨ i = .bar d lv n →
        exec i s = .next (s.trap cLEVEL 0 (lv.setWidth 32)))
      ∧ (s.tree.levelOk lv false = true →
        (passed s x → exec (.barw a lv n) s = .next s)
        ∧ (¬ passed s x → exec (.barw a lv n) s = .next (holds s))
        ∧ (∀ g, s1.ctx.waits.bar = some (s.fr.pc, g) → passed s1 g → ∃ t, exec (.bar d lv n) s = .next t
            ∧ t.ctx.waits.bar = none ∧ t.fr = s1.fr ∧ t.core.barriers = s1.core.barriers ∧ t.upper = s1.upper
            ∧ t.ctx.flight = (flies s1 (toS d (g.setWidth 64) 1)).ctx.flight)
        ∧ (∀ g, s1.ctx.waits.bar = some (s.fr.pc, g) → ¬ passed s1 g → exec (.bar d lv n) s = .next (holds s1))
        ∧ (∀ g, s.ctx.waits.bar = some (s.fr.pc, g) → s1 = s)
        ∧ ((∀ g, s.ctx.waits.bar ≠ some (s.fr.pc, g)) → s.barrierTaken lv.toNat n = false →
            ∃ g, s1.ctx.waits.bar = some (s.fr.pc, g) ∧ s1.core.barriers = (s.arrive lv.toNat n).2.core.barriers
              ∧ s1.upper = (s.arrive lv.toNat n).2.upper))

/-- R355, R356, R96 and R97: arrivals at a barrier and waits for it. The model's choices in it: log entry 77. -/
def Obligations.Barriers : Prop := Claims.BarrierArrivals ∧ Claims.BarrierWaits

/-- R119 to R122 and R357: QPUT puts its message on chip while nothing is spilled and fewer than eight messages are
there, and otherwise at the tail of the spill ring, charged to its context; it waits while it may not enter, and
raises QUOTA with the reason when its hold has lasted TMO cycles. The model's choices in it: log entries 30 and 98. -/
def Obligations.QueuePut : Prop :=
  ∀ (s : State) (a b : Reg),
    let q := (s.rdS a).toNat
    let h := s.hqueue q
    let at_ := s.rdS b
    let m : QMsg := ⟨s.spadBytes at_.toNat h.bytes, s.ctx.bind.coords, s.ctx.bind.lslot, 0⟩
    let clear : Prop := s.queueCauses (s.rdS a) at_ true = none
      ∧ s.sbConflict (s.spadAccess false [at_] h.bytes) = false
    (clear → s.queueBlocked h = none → h.spilled = [] → h.onchip.length < 8 → ∃ t, exec (.qput a b) s = .next t
        ∧ t.hqueue q = { h with onchip := h.onchip ++ [m], putn := h.putn + 1 }
        ∧ (∀ k, k ≠ q → t.hqueue k = s.hqueue k) ∧ t.core = s.core ∧ t.hbm = s.hbm ∧ t.fr = s.fr)
      ∧ (clear → s.queueBlocked h = none → (h.spilled ≠ [] ∨ 8 ≤ h.onchip.length) → ∃ t, exec (.qput a b) s = .next t
        ∧ t.hqueue q = { h with spilled := h.spilled ++ [m], putn := h.putn + 1 }
        ∧ t.ctx.waits.quota = s.ctx.waits.quota + h.bytes ∧ t.fr = s.fr
        ∧ let pa := h.slotAddr h.spilled.length
          ∀ x, x < pa ∨ pa + h.bytes ≤ x → memRead t.hbm x = memRead s.hbm x)
      ∧ (∀ c e d, s.queueCauses (s.rdS a) at_ true = some (c, e, d) → exec (.qput a b) s = .next (s.trap c e d))
      ∧ (∀ why, clear → s.queueBlocked h = some why →
        let tmo := (h.tmo.extractLsb' 0 32).toNat
        if tmo ≠ 0 ∧ s.ctx.waits.heldC = true ∧ tmo ≤ s.ctx.waits.cycles then
          exec (.qput a b) s = .next (s.trap cQUOTA 0 (BitVec.ofNat 32 why))
        else exec (.qput a b) s = .next (s.modFr fun f => { f with verdict := .held .qput }))

/-- R120, R121 and R357: QGET takes the oldest message when it is its turn, writes it to the scratchpad after the
bundle's loads, makes p[D] true and moves the ring head on chip; on an empty queue, and before its turn, it stands in line
and waits, and when its hold has lasted TMO cycles it makes p[D] false and takes nothing. A message with an uncorrectable
error is not taken and raises DATAERR. The model's choices in it: log entries 30, 98 and 102. -/
def Obligations.QueueGet : Prop :=
  ∀ (s : State) (d a b : Reg),
    let q := (s.rdS a).toNat
    let h := s.hqueue q
    let at_ := s.rdS b
    let tmo := (h.tmo.extractLsb' 0 32).toNat
    let ranOut : Prop := tmo ≠ 0 ∧ s.ctx.waits.heldC = true ∧ tmo ≤ s.ctx.waits.cycles
    let clear : Prop := s.queueCauses (s.rdS a) at_ false = none
      ∧ s.sbConflict (s.spadAccess true [at_] h.bytes) = false
    let me := (s.coreIx, s.fr.ctx)
    let myTurn : Prop := h.getters = [] ∨ h.getters.head? = some me
    let mustWait : Prop := h.onchip = [] ∨ ¬ myTurn
    (∀ m rest, clear → h.onchip = m :: rest → myTurn → m.bad = 0 → h.spilled = [] →
        ∃ t, exec (.qget d a b) s = .next t ∧ (t.hqueue q).onchip = rest ∧ (t.hqueue q).getn = h.getn + 1
          ∧ me ∉ (t.hqueue q).getters ∧ t.fr.verdict = s.fr.verdict
          ∧ t.ctx.flight = (flies s (toP d true)).ctx.flight ∧ t.hbm = s.hbm
          ∧ t.fr.deferred = s.fr.deferred ++ (s.spadPieces at_ m.data).map fun p => .spad p.1 p.2.1 p.2.2)
      ∧ (∀ (data : List Byte) core off, data.length ≤ 0xC0000 - at_.toNat % 0xC0000 →
          s.spadTarget at_ = .ok (core, off) → s.spadPieces at_ data = [(core, off, data)])
      ∧ (∀ m rest, clear → h.onchip = m :: rest → myTurn → m.bad ≠ 0 →
          exec (.qget d a b) s = .next (s.trap cDATAERR 0 0))
      ∧ (∀ m rest x more, clear → h.onchip = m :: rest → myTurn → m.bad = 0 →
          h.onchip.length ≤ 8 → h.spilled = x :: more →
          ∃ t y, exec (.qget d a b) s = .next t ∧ (t.hqueue q).onchip = rest ++ [y] ∧ (t.hqueue q).spilled = more
            ∧ y.coords = x.coords ∧ y.lslot = x.lslot ∧ (t.hqueue q).head = (h.head + 1) % h.ringSize
            ∧ (h.slotAddr 0 + h.bytes ≤ hbmSize → y.data = readBytes s.hbm (h.slotAddr 0) h.bytes
              ∧ ∀ i, i < 16 → y.bad.getLsbD i = (decide (8 * i < h.bytes) && s.hbmBad (h.slotAddr 0 + 8 * i) 8))
            ∧ (hbmSize < h.slotAddr 0 + h.bytes → y = x))
      ∧ (clear → mustWait → ¬ ranOut → ∃ t, exec (.qget d a b) s = .next t ∧ t.fr.verdict = .held .qget
          ∧ me ∈ (t.hqueue q).getters ∧ (t.hqueue q).onchip = h.onchip ∧ t.core = s.core)
      ∧ (clear → mustWait → ranOut → ∃ t, exec (.qget d a b) s = .next t ∧ me ∉ (t.hqueue q).getters
          ∧ (t.hqueue q).getn = h.getn ∧ t.ctx.flight = (flies s (toP d false)).ctx.flight
          ∧ t.fr.deferred = s.fr.deferred ∧ t.hbm = s.hbm)
      ∧ (∀ c e dt, s.queueCauses (s.rdS a) at_ false = some (c, e, dt) → exec (.qget d a b) s = .next (s.trap c e dt))

/-! ## Vector instructions -/

/-- A lane-wise result in flight: a group with an active lane lands its active lanes after the latency and one cycle for
each stage before it in its chain (R158, R262, R314). -/
def Sys2Proof.Claims.vectorResults (s : State) (h : VHdr) (d : Reg) (v : Vector Word32 128) (lat : Nat) :
    List (Dest × BitVec 512 × Nat) :=
  allGroups.filterMap fun g =>
    let m := (s.activeLanes h.gm h.q).extractLsb' (16 * g.val) 16
    if m = 0 then none else some (.v d g m, groupValue v g.val, lat + s.stageAt h g.val)

/-- A lane-predicate result in flight; a write to q0 is discarded (R156). -/
def Sys2Proof.Claims.maskResults (s : State) (h : VHdr) (d : Reg) (x : BitVec 128) (lat : Nat) :
    List (Dest × BitVec 512 × Nat) :=
  allGroups.filterMap fun g =>
    let m := (s.activeLanes h.gm h.q).extractLsb' (16 * g.val) 16
    if m = 0 ∨ d = 0 then none
    else some (.q d g m, (x.extractLsb' (16 * g.val) 16).setWidth 512, lat + s.stageAt h g.val)

/-- Flags in flight, when there are any (R249). -/
def Sys2Proof.Claims.flagResults (s : State) (h : VHdr) (fl : BitVec 7) (lat : Nat) : List (Dest × BitVec 512 × Nat) :=
  if fl = 0 then [] else [(.flags, fl.setWidth 512, lat + s.stage h)]

/-- The lanes of the destination after a lane-wise operation: an inactive lane keeps its value (R262). -/
def Sys2Proof.Claims.merged (s : State) (h : VHdr) (d : Reg) (out : Nat → Word32) : Vector Word32 128 :=
  lanes fun p => if (s.activeLanes h.gm h.q).getLsbD p then out p else lane (s.rdV d) p

/-- What a lane-wise operation does: its lanes and flags go into flight, and the chain holds its lanes. -/
def Sys2Proof.Claims.laneWise (s : State) (h : VHdr) (d : Reg) (lat : Nat) (out : Nat → Word32) (fl : BitVec 7) : State :=
  (flies s (vectorResults s h d (merged s h d out) lat ++ flagResults s h fl lat)).modFr fun f =>
    { f with chain := f.chain ++ [⟨f.slot, h.gm, s.stage h, merged s h d out⟩] }

/-- The flags of the active lanes together. -/
def Sys2Proof.Claims.activeFlags (s : State) (h : VHdr) (fl : Nat → BitVec 7) : BitVec 7 :=
  ((List.range 128).filter (s.activeLanes h.gm h.q).getLsbD).foldl (fun w p => w ||| fl p) 0

/-- Element i, of n bits, of operand b at a lane: with BS = 1 the scalar's low bits everywhere (R314). -/
def Sys2Proof.Claims.elementB (s : State) (b : Reg) (bs : Bool) (n p i : Nat) : BitVec n :=
  if bs then (s.rdS b).setWidth n else (lane (s.rdVE n b) p).extractLsb' (n * i) n

/-- A word of operand b at a lane. -/
def Sys2Proof.Claims.wordB (s : State) (b : Reg) (bs : Bool) (p : Nat) : Word32 :=
  if bs then (s.rdS b).setWidth 32 else lane (s.rdV b) p

/-- R316: the integer operations act element by element on the active lanes; VADDS and VSUBS saturate the exact result to
the range of the type and set SATN where they do. When each group of a chained syllable and its flags land is the model's
choice: log entry 12. -/
def Obligations.VectorIntegers : Prop :=
  ∀ (s : State) (o : VArgs), o.ty.isInt → tyBits o.ty ≤ 32 →
    let n := tyBits o.ty
    let sg := o.ty.isSigned
    let a (p i : Nat) : BitVec n := (lane (s.opA o.h o.a n) p).extractLsb' (n * i) n
    let b (p i : Nat) : BitVec n := elementB s o.b o.bs n p i
    let gives (r : Res) (f : BitVec n → BitVec n → BitVec n) : Prop :=
      ∃ out : Nat → Word32, r = .next (laneWise s o.h o.d 2 out 0)
        ∧ ∀ p i, p < 128 → n * (i + 1) ≤ 32 → (out p).extractLsb' (n * i) n = f (a p i) (b p i)
    let value (x : BitVec n) : Int := if sg then x.toInt else x.toNat
    let lo : Int := if sg then -(2 ^ (n - 1)) else 0
    let hi : Int := if sg then 2 ^ (n - 1) - 1 else 2 ^ n - 1
    let saturates (r : Res) (f : Int → Int → Int) : Prop :=
      ∃ (out : Nat → Word32) (fl : BitVec 7), r = .next (laneWise s o.h o.d 2 out fl)
        ∧ (∀ p i, p < 128 → n * (i + 1) ≤ 32 →
          value ((out p).extractLsb' (n * i) n) = max lo (min hi (f (value (a p i)) (value (b p i)))))
        ∧ (fl = 0x40 ∨ fl = 0)
        ∧ (fl = 0x40 ↔ ∃ p i, p < 128 ∧ (s.activeLanes o.h.gm o.h.q).getLsbD p = true ∧ n * (i + 1) ≤ 32
            ∧ (f (value (a p i)) (value (b p i)) < lo ∨ hi < f (value (a p i)) (value (b p i))))
    gives (exec (.vadd o) s) (· + ·) ∧ gives (exec (.vsub o) s) (· - ·) ∧ gives (exec (.vmul o) s) (· * ·)
      ∧ gives (exec (.vmulh o) s) (highHalf sg)
      ∧ gives (exec (.vshl o) s) (fun x y => x <<< (y.toNat % n))
      ∧ gives (exec (.vshr o) s) (fun x y => x >>> (y.toNat % n))
      ∧ gives (exec (.vsar o) s) (fun x y => x.sshiftRight (y.toNat % n))
      ∧ gives (exec (.vmin o) s) (least sg) ∧ gives (exec (.vmax o) s) (most sg)
      ∧ saturates (exec (.vadds o) s) (· + ·) ∧ saturates (exec (.vsubs o) s) (· - ·)

/-- R317, R322, R324 and R325: bitwise operations, selects, moves, permutes within a group, counts of lane predicates and
copies of groups, lane by lane. When each group of a chained syllable lands is the model's choice: log entry 12. -/
def Obligations.VectorMoves : Prop :=
  ∀ (s : State) (o : VBitArgs) (qc : BitVec 3) (h : VHdr) (d a b : Reg) (bs all fix : Bool) (ln : BitVec 4)
      (g : BitVec 3) (imm : BitVec 32),
    let x := lane (s.opA o.h o.a)
    let y := wordB s o.b o.bs
    let q := s.rdQ (qc.setWidth 6)
    let ones (g : Nat) : Nat := (List.range 16).countP fun l => q.getLsbD (16 * g + l)
    let gives (r : Res) (out : Nat → Word32) : Prop := r = .next (laneWise s o.h o.d 2 out 0)
    let moves (r : Res) (lat : Nat) (out : Nat → Word32) : Prop := r = .next (laneWise s h d lat out 0)
    gives (exec (.vand o) s) (fun p => x p &&& y p)
      ∧ gives (exec (.vor o) s) (fun p => x p ||| y p)
      ∧ gives (exec (.vxor o) s) (fun p => x p ^^^ y p)
      ∧ gives (exec (.vandn o) s) (fun p => x p &&& ~~~ y p)
      ∧ gives (exec (.vsel o qc) s) (fun p => if q.getLsbD p then x p else y p)
      ∧ gives (exec (.vperm o) s) (fun p => x (p / 16 * 16 + ((y p).setWidth 4).toNat))
      ∧ moves (exec (.vmov h d b bs) s) 2 (wordB s b bs)
      ∧ moves (exec (.vmovi h d imm) s) 2 (fun _ => imm)
      ∧ moves (exec (.vbcast h d a ln) s) 2 (fun p => lane (s.opA h a) (p / 16 * 16 + ln.toNat))
      ∧ moves (exec (.vqcnt h d all qc) s) 2 (fun p => BitVec.ofNat 32
          (if all then (((List.range 8).filter h.gm.getLsbD).map ones).sum else ones (p / 16)))
      ∧ moves (exec (.gxfer h d a fix g) s) 3 (fun p =>
          lane (s.rdV a) (16 * (if fix then g.toNat else (p / 16 + g.toNat) % 8) + p % 16))

/-! ## Numbers: rounding, sums, products, conversions and special functions over the rationals -/

/-- 2^k. -/
def Sys2Proof.Claims.twoTo (k : Int) : Rat := mkRat (pow2 k) (pow2 (-k))

/-- The number of a finite code, from its sign, exponent and mantissa fields (R237). -/
def Sys2Proof.Claims.codeNumber (f : FFmt) (b : Nat) : Rat :=
  let e := f.mag b / 2 ^ f.man
  let m := f.mag b % 2 ^ f.man
  let x := if e = 0 then m * twoTo (f.emin - f.man) else ((2 ^ f.man + m : Nat) : Rat) * twoTo (e - f.bias - f.man)
  if f.neg b then -x else x

/-- A code of the format that is neither a NaN nor an infinity. -/
def Sys2Proof.Claims.finite (f : FFmt) (b : Nat) : Prop := b < 2 ^ f.width ∧ f.mag b ≤ f.maxCode

/-- R242 and R243: whether the multiple k × q next to x toward zero gives way to (k + 1) × q; `frac` is (x − k q) ÷ q. -/
def Sys2Proof.Claims.awayFromZero (rm : Rm) (rnd : Word32) (neg : Bool) (k : Nat) (frac : Rat) : Prop :=
  match rm with
  | .rne => 1 < 2 * frac ∨ (2 * frac = 1 ∧ k % 2 = 1)
  | .rtz => False
  | .rup => neg = false ∧ frac ≠ 0
  | .rdn => neg = true ∧ frac ≠ 0
  | .sr => mkRat (rnd.toNat / 256) (2 ^ 24) < frac

/-- R242: the number of magnitude y = n × q, rounded from the magnitude x, as a code and flags: beyond Max an infinity or
Max, with OVF, INX and, in a format without infinities, SATN; else the code of y, with INX where y is not x and UNF where
x lies below the smallest normal as well. -/
def Sys2Proof.Claims.codedAs (f : FFmt) (rm : Rm) (neg : Bool) (x y : Rat) (r : Nat × BitVec 7) : Prop :=
  let away : Bool := match rm with
    | .rne | .sr => true
    | .rtz => false
    | .rup => !neg
    | .rdn => neg
  (codeNumber f f.maxCode < y →
      r = (f.signed neg (if away then f.infCode.getD f.maxCode else f.maxCode),
        fOVF ||| fINX ||| (if f.infCode = none then fSATN else 0)))
    ∧ (y ≤ codeNumber f f.maxCode → finite f r.1 ∧ f.neg r.1 = neg ∧ codeNumber f r.1 = (if neg then -y else y)
      ∧ r.2 = (if y = x then 0 else if x < twoTo f.emin then fINX ||| fUNF else fINX))

/-- R242: Round of a number of sign `neg` and magnitude x > 0, with l = floor(log2 x) and the quantum q. -/
def Sys2Proof.Claims.roundsTo (f : FFmt) (rm : Rm) (rnd : Word32) (neg : Bool) (x : Rat) (r : Nat × BitVec 7) : Prop :=
  ∃ (l : Int) (k : Nat),
    let q := twoTo (max l f.emin - f.man)
    let frac := x / q - k
    twoTo l ≤ x ∧ x < twoTo (l + 1) ∧ 0 ≤ frac ∧ frac < 1
      ∧ (awayFromZero rm rnd neg k frac → codedAs f rm neg x ((k + 1 : Nat) * q) r)
      ∧ (¬ awayFromZero rm rnd neg k frac → codedAs f rm neg x (k * q) r)

/-- R241 and R242: Round of a number, of either sign or zero, a zero keeping its sign; of a NaN; of an infinity; and each
finite code is the rounding of its own value, without a flag. -/
def Sys2Proof.Claims.Rounding : Prop :=
  ∀ (f : FFmt) (rm : Rm) (rnd : Word32) (neg : Bool) (m d b : Nat) (e : Int),
    (0 < m → 0 < d → roundsTo f rm rnd neg (mkRat m d * twoTo e) (round f rm rnd (.num neg m d e)))
      ∧ round f rm rnd (.num neg 0 d e) = (f.signed neg 0, 0)
      ∧ round f rm rnd .nan = (f.nan, 0)
      ∧ (∀ c, f.infCode = some c → round f rm rnd (.inf neg) = (f.signed neg c, 0))
      ∧ (f.infCode = none → round f rm rnd (.inf neg) = (f.signed neg f.maxCode, fOVF ||| fSATN))
      ∧ (finite f b → round f rm rnd (f.val b) = (b, 0))

/-- The formats in which elements are added and multiplied (R244, R318). -/
def Sys2Proof.Claims.arithmetic (f : FFmt) : Prop := f = .f32 ∨ f = .bf16 ∨ f = .f16

/-- R244: a subnormal of BF16 or FP16 is flushed. -/
def Sys2Proof.Claims.flushed (f : FFmt) (b : Nat) : Bool :=
  (f == .bf16 || f == .f16) && 0 < f.mag b && f.mag b < 2 ^ f.man

/-- R244: an operand as an operation takes it. -/
def Sys2Proof.Claims.taken (f : FFmt) (b : Nat) : Nat := if flushed f b then f.signed (f.neg b) 0 else b

/-- R241 and R244: the flags the operands set by themselves. -/
def Sys2Proof.Claims.operandFlags (f : FFmt) (bs : List Nat) : BitVec 7 :=
  (if bs.any (flushed f) then fFLUSH else 0) ||| (if bs.any f.isSNaN then fINV else 0)

/-- R242 and R244: a result that is the nonzero number x rounded once and then flushed, with the operands' flags. -/
def Sys2Proof.Claims.delivers (f : FFmt) (rm : Rm) (rnd : Word32) (x : Rat) (fl : BitVec 7) (r : Nat × BitVec 7) : Prop :=
  ∃ y : Nat × BitVec 7, roundsTo f rm rnd (decide (x < 0)) x.abs y
    ∧ r = if flushed f y.1 then (f.signed (f.neg y.1) 0, y.2 ||| fFLUSH ||| fUNF ||| fINX ||| fl) else (y.1, y.2 ||| fl)

/-- R241, R242, R244 and R318: a sum or difference, a product and a fused multiply-add of finite operands are the exact
number rounded once; an exact zero takes its sign by R241; a NaN operand gives the canonical NaN, and INV where one is
signalling; ∞ − ∞ and 0 × ∞ give it with INV; and an infinity otherwise gives that infinity. -/
def Sys2Proof.Claims.ElementArithmetic : Prop :=
  ∀ (f : FFmt) (rm : Rm) (rnd : Word32) (a b c : Nat) (sub np nc : Bool), arithmetic f →
    a < 2 ^ f.width → b < 2 ^ f.width → c < 2 ^ f.width →
    let v (x : Nat) : Rat := codeNumber f (taken f x)
    let minus (n : Bool) (x : Rat) : Rat := if n then -x else x
    let inf (x : Nat) : Prop := some (f.mag x) = f.infCode
    let two := operandFlags f [a, b]
    let three := operandFlags f [a, b, c]
    let sum := fadd f sub rm rnd a b
    let product := fmul f rm rnd a b
    let fused := ffma f np nc rm rnd a b c
    let zero (neg : Bool) : Nat := f.signed neg 0
    (finite f a → finite f b →
        (v a + minus sub (v b) ≠ 0 → delivers f rm rnd (v a + minus sub (v b)) two sum)
        ∧ (v a + minus sub (v b) = 0 →
          sum = (zero ((v a == 0 && f.neg a && (f.neg b != sub)) || rm == .rdn), two))
        ∧ (v a * v b ≠ 0 → delivers f rm rnd (v a * v b) two product)
        ∧ (v a * v b = 0 → product = (zero (f.neg a != f.neg b), two)))
      ∧ (finite f a → finite f b → finite f c →
        let x := minus np (v a * v b) + minus nc (v c)
        (x ≠ 0 → delivers f rm rnd x three fused)
        ∧ (x = 0 → fused = (zero ((v c == 0 && (((f.neg a != f.neg b) != np) && (f.neg c != nc))) || rm == .rdn), three)))
      ∧ (f.isNaN a ∨ f.isNaN b → sum = (f.nan, two) ∧ product = (f.nan, two) ∧ fused = (f.nan, three))
      ∧ (f.isNaN c → (fused.1, fused.2 &&& ~~~ fINV) = (f.nan, three &&& ~~~ fINV))
      ∧ (inf a → inf b → f.neg a ≠ (f.neg b != sub) → sum = (f.nan, two ||| fINV))
      ∧ (inf a → inf b → f.neg a = (f.neg b != sub) → sum = (a, two))
      ∧ (inf a → finite f b → sum = (a, two))
      ∧ (finite f a → inf b → sum = (f.signed (f.neg b != sub) (f.infCode.getD 0), two))
      ∧ (finite f a → finite f b → inf c → fused = (f.signed (f.neg c != nc) (f.infCode.getD 0), three))
      ∧ (inf a → finite f b → v b = 0 → product = (f.nan, two ||| fINV))
      ∧ (inf a → inf b ∨ (finite f b ∧ v b ≠ 0) →
        product = (f.signed (f.neg a != f.neg b) (f.infCode.getD 0), two))

/-- R250: MIN and MAX by number, and by number with NaN passed on, of operands flushed by R244; −0 is below +0, so codes
compare as signed magnitudes. -/
def Sys2Proof.Claims.MinAndMax : Prop :=
  ∀ (f : FFmt) (max : Bool) (a b : Nat), arithmetic f → a < 2 ^ f.width → b < 2 ^ f.width →
    let key (x : Nat) : Int := if f.neg x then -1 - f.mag x else f.mag x
    let ta := taken f a
    let tb := taken f b
    let best := if (key ta < key tb) = (max = false) then ta else tb
    let fl := operandFlags f [a, b]
    let signals := f.isSNaN a || f.isSNaN b
    minMaxNum f max a b = (if signals || (f.isNaN a && f.isNaN b) then f.nan else if f.isNaN a then tb
        else if f.isNaN b then ta else best, fl)
      ∧ minMaxP f max a b = (if f.isNaN a || f.isNaN b then f.nan else best, fl)

/-- R318, R319 and R241 to R250: the floating-point operations round each element of an active lane once, in the format
and rounding of the syllable, and set the flags of the active lanes; VFABS and VFNEG change sign bits only. The landing
of a chained group: log entry 12. -/
def Sys2Proof.Claims.FloatSyllables : Prop :=
  ∀ (s : State) (o : VFArgs) (m : VArgs) (u : VUnArgs),
    let a (p i : Nat) : Nat := elem o.ty (lane (s.opA o.h o.a (elemStride o.ty)) p) i
    let b := s.elemB o.ty o.b o.bs
    let c (p i : Nat) : Nat := elem o.ty (lane (s.rdVE (elemStride o.ty) o.c) p) i
    let rnd := s.rnd o.key
    let fm := vfmt o.ty
    let rounds (r : Res) (lat : Nat) (f : Nat → Nat → Nat × BitVec 7) : Prop :=
      r = .next (laneWise s o.h o.d lat (fun p => (mapElemsF o.ty (f p)).1)
        (activeFlags s o.h fun p => (mapElemsF o.ty (f p)).2))
    let compares (r : Res) (f : Nat → Nat → Nat × BitVec 7) : Prop :=
      r = .next (laneWise s m.h m.d 3
        (fun p => (mapElemsF m.ty fun i =>
          f (elem m.ty (lane (s.opA m.h m.a (elemStride m.ty)) p) i) (s.elemB m.ty m.b m.bs p i)).1)
        (activeFlags s m.h fun p => (mapElemsF m.ty fun i =>
          f (elem m.ty (lane (s.opA m.h m.a (elemStride m.ty)) p) i) (s.elemB m.ty m.b m.bs p i)).2))
    let n := elemBits u.ty
    let w := elemStride u.ty
    let signs (r : Res) (f : Bool → Bool) : Prop :=
      ∃ out : Nat → Word32, r = .next (laneWise s u.h u.d 3 out 0)
        ∧ ∀ p i k, p < 128 → i < 32 / w → k < n →
          let old := (lane (s.opA u.h u.a w) p).getLsbD (w * i + k)
          (out p).getLsbD (w * i + k) = if k = n - 1 then f old else old
    rounds (exec (.vfadd o) s) 3 (fun p i => fadd fm false o.rm (rnd p i) (a p i) (b p i))
      ∧ rounds (exec (.vfsub o) s) 3 (fun p i => fadd fm true o.rm (rnd p i) (a p i) (b p i))
      ∧ rounds (exec (.vfmul o) s) 3 (fun p i => fmul fm o.rm (rnd p i) (a p i) (b p i))
      ∧ rounds (exec (.vfma o) s) 4 (fun p i => ffma fm false false o.rm (rnd p i) (a p i) (b p i) (c p i))
      ∧ rounds (exec (.vfms o) s) 4 (fun p i => ffma fm false true o.rm (rnd p i) (a p i) (b p i) (c p i))
      ∧ rounds (exec (.vfnma o) s) 4 (fun p i => ffma fm true false o.rm (rnd p i) (a p i) (b p i) (c p i))
      ∧ compares (exec (.vfmin m) s) (minMaxNum (vfmt m.ty) false)
      ∧ compares (exec (.vfmax m) s) (minMaxNum (vfmt m.ty) true)
      ∧ compares (exec (.vfminp m) s) (minMaxP (vfmt m.ty) false)
      ∧ compares (exec (.vfmaxp m) s) (minMaxP (vfmt m.ty) true)
      ∧ signs (exec (.vfabs u) s) (fun _ => false) ∧ signs (exec (.vfneg u) s) (fun x => !x)

/-- R241 to R250, R318 and R319: the floating-point syllables, with their element operations, as numbers: rounding,
sums, products, fused sums, minima and maxima. -/
def Obligations.VectorFloats : Prop :=
  Claims.FloatSyllables ∧ Claims.Rounding ∧ Claims.ElementArithmetic ∧ Claims.MinAndMax

/-- R320 and R328: a vector compare writes its condition to q[2K] and the complement to q[2K + 1] in the active lanes,
and the lane-predicate operations write the active lanes; a write to q0 is discarded. -/
def Sys2Proof.Claims.LanePredicates : Prop :=
  ∀ (s : State) (o : VCmpArgs Cond) (f : VCmpArgs FCond) (q : QArgs),
    let pair (h : VHdr) (k : BitVec 2) (m : BitVec 128) (fl : BitVec 7) : State :=
      flies s (maskResults s h (0#3 ++ k ++ 0#1) m 2 ++ maskResults s h (0#3 ++ k ++ 1#1) (~~~ m) 2
        ++ flagResults s h fl 2)
    let signals (x : Word32) : Bool := FFmt.isSNaN .f32 x.toNat
    let fa := lane (s.opA f.h f.a)
    let fb := wordB s f.b f.bs
    let fact (p : Nat) : Bool := (s.activeLanes f.h.gm f.h.q).getLsbD p
    (∃ m : BitVec 128, exec (.vcmp o) s = .next (pair o.h o.k m 0)
        ∧ ∀ p, p < 128 → m.getLsbD p = ((s.activeLanes o.h.gm o.h.q).getLsbD p
          && compares o.cond (lane (s.opA o.h o.a) p) (wordB s o.b o.bs p)))
      ∧ (∃ (m : BitVec 128) (fl : BitVec 7), exec (.vfcmp f) s = .next (pair f.h f.k m fl)
        ∧ (∀ p, p < 128 → m.getLsbD p = (fact p && fcondHolds f.cond (fa p).toNat (fb p).toNat))
        ∧ ((∃ p, p < 128 ∧ fact p = true ∧ (signals (fa p) || signals (fb p)) = true) → fl = 0x01)
        ∧ ((∀ p, p < 128 → fact p = true → (signals (fa p) || signals (fb p)) = false) → fl = 0))
      ∧ exec (.qand q) s = .next (flies s (maskResults s q.h q.d (s.rdQ q.a &&& s.rdQ q.b) 2))
      ∧ exec (.qor q) s = .next (flies s (maskResults s q.h q.d (s.rdQ q.a ||| s.rdQ q.b) 2))
      ∧ exec (.qxor q) s = .next (flies s (maskResults s q.h q.d (s.rdQ q.a ^^^ s.rdQ q.b) 2))
      ∧ exec (.qandn q) s = .next (flies s (maskResults s q.h q.d (s.rdQ q.a &&& ~~~ s.rdQ q.b) 2))

/-- The fold of a list from its first value on, with the flags of its steps; the identity where there is none (R323). -/
def Sys2Proof.Claims.foldFrom (op : Fold) (ty : Ty) : List Nat → Nat × BitVec 7
  | [] => (foldIdentity op ty, 0)
  | x :: xs => xs.foldl (fun r y => ((foldStep op ty r.1 y).1, r.2 ||| (foldStep op ty r.1 y).2)) (x, 0)

/-- R323: VRED gives each active lane the fold of its group's active lanes, in ascending order; VSCAN gives it the fold of
those up to itself, or of those before it with EXCL = 1, the lowest then taking the identity. -/
def Sys2Proof.Claims.VectorFolds : Prop :=
  ∀ (s : State) (o : VFoldArgs),
    let act (p : Nat) : Bool := (s.activeLanes o.h.gm o.h.q).getLsbD p
    let upTo (g n : Nat) : List Nat :=
      (((List.range n).map (16 * g + ·)).filter act).map fun p => (lane (s.opA o.h o.a) p).toNat
    let flags (f : Nat → List Nat) : BitVec 7 := (List.range 8).foldl (fun w g => w ||| (foldFrom o.op o.ty (f g)).2) 0
    exec (.vred o) s = .next (laneWise s o.h o.d 2
        (fun p => BitVec.ofNat 32 (foldFrom o.op o.ty (upTo (p / 16) 16)).1) (flags fun g => upTo g 16))
      ∧ (o.excl = false → exec (.vscan o) s = .next (laneWise s o.h o.d 2
        (fun p => BitVec.ofNat 32 (foldFrom o.op o.ty (upTo (p / 16) (p % 16 + 1))).1) (flags fun g => upTo g 16)))
      ∧ (o.excl = true → exec (.vscan o) s = .next (laneWise s o.h o.d 2
        (fun p => BitVec.ofNat 32 (foldFrom o.op o.ty (upTo (p / 16) (p % 16))).1)
        (flags fun g => (upTo g 16).dropLast)))

/-- R320, R323 and R328: lane predicates and folds. When each group of a chained syllable and its flags land is the
model's choice: log entry 12. -/
def Obligations.PredicatesAndFolds : Prop := Claims.LanePredicates ∧ Claims.VectorFolds

/-- R245, R246 and R247: a conversion of a finite number rounds it once, and R246's and R247's cases; an integer
conversion clamps to the range of its destination. -/
def Sys2Proof.Claims.Conversions : Prop :=
  ∀ (f g : FFmt) (rm : Rm) (rnd : Word32) (b n dn v : Nat) (sg dsg : Bool), b < 2 ^ f.width → 0 < n → 0 < dn → v < 2 ^ n →
    let x := codeNumber f b
    let toFloat := convFF f g rm rnd b
    let toInt := convFI f sg n rm rnd b
    let low (sg : Bool) (n : Nat) : Int := if sg then -(2 ^ (n - 1) : Nat) else 0
    let high (sg : Bool) (n : Nat) : Int := if sg then (2 ^ (n - 1) : Nat) - 1 else (2 ^ n : Nat) - 1
    let bits (n : Nat) (y : Int) : Nat := (BitVec.ofInt n y).toNat
    let old : Int := if sg then (BitVec.ofNat n v).toInt else v
    (f.isNaN b → toFloat = (g.nan, if f.isSNaN b || g.nan == 0 then fINV else 0) ∧ toInt = (0, fINV))
      ∧ (some (f.mag b) = f.infCode → toInt = (bits n (if f.neg b then low sg n else high sg n), fINV ||| fSATN)
        ∧ (∀ c, g.infCode = some c → toFloat = (g.signed (f.neg b) c, 0))
        ∧ (g.infCode = none → toFloat = (g.signed (f.neg b) g.maxCode, fOVF ||| fSATN)))
      ∧ (finite f b → x = 0 → toFloat = (g.signed (f.neg b) 0, 0) ∧ toInt = (0, 0))
      ∧ (finite f b → x ≠ 0 → roundsTo g rm rnd (f.neg b) x.abs toFloat
        ∧ ∃ k y : Nat, 0 ≤ x.abs - k ∧ x.abs - k < 1
          ∧ (awayFromZero rm rnd (f.neg b) k (x.abs - k) → y = k + 1)
          ∧ (¬ awayFromZero rm rnd (f.neg b) k (x.abs - k) → y = k)
          ∧ let z : Int := if f.neg b then -y else y
            toInt = if z < low sg n then (bits n (low sg n), fINV ||| fSATN)
              else if high sg n < z then (bits n (high sg n), fINV ||| fSATN)
              else (bits n z, if x.abs = y then 0 else fINX))
      ∧ (old = 0 → convIF sg n g rm rnd v = (0, 0))
      ∧ (old ≠ 0 → roundsTo g rm rnd (decide (old < 0)) old.natAbs (convIF sg n g rm rnd v))
      ∧ convII sg n dsg dn v = (if old < low dsg dn then (bits dn (low dsg dn), fSATN)
        else if high dsg dn < old then (bits dn (high dsg dn), fSATN) else (bits dn old, 0))

/-- R251 and R326: a lane of a dot product of finite elements is the exact sum of the products and the accumulator,
rounded once to FP32; R255: the words of Philox at key 0 and counter 0. -/
def Sys2Proof.Claims.DotProducts : Prop :=
  ∀ (f : FFmt) (rm : Rm) (rnd : Word32) (xs ys : List Nat) (c : Nat), xs.length = ys.length →
    (∀ x ∈ xs, finite f x) → (∀ y ∈ ys, finite f y) → finite .f32 c →
    let t := ((xs.zip ys).map fun p => codeNumber f p.1 * codeNumber f p.2).sum + codeNumber .f32 c
    let minusZero (p : Nat × Nat) : Bool := codeNumber f p.1 * codeNumber f p.2 == 0 && (f.neg p.1 != f.neg p.2)
    let d := dotLane f rm rnd xs ys c
    (t ≠ 0 → roundsTo .f32 rm rnd (decide (t < 0)) t.abs d)
      ∧ (t = 0 → d = (FFmt.f32.signed (((xs.zip ys).all minusZero && c == 0x80000000) || rm == .rdn) 0, 0))
      ∧ ([0, 1, 2, 3].map (philox 0 0 0 0 0)) = [0x6627E8D5#32, 0xE169C58D#32, 0xBC57AC4C#32, 0x9B00DBD8#32]

/-- R254: RCP of a finite nonzero number lies within one ulp of its reciprocal, INX set where it is not that, UNF where
it is subnormal, and overflows where R242 does; and the special cases of every function. -/
def Sys2Proof.Claims.SpecialFunctions : Prop :=
  ∀ (b : Nat) (k : Int), b < 2 ^ 32 →
    let x := codeNumber .f32 b
    let n := FFmt.f32.neg b
    let signed (n : Bool) (c : Nat) : Nat := FFmt.f32.signed n c
    let one := 0x3F800000
    let inf := 0x7F800000
    let nan := 0x7FC00000
    let number := finite .f32 b
    (FFmt.f32.isNaN b → ∀ fn, specialFn fn b = (nan, if FFmt.f32.isSNaN b then fINV else 0))
      ∧ (number → x ≠ 0 → twoTo 128 - twoTo 103 ≤ 1 / x.abs → specialFn .rcp b = (signed n inf, fOVF ||| fINX))
      ∧ (number → x ≠ 0 → 1 / x.abs < twoTo 128 - twoTo 103 → ∃ (r : Nat) (l : Int),
        finite .f32 r ∧ twoTo l ≤ 1 / x.abs ∧ 1 / x.abs < twoTo (l + 1)
          ∧ (codeNumber .f32 r - 1 / x).abs ≤ twoTo (max l (-126) - 23)
          ∧ specialFn .rcp b = (r, (if codeNumber .f32 r = 1 / x then 0 else fINX)
            ||| (if FFmt.f32.isSub r then fUNF else 0)))
      ∧ (number → x < 0 → specialFn .rsq b = (nan, fINV) ∧ specialFn .sqrt b = (nan, fINV)
        ∧ specialFn .log2 b = (nan, fINV))
      ∧ (number → 128 ≤ x → specialFn .exp2 b = (inf, fOVF ||| fINX))
      ∧ (number → x < -150 → specialFn .exp2 b = (0, fUNF ||| fINX))
      ∧ (number → x = k → x ≠ 0 → -149 ≤ k → k ≤ 127 → ∃ r, finite .f32 r ∧ codeNumber .f32 r = twoTo k
        ∧ specialFn .exp2 b = (r, if k < -126 then fUNF else 0))
      ∧ (number → x = twoTo k → ∃ r, finite .f32 r ∧ codeNumber .f32 r = k ∧ (k = 0 → r = 0) ∧ specialFn .log2 b = (r, 0))
      ∧ (number → x = k → specialFn .sinpi b = (0, 0)
        ∧ specialFn .cospi b = (if k % 2 = 0 then one else signed true one, 0))
      ∧ (number → 2 * x = 2 * k + 1 → specialFn .cospi b = (0, 0))
      ∧ (number → 91 ≤ 10 * x.abs → specialFn .tanh b = (signed n one, fINX))
      ∧ (number → x = 0 → specialFn .rcp b = (signed n inf, fDZE) ∧ specialFn .rsq b = (signed n inf, fDZE)
        ∧ specialFn .sqrt b = (signed n 0, 0) ∧ specialFn .exp2 b = (one, 0) ∧ specialFn .log2 b = (signed true inf, fDZE)
        ∧ specialFn .tanh b = (signed n 0, 0) ∧ specialFn .sigm b = (0x3F000000, 0))
      ∧ (FFmt.f32.mag b = inf → specialFn .rcp b = (signed n 0, 0)
        ∧ specialFn .rsq b = (if n then (nan, fINV) else (0, 0))
        ∧ specialFn .sqrt b = (if n then (nan, fINV) else (inf, 0))
        ∧ specialFn .exp2 b = (if n then 0 else inf, 0)
        ∧ specialFn .log2 b = (if n then (nan, fINV) else (inf, 0))
        ∧ specialFn .sinpi b = (nan, fINV) ∧ specialFn .cospi b = (nan, fINV)
        ∧ specialFn .tanh b = (signed n one, 0) ∧ specialFn .sigm b = (if n then 0 else one, 0))

/-- R321, R326, R327, R329 and R254: conversions, dot products, random words and special functions of the active
lanes, each with its latency. An integer dot product is exact modulo 2^32. The model's choices in it: log entries 9 to
12 and 89. -/
def Sys2Proof.Claims.ConversionSyllables : Prop :=
  ∀ (s : State) (c : VCvtArgs) (o : VFArgs) (r : VRngArgs) (f : FArgs),
    let lanes1 (h : VHdr) (d : Reg) (lat : Nat) (out : Nat → Word32 × BitVec 7) : Res :=
      .next (laneWise s h d lat (fun p => (out p).1) (activeFlags s h fun p => (out p).2))
    let special (fn : SpFn) : Res := lanes1 f.h f.d 8 fun p =>
      let y := specialFn fn (lane (s.opA f.h f.a) p).toNat
      (BitVec.ofNat 32 y.1, y.2)
    let n := elemCount o.ty
    let a (p i : Nat) : Nat := elem o.ty (lane (s.opA o.h o.a (elemStride o.ty)) p) i
    let b := s.elemB o.ty o.b o.bs
    let z (p : Nat) : Word32 := lane (s.rdV o.c) p
    let dots (i : Instr) : Prop :=
      (∀ fm, ffmt o.ty = some fm → exec i s = lanes1 o.h o.d 4 fun p =>
        let y := dotLane fm o.rm (s.rnd o.key p 0) ((List.range n).map (a p)) ((List.range n).map (b p)) (z p).toNat
        (BitVec.ofNat 32 y.1, y.2))
      ∧ (o.ty = .i8 → exec i s = lanes1 o.h o.d 4 fun p =>
        (z p + ((List.range n).map fun k =>
          (BitVec.ofNat 8 (a p k)).signExtend 32 * (BitVec.ofNat 8 (b p k)).signExtend 32).sum, 0))
    exec (.vcvt c) s = lanes1 c.h c.d 3 (fun p =>
        cvtLane c (s.rnd c.key p) (lane (s.opA c.h c.a (elemStride c.sty)) p)
          (lane (s.rdVE (elemStride c.ty) c.d) p))
      ∧ dots (.vdot2 o) ∧ dots (.vdot4 o) ∧ dots (.vdot8 o)
      ∧ exec (.vrng r) s = lanes1 r.h r.d 4 (fun p =>
        let stream := s.rdS (r.k + 1)
        let w := philox (s.rdS r.k) (BitVec.ofNat 32 p) (lane (s.opA r.h r.a) p) (stream.setWidth 32)
          (stream.extractLsb' 32 32) r.word.toNat
        (if r.unit then BitVec.ofNat 32 (roundNE .f32 (.num false (w.toNat / 256) 1 (-24))) else w, 0))
      ∧ exec (.rcp f) s = special .rcp ∧ exec (.rsq f) s = special .rsq ∧ exec (.sqrt f) s = special .sqrt
      ∧ exec (.exp2 f) s = special .exp2 ∧ exec (.log2 f) s = special .log2 ∧ exec (.sinpi f) s = special .sinpi
      ∧ exec (.cospi f) s = special .cospi ∧ exec (.tanh f) s = special .tanh ∧ exec (.sigm f) s = special .sigm

/-- R245 to R247, R251, R254, R255, R321, R326, R327 and R329: the syllables, and what their element operations
give as numbers. The model's choices in it: log entries 9 to 12 and 89. -/
def Obligations.VectorConversionsAndFunctions : Prop :=
  Claims.ConversionSyllables ∧ Claims.Conversions ∧ Claims.DotProducts ∧ Claims.SpecialFunctions

/-! ## Index instructions -/

/-- Element j of a view of an index register (R330). -/
def Sys2Proof.Claims.element (n : Nat) (x : BitVec 256) (j : Nat) : BitVec n := x.extractLsb' (n * j) n

/-- R332 and R333: the element operations of an index register on views of E elements of n bits, and XTOQ. -/
def Sys2Proof.Claims.IndexElements : Prop :=
  ∀ (s : State) (d a b : Reg) (idx : BitVec 4) (hi excl : Bool) (cond : Cond) (ty : Ty), ty = .n16 ∨ ty = .n32 →
    let n := if ty = .n16 then 16 else 32
    let E := 256 / n
    let x := s.rdX a
    let writes (r : Res) (f : Nat → BitVec n) : Prop :=
      ∃ y : BitVec 256, r = .next (flies s [(.x d, y.setWidth 512, 2)]) ∧ ∀ j, j < E → element n y j = f j
    let scalar (r : Res) (y : Word64) : Prop := r = .next (flies s (toS d y 2))
    (idx.toNat < E → writes (exec (.xins d a idx ty) s)
        (fun j => if j = idx.toNat then (s.rdS a).setWidth n else element n (s.rdX d) j))
      ∧ (idx.toNat < E → scalar (exec (.xget d a idx ty) s) ((element n x idx.toNat).setWidth 64))
      ∧ writes (exec (.xsplat d a ty) s) (fun _ => (s.rdS a).setWidth n)
      ∧ writes (exec (.xadds d a b ty) s) (fun j => element n x j + (s.rdS b).setWidth n)
      ∧ writes (exec (.xscan d a excl ty) s)
          (fun j => ((List.range (if excl then j else j + 1)).map (element n x)).sum)
      ∧ (∃ m : Word64, scalar (exec (.xcmp d a b cond ty) s) m
          ∧ ∀ j, j < 64 → m.getLsbD j
            = (decide (j < E) && compares cond (element n x j) ((s.rdS b).setWidth n)))
      ∧ exec (.xtoq d a hi) s = .next (flies s (if d = 0 then [] else allGroups.map fun g =>
          (.q d g 0xFFFF, (element 16 x (g.val + if hi then 8 else 0)).setWidth 512, 2)))

/-- R334, R335 and R336: the window instructions of index registers. -/
def Sys2Proof.Claims.IndexWindows : Prop :=
  ∀ (s : State) (d a b : Reg) (sh : BitVec 3) (half : Bool) (ty : Ty) (o : XArgs),
    (ty = .n16 ∨ ty = .n32) → (o.ty = .n16 ∨ o.ty = .n32) →
    let n := if ty = .n16 then 16 else 32
    let E := 256 / n
    let x := s.rdX a
    let y := s.rdX b
    let m := least false (element n x (E - 1)) (element n y (E - 1))
    let k := if o.ty = .n16 then 16 else 32
    (∃ r : Word64, exec (.xcad d a b ty) s = .next (flies s (toS d r 2))
        ∧ (r.extractLsb' 0 8).toNat = (List.range E).countP (fun i => element n x i ≤ m)
        ∧ (r.extractLsb' 8 8).toNat = (List.range E).countP (fun j => element n y j ≤ m)
        ∧ ∀ i, i < 48 → (r.getLsbD (16 + i) = true
          ↔ i < E ∧ element n x i ≤ m ∧ ∃ j, j < E ∧ element n y j = element n x i))
      ∧ exec (.xpopc d a b) s = .next (flies s (toS d
          (BitVec.ofNat 64 ((List.range (min (s.rdS b).toNat 256)).countP x.getLsbD)) 2))
      ∧ (∃ r : BitVec 256, exec (.xexp d a b sh half) s = .next (flies s [(.x d, r.setWidth 512, 2)])
        ∧ ∀ i, i < 8 → element 32 r i = (s.rdS b).setWidth 32
          + ((element 16 x ((if half then 8 else 0) + i)).setWidth 32) * 2 ^ sh.toNat)
      ∧ exec (.xmps o) s = .next (flies s (toS o.d (BitVec.ofNat 64 ((List.range (256 / k)).countP fun j =>
          (element k (s.rdX o.a) j).toNat + ((s.rdS o.b).setWidth 32).toNat + j < ((s.rdS o.c).setWidth 32).toNat)) 2))

/-- R330 to R336: the instructions of index registers. -/
def Obligations.IndexRegisters : Prop := Claims.IndexElements ∧ Claims.IndexWindows

/-! ## Memory -/

/-- The value of little-endian bytes (R3). -/
def Sys2Proof.Claims.littleEndian : List Byte → Nat
  | [] => 0
  | b :: bs => b.toNat + 256 * littleEndian bs

/-- Whether one of the 128-byte lines of HBM that some bytes touch holds an uncorrectable error (R23). -/
def Sys2Proof.Claims.linesBad (s : State) (pa n : Nat) : Bool := s.hbmBad (pa / 128 * 128) ((pa % 128 + n + 127) / 128 * 128)

/-- The byte at an address after some writes in order, each an address and its bytes: that of the last one that reaches it,
the old one where none does (R267, R341). -/
def Sys2Proof.Claims.lastByte (ws : List (Nat × List Byte)) (old : Byte) (x : Nat) : Byte :=
  ws.foldl (fun b w => if w.1 ≤ x ∧ x < w.1 + w.2.length then w.2.getD (x - w.1) 0 else b) old

/-- What a load keeps: memories, the context's registers and control registers, the other contexts, the verdict. -/
def Sys2Proof.Claims.keepsAllBut (s t : State) : Prop :=
  t.hbm = s.hbm ∧ t.core.spad = s.core.spad ∧ t.core.tile = s.core.tile ∧ t.others = s.others ∧ t.dieBuf = s.dieBuf
    ∧ t.ctx.regs = s.ctx.regs ∧ t.ctx.ctrl = s.ctx.ctrl ∧ t.fr.verdict = s.fr.verdict
    ∧ ∀ k, k ≠ s.fr.ctx → t.ctxAt k = s.ctxAt k

/-- The results of a scratchpad load go into flight with the profile's load latency, or, under the interlocked
compatibility mode, are pending (R157, R163, R167). -/
def Sys2Proof.Claims.loads (s t : State) (rs : List (Dest × BitVec 512)) : Prop :=
  if s.launch.info.profile = s.pod.lprof then
    t.ctx.flight = s.ctx.flight ++ rs.map fun r =>
      ⟨r.1, r.2, if s.pod.lprof then 6 else 4, s.ctx.seq, s.fr.slot, s.fr.pc⟩
  else t.ctx.flight = s.ctx.flight
    ∧ (rs ≠ [] → ∃ q, t.ctx.pend = s.ctx.pend ++ [q] ∧ q.parts = rs ∧ q.long = false ∧ q.left = 0)

/-- The bytes at an address of the scratchpad space as a 64-bit value, extended by the type (R340). -/
def Sys2Proof.Claims.extended (ty : Ty) (w : Nat) (bs : List Byte) : Word64 :=
  let v : BitVec (8 * w) := BitVec.ofNat (8 * w) (littleEndian bs)
  if ty.isSigned then v.signExtend 64 else v.setWidth 64

/-- R340 and R128: LD reads the bytes of its address in the context's scratchpad space, extends them by its type, and
changes nothing else; ST writes the low bytes of s[D] after the bundle's loads. In the near profile the space is the core's
own 768 KiB; an address outside it raises PERM reason 3, a misaligned one ALIGN. -/
def Obligations.LocalScalarAccess : Prop :=
  ∀ (s : State) (o : MArgs), s.fr.judging = false →
    let w := scalarWidth o.ty
    let a := s.ea o.m w
    let near : Prop := s.launch.info.profile = false
    let inside : Prop := a.toNat + w ≤ 0xC0000
    let both (r : Res) : Prop := exec (.ld o) s = r ∧ exec (.st o) s = r
    (near → inside → a.toNat % w = 0 → s.core.badWords = [] → ∃ t, exec (.ld o) s = .next t ∧ keepsAllBut s t
        ∧ t.fr.deferred = s.fr.deferred
        ∧ loads s t (if o.d = 0 then [] else
            [(.s o.d, (extended o.ty w (readBytes s.core.spad a.toNat w)).setWidth 512)]))
      ∧ (near → inside → a.toNat % w = 0 → s.core.badWords = [] → ∃ t, exec (.st o) s = .next t ∧ keepsAllBut s t
        ∧ t.ctx.flight = s.ctx.flight
        ∧ ∃ bs, t.fr.deferred = s.fr.deferred ++ [.spad s.coreIx a.toNat bs] ∧ bs.length = w
          ∧ littleEndian bs = (s.rdS o.d).toNat % 2 ^ (8 * w))
      ∧ (near → 0xC0000 ≤ a.toNat → both (.next (s.trap cPERM a 3)))
      ∧ (near → inside → a.toNat % w ≠ 0 → ∃ d, both (.next (s.trap cALIGN a d)))
      ∧ (∀ core off, s.spadCauses [a] w none true = none → s.spadTarget a = .ok (core, off) → ∃ t u,
          exec (.ld o) s = .next t ∧ keepsAllBut s t
            ∧ loads s t (if o.d = 0 then [] else [(.s o.d, (extended o.ty w (s.spadBytes a.toNat w)).setWidth 512)])
            ∧ exec (.st o) s = .next u ∧ keepsAllBut s u
            ∧ u.fr.deferred = s.fr.deferred ++ [.spad core off (natToBytes w (s.rdS o.d).toNat)])

/-- The lanes that a vector load brings, group by group; no other lane is written. -/
def Sys2Proof.Claims.lanesLoaded (d : Reg) (act : BitVec 128) (val : Nat → Word32) : List (Dest × BitVec 512) :=
  allGroups.filterMap fun g =>
    let m := act.extractLsb' (16 * g.val) 16
    if m = 0 then none
    else some (.v d g m, groupValue (lanes fun p => if act.getLsbD p then val p else 0) g.val)

/-- R340 and R342: VLD and VGATH bring the bytes at each active lane's address, an 8-byte lane to a pair of registers,
and VLDB four 6-bit elements from three bytes, each in a byte of its own. Where no lane has a cause they change nothing
else; otherwise the first cause is raised. -/
def Obligations.LocalVectorLoads : Prop :=
  ∀ (s : State) (o : VMArgs), s.fr.judging = false →
    let act := s.activeLanes o.gm o.q
    let w := laneWidth o.ty
    let addr (unit stride p : Nat) : Word64 := s.laneAddr (s.ea o.m unit) o.ofs stride p
    let active := (List.range 128).filter act.getLsbD
    let read (n : Nat) (a : Word64) : Nat := littleEndian (s.spadBytes a.toNat n)
    let second (val : Nat → Word32) : List (Dest × BitVec 512) := match o.ofs with
      | .pair b => lanesLoaded b act val
      | _ => []
    let lane0 (p : Nat) : Word32 := if w = 8 then BitVec.ofNat 32 (read 8 (addr w w p))
      else (extended o.ty w (s.spadBytes (addr w w p).toNat w)).setWidth 32
    let sixes (n : Nat) : Word32 :=
      (BitVec.ofNat 8 (n / 2 ^ 18 % 64)) ++ (BitVec.ofNat 8 (n / 2 ^ 12 % 64)) ++ (BitVec.ofNat 8 (n / 2 ^ 6 % 64))
        ++ (BitVec.ofNat 8 (n % 64))
    (s.spadCauses (active.map (addr w w)) w none true = none → ∀ i, i = .vld o ∨ i = .vgath o →
        ∃ t, exec i s = .next t ∧ keepsAllBut s t ∧ t.fr.deferred = s.fr.deferred
          ∧ loads s t (lanesLoaded o.d act lane0 ++ second fun p => BitVec.ofNat 32 (read w (addr w w p) / 2 ^ 32)))
      ∧ (s.spadCauses (active.map (addr 4 3)) 3 (some (s.ea o.m 4)) true = none → (∀ b, o.ofs ≠ .pair b) →
        ∃ t, exec (.vldb o) s = .next t ∧ keepsAllBut s t ∧ t.fr.deferred = s.fr.deferred
          ∧ loads s t (lanesLoaded o.d act fun p => sixes (read 3 (addr 4 3 p))))
      ∧ (∀ c e d, s.spadCauses (active.map (addr w w)) w none true = some (c, e, d) →
          ∀ i, i = .vld o ∨ i = .vgath o → exec i s = .next (s.trap c e d))
      ∧ (∀ c e d, s.spadCauses (active.map (addr 4 3)) 3 (some (s.ea o.m 4)) true = some (c, e, d) →
          exec (.vldb o) s = .next (s.trap c e d))

/-- R340, R341 and R342: VST, VSCAT and VST.pk6 put one write for each active lane after the bundle's loads, in lane
order, at that lane's place in the scratchpad space; nothing else changes. A packed lane that runs on into the next
core's part of the space is cut there (R128). -/
def Obligations.LocalVectorStores : Prop :=
  ∀ (s : State) (o : VMArgs), s.fr.judging = false →
    let act := s.activeLanes o.gm o.q
    let w := laneWidth o.ty
    let addr (unit stride p : Nat) : Word64 := s.laneAddr (s.ea o.m unit) o.ofs stride p
    let active := (List.range 128).filter act.getLsbD
    let x (p : Nat) : Nat := (lane (s.rdV o.d) p).toNat
    let data (p : Nat) : Nat := match o.ofs with
      | .pair b => x p + 2 ^ 32 * (lane (s.rdV b) p).toNat
      | _ => x p
    let packed (p : Nat) : Nat :=
      data p % 64 + 2 ^ 6 * (data p / 2 ^ 8 % 64) + 2 ^ 12 * (data p / 2 ^ 16 % 64) + 2 ^ 18 * (data p / 2 ^ 24 % 64)
    let stores (t : State) (n : Nat) (at_ : Nat → Word64) (val : Nat → Nat) : Prop :=
      t.fr.deferred = s.fr.deferred ++ active.filterMap fun p => match s.spadTarget (at_ p) with
        | .ok (core, off) => some (.spad core off (natToBytes n (val p)))
        | .bad _ _ _ => none
    let pieces (t : State) (n : Nat) (at_ : Nat → Word64) (val : Nat → Nat) : Prop :=
      t.fr.deferred = s.fr.deferred ++ active.flatMap fun p =>
        (s.spadPieces (at_ p) (natToBytes n (val p))).map fun x => .spad x.1 x.2.1 x.2.2
    (s.spadCauses (active.map (addr w w)) w none (decide (w < 4)) = none → ∀ i, i = .vst o ∨ i = .vscat o →
        ∃ t, exec i s = .next t ∧ keepsAllBut s t ∧ t.ctx.flight = s.ctx.flight ∧ stores t w (addr w w) data)
      ∧ (s.spadCauses (active.map (addr 4 3)) 3 (some (s.ea o.m 4)) true = none →
        ∃ t, exec (.vstPk6 o) s = .next t ∧ keepsAllBut s t ∧ t.ctx.flight = s.ctx.flight
          ∧ pieces t 3 (addr 4 3) packed)

/-- R164, R267, R341 and R346: the writes that a bundle deferred change exactly their bytes: a scratchpad write those of
its core, and a store to local memory that its context need not hold back those of its physical address, where no
uncorrectable error stands; all other bytes, and every other core's scratchpad, read as before. They are performed in
their order, M0 before M1 and lane by lane: where two reach one byte, the later stands. That a store is performed when
its bundle commits is the model's choice: log entry 23. -/
def Obligations.CommitChangesItsBytes : Prop :=
  ∀ s : State, Safety.stateOk s = true →
    ((∀ d, d ∈ s.fr.deferred → (∃ core off data, d = .spad core off data)
        ∨ ∃ n va m pa data, d = .access n (.store va 0 m pa false data) ∧ pa + data.length ≤ hbmSize
          ∧ linesBad s pa data.length = false
          ∧ s.mustFollow s.coreIx s.fr.ctx n (.store va 0 m pa false data) = false) →
      let spads (core : Nat) : List (Nat × List Byte) := s.fr.deferred.filterMap fun d => match d with
        | .spad k off data => if k = core then some (off, data) else none
        | .access _ _ => none
      let stores : List (Nat × List Byte) := s.fr.deferred.filterMap fun d => match d with
        | .access _ (.store _ _ _ pa _ data) => some (pa, data)
        | _ => none
      ∃ t, s.commit = t ∧ t.fr.deferred = [] ∧ t.dieBuf = s.dieBuf
        ∧ (∀ core x, memRead (t.coreAt core).spad x = lastByte (spads core) (memRead (s.coreAt core).spad x) x)
        ∧ ∀ x, memRead t.hbm x = lastByte stores (memRead s.hbm x) x)
      ∧ (∀ core off data, s.fr.deferred = [.spad core off data] → ∃ t, s.commit = t
        ∧ (∀ i, i < data.length → memRead (t.coreAt core).spad (off + i) = data.getD i 0)
        ∧ (∀ x, x < off ∨ off + data.length ≤ x → memRead (t.coreAt core).spad x = memRead (s.coreAt core).spad x)
        ∧ (∀ k, k ≠ core → (t.coreAt k).spad = (s.coreAt k).spad) ∧ t.hbm = s.hbm ∧ t.fr.deferred = [])
      ∧ (∀ n va m pa data, s.fr.deferred = [.access n (.store va 0 m pa false data)] →
        s.mustFollow s.coreIx s.fr.ctx n (.store va 0 m pa false data) = false → linesBad s pa data.length = false →
        pa + data.length ≤ hbmSize → ∃ t, s.commit = t
          ∧ (∀ i, i < data.length → memRead t.hbm (pa + i) = data.getD i 0)
          ∧ (∀ x, x < pa ∨ pa + data.length ≤ x → memRead t.hbm x = memRead s.hbm x)
          ∧ (∀ k, (t.coreAt k).spad = (s.coreAt k).spad) ∧ t.dieBuf = s.dieBuf ∧ t.fr.deferred = [])

/-- R344 and R131: where every lane of a PST passes the checks of its peer address and is aligned, one peer write for
each lane follows the bundle's loads, to the core it names or to another module; nothing else changes. The model's
choices in it: log entry 29. -/
def Obligations.PeerStores : Prop :=
  ∀ (s : State) (o : PstArgs),
    let w := if o.vec then laneWidth o.ty else scalarWidth o.ty
    let a := s.rdS o.m.a
    let base : Int := a.toNat % 2 ^ 20
    let disp : Int := match o.m.ext with
      | none => o.m.disp.toInt * w
      | some e => e.toInt
    let ls : List (Int × Nat) := if o.vec then
        ((List.range 128).filter (s.activeLanes o.gm o.q).getLsbD).map fun p : Nat =>
          (disp + (w * p : Nat), (lane (s.rdV o.d) p).toNat)
      else [(disp, (s.rdS o.d).toNat)]
    (∀ l, l ∈ ls → (base + l.1) % w = 0 ∧ (∃ x, s.peerTarget a (base + l.1) = .ok x)
      ∧ ∃ x, s.peerTarget a (base + l.1 + (w - 1 : Nat)) = .ok x) →
    ∃ t, exec (.pst o) s = .next t ∧ keepsAllBut s t ∧ t.ctx.flight = s.ctx.flight
      ∧ t.fr.deferred.length = s.fr.deferred.length + ls.length
      ∧ ∀ (i : Nat) (d : Int) (v : Nat), ls[i]? = some (d, v) →
        let at_ : Word64 := a + BitVec.ofInt 64 d
        (∀ n, s.peerTarget a (base + d) = .ok (.here n) → t.fr.deferred[s.fr.deferred.length + i]?
            = some (.access (s.fabric.next + i)
              (.peer Config.rackPosition.val n (base + d).toNat at_ (natToBytes w v))))
        ∧ (∀ m, s.peerTarget a (base + d) = .ok (.there m) → t.fr.deferred[s.fr.deferred.length + i]?
            = some (.access (s.fabric.next + i) (.peer m 0 (base + d).toNat at_ (natToBytes w v))))

/-- R346, R138 and R147: a global load that passes its checks makes its destination pending. A load from this module's
memory that does not go through the line cache has its bytes from there; one that hits the line cache has them from
its line; a load from another module asks for them. An acquire is over when its value has come, unless write-backs of its core are outstanding
(R147). A cached load that misses fills its line from local memory. The model's choices in it: log entry 23. -/
def Sys2Proof.Claims.GlobalLoads : Prop :=
  ∀ (s : State) (o : MArgs), s.fr.judging = false → s.fr.verdict = .proceed →
    let w := scalarWidth o.ty
    let a := s.ea o.m w
    let c := s.fr.ctx
    let l : GLoad := ⟨s.ctx.nextId, [(0, 0, 64, 0)], w, o.ty.isSigned, a.toNat, 0, 0, 0, false, false⟩
    let dest (v : Word64) : List (Dest × BitVec 512) := if o.d = 0 then [] else [(.s o.d, v.setWidth 512)]
    let waits (t : State) (v : Word64) (long : Bool) (left : Nat) : Prop :=
      ∃ q, t.ctx.pend = s.ctx.pend ++ [q] ∧ q.id = s.ctx.nextId ∧ q.parts = dest v ∧ q.long = long ∧ q.left = left
        ∧ q.bad = false
    let goes (x : GLoad) : Prop := s.mustFollow s.coreIx c s.fabric.next (.load x) = false
    (∀ k e d, s.globCauses [a] w .read = some (k, e, d) →
        exec (.ldg o) s = .next (s.trap k e d) ∧ exec (.ldgAcq o) s = .next (s.trap k e d))
      ∧ (s.globCauses [a] w .read = none → (∀ q, q ∈ s.ctx.pend → q.id < s.ctx.nextId) → ∀ m pa nc,
        (s.translate a .read = .ok 0 m pa true → s.hbmBad pa w = false → pa + w ≤ hbmSize
          → goes { l with tgt := 0, modId := m, pa := pa } →
          ∃ t, exec (.ldg o) s = .next t ∧ keepsAllBut s t ∧ t.ctx.flight = s.ctx.flight
            ∧ waits t (extended o.ty w (s.readHbm pa w)) true 0)
        ∧ (∀ ln, s.translate a .read = .ok 0 m pa false → s.core.lineAt s.ctx.bind.lslot a.toNat = some ln →
          ln.has (a.toNat % 128) w = true → ln.bad = 0
          → goes { l with tgt := 0, modId := m, pa := pa, cached := true } →
          ∃ t, exec (.ldg o) s = .next t ∧ keepsAllBut s t ∧ t.ctx.flight = s.ctx.flight ∧ t.core.lines = s.core.lines
            ∧ waits t (extended o.ty w (s.seenAs pa ((ln.bytes.drop (a.toNat % 128)).take w))) false 0)
        ∧ (s.translate a .read = .ok 0 m pa false → s.core.lineAt s.ctx.bind.lslot a.toNat = none →
          s.core.lines.length < 512 → linesBad s pa w = false → pa + w ≤ hbmSize → pa % 128 = a.toNat % 128
          → goes { l with tgt := 0, modId := m, pa := pa, cached := true } →
          let line := s.readHbm (pa / 128 * 128) 128
          ∃ t ln, exec (.ldg o) s = .next t ∧ keepsAllBut s t ∧ t.ctx.flight = s.ctx.flight
            ∧ t.core.lines = s.core.lines ++ [ln] ∧ ln.bytes = line ∧ ln.dirty = 0 ∧ ln.valid = BitVec.allOnes 128
            ∧ ln.lslot = s.ctx.bind.lslot ∧ ln.va = a.toNat / 128 * 128
            ∧ waits t (extended o.ty w (s.seenAs pa ((line.drop (a.toNat % 128)).take w))) true 0)
        ∧ (s.translate a .read = .ok 1 m pa true → m ≠ Config.rackPosition.val
          → goes { l with tgt := 1, modId := m, pa := pa } →
          ∃ t r, exec (.ldg o) s = .next t ∧ keepsAllBut s t ∧ waits t 0 true 1 ∧ r ∈ t.fabric.reqs
            ∧ r.modId = m ∧ r.addr = pa ∧ r.kind = .read w
            ∧ r.who = .load s.coreIx c { l with tgt := 1, modId := m, pa := pa })
        ∧ (s.translate a .read = .ok 0 m pa nc → s.hbmBad pa w = false → pa + w ≤ hbmSize → s.core.lines = []
          → (∀ r, r ∈ s.fabric.reqs → ∀ i, r.who ≠ .writeback s.coreIx i)
          → goes { l with tgt := 0, modId := m, pa := pa, acq := true } →
          ∃ t, exec (.ldgAcq o) s = .next t ∧ keepsAllBut s t ∧ t.ctx.flight = s.ctx.flight
            ∧ waits t (extended o.ty w (s.readHbm pa w)) true 0
            ∧ ∀ q, q ∈ t.ctx.acquires → q.id ≠ s.ctx.nextId))

/-- R346: a global vector load whose active lanes pass their checks makes the lanes of its destination pending together,
those of an 8-byte form's second register with them, with the values of local memory where no lane goes through the line
cache. With no active lane it does nothing. -/
def Sys2Proof.Claims.GlobalVectorLoads : Prop :=
  ∀ (s : State) (o : VMArgs), s.fr.judging = false → s.fr.verdict = .proceed →
    let w := laneWidth o.ty
    let act := s.activeLanes o.gm o.q
    let at_ (p : Nat) : Word64 := s.laneAddr (s.ea o.m w) o.ofs w p
    let active := (List.range 128).filter act.getLsbD
    (∀ k e d, s.globCauses (active.map at_) w .read = some (k, e, d) → exec (.vldg o) s = .next (s.trap k e d))
      ∧ (s.globCauses (active.map at_) w .read = none → active = [] → exec (.vldg o) s = .next s)
      ∧ (s.globCauses (active.map at_) w .read = none → active ≠ []
        → s.ctx.fences = [] → s.ctx.acquires = [] → s.ctx.behind = [] → s.ctx.releases = []
        → (∀ r, r ∈ s.fabric.reqs → ∀ l, r.who ≠ .load s.coreIx s.fr.ctx l)
        → (∀ q, q ∈ s.ctx.pend → q.id < s.ctx.nextId) → ∀ pa : Nat → Nat,
        (∀ p, p ∈ active → s.translate (at_ p) .read = .ok 0 0 (pa p) true ∧ s.hbmBad (pa p) w = false
          ∧ pa p + w ≤ hbmSize) →
        ∃ t q, exec (.vldg o) s = .next t ∧ keepsAllBut s t ∧ t.ctx.flight = s.ctx.flight
          ∧ t.ctx.pend = s.ctx.pend ++ [q] ∧ q.id = s.ctx.nextId ∧ q.left = 0 ∧ q.long = true
          ∧ q.parts = match o.ofs with
            | .pair b => lanesLoaded o.d act (fun p => BitVec.ofNat 32 (littleEndian (s.readHbm (pa p) w)))
              ++ lanesLoaded b act fun p => BitVec.ofNat 32 (littleEndian (s.readHbm (pa p) w) / 2 ^ 32)
            | _ => lanesLoaded o.d act fun p => (extended o.ty w (s.readHbm (pa p) w)).setWidth 32)

/-- R346, R138 and R147: scalar and vector loads of global memory. -/
def Obligations.GlobalLoadsOfBoth : Prop := Claims.GlobalLoads ∧ Claims.GlobalVectorLoads

/-- R346 and R148: a global store that passes its checks puts one write for each active lane after the bundle's loads,
in lane order, with the data of its lane; STG.REL puts a release with the regions bound to its word. Nothing else
changes. The model's choices in it: log entries 22 and 23. -/
def Obligations.GlobalStores : Prop :=
  ∀ (s : State) (o : MArgs) (v : VMArgs), s.fr.judging = false → s.fr.verdict = .proceed →
    let w := scalarWidth o.ty
    let a := s.ea o.m w
    let wv := laneWidth v.ty
    let active := (List.range 128).filter (s.activeLanes v.gm v.q).getLsbD
    let at_ (p : Nat) : Word64 := s.laneAddr (s.ea v.m wv) v.ofs wv p
    let data (p : Nat) : Nat := match v.ofs with
      | .pair b => (lane (s.rdV v.d) p).toNat + 2 ^ 32 * (lane (s.rdV b) p).toNat
      | _ => (lane (s.rdV v.d) p).toNat
    let caches (tgt : BitVec 3) (nc : Bool) : Bool := (tgt == 0 || tgt == 1) && !nc
    (∀ k e d, s.globCauses [a] w .write = some (k, e, d) →
        exec (.stg o) s = .next (s.trap k e d) ∧ exec (.stgRel o) s = .next (s.trap k e d))
      ∧ (∀ tgt m pa nc, s.globCauses [a] w .write = none → s.translate a .write = .ok tgt m pa nc →
        (∃ t, exec (.stg o) s = .next t ∧ keepsAllBut s t ∧ t.ctx = s.ctx
          ∧ t.fr.deferred = s.fr.deferred ++ [.access s.fabric.next
            (.store a.toNat tgt m pa (caches tgt nc) (natToBytes w (s.rdS o.d).toNat))])
        ∧ (∃ t r, exec (.stgRel o) s = .next t ∧ keepsAllBut s t ∧ t.ctx.flight = s.ctx.flight
          ∧ t.fr.deferred = s.fr.deferred ++ [.access s.fabric.next (.release r)]
          ∧ r.va = a.toNat ∧ r.tgt = tgt ∧ r.modId = m ∧ r.pa = pa ∧ r.atom = none ∧ r.operand = s.rdS o.d
          ∧ r.width = w ∧ r.num = s.fabric.next
          ∧ r.entries = (s.ctx.bindStore.filter fun b => b.sync.toNat == a.toNat).map fun b =>
              (b.paths, b.rbase.toNat, b.rlen.toNat)))
      ∧ (∀ k e d, s.globCauses (active.map at_) wv .write = some (k, e, d) → exec (.vstg v) s = .next (s.trap k e d))
      ∧ (s.globCauses (active.map at_) wv .write = none → ∃ t, exec (.vstg v) s = .next t ∧ keepsAllBut s t
        ∧ t.ctx = s.ctx ∧ t.fr.deferred.length = s.fr.deferred.length + active.length
        ∧ ∀ (i p : Nat), active[i]? = some p → ∀ tgt m pa nc, s.translate (at_ p) .write = .ok tgt m pa nc →
          t.fr.deferred[s.fr.deferred.length + i]? = some (.access (s.fabric.next + i)
            (.store (at_ p).toNat tgt m pa (caches tgt nc) (natToBytes wv (data p)))))

/-- The opcode of an atomic. -/
def Sys2Proof.Claims.atomicOf (op : AtomOp) (o : AtomArgs) : Instr :=
  match op with
  | .add => .atomgAdd o
  | .min => .atomgMin o
  | .max => .atomgMax o
  | .and => .atomgAnd o
  | .or => .atomgOr o
  | .xor => .atomgXor o
  | .swap => .atomgSwap o
  | .cas => .atomgCas o

/-- R36 and R348: the new value of an atomic at its home from the old one, the operand and the compare value: FP32 sums are
rounded to nearest with gradual underflow, the halves of a BF16 pair are added each for itself and flushed, FP32 minima and
maxima are MinNum and MaxNum of R250. -/
def Sys2Proof.Claims.atomicNew (op : AtomOp) (ty : Ty) {n : Nat} (old x y : BitVec n) : BitVec n :=
  let half (i : Nat) : Nat :=
    (fadd .bf16 false .rne 0 (old.toNat / 2 ^ (16 * i) % 2 ^ 16) (x.toNat / 2 ^ (16 * i) % 2 ^ 16)).1
  match op, ty with
  | .add, .f32 => BitVec.ofNat n (fadd .f32 false .rne 0 old.toNat x.toNat).1
  | .min, .f32 => BitVec.ofNat n (minMaxNum .f32 false old.toNat x.toNat).1
  | .max, .f32 => BitVec.ofNat n (minMaxNum .f32 true old.toNat x.toNat).1
  | .add, .bf16 => BitVec.ofNat n (half 0 % 2 ^ 16 + 2 ^ 16 * (half 1 % 2 ^ 16))
  | .add, _ => old + x
  | .min, _ => least true old x
  | .max, _ => most true old x
  | .and, _ => old &&& x
  | .or, _ => old ||| x
  | .xor, _ => old ^^^ x
  | .swap, _ => x
  | .cas, _ => if old = y then x else old

/-- R348: the types that an atomic takes. -/
def Sys2Proof.Claims.atomicTakes (op : AtomOp) (ty : Ty) : Prop :=
  ty = .i32 ∨ ty = .i64 ∨ ty = .n32 ∨ ty = .n64 ∨ (ty = .f32 ∧ (op = .add ∨ op = .min ∨ op = .max))
    ∨ (ty = .bf16 ∧ op = .add)

/-- R348 and R36: an atomic that passes its checks makes s[D] pending and goes to its home after the bundle's loads, with
s[B] as its operand and s[D] as its compare value, as a release where its ordering says so. DISP counts elements of R260.
At its home the old value returns and the new one is written, whether or not it differs; no other byte changes, and its
line, clean here, is dropped. The model's choices in it: log entries 23, 27 and 28. -/
def Obligations.Atomics : Prop :=
  ∀ (s : State) (op : AtomOp) (o : AtomArgs), s.fr.judging = false → s.fr.verdict = .proceed →
    let w := if o.ty = .bf16 then 4 else scalarWidth o.ty
    let a := s.ea ⟨o.a, o.disp, none⟩ (scalarWidth o.ty)
    (∀ k e d, s.globCauses [a] w .atomic = some (k, e, d) → exec (atomicOf op o) s = .next (s.trap k e d))
      ∧ (∀ tgt m pa nc, s.globCauses [a] w .atomic = none → s.translate a .atomic = .ok tgt m pa nc →
        ∃ t q x, exec (atomicOf op o) s = .next t ∧ keepsAllBut s t ∧ t.ctx.flight = s.ctx.flight
          ∧ t.ctx.pend = s.ctx.pend ++ [q] ∧ q.id = s.ctx.nextId ∧ q.left = 1 ∧ q.long = true
          ∧ q.parts = (if o.d = 0 then [] else [(.s o.d, 0)])
          ∧ t.fr.deferred = s.fr.deferred ++ [.access s.fabric.next x]
          ∧ (o.ord ≠ .release → x = .atomic s.ctx.nextId a.toNat tgt m pa op o.ty (s.rdS o.b) (s.rdS o.d)
              (o.ord == .acquire))
          ∧ (o.ord = .release → ∃ r, x = .release r ∧ r.va = a.toNat ∧ r.atom = some (op, o.ty)
              ∧ r.operand = s.rdS o.b ∧ r.compare = s.rdS o.d ∧ r.pa = pa ∧ r.id = s.ctx.nextId)
          ∧ (o.ord = .acquire → ∃ q, q ∈ t.ctx.acquires ∧ q.id = s.ctx.nextId ∧ q.va = a.toNat))
      ∧ (∀ id va pa num (x y : Word64), atomicTakes op o.ty →
        Safety.stateOk s = true → linesBad s pa w = false → pa + w ≤ hbmSize →
        let mine (l : Line) : Prop := l.lslot = s.ctx.bind.lslot ∧ l.va = va / 128 * 128
        (∀ l, l ∈ s.core.lines → mine l → l.dirty = 0) →
        let n := 8 * w
        let old : BitVec n := BitVec.ofNat n (littleEndian (s.readHbm pa w))
        let new : BitVec n := atomicNew op o.ty old (x.setWidth n) (y.setWidth n)
        let t := s.perform s.coreIx s.fr.ctx num (.atomic id va 0 0 pa op o.ty x y false)
        littleEndian (readBytes t.hbm pa w) = new.toNat
          ∧ (∀ b, b < pa ∨ pa + w ≤ b → memRead t.hbm b = memRead s.hbm b)
          ∧ (∀ l, l ∈ t.core.lines ↔ l ∈ s.core.lines ∧ ¬ mine l)
          ∧ ∀ q, q ∈ s.ctx.pend → q.id = id → q.parts = [(.s o.d, 0)] → ∃ q', q' ∈ t.ctx.pend ∧ q'.id = id
            ∧ q'.left = q.left - 1
            ∧ q'.parts = [(.s o.d, (if o.ty = .i32 then old.signExtend 64 else old.setWidth 64).setWidth 512)])

/-- R142 and R351: a fence's status is pending until it completes, and a refused level raises LEVEL; LINV drops the lines
of its range after the bundle's loads, and none where s[B] is 0. -/
def Sys2Proof.Claims.FencesAndLineInvalidation : Prop :=
  ∀ (s : State) (d a : Reg) (lv : BitVec 6) (paths : BitVec 5) (disp : BitVec 6) (len : Option Reg),
    let issues (i : Instr) (ps : BitVec 5) : Prop := ∃ t q, exec i s = .next t ∧ keepsAllBut s t
      ∧ t.ctx.flight = s.ctx.flight
      ∧ t.ctx.fences = s.ctx.fences ++ [⟨s.ctx.nextId, ps, lv, s.fabric.next, s.core.nextCmd, false⟩]
      ∧ t.ctx.pend = s.ctx.pend ++ [q] ∧ q.id = s.ctx.nextId ∧ q.left = 1 ∧ q.long = true
      ∧ q.parts = if d = 0 then [] else [(.s d, 0)]
    let ea : Word64 := s.rdS a + disp.signExtend 64
    let n := match len with
      | none => 1
      | some b => (s.rdS b).toNat
    (s.tree.levelOk lv true = true → issues (.fence d lv) 1 ∧ issues (.fencex d lv paths) paths)
      ∧ (s.tree.levelOk lv true = false → exec (.fence d lv) s = .next (s.trap cLEVEL 0 (lv.setWidth 32))
        ∧ exec (.fencex d lv paths) s = .next (s.trap cLEVEL 0 (lv.setWidth 32)))
      ∧ (n = 0 → exec (.linv a disp len) s = .next s)
      ∧ (n ≠ 0 → ∃ t, exec (.linv a disp len) s = .next t ∧ keepsAllBut s t ∧ t.ctx = s.ctx
        ∧ t.fr.deferred = s.fr.deferred ++ [.access s.fabric.next (.linv ea.toNat (ea.toNat + n))])

/-- R352, R151 and R152: WAITA issues at once with cause 0 where its scratchpad word differs from s[D]; otherwise it
arms the wait monitor and holds its bundle. Once there is a cause it issues with the word as it stands and that cause,
told anew after a write: 1 where the word has its old value, else 0. The model's choices in it: log entry 33. -/
def Sys2Proof.Claims.WaitForWord : Prop :=
  ∀ (s : State) (d a b : Reg) (disp : BitVec 6) (ty : Ty) (acq : Bool), s.fr.judging = false →
    let w := scalarWidth ty
    let addr := s.ea ⟨a, disp, none⟩ w
    let i : Instr := .waita d a b disp ty acq
    let m1 : Bool := s.fr.slot == 7
    let results (v k : Nat) : List (Dest × BitVec 512) :=
      (if d = 0 then [] else [(.s d, BitVec.ofNat 512 v)]) ++ (if b = 0 then [] else [(.s b, BitVec.ofNat 512 k)])
    (∀ k e x, s.watchTarget addr w acq = .bad k e x → exec i s = .next (s.trap k e x))
      ∧ (∀ core off, s.watchTarget addr w false = .ok (.spad core off) → acq = false →
        let v := littleEndian (readBytes (s.coreAt core).spad off w)
        let e := (s.rdS d).toNat % 2 ^ (8 * w)
        ((∀ r, r ∈ s.ctx.waits.waita → r.m1 ≠ m1) → v ≠ e → ∃ t, exec i s = .next t ∧ keepsAllBut s t
            ∧ loads s t (results v 0))
        ∧ ((∀ r, r ∈ s.ctx.waits.waita → r.m1 ≠ m1) → v = e → ∃ t, exec i s = .next t
            ∧ t.fr.verdict = .held .waita ∧ t.ctx.flight = s.ctx.flight ∧ t.hbm = s.hbm
            ∧ t.ctx.waits.waita.getLast? = some ⟨m1, .spad core off, w, none, (s.rdS b).toNat, 0⟩
            ∧ ∃ x, x ∈ t.pod.monitor ∧ x.word = .spad core off ∧ x.width = w)
        ∧ (∀ r, s.ctx.waits.waita.find? (fun r => r.m1 == m1) = some r →
          (r.cause = none → ∃ t, exec i s = .next t ∧ t.fr.verdict = .held .waita ∧ t.ctx = s.ctx)
          ∧ (∀ k, r.cause = some k → ∃ t, exec i s = .next t ∧ keepsAllBut s t
            ∧ (∀ r', r' ∈ t.ctx.waits.waita → r'.m1 ≠ m1)
            ∧ loads s t (results v (if 2 ≤ k then k else if v = e then 1 else 0)))))

/-- R354 and R152: waits for a counter and for a word. -/
def Obligations.WaitsForWords : Prop := Claims.WaitForCounter ∧ Claims.WaitForWord

/-! ## Engine commands -/

/-- A command enters the queue of its engine, behind those already there, with the next ticket of its context; the
ticket is in flight to s[D], and nothing else changes (R360). -/
def Sys2Proof.Claims.queued (s : State) (d : Reg) (m : Cmd) (r : Res) : Prop :=
  let e := m.op.engine
  let n := s.ctx.tickets.issued.get (engIx e)
  ∃ t, r = .next t ∧ keepsAllBut s t
    ∧ t.queueOf e = s.queueOf e ++ [{ m with id := s.core.nextCmd, ctx := s.fr.ctx, core := s.coreIx, ticket := n }]
    ∧ (∀ f, f ≠ e → t.queueOf f = s.queueOf f)
    ∧ t.core.nextCmd = s.core.nextCmd + 1 ∧ t.core.sb = s.core.sb
    ∧ t.ctx.tickets.done = s.ctx.tickets.done ∧ t.ctx.tickets.issued.get (engIx e) = n + 1
    ∧ (∀ j, j ≠ engIx e → t.ctx.tickets.issued.get j = s.ctx.tickets.issued.get j)
    ∧ t.ctx.flight = (flies s (toS d (n.setWidth 64) 1)).ctx.flight
    ∧ t.ctx.pend = s.ctx.pend ∧ t.fr.deferred = s.fr.deferred

/-- A block command: it traps on the first failing check of R363, and otherwise is queued with a copy of its block. -/
def Sys2Proof.Claims.queuesBlock (s : State) (d a : Reg) (n : Nat) (header : Bool) (statK : Nat) (m : Cmd)
    (r : Res) : Prop :=
  let cmd : Cmd := { m with block := s.spadBytes (s.rdS a).toNat n }
  (∀ c e x, s.blockChecks (s.rdS a) n header statK cmd.statLen = some (c, e, x) → r = .next (s.trap c e x))
    ∧ (s.blockChecks (s.rdS a) n header statK cmd.statLen = none → queued s d cmd r)

/-- R363: in the near profile the checks of a block all hold exactly where the block lies in the scratchpad and is a
multiple of 16, and its completion word and its whole status record, where it names them, lie in it and are aligned. -/
def Sys2Proof.Claims.blockHolds (s : State) (a : Word64) (n : Nat) (header : Bool) (statK statLen : Nat) : Prop :=
  let b := readBytes s.core.spad a.toNat n
  let cw := littleEndian (b.take 4)
  let st := littleEndian ((b.drop 12).take 4)
  a.toNat + n ≤ 0xC0000 ∧ a.toNat % 16 = 0
    ∧ (header → 2 ^ 31 ≤ cw → cw % 2 ^ 22 + 4 ≤ 0xC0000 ∧ cw % 4 = 0)
    ∧ (header → st ≠ 0xFFFFFFFF → st + statLen ≤ 0xC0000 ∧ st % 2 ^ statK = 0)

/-- R363, R365, R372 and R384: the transfer, text and exchange commands and XWIN and CGLOAD check their block at issue and
enter their queue; the exchanges raise LEVEL for a refused level. The checks of STAT cover the whole status record, which
is the model's choice: log entry 114. -/
def Sys2Proof.Claims.BlocksEnter : Prop :=
  ∀ (s : State) (d a : Reg) (lv : BitVec 6) (g : BitVec 2), s.fr.judging = false →
    let plain (i : Instr) (op : CmdOp) (n : Nat) : Prop := queuesBlock s d a n true 2 (Cmd.blank op) (exec i s)
    let levelled (i : Instr) (op : CmdOp) (n k : Nat) : Prop :=
      (s.tree.levelOk lv false = true → queuesBlock s d a n true k { Cmd.blank op with level := lv } (exec i s))
        ∧ (s.tree.levelOk lv false = false → exec i s = .next (s.trap cLEVEL 0 (lv.setWidth 32)))
    plain (.tsld d a) .tsld 32 ∧ plain (.tsst d a) .tsst 32 ∧ plain (.xcopy d a) .xcopy 64
      ∧ plain (.xgather d a) .xgather 64 ∧ plain (.embpool d a) .embpool 80 ∧ plain (.xcvt d a) .xcvt 80
      ∧ plain (.txtEnc d a) .txtEnc 64 ∧ plain (.txtDec d a) .txtDec 64 ∧ plain (.txtMask d a) .txtMask 48
      ∧ queuesBlock s d a 32 true 2 { Cmd.blank .cgload with graph := g } (exec (.cgload d a g) s)
      ∧ queuesBlock s d a 48 false 2 (Cmd.blank .xwin) (exec (.xwin d a) s)
      ∧ levelled (.a2aDisp d a lv) .a2aDisp 96 2 ∧ levelled (.a2aComb d a lv) .a2aComb 96 2
      ∧ levelled (.repart d a lv) .repart 64 3
      ∧ (s.launch.info.profile = false → s.core.badWords = [] →
        ∀ n header k len, 16 ≤ n → n ≤ 96 → k ≤ 3 → 4 ≤ len → len ≤ 32 →
          (s.blockChecks (s.rdS a) n header k len = none ↔ blockHolds s (s.rdS a) n header k len))

/-- A queue that takes no further command: 8 stand in a core's, 64 in a die's, which those that are suspended have left
(R198, R229, R360). -/
def Sys2Proof.Claims.fullQueue (s : State) (e : Engine) : Prop :=
  match e with
  | .text => 64 ≤ ((s.queueOf .text).filter fun m => m.run != .suspended).length
  | e => 8 ≤ (s.queueOf e).length

/-- The bundle freezes before issue, for the scoreboard's counter (R159). -/
def Sys2Proof.Claims.freezesBefore (s : State) (i : Instr) : Prop :=
  exec i s = .next (s.modFr fun f => { f with verdict := .frozen .scoreboard })

/-- R159, R168, R360 and R363: while its bundle is judged, a block command whose checks hold freezes before issue where its
queue is full, and enters where it is not; one whose block lies in the space freezes where an earlier command still writes
the block, whatever stands there. The model's choices in it: log entry 114. -/
def Sys2Proof.Claims.FullQueuesFreeze : Prop :=
  ∀ (s : State) (d a : Reg) (lv : BitVec 6) (g : BitVec 2), s.fr.judging = true →
    let busy (n : Nat) : Bool := s.sbConflict (s.spadAccess false [s.rdS a] n)
    let judged (i : Instr) (n : Nat) (header : Bool) (k : Nat) (m : Cmd) : Prop :=
      let cmd : Cmd := { m with block := s.spadBytes (s.rdS a).toNat n }
      let sound : Prop := s.blockChecks (s.rdS a) n header k cmd.statLen = none
      (sound → fullQueue s m.op.engine → freezesBefore s i)
        ∧ ((∃ x, s.inSpace (s.rdS a) n = .ok x) → busy n = true → freezesBefore s i)
        ∧ (sound → busy n = false → ¬ fullQueue s m.op.engine → queued s d cmd (exec i s))
    let plain (i : Instr) (op : CmdOp) (n : Nat) : Prop := judged i n true 2 (Cmd.blank op)
    let levelled (i : Instr) (op : CmdOp) (n k : Nat) : Prop :=
      s.tree.levelOk lv false = true → judged i n true k { Cmd.blank op with level := lv }
    plain (.tsld d a) .tsld 32 ∧ plain (.tsst d a) .tsst 32 ∧ plain (.xcopy d a) .xcopy 64
      ∧ plain (.xgather d a) .xgather 64 ∧ plain (.embpool d a) .embpool 80 ∧ plain (.xcvt d a) .xcvt 80
      ∧ plain (.txtEnc d a) .txtEnc 64 ∧ plain (.txtDec d a) .txtDec 64 ∧ plain (.txtMask d a) .txtMask 48
      ∧ judged (.cgload d a g) 32 true 2 { Cmd.blank .cgload with graph := g }
      ∧ judged (.xwin d a) 48 false 2 (Cmd.blank .xwin)
      ∧ levelled (.a2aDisp d a lv) .a2aDisp 96 2 ∧ levelled (.a2aComb d a lv) .a2aComb 96 2
      ∧ levelled (.repart d a lv) .repart 64 3

/-- R159, R359, R360, R363, R365, R372 and R384: a block command is checked, and enters its queue or freezes for it. -/
def Obligations.BlockCommands : Prop := Claims.BlocksEnter ∧ Claims.FullQueuesFreeze

/-- R359, R361, R362, R366, R369, R370 and R380: the matrix commands and CGRUN enter their queues with the operands
that they read at issue; CGRUN raises LEVEL for a refused level, of its own or of its slot's graph; MSTAT counts the
context's commands of a queue, and MPUT and MGET move a parameter register. A suspended matrix or transfer command still
counts. The model's choices in it: log entries 42 and 76. -/
def Sys2Proof.Claims.MatrixEnter : Prop :=
  ∀ (s : State) (o : McallArgs) (d a b c : Reg) (lv : BitVec 6) (g : BitVec 2) (e : Engine), s.fr.judging = false →
    let params := (List.range 8).map fun i => s.rdM (BitVec.ofNat 6 i)
    let p := params.getD 4 0
    let word : Word64 := (0#42 ++ p.extractLsb' 34 2) ++ p.extractLsb' 0 20
    let call : Cmd := { Cmd.blank .mcall with
      args := [s.rdS o.a, s.rdS o.b, s.rdS o.c], params := params, slot := o.slot, pod := o.pod, accm := o.accm
      fmtIx := ((p.extractLsb' 28 6).toNat + (s.rdLc (o.lsel.setWidth 6)).toNat) % 64 }
    let mine := (s.queueOf e).filter fun m => m.ctx == s.fr.ctx && m.core == s.coreIx
    (p.getLsbD 20 = false → queued s o.d call (exec (.mcall o) s))
      ∧ (p.getLsbD 20 = true → (∃ x, s.inSpace word 4 = .ok x) → word % 4 = 0 →
        queued s o.d call (exec (.mcall o) s))
      ∧ (p.getLsbD 20 = true → ∀ k q x, s.inSpace word 4 = .bad k q x → exec (.mcall o) s = .next (s.trap k q x))
      ∧ (p.getLsbD 20 = true → (∃ x, s.inSpace word 4 = .ok x) → word % 4 ≠ 0 →
        exec (.mcall o) s = .next (s.trap cALIGN word 2))
      ∧ ((∃ x, s.inSpace (s.rdS a) 64 = .ok x) → s.rdS a % 64 = 0 →
        queued s d { Cmd.blank .cellld with args := [s.rdS a, s.rdS b, s.rdS c] } (exec (.cellld d a b c) s))
      ∧ (∀ k q x, s.inSpace (s.rdS a) 64 = .bad k q x → exec (.cellld d a b c) s = .next (s.trap k q x))
      ∧ ((∃ x, s.inSpace (s.rdS a) 64 = .ok x) → s.rdS a % 64 ≠ 0 →
        exec (.cellld d a b c) s = .next (s.trap cALIGN (s.rdS a) 6))
      ∧ queued s d { Cmd.blank .flowset with args := [s.rdS a] } (exec (.flowset d a) s)
      ∧ (s.tree.levelOk lv false = false → exec (.cgrun d a b lv g) s = .next (s.trap cLEVEL 0 (lv.setWidth 32)))
      ∧ (s.tree.levelOk lv false = true → s.loadingGraph g = false →
        let gr := s.core.graphs.get (ix4 (g.setWidth 6))
        let named : Prop := ∀ x, gr = some x → x.level ≤ 63 ∧ s.tree.levelOk (BitVec.ofNat 6 x.level) false = true
        (∀ x, gr = some x → (63 < x.level ∨ s.tree.levelOk (BitVec.ofNat 6 x.level) false = false) →
          exec (.cgrun d a b lv g) s = .next (s.trap cLEVEL 0 ((BitVec.ofNat 6 x.level).setWidth 32)))
        ∧ (named → s.graphNetOk gr = false → exec (.cgrun d a b lv g) s = .next (s.trap cLEVEL 0 (lv.setWidth 32)))
          ∧ (named → s.graphNetOk gr = true → queuesBlock s d a 16 true 2
            { Cmd.blank .cgrun with
              level := lv, graph := g, args := (List.range 8).map fun i => s.rdS (b + BitVec.ofNat 6 i) }
            (exec (.cgrun d a b lv g) s)))
      ∧ exec (.mput d a) s = .next (flies s [(.m d, (s.rdS a).setWidth 512, 1)])
      ∧ exec (.mget d a) s = .next (flies s (toS d (s.rdM a) 1))
      ∧ ∃ w : Word64, exec (.mstat d e) s = .next (flies s (toS d w 1))
        ∧ w.extractLsb' 32 32 = s.ctx.tickets.done.get (engIx e)
        ∧ w.getLsbD 0 = mine.any (·.run == .suspended)
        ∧ w.extractLsb' 1 7 = 0 ∧ w.extractLsb' 16 16 = 0
        ∧ (e ≠ .text → w.extractLsb' 8 8 = BitVec.ofNat 8 mine.length)

/-- R159, R360, R366, R369, R370 and R380: while its bundle is judged, a matrix command whose checks hold freezes before
issue where its queue is full, and enters where it is not. CGRUN freezes while its slot's graph is being loaded, and where
the fabric queue is full. -/
def Sys2Proof.Claims.MatrixQueuesFreeze : Prop :=
  ∀ (s : State) (o : McallArgs) (d a b c : Reg) (lv : BitVec 6) (g : BitVec 2), s.fr.judging = true →
    let p := s.rdM 4
    let word : Word64 := (0#42 ++ p.extractLsb' 34 2) ++ p.extractLsb' 0 20
    let full := fullQueue s .matrix
    let gr := s.core.graphs.get (ix4 (g.setWidth 6))
    let enters (r : Res) (n : Nat) : Prop := ∃ t, r = .next t ∧ (t.queueOf .matrix).length = n + 1
    let both (i : Instr) (sound : Prop) : Prop := (sound → full → freezesBefore s i)
      ∧ (sound → ¬ full → enters (exec i s) (s.queueOf .matrix).length)
    both (.mcall o) (p.getLsbD 20 = false ∨ ((∃ x, s.inSpace word 4 = .ok x) ∧ word % 4 = 0))
      ∧ both (.cellld d a b c) ((∃ x, s.inSpace (s.rdS a) 64 = .ok x) ∧ s.rdS a % 64 = 0)
      ∧ both (.flowset d a) True
      ∧ (s.tree.levelOk lv false = true → s.loadingGraph g = true → freezesBefore s (.cgrun d a b lv g))
      ∧ (s.tree.levelOk lv false = true → s.loadingGraph g = false → s.graphNetOk gr = true →
        (∀ x, gr = some x → x.level ≤ 63 ∧ s.tree.levelOk (BitVec.ofNat 6 x.level) false = true) →
        (s.blockChecks (s.rdS a) 16 true 2 4 = none → fullQueue s .fabric → freezesBefore s (.cgrun d a b lv g)))

/-- R159, R359 to R362, R366, R369, R370 and R380: the matrix commands and CGRUN enter their queues or freeze for them,
MSTAT reads them, and MPUT and MGET move a parameter register. -/
def Obligations.MatrixCommands : Prop := Claims.MatrixEnter ∧ Claims.MatrixQueuesFreeze

/-- R168, R187 and R360: a command whose turn it is starts, and its regions stand in the scoreboard of its core, into
which the core's commands have entered in issue order; a routine stands at its entry. The model's choices in it: log
entries 39 and 97. -/
def Sys2Proof.Claims.CommandStart : Prop :=
  ∀ (s : State) (e : Engine) (c : CtxNo),
    (∀ m, s.startable e c = some m → s.stopped c = false → m.op.engine = e → m.op ≠ .cgrun →
      let entry := s.core.microAddr m.slot.toNat 0
      let r : Cmd := if m.op = .mcall ∧ m.routine.started = false
        then { m with run := .running, routine := { m.routine with upc := entry } } else { m with run := .running }
      ∃ t, exec (.engineCommandStart e c) s = .next t
        ∧ t.queueOf e = (s.queueOf e).map (fun x => if x.is m then r else x)
        ∧ t.core.sb = s.syncSb.core.sb
        ∧ ((s.commands s.coreIx).Pairwise (fun x y => x.id ≠ y.id) →
          ∀ x, x ∈ s.heldRegions m → ⟨m.id, x.2, x.1⟩ ∈ t.core.sb)
        ∧ t.core.ctxs = s.core.ctxs ∧ t.core.spad = s.core.spad ∧ t.core.tile = s.core.tile ∧ t.hbm = s.hbm
        ∧ t.others = s.others ∧ t.fr.ctx = s.fr.ctx)
      ∧ (s.startable e c = none → exec (.engineCommandStart e c) s = .next s)
      ∧ (s.stopped c = true → exec (.engineCommandStart e c) s = .next s)

/-- What the end of a command of the selected core leaves: it is out of its queue, where only a text command's mark of a
write to its stream may change; the scoreboard holds entries of the commands that are still there and of no other; its
context has one more finished command; its completion word, if any, holds its value (R150, R360). -/
def Sys2Proof.Claims.ended (s t : State) (e : Engine) (m : Cmd) (good : Bool) : Prop :=
  (e ≠ .text → t.queueOf e = (s.queueOf e).filter (fun x => !(x.is m)))
    ∧ (t.queueOf e).map (fun x : Cmd => { x with spoilt := false })
      = ((s.queueOf e).filter fun x => !(x.is m)).map (fun x : Cmd => { x with spoilt := false })
    ∧ (∀ x, x ∈ t.core.sb → ∃ y, y ∈ t.commands s.coreIx ∧ x.cmd = y.id)
    ∧ (t.ctxAt m.ctx).tickets.done.get (engIx e) = (s.ctxAt m.ctx).tickets.done.get (engIx e) + 1
    ∧ ∀ w k off, m.completionWord = some w → s.spadWhere s.coreIx (s.ctxAt m.ctx).bind.lslot w = some (k, off) →
      littleEndian (readBytes (t.coreAt k).spad off 4) = m.endValue good

/-- R150, R360, R370, R371 and R374: a running command finishes. A given-up one leaves its error value; FLOWSET sets
the array's flow and size and XWIN the context's nest; XCOPY of one row brings its bytes. The model's choices in it:
log entry 38. -/
def Sys2Proof.Claims.SomeCommandsFinish : Prop :=
  ∀ (s : State) (e : Engine) (c : CtxNo), Safety.stateOk s = true →
    let near : Prop := s.core.badWords = [] ∧ (s.lslot (s.ctxAt c).bind.lslot).info.profile = false
    (s.runningCmd e c = none → exec (.commandFinished e c) s = .next s)
      ∧ ∀ m, s.runningCmd e c = some m → m.op.engine = e →
        (m.dying = true → ∃ t, exec (.commandFinished e c) s = .next t ∧ ended s t e m false)
          ∧ (m.dying = false → s.stopped c = true → exec (.commandFinished e c) s = .next s)
          ∧ (m.dying = false → s.stopped c = false →
            (∀ w, m.op = .flowset → m.args = [w] → w &&& 0xFFFFFFFFFF0000FC = 0 →
              ∃ t, exec (.commandFinished e c) s = .next t ∧ ended s t e m true
                ∧ t.core.array.flow = [Flow.os, .ws, .wavefront, .pass].getD (w.extractLsb' 0 2).toNat .os
                ∧ t.core.array.sr = (w.extractLsb' 8 8).toNat + 1 ∧ t.core.array.sc = (w.extractLsb' 16 8).toNat + 1
                ∧ t.core.array.cells = s.core.array.cells ∧ t.core.spad = s.core.spad ∧ t.hbm = s.hbm)
            ∧ (m.op = .xwin → nestOk m.block = true →
              ∃ t, exec (.commandFinished e c) s = .next t ∧ ended s t e m true
                ∧ (t.ctxAt c).nest = nestOfBlock m.block ∧ t.core.spad = s.core.spad ∧ t.hbm = s.hbm)
            ∧ (m.op = .xcopy → m.prog = 0 → m.headerOk = true → m.spare [(50, 14)] = true → m.f 32 4 = 1 →
              m.f 48 1 = 1 → m.f 49 1 = 0 → near → m.completionWord = none →
              let from_ := m.f 16 8
              let dst := m.f 24 8
              let n := m.f 36 4
              1 ≤ n → from_ + n ≤ 0xC0000 → dst + n ≤ 0xC0000 → (from_ + n ≤ dst ∨ dst + n ≤ from_) →
              ∃ t, exec (.commandFinished e c) s = .next t ∧ ended s t e m true ∧ t.hbm = s.hbm
                ∧ (∀ i, i < n → memRead t.core.spad (dst + i) = memRead s.core.spad (from_ + i))
                ∧ ∀ x, x < dst ∨ dst + n ≤ x → memRead t.core.spad x = memRead s.core.spad x))

/-- The n bytes of a list from an offset on, as a number. -/
def Sys2Proof.Claims.fieldOf (bs : List Byte) (off n : Nat) : Nat := littleEndian ((bs.drop off).take n)

/-- The word at a scratchpad address of the selected core. -/
def Sys2Proof.Claims.spadWord (s : State) (a : Nat) : Nat := littleEndian (readBytes s.core.spad a 4)

/-- A command of near-profile code that runs from its first unit, without a completion word, on a core whose scratchpad
holds no error. -/
def Sys2Proof.Claims.runsFrom (s : State) (c : CtxNo) (m : Cmd) : Prop :=
  Safety.stateOk s = true ∧ s.runningCmd m.op.engine c = some m ∧ m.dying = false ∧ s.stopped c = false
    ∧ m.prog = 0 ∧ m.phase = 0 ∧ m.counts = [] ∧ m.completionWord = none ∧ s.core.badWords = []
    ∧ (s.lslot (s.ctxAt c).bind.lslot).info.profile = false

/-- It ends, and local memory holds what it held. -/
def Sys2Proof.Claims.finishes (s t : State) (c : CtxNo) (m : Cmd) (good : Bool) : Prop :=
  exec (.commandFinished m.op.engine c) s = .next t ∧ ended s t m.op.engine m good ∧ t.hbm = s.hbm

/-- It ends in ENGFAULT with a sub-cause (R229), and the fault waits for its context, where that is not IDLE. -/
def Sys2Proof.Claims.endsFaulting (s : State) (c : CtxNo) (m : Cmd) (sub : Nat) (left : State → Prop) : Prop :=
  let engine := match m.op.engine with
    | .matrix => 1
    | .text => 2
    | .copy | .fabric => 0
  (s.ctxAt c).state ≠ .idle → ∃ t, finishes s t c m false ∧ left t
    ∧ (t.ctxAt c).waits.faults = (s.ctxAt c).waits.faults ++ [⟨BitVec.ofNat 32 (engine * 2 ^ 29 + sub), 0⟩]

/-- n bytes at a virtual address, within one page that a view translates into local memory without an error, and what
they are. -/
def Sys2Proof.Claims.pageReads (u : State) (va n : Nat) (data : List Byte) : Prop :=
  (n = 0 ∧ data = []) ∨ (va % 65536 + n ≤ 65536 ∧ ∃ tgt md pa nc, u.translate (BitVec.ofNat 64 va) .read = .ok tgt md pa nc
    ∧ localHbm tgt md = true ∧ pa + n ≤ hbmSize ∧ u.hbmBad pa n = false ∧ data = u.readHbm pa n)

/-- R365 and R385: a reserved bit of the header that is set ends the command in ENGFAULT, before it writes anything. -/
def Sys2Proof.Claims.ReservedHeaderBits : Prop :=
  ∀ (s : State) (c : CtxNo) (m : Cmd), runsFrom s c m → 2 ^ 22 ≤ m.f 0 4 % 2 ^ 31 →
    let stops (sub : Nat) : Prop := endsFaulting s c m sub fun t => t.core.spad = s.core.spad ∧ t.core.tile = s.core.tile
    ((m.op = .tsld ∨ m.op = .tsst ∨ m.op = .xcopy ∨ m.op = .xgather ∨ m.op = .embpool ∨ m.op = .xcvt ∨ m.op = .cgload
        ∨ m.op = .a2aDisp ∨ m.op = .a2aComb ∨ m.op = .repart) → stops 30)
      ∧ ((m.op = .txtEnc ∨ m.op = .txtDec ∨ m.op = .txtMask) → stops 44)

/-- R373: TSLD and TSST copy a rectangle of at most 63 rows between the scratchpad and the tile store, and nothing
else. -/
def Sys2Proof.Claims.TileCopies : Prop :=
  ∀ (s : State) (c : CtxNo) (m : Cmd), runsFrom s c m → m.headerOk = true → m.spare [(30, 2)] = true →
    let spad := m.f 16 4
    let stride := m.f 20 4
    let row0 := m.f 24 1
    let col0 := m.f 25 1
    let rows := m.f 26 2
    let cols := m.f 28 2
    let place (i x : Nat) : Nat := 1024 * (row0 + i) + 4 * col0 + x
    spad % 4 = 0 → stride % 4 = 0 → 1 ≤ rows → rows ≤ 63 → 1 ≤ cols → row0 + rows ≤ 256 → col0 + cols ≤ 256 →
    spad + (rows - 1) * stride + 4 * cols ≤ 0xC0000 →
    (m.op = .tsld → ∃ t, finishes s t c m true ∧ t.core.spad = s.core.spad
      ∧ (∀ i x, i < rows → x < 4 * cols → memRead t.core.tile (place i x) = memRead s.core.spad (spad + i * stride + x))
      ∧ ∀ a, (∀ i x, i < rows → x < 4 * cols → a ≠ place i x) → memRead t.core.tile a = memRead s.core.tile a)
    ∧ (m.op = .tsst → s.core.badTile = [] → (rows = 1 ∨ 4 * cols ≤ stride) →
      ∃ t, finishes s t c m true ∧ t.core.tile = s.core.tile
        ∧ (∀ i x, i < rows → x < 4 * cols → memRead t.core.spad (spad + i * stride + x) = memRead s.core.tile (place i x))
        ∧ ∀ a, (∀ i x, i < rows → x < 4 * cols → a ≠ spad + i * stride + x) →
          memRead t.core.spad a = memRead s.core.spad a)

/-- What a status record of one word holds, where the command names one: STAT stands outside the scratchpad bytes of
the outputs. -/
def Sys2Proof.Claims.statApart (m : Cmd) (lo n len : Nat) : Prop :=
  m.f 12 4 = 0xFFFFFFFF ∨ (m.f 12 4 + len ≤ 0xC0000 ∧ (m.f 12 4 + len ≤ lo ∨ lo + n ≤ m.f 12 4))

/-- Whether a scratchpad byte is one of the status record. -/
def Sys2Proof.Claims.inStat (m : Cmd) (len x : Nat) : Prop :=
  m.f 12 4 ≠ 0xFFFFFFFF ∧ m.f 12 4 ≤ x ∧ x < m.f 12 4 + len

/-- R375: XGATHER of at most 63 indices within the scratchpad copies the row that each names, or writes zeros for an index
beyond the table, and counts those in STAT. -/
def Sys2Proof.Claims.Gathers : Prop :=
  ∀ (s : State) (c : CtxNo) (m : Cmd), runsFrom s c m → m.op = .xgather → m.headerOk = true → m.spare [(60, 4)] = true →
    let table := m.f 16 8
    let idx := m.f 24 8
    let dst := m.f 32 8
    let nrows := m.f 40 4
    let nidx := m.f 44 4
    let len := m.f 48 4
    let ds := m.f 52 4
    let ts := m.f 56 4
    let span := (nidx - 1) * ds + len
    let index (n : Nat) : Nat := spadWord s (idx + 4 * n)
    nidx ≤ 63 → 1 ≤ len → (nidx ≤ 1 ∨ len ≤ ds) → table + (nrows - 1) * ts + len ≤ 0xC0000 → idx + 4 * nidx ≤ 0xC0000 →
    dst + span ≤ 0xC0000 → (table + (nrows - 1) * ts + len ≤ dst ∨ dst + span ≤ table) →
    (idx + 4 * nidx ≤ dst ∨ dst + span ≤ idx) → statApart m dst span 4 →
    ∃ t, finishes s t c m true ∧ t.core.tile = s.core.tile
      ∧ (∀ n x, n < nidx → x < len → memRead t.core.spad (dst + n * ds + x)
        = if index n < nrows then memRead s.core.spad (table + index n * ts + x) else 0)
      ∧ (m.f 12 4 ≠ 0xFFFFFFFF →
        spadWord t (m.f 12 4) = ((List.range nidx).filter fun n => decide (nrows ≤ index n)).length)
      ∧ ∀ a, (∀ n x, n < nidx → x < len → a ≠ dst + n * ds + x) → ¬ inStat m 4 a →
        memRead t.core.spad a = memRead s.core.spad a

/-- R50 and R376: EMBPOOL of one bag of FP32 rows that lie in local memory, one page each, pools the rows of the indices
within the table, in ascending position, element by element, and counts the others in STAT. -/
def Sys2Proof.Claims.PoolsBag : Prop :=
  ∀ (s : State) (c : CtxNo) (m : Cmd) (row : Nat → List Byte), runsFrom s c m → m.op = .embpool → m.headerOk = true →
    m.spare [(68, 12)] = true →
    let table := m.f 16 8
    let idx := m.f 24 8
    let offs := m.f 32 8
    let wts := m.f 40 8
    let out := m.f 48 8
    let nrows := m.f 56 4
    let len := m.f 64 2
    let mode := m.f 67 1
    let lo := spadWord s offs
    let hi := spadWord s (offs + 4)
    let index (i : Nat) : Nat := spadWord s (idx + 4 * i)
    let kept := ((List.range (hi - lo)).map (lo + ·)).filter fun i => decide (index i < nrows)
    let v (e i : Nat) : Nat := fieldOf (row (index i)) (4 * e) 4
    let w (i : Nat) : Nat := spadWord s (wts + 4 * i)
    let sum (e : Nat) : Nat := match kept with
      | [] => 0
      | i :: is => is.foldl (fun acc j => (fadd .f32 false .rne 0 acc (v e j)).1) (v e i)
    table / 2 ^ 56 = 0xC0 → m.f 60 4 = 1 → 1 ≤ len → len ≤ 4096 → m.f 66 1 = 8 → mode ≤ 3 → offs + 8 ≤ 0xC0000 →
    wts + (if mode = 1 then 4 * hi else 0) ≤ 0xC0000 → idx + 4 * hi ≤ 0xC0000 → out + 4 * len ≤ 0xC0000 →
    lo ≤ hi → statApart m out (4 * len) 4 →
    (∀ i, i ∈ kept → pageReads (s.forCmd m) (table % 2 ^ 56 + index i * len * 4) (len * 4) (row (index i))) →
    ∃ t, finishes s t c m true ∧ t.core.tile = s.core.tile
      ∧ (∀ e, e < len → let r := spadWord t (out + 4 * e)
        (kept = [] → r = 0) ∧ (mode = 0 → r = sum e)
          ∧ (∀ i is, mode = 1 → kept = i :: is →
            r = is.foldl (fun acc j => (ffma .f32 false false .rne 0 (w j) (v e j) acc).1) (fmul .f32 .rne 0 (w i) (v e i)).1)
          ∧ (mode = 2 → finite .f32 (sum e) → codeNumber .f32 (sum e) ≠ 0 →
            ∃ fl, roundsTo .f32 .rne 0 (FFmt.f32.neg (sum e)) ((codeNumber .f32 (sum e)).abs / kept.length) (r, fl))
          ∧ (∀ i is, mode = 3 → kept = i :: is →
            r = is.foldl (fun acc j => (minMaxNum .f32 true acc (v e j)).1) (v e i)))
      ∧ (m.f 12 4 ≠ 0xFFFFFFFF → spadWord t (m.f 12 4) = hi - lo - kept.length)
      ∧ ∀ a, (a < out ∨ out + 4 * len ≤ a) → ¬ inStat m 4 a → memRead t.core.spad a = memRead s.core.spad a

/-- R232 and R377: XCVT within the scratchpad keeps the elements that are not zero, in row order: their values, their
columns, the row pointers and the count; more than CAPNZ of them end it in ENGFAULT 34 with the first CAPNZ written and the
row pointers as they were. -/
def Sys2Proof.Claims.Compresses : Prop :=
  ∀ (s : State) (c : CtxNo) (m : Cmd), runsFrom s c m → m.op = .xcvt → m.headerOk = true → m.spare [(65, 15)] = true →
    let src := m.f 16 8
    let val := m.f 24 8
    let col := m.f 32 8
    let rptr := m.f 40 8
    let rows := m.f 48 4
    let cols := m.f 52 4
    let stride := m.f 56 4
    let cap := m.f 60 4
    let ty := m.f 64 1
    let size := match ty with
      | 0 | 4 | 11 | 12 => 1
      | 1 | 5 | 9 | 10 => 2
      | _ => 4
    let elementAt (k : Nat) : Nat := src + k / cols * stride + k % cols * size
    let zero (k : Nat) : Bool :=
      let x := littleEndian (readBytes s.core.spad (elementAt k) size)
      if 8 ≤ ty then x % 2 ^ (8 * size - 1) == 0 else x == 0
    let kept := (List.range (rows * cols)).filter fun k => !zero k
    let apart (a n b k : Nat) : Prop := a + n ≤ b ∨ b + k ≤ a
    let whole := (rows - 1) * stride + cols * size
    (ty ≤ 2 ∨ (4 ≤ ty ∧ ty ≤ 6) ∨ (8 ≤ ty ∧ ty ≤ 12)) → 1 ≤ rows → 1 ≤ cols → rows ≤ 2 ^ 24 → cols ≤ 2 ^ 24 →
    src + whole ≤ 0xC0000 → val + size * cap ≤ 0xC0000 → col + 4 * cap ≤ 0xC0000 → rptr + 4 * (rows + 1) ≤ 0xC0000 →
    apart src whole val (size * cap) → apart src whole col (4 * cap) → apart val (size * cap) col (4 * cap) →
    apart val (size * cap) rptr (4 * (rows + 1)) → apart col (4 * cap) rptr (4 * (rows + 1)) →
    statApart m val (size * cap) 4 → statApart m col (4 * cap) 4 → statApart m rptr (4 * (rows + 1)) 4 →
    let held (t : State) (n : Nat) : Prop := ∀ i k, i < n → kept[i]? = some k →
      readBytes t.core.spad (val + size * i) size = readBytes s.core.spad (elementAt k) size
        ∧ spadWord t (col + 4 * i) = k % cols
    (kept.length ≤ cap → ∃ t, finishes s t c m true ∧ held t kept.length
      ∧ (∀ i, i ≤ rows → spadWord t (rptr + 4 * i) = (kept.filter fun k => decide (k / cols < i)).length)
      ∧ (m.f 12 4 ≠ 0xFFFFFFFF → spadWord t (m.f 12 4) = kept.length)
      ∧ ∀ a, (a < val ∨ val + size * kept.length ≤ a) → (a < col ∨ col + 4 * kept.length ≤ a) →
        (a < rptr ∨ rptr + 4 * (rows + 1) ≤ a) → ¬ inStat m 4 a → memRead t.core.spad a = memRead s.core.spad a)
    ∧ (cap < kept.length → endsFaulting s c m 34 fun t => held t cap
      ∧ ∀ a, (a < val ∨ val + size * cap ≤ a) → (a < col ∨ col + 4 * cap ≤ a) →
        memRead t.core.spad a = memRead s.core.spad a)

/-- R173, R369: CELLLD gives rows FIRST to FIRST + COUNT − 1 (to 127 where COUNT is 0) the program it reads, or refuses
it with R173's code, or with 17 where the rows do not exist. -/
def Sys2Proof.Claims.LoadsPrograms : Prop :=
  ∀ (s : State) (c : CtxNo) (m : Cmd) (a first count : Word64), runsFrom s c m → m.op = .cellld →
    m.args = [a, first, count] → a.toNat + 64 ≤ 0xC0000 →
    let ws := (List.range 16).map fun i => BitVec.ofNat 32 (spadWord s (a.toNat + 4 * i))
    let rowsExist := first.toNat ≤ 127 ∧ first.toNat + count.toNat ≤ 128
    let same (t : State) : Prop := t.core.array = s.core.array ∧ t.core.spad = s.core.spad ∧ t.core.tile = s.core.tile
    (¬ rowsExist → endsFaulting s c m 17 same)
      ∧ (∀ n, rowsExist → progRefusal ws = some n → endsFaulting s c m n same)
      ∧ (rowsExist → progRefusal ws = none → ∃ t, finishes s t c m true ∧ t.core.spad = s.core.spad
        ∧ t.core.array.cells = s.core.array.cells
        ∧ ∀ i, i < 128 → tget [] t.core.array.progs i
          = if first.toNat ≤ i ∧ (count = 0 ∨ i < first.toNat + count.toNat) then ws else tget [] s.core.array.progs i)

/-- R366, R368, R370, R371 and R193: what MCALL refuses ends it with its sub-cause, as do a FLOWSET and an XWIN that
break their limits; an MCALL without rows on this core changes nothing; slot 62 clears the tile rectangle of m6 and sets
KIX of every cell to KBASE, whatever its format entry holds (log entry 42). -/
def Sys2Proof.Claims.MatrixCommandsFinish : Prop :=
  ∀ (s : State) (c : CtxNo) (m : Cmd) (entry : List Byte), runsFrom s c m →
    let same (t : State) : Prop := t.core.array = s.core.array ∧ t.core.spad = s.core.spad ∧ t.core.tile = s.core.tile
    let fresh := m.op = .mcall ∧ m.routine.started = false
    let refusal := (s.forCmd m).mcallRefusal m
    let row0 := nbits (m.par 6) 8 8
    let col0 := nbits (m.par 6) 0 8
    (∀ w, m.op = .flowset → m.args = [w] → w &&& 0xFFFFFFFFFF0000FC ≠ 0 → endsFaulting s c m 18 same)
      ∧ (m.op = .xwin → nestOk m.block = false → endsFaulting s c m 19 fun t => same t
        ∧ (t.ctxAt c).nest = (s.ctxAt c).nest)
      ∧ (∀ n, fresh → refusal = some n → endsFaulting s c m n same)
      ∧ (fresh → refusal = none → m.rows = 0 → ∃ t, finishes s t c m true ∧ same t)
      ∧ (fresh → refusal = none → m.slot = 62 → m.pod = false → row0 + m.rows ≤ 256 → col0 + m.cols ≤ 256 →
        pageReads (s.forCmd m) ((s.ctxAt c).ctrl.fmtb.toNat + 8 * m.fmtIx) 8 entry →
        ∃ t, finishes s t c m true ∧ t.core.spad = s.core.spad ∧ t.core.array.progs = s.core.array.progs
          ∧ t.core.array.flow = s.core.array.flow
          ∧ (∀ i x, i < m.rows → x < 4 * m.cols → memRead t.core.tile (1024 * (row0 + i) + 4 * col0 + x) = 0)
          ∧ (∀ a, (∀ i x, i < m.rows → x < 4 * m.cols → a ≠ 1024 * (row0 + i) + 4 * col0 + x) →
            memRead t.core.tile a = memRead s.core.tile a)
          ∧ ∀ k, k < 32768 → (tget Cell.reset t.core.array.cells k).kix = BitVec.ofNat 32 (nbits (m.par 4) 36 28))

/-- R174, R175 and R182: one step of a cell whose program is one word of FP32 or INT32 that accumulates west times north,
or the smaller of ACC and west plus north with its index; a masked step leaves ACC and AUX. KIX counts, and the latches
hold what entered. -/
def Sys2Proof.Claims.CellSteps : Prop :=
  ∀ (e : StepEnv) (x : Cell) (w n : Sig) (dg kn kw : Nat), w.word < 2 ^ 32 → n.word < 2 ^ 32 →
    let word (otimes oplus type : Nat) (idx : Bool) : CellWord :=
      ⟨otimes, oplus, 1, 0, 0, type, true, true, idx, true, 0, 0⟩
    let after (u : CellWord) : Cell := (cellStep e [u] x w n dg kn kw).1
    let wb := BitVec.ofNat 32 w.word
    let nb := BitVec.ofNat 32 n.word
    let smaller := (wb + nb).slt x.acc
    let unmasked := e.chunk * e.kc < e.k
    (unmasked → (after (word 0 0 0 false)).acc = BitVec.ofNat 32 (ffma .f32 false false .rne 0 w.word n.word x.acc.toNat).1
        ∧ (after (word 0 0 1 false)).acc = x.acc + wb * nb
        ∧ (after (word 1 1 1 true)).acc = (if smaller then wb + nb else x.acc)
        ∧ (after (word 1 1 1 true)).aux = (if smaller then x.kix else x.aux))
      ∧ (¬ unmasked → ∀ o p y i, (after (word o p y i)).acc = x.acc ∧ (after (word o p y i)).aux = x.aux
        ∧ (after (word o p y i)).block = x.block)
      ∧ ∀ u, (after u).kix = x.kix + 1 ∧ (after u).n = nb ∧ (after u).w = wb

/-- R43 and R379: CGLOAD of a graph that lies in local memory, each part within a page, takes it into its slot, or ends
with the code of the check that it fails and keeps the slot's graph. -/
def Sys2Proof.Claims.LoadsGraph : Prop :=
  ∀ (s : State) (c : CtxNo) (m : Cmd) (head body : List Byte), runsFrom s c m → m.op = .cgload → m.headerOk = true →
    m.spare [(24, 8)] = true → m.f 16 8 % 32 = 0 → s.core.printing m.graph = false →
    let n := fieldOf head 0 8 / 2 ^ 24 % 2 ^ 9
    let slot := ix4 (m.graph.setWidth 6)
    let ops := (List.range n).map fun i => (body.drop (32 * i)).take 32
    let keeps (sub : Nat) : Prop := endsFaulting s c m sub fun t => t.core.graphs = s.core.graphs
      ∧ t.core.spad = s.core.spad
    pageReads (s.forCmd m) (m.f 16 8) 32 head →
    (fieldOf head 0 8 / 2 ^ 48 ≠ 1 → keeps 1)
      ∧ (fieldOf head 0 8 / 2 ^ 48 = 1 → (n = 0 ∨ 256 < n) → keeps 2)
      ∧ (fieldOf head 0 8 / 2 ^ 48 = 1 → 1 ≤ n → n ≤ 256 → pageReads (s.forCmd m) (m.f 16 8 + 32) (32 * n) body →
        (∀ k, graphRefusal head ops = some k → keeps k)
          ∧ (graphRefusal head ops = none → ∃ t g, finishes s t c m true ∧ t.core.spad = s.core.spad
            ∧ t.core.graphs.get slot = some g ∧ (∀ i, i ≠ slot → t.core.graphs.get i = s.core.graphs.get i)
            ∧ g.level = fieldOf head 0 8 / 2 ^ 40 % 256 ∧ g.nbase = fieldOf head 0 8 / 2 ^ 20 % 16
            ∧ g.tmask = BitVec.ofNat 64 (fieldOf head 8 8) ∧ g.ops.length = n
            ∧ ∀ i o, g.ops[i]? = some o →
              let w0 := fieldOf body (32 * i) 8
              let w1 := fieldOf body (32 * i + 8) 8
              o.opk = w0 / 2 ^ 60 ∧ o.deps = w0 / 2 ^ 48 % 256 ∧ o.accop = w0 / 2 ^ 8 % 16 ∧ o.fmt = w0 / 2 ^ 4 % 16
                ∧ o.peer = BitVec.ofNat 16 (w1 / 2 ^ 48) ∧ o.pabs = w1.testBit 47 ∧ o.len = w1 % 2 ^ 32
                ∧ o.srcoff = BitVec.ofNat 64 (fieldOf body (32 * i + 16) 8)
                ∧ o.dstoff = BitVec.ofNat 64 (fieldOf body (32 * i + 24) 8)))

/-- R33, R47 and R378: an exchange one of whose participants on this module has not declared waits, and nothing moves. -/
def Sys2Proof.Claims.ExchangesWait : Prop :=
  ∀ (s : State) (c : CtxNo) (m : Cmd) (r core : Nat) (d : CtxNo), runsFrom s c m →
    (s.forCmd m).tree.modules ≤ 1 → r < (s.forCmd m).tree.size m.level.toNat →
    (s.forCmd m).nodeCtx (s.ctxAt c).bind.lslot m.level.toNat ((s.forCmd m).nodeAt m.level.toNat) r = some (core, d) →
    (s.forCmd m).declared core d m.op m.level = none →
    ((m.op = .a2aDisp ∧ m.dispFields = true) ∨ (m.op = .a2aComb ∧ m.combFields = true)
      ∨ (m.op = .repart ∧ m.repartFields = true ∧ m.repartOverlap = false)) →
    ∃ t, exec (.commandFinished .fabric c) s = .next t ∧ t.queueOf .fabric = s.queueOf .fabric ∧ t.hbm = s.hbm
      ∧ t.core.ctxs = s.core.ctxs ∧ t.core.spad = s.core.spad

/-- R55 and R383: REPART of one participant without records leaves 32 zero bytes of status, and nothing else. -/
def Sys2Proof.Claims.EmptyRepartition : Prop :=
  ∀ (s : State) (c : CtxNo) (m : Cmd), runsFrom s c m → m.op = .repart → m.repartFields = true → m.f 40 4 = 0 →
    m.f 12 4 + 32 ≤ 0xC0000 → s.fabric.reqs = [] → (s.forCmd m).nodeHere m = true →
    (∀ fits : Cmd → Bool, fits m = true → (s.forCmd m).participants m fits = [some m]) →
    ∃ t, finishes s t c m true ∧ readBytes t.core.spad (m.f 12 4) 32 = List.replicate 32 0
      ∧ ∀ a, (a < m.f 12 4 ∨ m.f 12 4 + 32 ≤ a) → memRead t.core.spad a = memRead s.core.spad a

/-- R48 and R381: what participants with these tokens, ids and tables exchange: each mapped pair below CAPE is placed in
its slot, in ascending rank, token and k position, with its provenance; the counts, the drop bits and the status. -/
def Sys2Proof.Claims.Dispatches : Prop :=
  ∀ (s : State) (ms : List Cmd) (ins : List DispIn) (size cape k : Nat), 1 ≤ k →
    (∀ m, m ∈ ms → m.f 72 4 = size ∧ m.f 76 4 = cape ∧ m.f 80 1 = k) → eachPart s.dispIn ms = .inl ins →
    let cmd (r : Nat) : Cmd := ms.getD r (Cmd.blank .a2aDisp)
    let data (r : Nat) : DispIn := ins.getD r ⟨[], [], []⟩
    let pairs (r : Nat) : List Nat := List.range ((cmd r).f 64 4 * k)
    let goal (r i : Nat) : Option (Nat × Nat) :=
      let id := fieldOf (data r).ids (2 * i) 2
      let e := fieldOf (data r).route (4 * id) 4
      let rank := e % 65536
      let slot := e / 65536 % 256
      if id < (cmd r).f 68 4 ∧ e / 2 ^ 24 % 2 = 1 ∧ rank < ms.length ∧ slot < (cmd rank).f 81 1 then some (rank, slot) else none
    let aimed (r n : Nat) (d : Nat × Nat) : Nat := ((List.range n).filter fun i => goal r i == some d).length
    let earlier (r i : Nat) (d : Nat × Nat) : Nat := ((List.range r).map fun q => aimed q (pairs q).length d).sum + aimed r i d
    let placed (r i : Nat) : Bool := match goal r i with
      | some d => decide (earlier r i d < cape)
      | none => false
    ∃ shares, s.runDisp ms = .inl shares ∧ shares.map Share.cmd = ms
      ∧ ∀ r x, shares[r]? = some x →
        let held (slot : Nat) : Nat := min cape (earlier ms.length 0 (r, slot))
        let slots := List.range ((cmd r).f 81 1)
        (∀ q i slot, q < ms.length → i < (pairs q).length → goal q i = some (r, slot) → placed q i = true →
            ((cmd r).f 40 8 + (slot * cape + earlier q i (r, slot)) * (size + 8),
              ((data q).tok.drop (size * (i / k))).take size ++ natToBytes 2 q ++ natToBytes 1 (i % k) ++ [0]
                ++ natToBytes 4 (i / k)) ∈ x.writes)
          ∧ ((cmd r).f 48 8, slots.flatMap fun slot => natToBytes 4 (held slot)) ∈ x.writes
          ∧ (∃ bits, ((cmd r).f 56 8, bits) ∈ x.writes ∧ bits.length = ((pairs r).length + 7) / 8
            ∧ ∀ i, i < (pairs r).length → (bits.getD (i / 8) 0).getLsbD (i % 8) = !placed r i)
          ∧ x.writes.length = (slots.map held).sum + 2
          ∧ x.stat = natToBytes 4 ((pairs r).filter (placed r)).length
            ++ natToBytes 4 ((pairs r).filter fun i => (goal r i).isSome && !placed r i).length
            ++ natToBytes 4 ((pairs r).filter fun i => (goal r i).isNone).length ++ natToBytes 4 (slots.map held).sum

/-- R49 and R382: what each participant of a combine writes, with these entries returned: for a token whose pairs that
were not dropped have all come back, their gated sum in ascending expert and k position, one rounding a term, or zeros and
an empty flag where there is none. -/
def Sys2Proof.Claims.Combines : Prop :=
  ∀ (s : State) (ms : List Cmd) (back : List (List Returned)) (ins : List DispIn) (k el : Nat), 1 ≤ k → 1 ≤ el →
    (∀ m, m ∈ ms → m.f 88 1 = k ∧ m.f 76 4 = el) → eachPart (fun m => s.returns m (List.range (m.f 89 1))) ms = .inl back →
    eachPart s.combIn ms = .inl ins →
    ∃ shares, s.runComb ms = .inl shares ∧ shares.map Share.cmd = ms
      ∧ ∀ r x, shares[r]? = some x →
        let d := ins.getD r ⟨[], [], []⟩
        let tokens := x.cmd.f 72 4
        ∃ out, x.writes = [(x.cmd.f 64 8, out)] ∧ x.stat = [] ∧ out.length = tokens * 4 * el + (tokens + 7) / 8
          ∧ ∀ t, t < tokens →
            let kept := (List.range k).filter fun j => !(d.route.getD ((t * k + j) / 8) 0).getLsbD ((t * k + j) % 8)
            let e (j : Nat) : Nat := fieldOf d.tok (2 * (t * k + j)) 2
            let gate (j : Nat) : Nat := fieldOf d.ids (4 * (t * k + j)) 4
            let entry (j : Nat) : Option Returned := back.flatten.find? fun a => a.rank == r && a.tok == t && a.kpos == j
            let y (i j : Nat) : Nat := fieldOf (((entry j).map Returned.y).getD []) (4 * i) 4
            (out.getD (tokens * 4 * el + t / 8) 0).getLsbD (t % 8) = kept.isEmpty
              ∧ ((∀ j, j ∈ kept → (entry j).isSome = true) → ∃ l : List Nat, l.Perm kept
                ∧ l.Pairwise (fun a b => e a < e b ∨ (e a = e b ∧ a < b))
                ∧ ∀ i, i < el → fieldOf out (4 * (t * el + i)) 4 = match l with
                  | [] => 0
                  | j :: js => js.foldl (fun acc q => (ffma .f32 false false .rne 0 (gate q) (y i q) acc).1)
                    (fmul .f32 .rne 0 (gate j) (y i j)).1)

/-- R51 to R55 and R383: where participants with these records send them: by the exclusive prefix of the weights in the
order of bucket, rank, key and source index; the place of each at its destination; what stays behind; and the status. A
Morton key interleaves the coordinates' bits. -/
def Sys2Proof.Claims.Repartitions : Prop :=
  (∀ (d b : Nat) (x : List Nat), 1 ≤ d → b < 21 * d →
      (repartKey d 0 x).testBit b = (x.getD (b % d) 0).testBit (b / d))
    ∧ ∀ (s : State) (ms : List Cmd) (datas : List (List Byte)) (size at_ wat dims curve : Nat), 2 ≤ dims → dims ≤ 3 →
      (∀ m, m ∈ ms → m.f 52 2 = size ∧ m.f 54 2 = at_ ∧ m.f 56 2 = wat ∧ m.f 58 1 = dims ∧ m.f 59 1 = curve) →
      eachPart (fun m => s.partRead m (m.f 16 8) (m.f 40 4 * m.f 52 2) 0) ms = .inl datas →
      let cmd (r : Nat) : Cmd := ms.getD r (Cmd.blank .repart)
      let all : List (Nat × Nat) := (List.range ms.length).flatMap fun r => (List.range ((cmd r).f 40 4)).map (r, ·)
      let bytes (x : Nat × Nat) : List Byte := ((datas.getD x.1 []).drop (size * x.2)).take size
      let key (x : Nat × Nat) : Nat := repartKey dims curve ((List.range dims).map fun j => fieldOf (bytes x) (at_ + 4 * j) 4 % 2 ^ 21)
      let own (x : Nat × Nat) : Nat := if wat = 0xFFFF then 1 else fieldOf (bytes x) wat 4
      let weight (x : Nat × Nat) : Nat := if all.all fun y => own y == 0 then 1 else own x
      let bucket (x : Nat × Nat) : Nat := key x / 2 ^ (21 * dims - 12)
      let first (x y : Nat × Nat) : Bool :=
        x.1 < y.1 || (x.1 == y.1 && (key x < key y || (key x == key y && x.2 < y.2)))
      let sooner (x y : Nat × Nat) : Bool := bucket x < bucket y || (bucket x == bucket y && first x y)
      let total := (all.map weight).sum
      let prefix_ (x : Nat × Nat) : Nat := ((all.filter fun y => sooner y x).map weight).sum
      let dest (x : Nat × Nat) : Nat := min (ms.length - 1) (prefix_ x * ms.length / total)
      let place (x : Nat × Nat) : Nat := (all.filter fun y => dest y == dest x && first y x).length
      let stays (x : Nat × Nat) : Bool := (cmd (dest x)).f 44 4 + (cmd (dest x)).f 48 4 ≤ place x
      ∃ shares, s.runRepart ms = .inl shares ∧ shares.map Share.cmd = ms
        ∧ ∀ r x, shares[r]? = some x →
          let cap := x.cmd.f 44 4
          let over_ := x.cmd.f 48 4
          let here := all.filter fun y => dest y == r
          let left := ((all.filter fun y => y.1 == r && stays y).map bytes)
          ∃ recv ovf free, x.writes = [(x.cmd.f 24 8, recv), (x.cmd.f 32 8, ovf), (x.cmd.f 16 8, left.flatten),
              (x.cmd.f 16 8 + left.length * size, free)]
            ∧ recv.length = size * min cap here.length ∧ ovf.length = size * min over_ (here.length - cap)
            ∧ free.length = (x.cmd.f 40 4 - left.length) * size
            ∧ (∀ y, y ∈ here → place y < cap → (recv.drop (size * place y)).take size = bytes y)
            ∧ (∀ y, y ∈ here → cap ≤ place y → place y < cap + over_ →
              (ovf.drop (size * (place y - cap))).take size = bytes y)
            ∧ x.stat = natToBytes 4 (min cap here.length) ++ natToBytes 4 (min over_ (here.length - cap))
              ++ natToBytes 4 left.length ++ natToBytes 4 (here.length - (cap + over_))
              ++ natToBytes 8 total ++ natToBytes 8 (here.map weight).sum

/-- R202: the merge loop ends where no pair of the table is left; else it replaces the pair of lowest rank, and the first
of those, by the entry's result; an entry that a pair finds and that is malformed stops it (R200). -/
def Sys2Proof.Claims.Merges : Prop :=
  ∀ (ms : List Merge) (ntok n : Nat) (toks : List Nat),
    let pairAt (i : Nat) (x : Merge) : Prop := x ∈ ms ∧ toks[i]? = some x.left ∧ toks[i + 1]? = some x.right
    (∀ x y, x ∈ ms → y ∈ ms → x.left = y.left → x.right = y.right → x = y) →
    ((∀ i x, ¬ pairAt i x) → mergeLoop ms ntok n toks = some toks)
      ∧ ((∃ i x, pairAt i x ∧ (x.ordered = false ∨ ntok ≤ x.result)) → mergeLoop ms ntok (n + 1) toks = none)
      ∧ ∀ i x, pairAt i x → (∀ j y, pairAt j y → x.rank < y.rank ∨ (x.rank = y.rank ∧ i ≤ j)) →
        (∀ j y, pairAt j y → y.ordered = true ∧ y.result < ntok) →
        mergeLoop ms ntok (n + 1) toks = mergeLoop ms ntok n (toks.take i ++ [x.result] ++ toks.drop (i + 2))

/-- The fields of a block that TXT.ENC and TXT.DEC limit, and a stream record and a vocabulary that lie in local memory,
each within one page, without an error; `pa` is where the record is written (R199 to R201, R384). -/
def Sys2Proof.Claims.streams (s : State) (c : CtxNo) (m : Cmd) (dec : Bool) (r h : List Byte) (pa : Nat) : Prop :=
  let u := s.forCmd m
  runsFrom s c m ∧ m.op = (if dec then .txtDec else .txtEnc) ∧ m.headerOk = true ∧ m.f 12 4 = 0xFFFFFFFF
    ∧ m.spare [(49, 15)] = true ∧ m.f 48 1 ≤ 1 ∧ m.f 16 8 % 64 = 0 ∧ m.f 24 8 < 0xC0000 ∧ m.f 32 8 < 0xC0000
    ∧ m.spoilt = false ∧ pageReads u (m.f 16 8) 2048 r ∧ streamOk r dec = true
    ∧ pageReads u (fieldOf r 8 8) 64 h ∧ fieldOf r 8 8 % 64 = 0 ∧ vocabOk h = true ∧ s.badHbm = []
    ∧ ∃ tgt md nc, u.translate (BitVec.ofNat 64 (m.f 16 8)) .write = .ok tgt md pa nc ∧ localHbm tgt md = true
      ∧ pa + 2048 ≤ hbmSize

/-- R199, R200, R202 and R204: on a stream that is not open, TXT.ENC and TXT.DEC set LASTIN and LASTOUT to 0 and write
nothing else. A FINAL TXT.ENC of at most 1,024 ASCII bytes, without merges and classes, writes a token a byte and finishes
the stream. A TXT.DEC of tokens whose strings are valid UTF-8, without stop strings, writes them one after another. -/
def Sys2Proof.Claims.StreamsRun : Prop :=
  ∀ (s : State) (c : CtxNo) (m : Cmd) (r h : List Byte) (pa : Nat) (dec : Bool), streams s c m dec r h pa →
    let u := s.forCmd m
    let vocab := fieldOf r 8 8
    let inp := m.f 24 8
    let out := m.f 32 8
    let n := m.f 40 4
    let ends (t : State) : Prop := exec (.commandFinished .text c) s = .next t ∧ ended s t .text m true
      ∧ ∀ a, (a < pa ∨ pa + 2048 ≤ a) → memRead t.hbm a = memRead s.hbm a
    let open_ := fieldOf r 4 1 = 0
    let counted (t : State) (toks bytes : Nat) : Prop :=
      let w := readBytes t.hbm pa 2048
      fieldOf w 32 8 = (fieldOf r 32 8 + toks) % 2 ^ 64 ∧ fieldOf w 40 8 = (fieldOf r 40 8 + bytes) % 2 ^ 64
        ∧ (∀ i, i < 16 ∨ (20 ≤ i ∧ i < 23) → i ≠ 4 → w[i]? = r[i]?) ∧ w.drop 56 = r.drop 56
    (¬ open_ → ∃ t, ends t ∧ t.core.spad = s.core.spad
      ∧ readBytes t.hbm pa 2048 = r.take 48 ++ List.replicate 8 0 ++ r.drop 56)
    ∧ (open_ → dec = false → m.f 48 1 = 1 → fieldOf r 20 2 = 0 → fieldOf r 3 1 = 0 → n ≤ 1024 → n ≤ m.f 44 4 →
      inp + n ≤ 0xC0000 → out + 4 * n ≤ 0xC0000 → (∀ i, i < n → (memRead s.core.spad (inp + i)).toNat < 0x80) →
      fieldOf h 16 4 = 0 → pageReads u (vocab + fieldOf h 40 8) 256 (List.replicate 256 0) →
      ∃ t, ends t ∧ counted t n n
        ∧ (∀ i, i < n → spadWord t (out + 4 * i) = fieldOf h 12 4 + (memRead s.core.spad (inp + i)).toNat)
        ∧ (∀ a, (a < out ∨ out + 4 * n ≤ a) → memRead t.core.spad a = memRead s.core.spad a)
        ∧ memRead t.hbm (pa + 4) = 3 ∧ memRead t.hbm (pa + 23) = 0
        ∧ littleEndian (readBytes t.hbm (pa + 48) 4) = n ∧ littleEndian (readBytes t.hbm (pa + 52) 4) = n)
    ∧ (open_ → dec = true → m.f 48 1 = 0 → fieldOf r 5 1 = 0 → fieldOf r 6 1 = 0 → fieldOf r 7 1 = 0 →
      inp + 4 * n ≤ 0xC0000 → ∀ string : Nat → List Byte,
      let toks := (List.range n).map fun i => spadWord s (inp + 4 * i)
      let text := toks.flatMap string
      (∀ x, x ∈ toks → x < fieldOf h 8 4 ∧ utf8Valid (string x).length (string x) = true ∧ 1 ≤ (string x).length
        ∧ (string x).length ≤ 64
        ∧ (fieldOf h 12 4 ≤ x → x < fieldOf h 12 4 + 256 → string x = [BitVec.ofNat 8 (x - fieldOf h 12 4)])
        ∧ ∃ off, pageReads u (vocab + (fieldOf h 24 8 + 8 * x)) 8
            (natToBytes 4 off ++ natToBytes 2 (string x).length ++ [0, 0])
          ∧ off < 2 ^ 32 ∧ fieldOf h 48 8 + off + (string x).length ≤ fieldOf h 56 8
          ∧ pageReads u (vocab + (fieldOf h 48 8 + off)) (string x).length (string x)) →
      text.length ≤ m.f 44 4 → out + text.length ≤ 0xC0000 →
      ∃ t, ends t ∧ counted t n text.length ∧ readBytes t.core.spad out text.length = text
        ∧ (∀ a, (a < out ∨ out + text.length ≤ a) → memRead t.core.spad a = memRead s.core.spad a)
        ∧ memRead t.hbm (pa + 4) = 0
        ∧ littleEndian (readBytes t.hbm (pa + 48) 4) = n ∧ littleEndian (readBytes t.hbm (pa + 52) 4) = text.length)

/-- R206: the runs of a state of an automaton whose table entry and runs lie in local memory, each within one page. -/
def Sys2Proof.Claims.hasRuns (u : State) (a : Automaton) (st : Nat) (runs : Runs) : Prop :=
  ∃ e d, pageReads u (a.base + (a.stOff + 16 * st)) 16 e ∧ fieldOf e 8 4 ≤ 1 ∧ fieldOf e 12 4 = 0
    ∧ a.runOff + 12 * (fieldOf e 0 4 + fieldOf e 4 4) ≤ a.len
    ∧ pageReads u (a.base + (a.runOff + 12 * fieldOf e 0 4)) (12 * fieldOf e 4 4) d
    ∧ runs = (List.range (fieldOf e 4 4)).map (fun i => (fieldOf d (12 * i) 4, fieldOf d (12 * i + 4) 4, fieldOf d (12 * i + 8) 4))
    ∧ runsOk a 0 runs = true

/-- R207: the walk over tokens: the state it ends in and the tokens followed. -/
def Sys2Proof.Claims.walk (runs : Nat → Runs) : List Nat → Nat → Nat × Nat
  | [], st => (st, 0)
  | x :: xs, st =>
    match (runs st).find? fun r => decide (r.1 ≤ x ∧ x < r.1 + r.2.1) with
    | none => (0xFFFFFFFF, 0)
    | some r => ((walk runs xs r.2.2).1, (walk runs xs r.2.2).2 + 1)

/-- R206, R207 and R385: TXT.MASK of an automaton in local memory, with its buffer in the scratchpad, writes the bitmap of
a state and the number of its words, or follows a list of tokens; a starting state that does not exist is 42, a buffer too
short 43. -/
def Sys2Proof.Claims.Masks : Prop :=
  ∀ (s : State) (c : CtxNo) (m : Cmd) (h : List Byte) (a : Automaton), runsFrom s c m → m.op = .txtMask →
    m.headerOk = true → m.spare [(29, 3), (44, 4)] = true → m.f 28 1 ≤ 1 → m.f 32 8 < 0xC0000 →
    let u := s.forCmd m
    let st := m.f 24 4
    let buf := m.f 32 8
    let words := (a.ntok + 31) / 32
    let same (t : State) : Prop := t.core.spad = s.core.spad
    pageReads u (m.f 16 8) 64 h → automatonOf (m.f 16 8) h = some a →
    (a.nstate ≤ st → endsFaulting s c m 42 same)
      ∧ (st < a.nstate → m.f 28 1 = 0 → m.f 40 4 < 4 * words → endsFaulting s c m 43 same)
      ∧ (∀ runs, st < a.nstate → m.f 28 1 = 0 → 4 * words ≤ m.f 40 4 → buf + 4 * words ≤ 0xC0000 →
        statApart m buf (4 * words) 4 → hasRuns u a st runs →
        ∃ t, finishes s t c m true
          ∧ (∀ x, x < 32 * words → (memRead t.core.spad (buf + x / 8)).getLsbD (x % 8)
            = decide (x < a.ntok ∧ ∃ r, r ∈ runs ∧ r.1 ≤ x ∧ x < r.1 + r.2.1))
          ∧ (m.f 12 4 ≠ 0xFFFFFFFF → spadWord t (m.f 12 4) = words)
          ∧ ∀ x, (x < buf ∨ buf + 4 * words ≤ x) → ¬ inStat m 4 x → memRead t.core.spad x = memRead s.core.spad x)
      ∧ ∀ runs : Nat → Runs, st < a.nstate → m.f 28 1 = 1 → buf + 4 * m.f 40 4 ≤ 0xC0000 → m.f 12 4 + 8 ≤ 0xC0000 →
        (∀ x, x < a.nstate → hasRuns u a x (runs x)) →
        let toks := (List.range (m.f 40 4)).map fun i => spadWord s (buf + 4 * i)
        ∃ t, finishes s t c m true ∧ spadWord t (m.f 12 4) = (walk runs toks st).1
          ∧ spadWord t (m.f 12 4 + 4) = (walk runs toks st).2
          ∧ ∀ x, ¬ inStat m 8 x → memRead t.core.spad x = memRead s.core.spad x

/-- R43, R48 to R55, R150, R173, R174, R191 to R207, R232, R360 and R365 to R385: a running command finishes, with its
effect on the scratchpad, the tile store, the array and its cells, the graph slots, the stream records and the buffers of
an exchange. The model's choices in it: log entries 38, 42 and 46. -/
def Obligations.CommandFinished : Prop :=
  Claims.SomeCommandsFinish ∧ Claims.ReservedHeaderBits ∧ Claims.TileCopies ∧ Claims.Gathers ∧ Claims.PoolsBag
    ∧ Claims.Compresses ∧ Claims.LoadsPrograms ∧ Claims.MatrixCommandsFinish ∧ Claims.CellSteps ∧ Claims.LoadsGraph
    ∧ Claims.ExchangesWait ∧ Claims.EmptyRepartition ∧ Claims.Dispatches ∧ Claims.Combines ∧ Claims.Repartitions
    ∧ Claims.Merges ∧ Claims.StreamsRun ∧ Claims.Masks

/-- R230 and R222: an engine fault that waits traps the RUNNING context, outside handler mode, at its next bundle
boundary, with the pc of the bundle that stands there: with a handler, and with nothing pending and at most 64 results in
flight, its cause, address and detail are saved, the results captured, and the context stands at TVEC in handler mode with
two bubbles; otherwise the fault stays. The model's choices in it: log entry 84. -/
def Sys2Proof.Claims.EngineFaultDelivery : Prop :=
  ∀ (s : State) (c : CtxNo),
    let x := s.ctxAt c
    let boundary : Prop := s.core.running = some c ∧ s.core.freeze = 0 ∧ s.core.tableRead = false ∧ x.bubbles = 0
      ∧ x.waits.entering = none
    (∀ f rest, boundary → x.waits.faults = f :: rest → x.hm = false → ∃ info,
        exec (.engineFaultDelivery c) s
          = exec (.trapEntry c cENGFAULT x.pc f.eaddr info)
            (s.modCtxAt c fun y => { y with waits := { y.waits with faults := rest } })
        ∧ info.extractLsb' 0 32 = f.detail)
      ∧ (∀ f rest, boundary → x.waits.faults = f :: rest → x.hm = false → x.ctrl.tvec ≠ 0 → x.pend = [] →
        x.flight.length ≤ 64 → (∀ g i, g ∈ x.flight → g.dest ≠ .cr i ∧ g.dest ≠ .flags) →
        ∃ t, exec (.engineFaultDelivery c) s = .next t ∧
          let y := t.ctxAt c
          y.waits.faults = rest ∧ y.ctrl.ecause = 16 ∧ y.ctrl.epc = x.pc &&& 0x00FFFFFFFFFFFFF8
            ∧ y.ctrl.eaddr = f.eaddr ∧ y.ctrl.einfo = f.detail.setWidth 64
            ∧ y.ctrl.status = ((x.ctrl.status >>> 3 &&& 1) <<< 32) ||| (x.ctrl.status &&& 6) ||| 1
            ∧ y.pc = x.ctrl.tvec ∧ y.bubbles = 2 ∧ y.state = .running ∧ y.flight = []
            ∧ (∀ g, g ∈ x.flight → ∃ l, l ∈ y.latent ∧ l.byTrap = true ∧ l.valid = true
              ∧ l.flight.dest = g.dest ∧ l.flight.value = g.value ∧ l.flight.rem = g.rem)
            ∧ y.regs = x.regs ∧ y.retStack = x.retStack ∧ y.loops = x.loops
            ∧ (∀ k, k ≠ c → t.ctxAt k = s.ctxAt k) ∧ t.hbm = s.hbm ∧ t.core.spad = s.core.spad)
      ∧ (¬ boundary ∨ x.waits.faults = [] ∨ x.hm = true → exec (.engineFaultDelivery c) s = .next s)

/-- R168, R229 and R230: a command starts, and an engine's fault is delivered. -/
def Obligations.CommandsStartAndFault : Prop := Claims.CommandStart ∧ Claims.EngineFaultDelivery

/-! ## Events of a core -/

/-- R105, R156, R163, R161 and R304: in a cycle the results that are due land, the later-issued standing, and the
others come one cycle nearer; a pending value whose replies are all in arrives, 0 and poisoned where it met an
uncorrectable error; a register line that is being fetched arrives from its home and is resident. What lands on a line
that is not resident waits for it, and stands over its bytes. The model's choices in it: log entry 18. -/
def Obligations.ResultsLand : Prop :=
  ∀ (s : State) (c : CtxNo) (line : Nat),
    let x := s.ctxAt c
    let due (f g : Flight) : Prop := f ∈ x.flight ∧ f.rem ≤ 1 ∧ f.dest = g.dest
    let stands (g : Flight) : Prop := due g g ∧ ∀ f, due f g → f = g ∨ f.seq < g.seq
    let here (n : Nat) : Prop := x.resident.getLsbD n = true
    (s.fr.arrived = [] → ∃ t, exec .resultLanding s = .next t ∧ t.hbm = s.hbm ∧ t.core.tile = s.core.tile ∧
        let y := t.ctxAt c
        (∀ g n, stands g → g.dest = .s n → n ≠ 0 → here (n.toNat / 32) →
          y.regs.s.get ⟨n.toNat, n.isLt⟩ = g.value.setWidth 64)
        ∧ (∀ g n, due g g → g.dest = .s n → ¬ here (n.toNat / 32) → (g.dest, g.value) ∈ y.overlay
          ∧ y.regs.s.get ⟨n.toNat, n.isLt⟩ = x.regs.s.get ⟨n.toNat, n.isLt⟩)
        ∧ (∀ g n, stands g → g.dest = .p n → n ≠ 0 → here 4 → (∀ f m, f ∈ x.flight → f.dest = .p m → m.toNat < 16) →
          y.regs.p.get (ix16 n) = g.value.getLsbD 0)
        ∧ (∀ g, stands g → g.dest = .cr 5 → y.ctrl.tvec = g.value.setWidth 64)
        ∧ (∀ g es, due g g → g.dest = .cr 10 → x.newSeq = some es → y.seqCache = es ∧ y.newSeq = none)
        ∧ (∀ g es, due g g → g.dest = .cr 9 → x.newBind = some es → y.bindStore = es ∧ y.newBind = none)
        ∧ ((∀ g, due g g → g.dest ≠ .cr 10) → y.seqCache = x.seqCache)
        ∧ ((∀ g, due g g → g.dest ≠ .cr 9) → y.bindStore = x.bindStore)
        ∧ (∀ g, stands g → g.dest = .cr 0 → (∀ f, due f g → f = g) → x.flight.count g = 1 →
          y.ctrl.status = (g.value.setWidth 64 &&& 0xFFFFFFFF00000008)
            ||| (x.ctrl.status &&& (5 ||| (g.value.setWidth 64 &&& 2))))
        ∧ (∀ n : Fin 64, (∀ g, due g g → g.dest ≠ .s (BitVec.ofNat 6 n.val)) → y.regs.s.get n = x.regs.s.get n)
        ∧ y.flight = (x.flight.filter fun f => decide (1 < f.rem)).map (fun f : Flight => { f with rem := f.rem - 1 })
        ∧ y.pend = x.pend ∧ y.retStack = x.retStack)
      ∧ (∀ p d v, x.pend.find? (fun p => p.left == 0 && p.due.all (· == 0)) = some p → p.parts = [(.s d, v)] → d ≠ 0 →
        ∃ t, exec (.pendingArrival c) s = .next t ∧
          let y := t.ctxAt c
          (here (d.toNat / 32) → y.regs.s.get ⟨d.toNat, d.isLt⟩ = (if p.bad then 0 else v.setWidth 64)
            ∧ y.overlay = x.overlay)
          ∧ (¬ here (d.toNat / 32) → y.regs = x.regs ∧ y.overlay = x.overlay ++ [(.s d, if p.bad then 0 else v)])
          ∧ y.poison = x.poison ++ (if p.bad then [(p.id, .s d, p.addr)] else [])
          ∧ y.pend = x.pend.filter (fun q => q.id != p.id) ∧ y.flight = x.flight
          ∧ (∀ n : Fin 64, n.val ≠ d.toNat → y.regs.s.get n = x.regs.s.get n)
          ∧ (∀ k, k ≠ c → t.ctxAt k = s.ctxAt k) ∧ t.hbm = s.hbm ∧ t.core.spad = s.core.spad)
      ∧ (x.pend.find? (fun p => p.left == 0 && p.due.all (· == 0)) = none → exec (.pendingArrival c) s = .next s)
      ∧ (∀ b, (c, line) ∈ s.core.fills → line < 69 → s.readLine c line = .inl b →
        ∃ t, exec (.registerCacheFill c line) s = .next t ∧
          let y := t.ctxAt c
          (∀ i, i < 69 → y.resident.getLsbD i = (x.resident.getLsbD i || decide (i = line)))
          ∧ (line < 2 → x.overlay = [] → ∀ i, i < 32 → ∀ n : Fin 64, n.val = 32 * line + i → n ≠ 0 →
            y.regs.s.get n = BitVec.ofNat 64 (littleEndian ((b.drop (8 * i)).take 8)))
          ∧ (∀ n v, x.overlay.getLast? = some (.s n, v) → n.toNat / 32 = line → n ≠ 0 →
            y.regs.s.get ⟨n.toNat, n.isLt⟩ = v.setWidth 64)
          ∧ (∀ e, e ∈ y.overlay ↔ e ∈ x.overlay ∧ e.1.line ≠ some line)
          ∧ (∀ n : Fin 64, n.val / 32 ≠ line → y.regs.s.get n = x.regs.s.get n)
          ∧ y.regs.s.get 0 = x.regs.s.get 0 ∧ t.core.fills = s.core.fills.filter (· != (c, line)) ∧ t.hbm = s.hbm)
      ∧ (∀ k, (c, line) ∈ s.core.fills → s.readLine c line = .inr k → ∃ t, exec (.registerCacheFill c line) s = .next t
          ∧ t.core.ctxs = s.core.ctxs ∧ t.core.fills = s.core.fills.filter (· != (c, line)))
      ∧ ((c, line) ∉ s.core.fills → exec (.registerCacheFill c line) s = .next s)

/-- R102, R106, R120, R122, R152 and R354: what ends a hold makes a WAITING context READY in this cycle: its condition, an
engine fault outside handler mode (R230), a timeout, a write to a word that its WAITA watches (cause 0), or that WAITA's
timeout (cause 2). -/
def Sys2Proof.Claims.HoldsEnd : Prop :=
  ∀ (s : State) (c : CtxNo) (word : Nat) (space : Bool),
    let x := s.ctxAt c
    let readied : State := s.modCtxAt c fun x => { x with state := .ready, readySince := s.core.now }
    let ends (i : Instr) (p : Prop) : Prop := (p → exec i s = .next readied) ∧ (¬ p → exec i s = .next s)
    let timedOut (h : Hold) : Prop :=
      x.state = .waiting ∧ x.waits.heldC = true ∧ s.holdLimit c h ≠ 0 ∧ s.holdLimit c h ≤ x.waits.cycles
    let wakes (i : Instr) (hit : WaitRec → Bool) (cause : Nat) : Prop := ∃ t, exec i s = .next t ∧
      let y := t.ctxAt c
      y.waits.waita = x.waits.waita.map (fun r => if r.cause.isNone && hit r then { r with cause := some cause } else r)
        ∧ (x.waits.waita.any (fun r => r.cause.isNone && hit r) = true → x.state = .waiting →
          y.state = .ready ∧ y.readySince = s.core.now)
        ∧ (x.waits.waita.any (fun r => r.cause.isNone && hit r) = false ∨ x.state ≠ .waiting →
          y.state = x.state ∧ y.readySince = x.readySince)
        ∧ y.regs = x.regs ∧ y.pc = x.pc ∧ t.hbm = s.hbm ∧ t.core.spad = s.core.spad
    ends (.holdEnd c)
        (x.state = .waiting ∧ x.waits.entering = none
          ∧ ((x.waits.faults ≠ [] ∧ x.hm = false) ∨ s.stillHeld c = false))
      ∧ ends (.waitcTimeout c) (timedOut .waitc) ∧ ends (.qgetTimeout c) (timedOut .qget)
      ∧ ends (.qputTimeout c) (timedOut .qput)
      ∧ wakes (.waitaTimeout c) (fun r => r.timeout != 0 && decide (r.timeout ≤ r.age)) 2
      ∧ wakes (.waitaWake word space) (fun r => match r.word with
        | .spad core a => !space && core == s.coreIx && decide (a < word + 4) && decide (word < a + r.width)
        | .hbm a => space && decide (a < word + 4) && decide (word < a + r.width)) 0

/-- R107, R108 and R166: a RUNNING context at a boundary gives the slot to the READY context that has been READY
longest once one has been READY for 64 cycles; the nullifier skips the run of bundles of which no guard is true or has a
write on its way, judged on what the first of them would see. The model's choices in it: log entries 84, 94 and 118. -/
def Sys2Proof.Claims.SlotChanges : Prop :=
  ∀ (s : State) (n : Nat),
    let r (k : CtxNo) : Nat := (s.ctxAt k).readySince
    let ready (k : CtxNo) : Prop := (s.ctxAt k).state = .ready
    let still (c : CtxNo) : Prop := s.core.freeze = 0 ∧ s.core.tableRead = false ∧ (s.ctxAt c).bubbles = 0
      ∧ (s.ctxAt c).waits.entering = none
    (∀ c d, s.core.running = some c → ready d → (∀ k, ready k → k ≠ d → r d < r k) → still c →
        r d + 64 ≤ s.core.now → ∃ t, exec .timesliceExpiry s = .next t
          ∧ (t.ctxAt c).state = .ready ∧ (t.ctxAt c).readySince = s.core.now ∧ (t.ctxAt d).state = .running
          ∧ (t.ctxAt c).regs = (s.ctxAt c).regs ∧ (t.ctxAt c).pc = (s.ctxAt c).pc
          ∧ (∀ k, k ≠ c → k ≠ d → t.ctxAt k = s.ctxAt k) ∧ t.hbm = s.hbm)
      ∧ ((∀ k, ready k → s.core.now < r k + 64) → exec .timesliceExpiry s = .next s)
      ∧ (∀ c, s.core.running = some c →
        let u := (s.modCtxAt c Ctx.replay).landCycle.present c 0
        let k := (u.skipRun (s.ctxAt c).pc 16).1
        let pc := (u.skipRun (s.ctxAt c).pc 16).2
        (¬ still c ∨ k = 0 ∨ k ≠ n → exec (.nullifierSkip n) s = .next s)
          ∧ (still c → k ≠ 0 → k = n → ∃ t, exec (.nullifierSkip n) s = .next t ∧ (t.ctxAt c).pc = pc
            ∧ (t.ctxAt c).bubbleWhy = .skip ∧ (t.ctxAt c).bubbles ≠ 0 ∧ (t.ctxAt c).regs = (s.ctxAt c).regs
            ∧ t.core.counters.nullbun = s.core.counters.nullbun + BitVec.ofNat 64 k
            ∧ (∃ b, u.bundleAt (s.ctxAt c).pc = .inl b ∧ ∀ p, p ∈ b.syls →
              u.guardTrue p = false ∧ u.ctx.predBusy (p.syl.gp.setWidth 6) = false)
            ∧ k ≤ 16 ∧ t.hbm = s.hbm ∧ ∀ j, j ≠ c → t.ctxAt j = s.ctxAt j))

/-- R102, R106 to R108 and R166: holds end, and the issue slot changes hands. -/
def Obligations.HoldsAndSlots : Prop := Claims.HoldsEnd ∧ Claims.SlotChanges

/-- R142, R144 and R148: with nothing of its context left to wait for, a fence supplies the status of the paths it
names and clears their records, and drops the line cache where it must; a release performs its store at its home, or,
where a bound write failed, counts one failed store and performs nothing. The model's choices in it: log entries 25,
26 and 117. -/
def Sys2Proof.Claims.FencesAndReleasesEnd : Prop :=
  ∀ (s : State) (c : CtxNo) (d : Reg), s.fabric.reqs = [] → (s.ctxAt c).behind = [] →
    let x := s.ctxAt c
    (∀ f, x.fences = [f] → x.releases = [] → (∀ p, p ∈ x.pend → p.id < f.id → p.left = 0) →
      (∀ m, m ∈ s.commands s.coreIx → m.ctx = c → f.cmd ≤ m.id) → (∀ l, l ∈ s.core.lines → l.dirty = 0) →
      let named : List (Fin 5) := [0, 1, 2, 3, 4].filter fun i => f.paths.getLsbD i.val
      ∃ (t : State) (w : Word64), exec (.fenceComplete c) s = .next t ∧
        let y := t.ctxAt c
        y.fences = []
        ∧ w.extractLsb' 32 32
          = BitVec.ofNat 32 (min ((named.map fun i => (x.fail.get i).nfail).sum) 4294967295)
        ∧ (∀ i : Fin 5, w.getLsbD (8 + i.val) = (f.paths.getLsbD i.val
          && ((x.fail.get i).bits != 0 || (x.fail.get i).nfail != 0)))
        ∧ (∀ b, 1 ≤ b → b ≤ 5 → w.getLsbD b = named.any fun i => (x.fail.get i).bits.getLsbD b)
        ∧ w.getLsbD 0 = named.any (fun i => (x.fail.get i).bits != 0 || (x.fail.get i).nfail != 0)
        ∧ w.extractLsb' 6 2 = 0 ∧ w.extractLsb' 13 19 = 0
        ∧ (∀ i : Fin 5, y.fail.get i = if f.paths.getLsbD i.val then ⟨0, 0⟩ else x.fail.get i)
        ∧ (∀ p, p ∈ x.pend → p.id = f.id → p.parts = [(.s d, 0)] → ∃ q, q ∈ y.pend ∧ q.id = f.id
          ∧ q.left = p.left - 1 ∧ q.parts = [(.s d, w.setWidth 512)])
        ∧ (f.level = 63 → f.flushed = false → t.core.lines = [])
        ∧ y.regs = x.regs ∧ t.hbm = s.hbm ∧ t.core.spad = s.core.spad)
      ∧ (∀ r, x.fences = [] → x.releases = [r] → r.entries = [] → r.atom = none → s.core.lines = [] →
        r.tgt = 0 → linesBad s r.pa r.width = false → r.pa + r.width ≤ hbmSize → Safety.stateOk s = true →
        ∃ t, exec (.releasePerform c) s = .next t ∧ (t.ctxAt c).releases = []
          ∧ littleEndian (readBytes t.hbm r.pa r.width) = r.operand.toNat % 2 ^ (8 * r.width)
          ∧ ∀ a, a < r.pa ∨ r.pa + r.width ≤ a → memRead t.hbm a = memRead s.hbm a)
      ∧ (∀ r, x.fences = [] → x.releases = [r] → x.boundLost r = true → s.commands s.coreIx = [] → s.core.lines = [] →
        ∃ t, exec (.releasePerform c) s = .next t ∧ (t.ctxAt c).releases = [] ∧ t.hbm = s.hbm
          ∧ ((t.ctxAt c).fail.get 0).nfail = min ((x.fail.get 0).nfail + 1) 4294967295)

/-- R141, R142, R144 and R148: fences and releases, from their issue to their end. -/
def Obligations.FencesAndReleases : Prop := Claims.FencesAndLineInvalidation ∧ Claims.FencesAndReleasesEnd

/-- R134, R135 and R144: a walk that succeeds installs its leaf translation in the caches of the pod and of the hub,
where they hold none for the address; a line write-back that fails is recorded, one failed write for each run of dirty
bytes, in every context of the launch on the core. The model's choices in it: log entries 24 and 54, and which translation
leaves a full cache, which is of entry 116. -/
def Obligations.WalksAndFailedWritebacks : Prop :=
  ∀ (s : State) (lslot : Nat) (va line : Word64) (kind : AccKind) (r : Reply),
    let walked := translateFrom s.hbm (s.lslot lslot).info.ptroot va kind
    let takes (cache : List Xlat) (x : Xlat) : List Xlat :=
      if cache.any (fun e => e.lslot == lslot && decide (e.va ≤ va.toNat) && decide (va.toNat < e.va + e.size))
      then cache else (cache ++ [x]).drop (cache.length + 1 - 4096)
    (∀ tgt m pa nc e size, walked = (.ok tgt m pa nc, e, size) →
        let x : Xlat := ⟨lslot, va.toNat / size * size, size, e⟩
        ∃ t, exec (.translationWalk lslot va kind) s = .next t
          ∧ t.pod.xlat = takes s.pod.xlat x ∧ t.hub.xlat = takes s.hub.xlat x
          ∧ t.core = s.core ∧ t.hbm = s.hbm ∧ t.others = s.others)
      ∧ ((∀ tgt m pa nc e size, walked ≠ (.ok tgt m pa nc, e, size)) →
        exec (.translationWalk lslot va kind) s = .next s)
      ∧ (∀ l, s.core.lineAt lslot line.toNat = some l → l.dirty ≠ 0 → r ≠ .ok →
        let runs := (List.range 128).countP fun i => l.dirty.getLsbD i && !l.dirty.getLsbD (i + 1)
        ∃ t, exec (.lineWritebackFail lslot line r) s = .next t ∧ t.hbm = s.hbm ∧ t.core.spad = s.core.spad
          ∧ t.core.lines = s.core.lines.map (fun x => if x.isAt lslot line.toNat then { x with dirty := 0 } else x)
          ∧ ∀ c, if (s.ctxAt c).state ≠ .free ∧ (s.ctxAt c).bind.lslot = lslot then
              (t.ctxAt c).fail.get 0 = ⟨((s.ctxAt c).fail.get 0).bits ||| replyBit r,
                  min (((s.ctxAt c).fail.get 0).nfail + runs) 4294967295⟩
                ∧ ∀ i, i ≠ 0 → (t.ctxAt c).fail.get i = (s.ctxAt c).fail.get i
            else (t.ctxAt c).fail = (s.ctxAt c).fail)
      ∧ (s.core.lineAt lslot line.toNat = none ∨ r = .ok → exec (.lineWritebackFail lslot line r) s = .next s)

/-! ## Prints -/

/-- What the end of an operation without failure leaves in its print: it is done, and each of its successors waits for one
predecessor less, in the print that the core then runs. -/
def Sys2Proof.Claims.opDone (p : Print) (succ : List Nat) (op : Nat) (t : State) : Prop :=
  ∃ q, q ∈ t.core.prints ∧ q.cmd = p.cmd ∧ q.seq = p.seq ∧ q.ops = p.ops.set op .done
    ∧ ∀ k, q.left.getD k 0 = p.left.getD k 0 - succ.count k

/-- Data as it leaves for the fabric: 224 bytes to a message, each with its offset. -/
def Sys2Proof.Claims.chunks (data : List Byte) (f : Nat → List Byte → Out) : List Out :=
  (List.range ((data.length + 223) / 224)).map fun i => f (224 * i) ((data.drop (224 * i)).take 224)

/-- R44, R380: CGRUN starts a print: the sequence of its slot rises, its counters are 0 and it announces READY. An
operation that may start starts: a PUT whose receiver is here and ready, a PUT to another module and an INNET with
their data sent, 224 bytes to a message (R28, R30); a NOP is done at once. One that may not, or whose receiver is not ready, stays. The model's choices
in it: log entry 45. -/
def Obligations.PrintsStart : Prop :=
  ∀ (s : State) (c : CtxNo) (g : BitVec 2) (op : Nat),
    (∀ m gr, s.startable .fabric c = some m → s.stopped c = false → m.op = .cgrun → m.headerOk = true →
        s.core.graphs.get (ix4 (m.graph.setWidth 6)) = some gr → gr.level = m.level.toNat →
        let i := ix4 (m.graph.setWidth 6)
        ∃ t, exec (.engineCommandStart .fabric c) s = .next t
          ∧ t.core.printSeq.get i = s.core.printSeq.get i + 1
          ∧ (∃ p, t.core.prints = s.core.prints ++ [p] ∧ p.cmd.id = m.id ∧ p.seq = s.core.printSeq.get i + 1
            ∧ p.bases = m.args ∧ p.left = gr.ops.map GraphOp.deps ∧ p.ops = gr.ops.map fun _ => OpState.waiting)
          ∧ (∀ j : Fin 64, t.core.tcnt.get j = if gr.tmask.getLsbD j.val then 0 else s.core.tcnt.get j)
          ∧ (∃ r, t.fabric.ready = s.fabric.ready ++ [r] ∧ r.graph = m.graph ∧ r.seq = s.core.printSeq.get i + 1
            ∧ r.level = gr.level ∧ r.bases = m.args.take gr.nbase)
          ∧ t.hbm = s.hbm ∧ t.core.spad = s.core.spad ∧ t.core.ctxs = s.core.ctxs)
      ∧ ∀ p o, s.core.printOf c g = some p → s.core.opOf g op = some o →
        let v := s.viewAs s.coreIx c
        let lv := p.cmd.level.toNat
        let run := exec (.printOpStart c g op) s
        let started (t : State) (q : Print) : Prop := run = .next t ∧ t.core.ctxs = s.core.ctxs ∧ t.hbm = s.hbm
          ∧ { q with ops := p.ops.set op .started } ∈ t.core.prints
        let may : Prop := p.ops[op]? = some .waiting ∧ p.left[op]? = some 0 ∧ (s.ctxAt c).state ≠ .preempted
        (¬ may → run = .next s)
          ∧ (may → o.opk = 3 → (∃ k, k ≠ op ∧ (p.ops[k]? = some .waiting ∨ p.ops[k]? = some .started)) →
            ∃ t, run = .next t ∧ opDone p o.succ op t ∧ t.core.ctxs = s.core.ctxs ∧ t.hbm = s.hbm)
          ∧ (may → o.opk = 2 → ∀ data, v.sourceData p o = .inl data → ∃ t,
            started t { p with sent := p.sent ++ [(op, data)] }
              ∧ t.fabric.out = s.fabric.out ++ chunks data (.reduction (v.reduction p op o)))
          ∧ (may → o.opk ≤ 1 → ∀ r, v.peerRank o lv = some r →
            (v.readyOf lv p.cmd.graph p.seq r = none → run = .next s)
            ∧ (∀ y, v.readyOf lv p.cmd.graph p.seq r = some y →
              ((∃ x, v.nodeCtx v.ctx.bind.lslot lv (v.nodeAt lv) r = some x) → ∃ t, started t p ∧ t.fabric = s.fabric)
              ∧ (v.nodeCtx v.ctx.bind.lslot lv (v.nodeAt lv) r = none → ∀ data, v.sourceData p o = .inl data →
                ∃ t, started t p
                  ∧ t.fabric.out = s.fabric.out ++ chunks data (.collective (v.moduleOf lv r) p.seq op))))

/-- R38, R39, R44, R45 and R46: an operation that the receiver acknowledges is done; the switch's result is written at
each participant's own destination, and where the contributions differ in length, operator or format none is and the
failure is recorded; data of another module lands, is counted and is acknowledged. Data that may not land is
refused, and recorded on path F. The model's choices in it: log entries 45 and 103. -/
def Obligations.PrintsLand : Prop :=
  ∀ (s : State) (c : CtxNo) (g : BitVec 2) (op : Nat) (o : GraphOp), s.core.opOf g op = some o →
    let v := s.viewAs s.coreIx c
    (∀ p r, s.core.printOf c g = some p →
        let lv := p.cmd.level.toNat
        let rank := (v.peerRank o lv).getD 0
        let more : Prop := ∃ k, k ≠ op ∧ (p.ops[k]? = some .waiting ∨ p.ops[k]? = some .started)
        let run := exec (.printOpDone c g op r) s
        (p.ops[op]? ≠ some .started → run = .next s)
          ∧ (p.ops[op]? = some .started → more → o.opk ≤ 1 →
            (v.nodeCtx v.ctx.bind.lslot lv (v.nodeAt lv) rank = none → 1 < v.tree.modules → r = .ok →
              ∃ t, run = .next t ∧ opDone p o.succ op t ∧ t.core.ctxs = s.core.ctxs ∧ t.hbm = s.hbm)
            ∧ (∀ core c' y data u, v.nodeCtx v.ctx.bind.lslot lv (v.nodeAt lv) rank = some (core, c') →
              v.readyOf lv p.cmd.graph p.seq rank = some y → v.sourceData p o = .inl data →
              v.land core c' o y.bases 0 data = (u, .ok) →
              ∃ t, run = .next t ∧ opDone p o.succ op t ∧ t.hbm = u.hbm ∧ t.dieBuf = u.dieBuf
                ∧ ∀ k, (t.coreAt k).spad = (u.coreAt k).spad))
          ∧ (p.ops[op]? = some .started → more → o.opk = 2 → ∀ parts, parts.length = v.tree.size lv →
            (∃ x, parts[v.rankAt lv]? = some x ∧ x.accop = o.accop ∧ x.fmt = o.fmt ∧ (op, x.data) ∈ p.sent) →
            ((∀ x, x ∈ parts → x.accop = o.accop ∧ x.fmt = o.fmt ∧ x.data.length = o.len) →
              ∀ u, v.land s.coreIx c { o with accop := 0 } p.bases 0 (switchResult o (parts.map (·.data))) = (u, .ok) →
              ∃ t, exec (.switchReduce c g op parts) s = .next t ∧ opDone p o.succ op t ∧ t.hbm = u.hbm
                ∧ t.core.spad = u.core.spad)
            ∧ ((∃ x, x ∈ parts ∧ (x.accop ≠ o.accop ∨ x.fmt ≠ o.fmt ∨ x.data.length ≠ o.len)) →
              p.cmd.core = s.coreIx → ∃ t, exec (.switchReduce c g op parts) s = .next t ∧ t.hbm = s.hbm
                ∧ ((t.ctxAt c).fail.get 3).bits = (((s.ctxAt c).fail.get 3).bits ||| 4))))
      ∧ (o.accop = 0 → ∀ (parts : List (List Byte)) d, parts.head? = some d → d.length = o.len → o.len % 4 = 0 →
        switchResult o parts = d)
      ∧ (∀ src seq off data r, (s.ctxAt c).state ≠ .free → o.opk ≤ 1 → off + data.length ≤ o.len → o.accop = 0 →
        o.dstsp = 0 → data.length % 4 = 0 → s.core.badWords = [] → Safety.stateOk s = true →
        let x := s.ctxAt c
        let tree := (s.lslot x.bind.lslot).info.tree
        (s.lslot x.bind.lslot).info.profile = false →
        s.fabric.ready.find? (fun r => r.lslot == x.bind.lslot && r.graph == g && r.seq == seq
          && r.rank == tree.rank x.bind.coords r.level && r.node == tree.node x.bind.coords r.level) = some r →
        let b := r.bases.getD o.dstb 0
        let a := b + o.dstoff + BitVec.ofNat 64 off
        let n := s.core.tcnt.get (ix64 (BitVec.ofNat 6 o.tctr))
        let run := exec (.collectiveDataReceive src c g seq op off data) s
        (b < 0x400000 → a.toNat + data.length ≤ 0xC0000 → ∃ t, run = .next t
            ∧ (∀ i, i < data.length → memRead t.core.spad (a.toNat + i) = data.getD i 0)
            ∧ (∀ k, k < a.toNat ∨ a.toNat + data.length ≤ k → memRead t.core.spad k = memRead s.core.spad k)
            ∧ (o.ctrv = true → data ≠ [] → t.core.tcnt.get (ix64 (BitVec.ofNat 6 o.tctr))
              = BitVec.ofNat 32 (min (n.toNat + data.length / 4) 4294967295))
            ∧ (o.ctrv = false → t.core.tcnt = s.core.tcnt)
            ∧ t.fabric.out = s.fabric.out ++ [.response src (BitVec.ofNat 12 op) .ok []] ∧ t.hbm = s.hbm)
        ∧ (0x400000 ≤ b → ∃ t, run = .next t ∧ t.core.spad = s.core.spad ∧ t.core.tcnt = s.core.tcnt
            ∧ t.fabric.out = s.fabric.out ++ [.response src (BitVec.ofNat 12 op) .refused []]
            ∧ ((t.ctxAt c).fail.get 3).bits = ((x.fail.get 3).bits ||| 4)))

/-! ## Fabric and memory ports -/

/-- R23, R29, R30, R36 and R126: requests of other modules are answered: a read with the bytes, a write once it is performed,
an atomic with the value before it; an address beyond HBM names a place in a core's scratchpad, or the request is
refused; one that meets uncorrectable data is told so and performs nothing, but a write of a whole line, which clears its
errors; one that has been performed is answered as before and not performed again. Which of the requests that match an
earlier one are sent again is a free value. The model's choices in it: log entries 27, 48, 49 and 99. -/
def Obligations.FabricRequests : Prop :=
  ∀ (s : State) (src : Nat) (tag : BitVec 12) (addr : BitVec 56), Safety.stateOk s = true →
    let a := addr.toNat
    let same (k : ReqKind) (x : Served) : Prop := x.src = src ∧ x.tag = tag ∧ x.addr = a ∧ x.kind = k
    let new (k : ReqKind) : Prop := s.duplicate src tag a k = none
    let answers (t : State) (r : Reply) (bs : List Byte) : Prop :=
      t.fabric.out = s.fabric.out ++ [.response src tag r bs]
    let only (t : State) (n : Nat) : Prop := ∀ x, x < a ∨ a + n ≤ x → memRead t.hbm x = memRead s.hbm x
    let kept (t : State) : Prop := t.hbm = s.hbm ∧ t.core = s.core
    let noted (t : State) (x : Served) : Prop := t.fabric.seen
      = (s.fabric.seen.filter fun y => !(y.src == src && y.tag == tag)) ++ [{ x with plane := s.arrivalPort }]
    (∀ k x, s.duplicate src tag a k = some x → x ∈ s.fabric.seen ∧ same k x ∧ x.plane ≠ s.arrivalPort)
      ∧ (∀ k, (∀ x, x ∈ s.fabric.seen → ¬ (same k x ∧ x.plane ≠ s.arrivalPort)) → new k)
      ∧ (∀ n, ∃ t, exec (.readRequestReceive src tag addr n) s = .next t ∧ kept t
        ∧ (a + n ≤ hbmSize → s.hbmBad a n = false → answers t .ok (s.readHbm a n))
        ∧ (a + n ≤ hbmSize → s.hbmBad a n = true → answers t .uncorrectable [])
        ∧ (hbmSize < a + n → s.peerPlace src addr n = none → answers t .refused [])
        ∧ (hbmSize < a + n → ∀ k off, s.peerPlace src addr n = some (k, off) →
          (∀ i, i < n → (off + i) / 4 ∉ (s.coreAt k).badWords) → answers t .ok (readBytes (s.coreAt k).spad off n)))
      ∧ (∀ data, new (.write data) → ∃ t, exec (.writeRequestReceive src tag addr data) s = .next t
        ∧ (∃ r, noted t ⟨src, 0, tag, a, .write data, r, []⟩ ∧ answers t r [])
        ∧ (hbmSize < a + data.length → s.peerPlace src addr data.length = none → answers t .refused [] ∧ kept t)
        ∧ (hbmSize < a + data.length → ∀ k off, s.peerPlace src addr data.length = some (k, off) →
          (s.coreAt k).badWords = [] → answers t .ok [] ∧ t.hbm = s.hbm
          ∧ (∀ i, i < data.length → memRead (t.coreAt k).spad (off + i) = data.getD i 0)
          ∧ (∀ x, x < off ∨ off + data.length ≤ x → memRead (t.coreAt k).spad x = memRead (s.coreAt k).spad x)
          ∧ ∀ j, j ≠ k → (t.coreAt j).spad = (s.coreAt j).spad)
        ∧ (a + data.length ≤ hbmSize → linesBad s a data.length = false → answers t .ok [] ∧ only t data.length
          ∧ ∀ i, i < data.length → memRead t.hbm (a + i) = data.getD i 0)
        ∧ (a + data.length ≤ hbmSize → s.hbmBad (a / 128 * 128) 128 = true → data ≠ [] → data.length < 128 →
          a % 128 + data.length ≤ 128 → answers t .uncorrectable [] ∧ kept t)
        ∧ (a + 128 ≤ hbmSize → a % 128 = 0 → data.length = 128 → answers t .ok [] ∧ only t 128
          ∧ (∀ i, i < 128 → memRead t.hbm (a + i) = data.getD i 0)
          ∧ ∀ u, u ∈ t.badHbm ↔ u ∈ s.badHbm ∧ u / 4 ≠ a / 128))
      ∧ (∀ data x, s.duplicate src tag a (.write data) = some x →
        ∃ t, exec (.writeRequestReceive src tag addr data) s = .next t ∧ answers t x.reply x.data ∧ kept t ∧ noted t x)
      ∧ (∀ op ty (y z : Word64) x, s.duplicate src tag a (.atomic op ty y z) = some x →
        ∃ t, exec (.atomicRequestReceive src tag addr op ty y z) s = .next t ∧ answers t x.reply x.data ∧ kept t
          ∧ noted t x)
      ∧ (∀ op ty (x y : Word64), atomicTakes op ty → new (.atomic op ty x y) →
        let w := if ty = .bf16 then 4 else scalarWidth ty
        let n := 8 * w
        let old : BitVec n := BitVec.ofNat n (littleEndian (s.readHbm a w))
        ∃ t, exec (.atomicRequestReceive src tag addr op ty x y) s = .next t
          ∧ (∃ r bs, noted t ⟨src, 0, tag, a, .atomic op ty x y, r, bs⟩ ∧ answers t r bs)
          ∧ (hbmSize < a + w → answers t .refused [] ∧ kept t)
          ∧ (a + w ≤ hbmSize → linesBad s a w = false → only t w
            ∧ littleEndian (readBytes t.hbm a w) = (atomicNew op ty old (x.setWidth n) (y.setWidth n)).toNat
            ∧ ∃ bs, answers t .ok bs ∧ bs.length = w ∧ littleEndian bs = old.toNat)
          ∧ (a + w ≤ hbmSize → a % w = 0 → s.hbmBad (a / 128 * 128) 128 = true → answers t .uncorrectable [] ∧ kept t))

/-- R34, R35 and R144: a response frees its tag and brings its load's value, or 0 with the failure in the context's
record of path C; a request that times out ends with its tag free, its failure recorded as TIMEOUT, a load's value 0 and
a store or atomic counted in NFAIL. A response to no request changes nothing. The model's choices in it: log entry 81. -/
def Sys2Proof.Claims.FabricResponses : Prop :=
  ∀ (s : State) (io : Bool) (tag : BitVec 12) (r : Reply) (data : List Byte) (c : CtxNo) (d : Reg),
    let x := s.ctxAt c
    let run := exec (.responseReceive io tag r data) s
    (∀ q, s.fabric.withTag io tag = some q → (∀ p, p ∈ s.fabric.reqs → p.sent = true) → x.behind = [] →
        (∀ l n, q.who = .load s.coreIx c l → q.kind = .read n → l.cached = false → l.acq = false → q.stale = false →
          l.places = [(0, 0, 64, 0)] → (∀ p, p ∈ x.pend → p.id = l.id → p.parts = [(.s d, 0)] ∧ p.bad = false) →
          ∃ t, run = .next t ∧ t.fabric.reqs = s.fabric.reqs.filter (· != q) ∧ t.hbm = s.hbm
            ∧ (t.ctxAt c).regs = x.regs
            ∧ (r = .ok → data.length = l.w → l.w ≤ 8 → (t.ctxAt c).fail = x.fail ∧ ∀ p, p ∈ x.pend → p.id = l.id →
              let m : BitVec (8 * l.w) := BitVec.ofNat (8 * l.w) (littleEndian data)
              let v : Word64 := if l.signed then m.signExtend 64 else m.setWidth 64
              { p with left := p.left - 1, parts := [(.s d, v.setWidth 512)] } ∈ (t.ctxAt c).pend)
            ∧ (r = .uncorrectable → ∀ p, p ∈ x.pend → p.id = l.id →
              ∃ p', p' ∈ (t.ctxAt c).pend ∧ p'.id = p.id ∧ p'.left = p.left - 1 ∧ p'.bad = true)
            ∧ (r ≠ .ok → r ≠ .uncorrectable →
              ((t.ctxAt c).fail.get 0).bits = ((x.fail.get 0).bits ||| replyBit r) ∧ ∀ p, p ∈ x.pend → p.id = l.id →
                { p with left := p.left - 1, parts := [(.s d, 0)] } ∈ (t.ctxAt c).pend))
        ∧ (∀ bs, q.who = .store s.coreIx c → q.kind = .write bs → ∃ t, run = .next t
          ∧ t.fabric.reqs = s.fabric.reqs.filter (· != q) ∧ t.hbm = s.hbm
          ∧ (t.ctxAt c).fail.get 0 = if r = .ok then x.fail.get 0 else
            ⟨(x.fail.get 0).bits ||| replyBit r, min ((x.fail.get 0).nfail + 1) 4294967295⟩))
      ∧ (s.fabric.withTag io tag = none → run = .next s)
      ∧ exec (.remoteRequestTimeout tag) s = exec (.responseReceive false tag .timeout []) s
      ∧ (s.fabric.withTag false tag = none → exec (.remoteRequestTimeout tag) s = .next s)
      ∧ (∀ q, s.fabric.withTag false tag = some q → (∀ p, p ∈ s.fabric.reqs → p.sent = true) → x.behind = [] →
        let ends (t : State) : Prop := exec (.remoteRequestTimeout tag) s = .next t
          ∧ t.fabric.reqs = s.fabric.reqs.filter (· != q) ∧ t.hbm = s.hbm ∧ (t.ctxAt c).regs = x.regs
          ∧ ((t.ctxAt c).fail.get 0).bits = ((x.fail.get 0).bits ||| 0x10)
        (∀ l n, q.who = .load s.coreIx c l → q.kind = .read n → l.acq = false → l.places = [(0, 0, 64, 0)] →
          ∃ t, ends t ∧ ((t.ctxAt c).fail.get 0).nfail = min (x.fail.get 0).nfail 4294967295
            ∧ ∀ p, p ∈ x.pend → p.id = l.id → p.parts = [(.s d, 0)] →
              { p with left := p.left - 1, parts := [(.s d, 0)] } ∈ (t.ctxAt c).pend)
        ∧ (∀ bs, q.who = .store s.coreIx c → q.kind = .write bs →
          ∃ t, ends t ∧ ((t.ctxAt c).fail.get 0).nfail = min ((x.fail.get 0).nfail + 1) 4294967295)
        ∧ (q.who = .peerStore s.coreIx c →
          ∃ t, ends t ∧ ((t.ctxAt c).fail.get 0).nfail = min ((x.fail.get 0).nfail + 1) 4294967295)
        ∧ (∀ id op ty u w signed, q.who = .atomic s.coreIx c id signed false → q.kind = .atomic op ty u w →
          ∃ t, ends t ∧ ((t.ctxAt c).fail.get 0).nfail = min ((x.fail.get 0).nfail + 1) 4294967295))

/-- R26, R28, R29, R30, R144 and R154: a port goes on with fewer lanes; a plane that is lost leaves the list and what was
outstanding on it, or not yet acknowledged, goes out again on the planes that are left; a memory link's fault ends its accesses with POOL set; a
flit whose CRC fails is dropped and replayed. The model's choices in it: log entry 100. -/
def Sys2Proof.Claims.FabricFaults : Prop :=
  ∀ (s : State) (port lanes : Nat) (vc : BitVec 2),
    let f := s.fabric
    let degrade := exec (.fabricPortDegrade port lanes) s
    (∀ h : port < 18, port ∈ f.planes → (lanes = 1 ∨ lanes = 2) → lanes < f.lanes[port] → ∃ t, degrade = .next t
        ∧ t.fabric = { f with lanes := f.lanes.set port lanes h } ∧ t.core = s.core ∧ t.hbm = s.hbm)
      ∧ ((port ∉ f.planes ∨ 2 < lanes ∨ lanes = 0) → degrade = .next s)
      ∧ (port ∈ f.planes → ∃ t, exec (.planeLoss port) s = .next t
        ∧ t.fabric.planes = f.planes.filter (· != port)
        ∧ (∀ h : port < 18, t.fabric.lanes[port] = 0) ∧ t.fabric.link port = Link.reset
        ∧ (let moved (q : Request) : Request :=
              { q with plane := t.fabric.planes.getD (q.addr / 256 % t.fabric.planes.length) 0 }
            let lost (q : Request) : Bool := q.sent && !q.io && q.plane == port
            t.fabric.reqs = f.reqs.map (fun q => if lost q then moved q else q)
              ∧ (t.fabric.planes ≠ [] →
                t.fabric.out = ((f.link port).replay.map Prod.fst).filter (fun o => !o.isRequest)
                  ++ f.out.filter (fun o => match o with
                    | .request q => !lost q
                    | _ => true)
                  ++ (f.reqs.filter lost).map fun q => Out.request (moved q)))
        ∧ t.core = s.core ∧ t.hbm = s.hbm)
      ∧ (port ∉ f.planes → exec (.planeLoss port) s = .next s)
      ∧ (∀ q c bs, port < 2 → f.reqs.filter (fun q => q.sent && q.tgt.toNat == 2 + port) = [q] →
        (∀ p, p ∈ f.reqs → p.sent = true) → q.who = .store s.coreIx c → q.kind = .write bs → (s.ctxAt c).behind = [] →
        ∃ t, exec (.poolLinkFault port) s = .next t ∧ t.fabric.reqs = f.reqs.filter (· != q)
          ∧ (t.ctxAt c).fail.get 0 = ⟨((s.ctxAt c).fail.get 0).bits ||| 0x20,
            min (((s.ctxAt c).fail.get 0).nfail + 1) 4294967295⟩)
      ∧ (f.reqs.filter (fun q => q.sent && q.tgt.toNat == 2 + port) = [] ∨ 2 ≤ port →
        exec (.poolLinkFault port) s = .next s)
      ∧ ∃ t, exec (.crcFailFlitReceive port vc) s = .next t ∧ t.fabric.dropped = f.dropped + 1
        ∧ (port < 18 → (t.fabric.link port).gap = true) ∧ (∀ k, k ≠ port → t.fabric.link k = f.link k)
        ∧ t.fabric.out = f.out ++ [.replay port vc] ∧ t.core = s.core ∧ t.hbm = s.hbm

/-- R26, R28, R29, R30, R34, R35, R144 and R154: answers of the fabric, and its faults. -/
def Obligations.FabricAnswersAndFaults : Prop := Claims.FabricResponses ∧ Claims.FabricFaults

/-! ## Launches -/

/-- A head fails: its launch slot shows the status and the cause, its queue goes on behind it, and its one signal word,
where it has one in this module, holds COUNT, CAUSE and STATUS (R70, R73). -/
def Sys2Proof.Claims.headFails (s t : State) (q : Fin 8) (slot : Nat) (r : List Byte) (st c : Byte) : Prop :=
  (t.lslot slot).state = .ended ∧ (t.lslot slot).status = st ∧ (t.lslot slot).cause = c
    ∧ (t.queue q).head = (s.queue q).head + 1 ∧ (t.queue q).stage = .none ∧ (t.queue q).wait = 0
    ∧ (recF r 3 1 = 0 → t.hbm = s.hbm)
    ∧ (recF r 3 1 = 1 → eventAddrOk (recF r 176 8) = true → (eventAddr (recF r 176 8)).here = true →
      let pa := (eventAddr (recF r 176 8)).pa
      linesBad s pa 8 = false →
      littleEndian (readBytes t.hbm pa 8) = recF r 184 6 + c.toNat * 2 ^ 48 + st.toNat * 2 ^ 56)

/-- R67 to R70, R74, R93 and R94: a head takes the lowest free launch slot and is checked, or waits for a slot; with its
wait words met its code object and its tree are checked, and a launch of one module goes on to its binding, one of a group
to its announcement, unless MODULES members have announced themselves with its tree. What fails ends the head with its
status and cause. The model's choices in it: log entry 50. -/
def Obligations.LaunchHeads : Prop :=
  ∀ (s : State) (q : Fin 8), Safety.stateOk s = true →
    let x := s.queue q
    let r := s.headRecord q
    let takes : Prop := s.hub.boot.phase = 2 ∧ x.enabled = true ∧ x.head ≠ x.tail ∧ (x.stage = .none ∨ x.stage = .waitSlot)
    let slot := x.slot
    let info := (s.lslot slot).info
    let h := s.hubRead info.code 64
    let full := s.withCode info h
    let met : Prop := x.stage = .waitWords ∧ ∀ w, w ∈ s.waitStates q → w = .met
    (takes → s.freeSlot = none → ∃ t, exec (.launchRecordTake q) s = .next t
        ∧ t.queue q = { x with stage := .waitSlot, wait := 3 } ∧ t.hub.slots = s.hub.slots ∧ t.hbm = s.hbm)
      ∧ (takes → ∀ n, s.freeSlot = some n → recordFault r = none → ∃ t, exec (.launchRecordTake q) s = .next t
        ∧ (t.lslot n).state = .waiting ∧ (t.lslot n).queue = q.val
        ∧ (t.lslot n).user = BitVec.ofNat 64 (recF r 240 8) ∧ (t.lslot n).info = recordInfo r
        ∧ (t.queue q).stage = .waitWords ∧ (t.queue q).slot = n ∧ (t.queue q).wait = 1 ∧ (t.queue q).head = x.head
        ∧ (∀ m, m ≠ n → t.lslot m = s.lslot m) ∧ (∀ p, p ≠ q → t.queue p = s.queue p) ∧ t.hbm = s.hbm
        ∧ t.core = s.core)
      ∧ (takes → ∀ n off, s.freeSlot = some n → recordFault r = some off → recF r 3 1 ≤ 4 →
        ∃ t, exec (.launchRecordTake q) s = .next t ∧ headFails s t q n r 1 (BitVec.ofNat 8 off))
      ∧ (¬ takes → exec (.launchRecordTake q) s = .next s)
      ∧ (x.stage ≠ .waitWords → exec (.waitWordsMet q) s = .next s)
      ∧ (x.stage = .waitWords → ∀ c, depFail (s.waitStates q) = some c → ∃ t, exec (.waitWordsMet q) s = .next t
        ∧ headFails s t q slot info.record 6 c)
      ∧ (met → ∀ n, codeFault info.code h = some n → ∃ t, exec (.waitWordsMet q) s = .next t
        ∧ headFails s t q slot info.record 2 (BitVec.ofNat 8 n))
      ∧ (met → codeFault info.code h = none → ∀ n, treeFault full.section_ = some n →
        ∃ t, exec (.waitWordsMet q) s = .next t ∧ headFails s t q slot info.record 4 (BitVec.ofNat 8 n))
      ∧ (met → codeFault info.code h = none → treeFault full.section_ = none → full.tree.modules = 1 →
        (s.lslot slot).state ≠ .empty → ∃ t, exec (.waitWordsMet q) s = .next t
          ∧ (t.queue q).stage = .bind ∧ (t.queue q).wait = 0 ∧ (t.queue q).head = x.head ∧ (t.lslot slot).info = full
          ∧ t.hbm = s.hbm)
      ∧ (met → codeFault info.code h = none → treeFault full.section_ = none → full.tree.modules ≠ 1 →
        spanFault full.tree full.group = false → (s.lslot slot).state ≠ .empty →
        let same (g : Group) : Nat := g.members.countP fun m => m.2 == Config.shake256 full.section_ 256
        (∀ g, s.group? full.group = some g → full.tree.modules ≤ same g →
          ∃ t, exec (.waitWordsMet q) s = .next t ∧ headFails s t q slot info.record 4 11)
        ∧ ((∀ g, s.group? full.group = some g → same g < full.tree.modules) →
          ∃ t, exec (.waitWordsMet q) s = .next t ∧ (t.queue q).stage = .announced ∧ (t.queue q).wait = 2
            ∧ t.fabric.out
              = s.fabric.out ++ [.control (.announce full.group Config.rackPosition.val (Config.shake256 full.section_ 256))]
            ∧ t.core = s.core ∧ t.hbm = s.hbm))

/-- R70 steps 4 to 8, R89 to R91, R94 and R104: a launch of one module whose tree is placed has its instances and
register spaces written and every placed context READY at the entry with its arguments; one that waits is bound again
when contexts are free, and one that no empty device could hold fails. The model's choices in it: log entry 50. -/
def Obligations.LaunchStarts : Prop :=
  ∀ (s : State) (q : Fin 8), Safety.stateOk s = true →
    let x := s.queue q
    let slot := x.slot
    let info := (s.lslot slot).info
    let may : Prop := x.stage = .bind ∧ x.wait ≠ 2 ∧ s.heldBack q = false ∧ s.outranked q = false
      ∧ info.tree.modules = 1
    let need := info.tree.gangs * info.instSize + 65536 * info.tree.size 0
    let started (t : State) (marks : List (Nat × List Nat)) (s2 : State) : Prop :=
      (t.lslot slot).state = .running ∧ (t.lslot slot).nctx = marks.length
        ∧ (t.queue q).head = x.head + 1 ∧ (t.queue q).stage = .none ∧ t.hbm = s2.hbm
        ∧ (∀ k coords, (k, coords) ∈ marks →
          let y := t.ctxNo k
          let g := info.tree.node coords info.tree.gang
          y.state = .ready ∧ y.bind = ⟨slot, g, coords⟩
            ∧ y.pc = info.instArea + BitVec.ofNat 64 (g * info.instSize + info.entry)
            ∧ y.ctrl.rsb = BitVec.ofNat 64 (info.areas + 65536 * info.tree.rank coords 0)
            ∧ y.ctrl.status = 0 ∧ y.ctrl.tvec = 0 ∧ y.flight = [] ∧ y.retStack = [] ∧ y.resident = 0
            ∧ ∀ i : Fin 8, y.regs.s.get ⟨i.val + 1, by omega⟩
              = BitVec.ofNat 64 (recF info.record (48 + 8 * i.val) 8))
        ∧ ∀ k, k < 3584 → (∀ m, m ∈ marks → m.1 ≠ k) → t.ctxNo k = s2.ctxNo k
    (may → ∀ c, s.bindSingle info slot = .refuse c → ∃ t, exec (.treeBind q) s = .next t
        ∧ headFails s t q slot info.record 4 (BitVec.ofNat 8 c))
      ∧ (may → s.bindSingle info slot = .later → ∃ t, exec (.treeBind q) s = .next t
        ∧ t.queue q = { x with stage := .bind, wait := 2 } ∧ t.hub.slots = s.hub.slots ∧ t.core = s.core)
      ∧ (may → ∀ marks, s.bindSingle info slot = .ok marks → info.instLen.toNat < need →
        ∃ t, exec (.treeBind q) s = .next t ∧ headFails s t q slot info.record 3 0)
      ∧ (may → ∀ marks s1 s2, s.bindSingle info slot = .ok marks → need ≤ info.instLen.toNat →
        s.copyInstances info (gangPlaces info.tree marks) = (s1, none) → s1.writeCtxs info slot marks = (s2, none) →
        (marks.map Prod.fst).Nodup → (∀ m, m ∈ marks → m.1 < 3584) →
        ∃ t, exec (.treeBind q) s = .next t ∧ started t marks s2)
      ∧ (x.stage = .bind → x.wait = 2 ∨ s.heldBack q = true ∨ s.outranked q = true → exec (.treeBind q) s = .next s)
      ∧ ((∀ n l, (n, l) ∈ s.hub.slots → l.resuming = []) →
        ((∀ p, (s.queue p).stage = .bind → (s.queue p).wait ≠ 2) → exec .bindRetry s = .next s)
        ∧ (x.stage = .bind → x.wait = 2 → s.heldBack q = false → info.tree.modules = 1 →
          (∀ p, p ≠ q → (s.queue p).stage = .bind → (s.queue p).wait ≠ 2) →
          (∀ c, s.bindSingle info slot = .refuse c → ∃ t, exec .bindRetry s = .next t
            ∧ headFails s t q slot info.record 4 (BitVec.ofNat 8 c))
          ∧ (s.bindSingle info slot = .later → ∃ t, exec .bindRetry s = .next t ∧ t.queue q = x
            ∧ t.hub.slots = s.hub.slots ∧ t.core = s.core ∧ t.hbm = s.hbm)
          ∧ (∀ marks, s.bindSingle info slot = .ok marks → info.instLen.toNat < need →
            ∃ t, exec .bindRetry s = .next t ∧ headFails s t q slot info.record 3 0)
          ∧ (∀ marks s1 s2, s.bindSingle info slot = .ok marks → need ≤ info.instLen.toNat →
            s.copyInstances info (gangPlaces info.tree marks) = (s1, none) →
            s1.writeCtxs info slot marks = (s2, none) → (marks.map Prod.fst).Nodup → (∀ m, m ∈ marks → m.1 < 3584) →
            ∃ t, exec .bindRetry s = .next t ∧ started t marks s2)))

/-- R72, R73 and R223: ABORT by the owner ends a running launch and fails a waiting one; the contexts of an ending launch
are halted where its data is not moving, a running one at its bundle boundary; once all are and nothing of the launch is
outstanding, its contexts are freed, its status stands (STOREFAIL where its last fence tells of lost writes
and it had not failed), and its signal word is written. The model's choices in it: log entry 64. -/
def Obligations.LaunchEnds : Prop :=
  ∀ (s : State) (m slot : Nat), Safety.stateOk s = true →
    let l := s.lslot slot
    let mine (n : Nat) (c : CtxNo) : Prop := (s.ctxOf n c).state ≠ .free ∧ (s.ctxOf n c).bind.lslot = slot
    let owner : Prop := s.reaches m = true ∧ s.owns m = true
    (owner → slot ≤ 255 → l.state = .running → ∃ t, exec (.launchAbort m slot) s = .next t
        ∧ (t.lslot slot).state = .ending ∧ (t.lslot slot).status = 10 ∧ (t.lslot slot).cause = 0
        ∧ (∀ n c, t.ctxOf n c = s.ctxOf n c) ∧ t.hbm = s.hbm)
      ∧ (owner → slot ≤ 255 → l.state = .waiting → ∀ q, s.queueOfSlot slot = some q →
        ∃ t, exec (.launchAbort m slot) s = .next t ∧ headFails s t q slot l.info.record 10 0)
      ∧ (owner → slot ≤ 255 → l.state = .empty ∨ l.state = .ending ∨ l.state = .ended →
        exec (.launchAbort m slot) s = .next s)
      ∧ (l.state ≠ .ending → exec (.launchEnd slot) s = .next s)
      ∧ (l.state = .ending → ∀ n c, s.haltable slot = [(n, c)] → ∃ t, exec (.launchEnd slot) s = .next t
        ∧ (t.ctxOf n c).state = .halted ∧ (t.ctxOf n c).pc = (s.ctxOf n c).pc ∧ (t.ctxOf n c).resident = 0
        ∧ t.lslot slot = l)
      ∧ (∀ c, (s.ctxAt c).state = .running → (s.ctxAt c).bind.lslot = slot → l.state = .ending →
        s.movingData slot (s.ctxAt c).bind.gang = false → s.core.freeze = 0 → s.core.tableRead = false →
        (s.ctxAt c).bubbles = 0 → (s.ctxAt c).waits.entering = none → (s.haltEnding.ctxAt c).state = .halted)
      ∧ (l.state = .ending → (∀ n c, mine n c → (n, c) ∈ s.allContexts → (s.ctxOf n c).state = .halted) →
        s.launchCmds slot = [] → s.accessesOver slot = true → s.writebacksOut slot = false →
        (∀ n x, n ∈ s.coresOf slot → x ∈ (s.coreAt n).lines → x.lslot = slot → x.dirty = 0) →
        let nfail := (s.lastFence slot).extractLsb' 32 32
        ∃ t, exec (.launchEnd slot) s = .next t ∧ (t.lslot slot).state = .ended
          ∧ (t.lslot slot).status = (if l.status = 0 ∧ nfail ≠ 0 then 7 else l.status)
          ∧ (t.lslot slot).cause = (if l.status = 0 ∧ nfail ≠ 0 then (s.lastFence slot).setWidth 8 else l.cause)
          ∧ (∀ n c, mine n c → (n, c) ∈ s.allContexts → (t.ctxOf n c).state = .free)
          ∧ (recF l.info.record 3 1 = 0 → t.hbm = s.hbm ∧ ∀ n c, ¬ mine n c → t.ctxOf n c = s.ctxOf n c))

/-- R93, R33, R44, R70 and R97: what the other members of a launch group say: an announcement, unless MODULES members
have announced themselves before it, and a report are noted; a withdrawal of a member that counts takes the head back to
its announcement; a retry or, to the leader, a member that waits releases the binding; a go waits where a queue before the
head's holds it back; a refusal ends the head, with cause 11 where its own tree differs from the leader's and 12 else; READY and a declaration are noted and withdrawn, and a barrier arrival
counted, for the group's launch, or kept until it has started here. The model's choices in it: log entry 51. -/
def Obligations.GroupMessages : Prop :=
  ∀ (s : State) (g m : Nat), Safety.stateOk s = true →
    let run (x : ControlMsg) : Res := exec (.controlFlitReceive x) s
    let other : Prop := m ≠ Config.rackPosition.val
    let group (t : State) (y : Group) : Prop := t.group? g = some y ∧ t.core = s.core ∧ t.hbm = s.hbm
    (∀ x, s.group? g = some x → ∀ digest,
        let stage (q : Fin 8) : HeadStage := (s.queue q).stage
        let left : Group := { x with members := x.members.filter (·.1 != m) }
        let counts : Prop := ∃ p, p ∈ (if x.modules = 0 then x.members else x.members.take x.modules) ∧ p.1 = m
        let room : Prop := x.modules = 0 ∨ x.members.length < x.modules
        (other → ((∀ p, p ∈ x.members → p.1 ≠ m) → room → ∃ t, run (.announce g m digest) = .next t
            ∧ group t { x with members := x.members ++ [(m, digest)] })
          ∧ ((∃ p, p ∈ x.members ∧ p.1 = m) ∨ ¬ room → ∃ t, run (.announce g m digest) = .next t ∧ group t x))
        ∧ (s.queueOfGroup g = none → ∃ t, run (.withdraw g m) = .next t ∧ group t left)
        ∧ (∀ q, s.queueOfGroup g = some q → (¬ counts ∨ stage q = .announced ∨ stage q = .going) →
          ∃ t, run (.withdraw g m) = .next t ∧ group t left ∧ t.queue q = s.queue q)
        ∧ (∀ q, s.queueOfGroup g = some q → counts → stage q ≠ .announced → stage q ≠ .going →
          ∃ t, run (.withdraw g m) = .next t ∧ group t { left with held := [], bound := [], waiting := [] }
            ∧ t.queue q = { s.queue q with stage := .announced, wait := 2 })
        ∧ (m ∉ x.bound → ∃ t, run (.bound g m) = .next t ∧ group t { x with bound := x.bound ++ [m] })
        ∧ (∀ q, s.queueOfGroup g = some q → stage q = .going → run (.retry g) = .next s)
        ∧ (∀ q, s.queueOfGroup g = some q → stage q ≠ .announced → stage q ≠ .going → ∃ t, run (.retry g) = .next t
          ∧ group t { x with held := [], bound := [], waiting := [] }
          ∧ t.queue q = { s.queue q with stage := .bind, wait := 2 })
        ∧ (∀ q, s.queueOfGroup g = some q → stage q ≠ .announced → stage q ≠ .going →
          x.leader = Config.rackPosition.val → other →
          ∃ t, run (.waiting g m) = .next t ∧ group t { x with held := [], bound := [], waiting := [] }
            ∧ t.queue q = { s.queue q with stage := .bind, wait := 2 }
            ∧ t.fabric.out = s.fabric.out ++ [.control (.retry g)])
        ∧ (∀ q, s.queueOfGroup g = some q → stage q ≠ .bound → run (.go g) = .next s)
        ∧ (∀ q, s.queueOfGroup g = some q → stage q = .bound → s.heldBack q = true → ∃ t, run (.go g) = .next t
          ∧ group t x ∧ t.queue q = { s.queue q with stage := .going }))
      ∧ (s.group? g = none → s.queueOfGroup g = none → run (.go g) = .next s ∧ run (.freed g m) = .next s
        ∧ run (.waiting g m) = .next s ∧ run (.refusedBy g m) = .next s)
      ∧ (∀ q, s.queueOfGroup g = some q → other →
        let digest (x : Group) (k : Nat) : Option (List Byte) := (x.members.find? (·.1 == k)).map Prod.snd
        let differs : Prop := ∃ x, s.group? g = some x ∧ digest x Config.rackPosition.val ≠ digest x x.leader
        let fails (c : Byte) : Prop := ∃ t, run (.refusedBy g m) = .next t
          ∧ headFails s t q (s.queue q).slot (s.lslot (s.queue q).slot).info.record 4 c
        (differs → fails 11) ∧ (¬ differs → fails 12))
      ∧ (∀ (level node rank : Nat) (slot : BitVec 2) (seq : Word32) (bases : List Word64) (number : BitVec 7) n,
        s.slotOfGroup g = some n →
        let r : ReadyMsg := ⟨n, level, node, slot, seq, rank, bases⟩
        let size := (s.lslot n).info.tree.size level
        let b := s.upperAt n level node number.toNat
        (∃ t, run (.ready g level node slot seq rank bases) = .next t
            ∧ t.fabric = { s.fabric with ready := s.fabric.ready ++ [r] } ∧ t.core = s.core ∧ t.hbm = s.hbm)
          ∧ (∃ t, run (.unready g level node slot seq rank) = .next t ∧ t.core = s.core
            ∧ ∀ y, y ∈ t.fabric.ready ↔ y ∈ s.fabric.ready ∧ { y with bases := bases } ≠ r)
          ∧ (∀ kind (block : List Byte), ∃ t, run (.declare g level node kind rank block) = .next t
            ∧ t.fabric = { s.fabric with decls := s.fabric.decls ++ [⟨n, level, node, kind, rank, block⟩] }
            ∧ t.core = s.core ∧ t.hbm = s.hbm)
          ∧ (∀ kind, ∃ t, run (.undeclare g level node kind rank) = .next t ∧ t.core = s.core
            ∧ ∀ y, y ∈ t.fabric.decls ↔ y ∈ s.fabric.decls ∧ { y with block := [] } ≠ ⟨n, level, node, kind, rank, []⟩)
          ∧ ∃ t, run (.arrive g level node number) = .next t ∧ t.core = s.core ∧ t.hbm = s.hbm
            ∧ t.upperAt n level node number.toNat
              = if b.count + 1 = size then { b with gen := b.gen + 1, count := 0 } else { b with count := b.count + 1 })
      ∧ (s.slotOfGroup g = none → ∀ (level node rank kind : Nat) (slot : BitVec 2) (seq : Word32) (bases : List Word64)
          (number : BitVec 7) (block : List Byte) (msg : ControlMsg),
        msg ∈ [.ready g level node slot seq rank bases, .unready g level node slot seq rank,
          .declare g level node kind rank block, .undeclare g level node kind rank, .arrive g level node number] →
        (s.group? g = none → run msg = .next s)
          ∧ ∀ x, s.group? g = some x → ∃ t, run msg = .next t ∧ group t { x with early := x.early ++ [msg] })

/-- R100 and R112 to R116: a GANGCMD of the owner is refused with its RESULT, or begins to stop its set, or brings its
saved images back to their cores, where the contexts go on from where they stopped, in the state in which they were
stopped; one that waits is judged afresh. The model's choices in it: log
entry 65. -/
def Obligations.GangRequests : Prop :=
  ∀ (s : State) (m slot : Nat) (gang : BitVec 32), Safety.stateOk s = true → s.reaches m = true → s.owns m = true →
    slot ≤ 255 → s.hub.stop = none → s.hub.gangs = [] →
    let want := named slot gang s.gangsHere
    let gs := closeOver s.coreList s.coreList.length want
    let n := countIn s.coreList gs
    let imgs := s.imagesOf slot gang
    let answers (t : State) (result n : Nat) : Prop := (t.lslot slot).gangRes = BitVec.ofNat 64 (result * 2 ^ 56 + n)
    let kept (t : State) : Prop := t.core = s.core ∧ t.hbm = s.hbm ∧ t.hub.saved = s.hub.saved ∧ t.others = s.others
    (∃ t, exec (.gangPreempt m slot gang) s = .next t ∧ kept t
        ∧ (t.lslot slot).gangCmd = 0x4000000000000000 ||| gang.setWidth 64
        ∧ (s.noGang slot gang = true → answers t 3 0 ∧ t.hub.stop = none)
        ∧ (s.noGang slot gang = false → want = [] → answers t 4 0 ∧ t.hub.stop = none)
        ∧ (s.noGang slot gang = false → want ≠ [] → s.saveSlots.length < (s.coresWith gs).length →
          answers t 5 n ∧ t.hub.stop = none)
        ∧ (s.noGang slot gang = false → want ≠ [] → (s.coresWith gs).length ≤ s.saveSlots.length →
          answers t 2 n ∧ t.hub.stop = some ⟨⟨slot, .preempt gang⟩, gs, n, []⟩))
      ∧ (s.noGang slot gang = true → ∃ t, exec (.gangResume m slot gang) s = .next t ∧ kept t ∧ answers t 3 0)
      ∧ (s.noGang slot gang = false → imgs = [] → ∃ t, exec (.gangResume m slot gang) s = .next t ∧ kept t
        ∧ answers t 4 0)
      ∧ (∀ i, s.noGang slot gang = false → s.hub.saved = [i] → imgs = [i] → s.coreOpen i false i.coreIx = true →
        (∀ c, (i.image.ctxs.get c).bound = true → (s.lslot (i.image.ctxs.get c).bind.lslot).state = .running) →
        ∃ t, exec (.gangResume m slot gang) s = .next t ∧ t.hub.saved = [] ∧ t.hbm = s.hbm
          ∧ answers t 1 i.image.inGangs.length
          ∧ ∀ c, (i.image.ctxs.get c).state = .preempted →
            let x := i.image.ctxs.get c
            let y := t.ctxOf i.coreIx c
            y.state = x.waits.prior ∧ y.waits.hold = .none ∧ y.pc = x.pc ∧ y.regs = x.regs
              ∧ y.resident = 0 ∧ y.bind = x.bind ∧ y.ctrl = x.ctrl)

/-- R25, R112, R114, R118 and R227: a set that is stopping stops its contexts that may, each with a fault that waits for
it delivered first, then saves its cores in the free slots, in HBM and as the images from which it is resumed, and is done
with the NSET of its request; a built pod that fails is told of, and a logical pod without a gang goes on on the die's spare. The model's
choices in it: log entries 65 and 66. -/
def Obligations.GangStops : Prop :=
  ∀ (s : State) (slot die pod : Nat), Safety.stateOk s = true → s.hub.gangs = [] →
    (∀ st, s.hub.stop = some st → st.req.slot ≠ slot → exec (.gangStop slot) s = .next s)
      ∧ (s.hub.stop = none → exec (.gangStop slot) s = .next s)
      ∧ (∀ st c f rest, s.hub.stop = some st → st.req.slot = slot → s.canStop = [(s.coreIx, c)] →
        (∀ g i, g ∈ (s.ctxAt c).flight → g.dest ≠ .cr i) → (s.ctxAt c).hm = false → (s.ctxAt c).waits.faults = f :: rest →
        (s.ctxAt c).state = .ready ∨ (s.ctxAt c).state = .waiting → (s.ctxAt c).ctrl.tvec ≠ 0 →
        (s.ctxAt c).flight.length ≤ 64 → ∃ t, exec (.gangStop slot) s = .next t
          ∧ let x := s.ctxAt c
            let y := t.ctxAt c
            y.state = .preempted ∧ y.waits.prior = .ready ∧ y.pc = x.ctrl.tvec ∧ y.ctrl.ecause = 16
              ∧ y.ctrl.epc = x.pc &&& 0x00FFFFFFFFFFFFF8 ∧ y.hm = true ∧ y.waits.faults = rest)
      ∧ (∀ st c, s.hub.stop = some st → st.req.slot = slot → s.canStop = [(s.coreIx, c)] →
        ((s.ctxAt c).waits.faults = [] ∨ (s.ctxAt c).hm = true) →
        (∀ f i, f ∈ (s.ctxAt c).flight → f.dest ≠ .cr i) → ∃ t, exec (.gangStop slot) s = .next t
          ∧ let x := s.ctxAt c
            let y := t.ctxAt c
            y.state = .preempted ∧ y.pc = x.pc ∧ y.flight = [] ∧ y.bind = x.bind ∧ y.resident = 0 ∧ y.dirty = 0
              ∧ y.waits.prior = (if x.state = .running then .ready else x.state)
              ∧ (∀ r, r ∈ y.waits.waita → r.cause = some 3))
      ∧ (∀ st g n i, s.hub.stop = some st → st.req = ⟨slot, .preempt g⟩ → s.canStop = [] → s.stopCores st = [n] →
        (∀ c, (s.ctxOf n c).state ≠ .free → (s.ctxOf n c).state = .preempted) → (s.coreAt n).lines = [] →
        s.coreQuiet n = true → s.saveSlots.head? = some i →
        ∃ t, exec (.gangStop slot) s = .next t ∧ t.hub.stop = none
          ∧ (t.lslot slot).gangRes = BitVec.ofNat 64 (2 ^ 56 + st.nset)
          ∧ (∃ x, t.hub.saved = s.hub.saved ++ [x] ∧ x.slot = i ∧ x.coreIx = n ∧ x.set = st.gangs
            ∧ x.image.ctxs = (s.coreAt n).ctxs ∧ x.image.spad = (s.coreAt n).spad ∧ x.image.tile = (s.coreAt n).tile)
          ∧ (∀ c, (t.ctxOf n c).state = .free)
          ∧ (∀ k, k ≠ n → (t.coreAt k).spad = (s.coreAt k).spad ∧ (t.coreAt k).tile = (s.coreAt k).tile
            ∧ ∀ c, (t.ctxOf k c).regs = (s.ctxOf k c).regs ∧ (t.ctxOf k c).pc = (s.ctxOf k c).pc)
          ∧ let base := (s.hub.psaveb.extractLsb' 0 56).toNat + 0x200000 * i
            ∀ a, a < base ∨ base + 0x200000 ≤ a → memRead t.hbm a = memRead s.hbm a)
      ∧ (7 < die ∨ 31 < pod ∨ (32 * die + pod) ∈ s.hub.ecc.pods → exec (.podFailure die pod) s = .next s)
      ∧ (die ≤ 7 → pod ≤ 31 → (32 * die + pod) ∉ s.hub.ecc.pods →
        let failed := s.modHub fun h => { h with ecc := { h.ecc with pods := h.ecc.pods ++ [32 * die + pod] } }
        let on (i : Nat) : Bool := (s.podAt (28 * die + i)).active && (s.podAt (28 * die + i)).phys == pod
        ((List.range 28).find? on = none → exec (.podFailure die pod) s = .next failed)
        ∧ (∀ i b, (List.range 28).find? on = some i → s.hub.stop = none → failed.spare die = some b →
          s.pods.Pairwise (fun a b => a.1 < b.1) →
          let p := 28 * die + i
          (∀ k, k < 4 → (s.coreAt (4 * p + k)).gangs = []) →
          ∃ t, exec (.podFailure die pod) s = .next t ∧ t.hub.ecc.pods = s.hub.ecc.pods ++ [32 * die + pod]
            ∧ (t.podAt p).phys = b ∧ (t.podAt p).failed = false ∧ (t.podAt p).active = true ∧ t.hbm = s.hbm))

/-! ## Writes from outside -/

/-- R57, R66: a write that only the owner may make is dropped from another master and counted in its WSTAT; the management
controller is told. A master without a trained port reaches nothing. -/
def Sys2Proof.Claims.OwnerOnly : Prop :=
  ∀ (s : State) (m n : Nat) (q : Fin 8) (v : Word64) (w : BitVec 32) (data : List Byte), s.owns m = false →
    ∀ i, i ∈ ([.xlinvcWrite m v, .lqtailWrite m q v, .lqctlDisable m q v, .queueDisable m n, .trshutWrite m n v,
        .trdumpWrite m n v, .islctlWrite m n w, .launchAbort m n, .gangPreempt m n w, .gangResume m n w]
          ++ (if n = 0x108 then [] else [.stateWindowWrite m n (.eight v)])
          ++ (if n = 0x108 ∨ n = 0x10C then [] else [.stateWindowWrite m n (.four w)])
          ++ (if m ≤ 1 ∧ s.hub.boot.phase ≠ 3 then [.deviceMemoryWrite m n data] else []) : List Instr) →
      (s.reaches m = false → exec i s = .next s)
        ∧ (s.reaches m = true → ∃ t, exec i s = .next t ∧ t.core = s.core ∧ t.hbm = s.hbm ∧ t.others = s.others
          ∧ t.hub.slots = s.hub.slots ∧ t.hub.queues = s.hub.queues ∧ t.hub.hqueues = s.hub.hqueues
          ∧ t.hub.own.owner = s.hub.own.owner ∧ t.hub.own.epoch = s.hub.own.epoch
          ∧ (∀ k : Fin 3, let old := s.hub.own.wstat.get k
              let new := t.hub.own.wstat.get k
              if k.val = m then
                new.extractLsb' 16 48 = old.extractLsb' 16 48
                  ∧ (new.extractLsb' 0 16).toNat = min ((old.extractLsb' 0 16).toNat + 1) 65535
              else new = old)
          ∧ t.fabric.out = s.fabric.out ++ (if m = 2 then [.mctp 0x82] else []))

/-- R67, R71, R93, R119, R136 and R236: what the owner's writes do: LQTAIL moves the tail, LQCTL without ENABLE withdraws
the head, unless its group has its go, QCFG without ENABLE empties a queue, XLINVC begins an invalidation that then removes its translations,
TRSHUT arms the shutter, and TRDUMP begins a copy of the trace that then stands in memory, or is a fault beyond HBM. The
model's choices in it: log entries 52, 63 and 68. -/
def Obligations.OwnerWrites : Prop :=
  ∀ (s : State) (m n : Nat) (q : Fin 8) (v : Word64), s.reaches m = true → s.owns m = true → Safety.stateOk s = true →
    let x := s.queue q
    let tail : Word32 := v.setWidth 32
    let kept (t : State) : Prop := t.core = s.core ∧ t.hbm = s.hbm ∧ t.others = s.others
    let depth := (v.extractLsb' 8 5).toNat
    let ok : Prop := v &&& 0xFFFFFFFFFFFF20FF = 0 ∧ 4 ≤ depth ∧ depth ≤ 16 ∧ (x.enabled = true → depth = x.log2n)
    let h := s.hqueue n
    let y := (s.coreAt n).trace
    (∃ t, exec (.lqtailWrite m q v) s = .next t ∧ kept t
        ∧ (v >>> 32 = 0 → (tail - x.head).toNat ≤ 2 ^ x.log2n → t.queue q = { x with tail := tail })
        ∧ (v >>> 32 ≠ 0 ∨ 2 ^ x.log2n < (tail - x.head).toNat → t = s.drop m .malformed))
      ∧ (v.getLsbD 15 = true → exec (.lqctlDisable m q v) s = .next s)
      ∧ (v.getLsbD 15 = false → s.hub.boot.phase ≠ 3 → ok → x.stage = .going → ∃ t,
        exec (.lqctlDisable m q v) s = .next t ∧ kept t ∧ t.queue q = { x with ctl := v })
      ∧ (v.getLsbD 15 = false → s.hub.boot.phase ≠ 3 → ok → x.stage ≠ .going → ∃ t,
        exec (.lqctlDisable m q v) s = .next t ∧ (t.queue q).ctl = v ∧ (t.queue q).stage = .none ∧ (t.queue q).head = x.head ∧ (t.queue q).tail = x.tail
        ∧ t.hbm = s.hbm)
      ∧ (v.getLsbD 15 = false → s.hub.boot.phase ≠ 3 → ¬ ok →
        exec (.lqctlDisable m q v) s = .next (s.drop m .malformed))
      ∧ (n ≤ 4095 → Tab.wf HQueue.reset s.hub.hqueues = true → h.cfg &&& 0xFFFFFF007F00600F = 0 → 4 ≤ (h.cfg.extractLsb' 8 5).toNat →
          (h.cfg.extractLsb' 8 5).toNat ≤ 20 → ∃ t, exec (.queueDisable m n) s = .next t
            ∧ t.hqueue n = { h with cfg := h.cfg &&& ~~~0x80000000, onchip := [], spilled := [], getters := [] }
            ∧ (∀ k, k ≠ n → t.hqueue k = s.hqueue k) ∧ t.hbm = s.hbm)
      ∧ (s.hub.xlinv.busy = false → (v.extractLsb' 40 22).toNat = 0 → ∃ t, exec (.xlinvcWrite m v) s = .next t ∧ kept t
        ∧ t.hub.xlinv = { s.hub.xlinv with ctl := v &&& 0x7FFFFFFFFFFFFFFF, busy := true } ∧ t.hub.xlat = s.hub.xlat)
      ∧ (s.hub.xlinv.busy = true → s.usesRemoved = false → ∃ t, exec .xlatInvalidateDone s = .next t ∧ kept t
        ∧ t.hub.xlinv.busy = false
        ∧ (∀ e, e ∈ t.hub.xlat ↔ e ∈ s.hub.xlat ∧ s.hub.xlinv.covers e.lslot e.va e.size = false)
        ∧ ∀ p y e, (p, y) ∈ t.pods → e ∈ y.xlat → s.hub.xlinv.covers e.lslot e.va e.size = false)
      ∧ (s.hub.xlinv.busy = false ∨ s.usesRemoved = true → exec .xlatInvalidateDone s = .next s)
      ∧ (n ≤ 895 → v &&& 0x4F00FFFFFFFFC000 = 0 → ∃ t, exec (.trshutWrite m n v) s = .next t ∧ t.hbm = s.hbm
        ∧ (t.coreAt n).trace = if v.getLsbD 63 then
            { y with trshut := v, fired := false, frozen := false, lost := 0, post := 0 }
          else { y with trshut := v })
      ∧ (n ≤ 895 → y.dumpBusy = false → v &&& 0x7F0000000003FFFF = 0 →
          ((v.setWidth 56).toNat + 0x40000 ≤ hbmSize → ∃ t, exec (.trdumpWrite m n v) s = .next t ∧ t.hbm = s.hbm
            ∧ (t.coreAt n).trace = { y with
              dumpBase := v &&& 0x00FFFFFFFFFFFFFF, dumpBusy := true, atDump := y.entries })
          ∧ (hbmSize < (v.setWidth 56).toNat + 0x40000 → exec (.trdumpWrite m n v) s = .fault .beyondHbm))
      ∧ (y.dumpBusy = true → y.dumpBase.toNat % 128 = 0 → ∃ t, exec (.trdumpCopyDone n) s = .next t
            ∧ (t.coreAt n).trace = { y with dumpBusy := false, atDump := [] }
            ∧ (∀ a, a < y.dumpBase.toNat ∨ y.dumpBase.toNat + 0x40000 ≤ a → memRead t.hbm a = memRead s.hbm a)
            ∧ ∀ k, k < 16384 → tget (0, 0) y.entries k = tget (0, 0) y.atDump k →
              littleEndian (readBytes t.hbm (y.dumpBase.toNat + 16 * k) 8) = (tget (0, 0) y.entries k).1.toNat
                ∧ littleEndian (readBytes t.hbm (y.dumpBase.toNat + 16 * k + 8) 8)
                  = (tget (0, 0) y.entries k).2.toNat)

/-- R56, R57, R63 to R67, R112, R113, R80, R219 and R303: a state-window write acts as the register at its offset: OWNCLM for any
master, the others for the owner; 4 bytes are written with what the other 4 of their register read as; a write that would
change read-only bits beside writable ones is counted and takes effect on the others, as of STATUS; a loop entry takes
ACT, ORDER and bits 55:3 of its addresses; bytes written through BAR2 stand in memory, and a write beyond 768 GiB is a
fault. The model's choices in it: log entries 52, 62, 63 and 69. -/
def Sys2Proof.Claims.StateWindow : Prop :=
  ∀ (s : State) (m : Nat) (v : Word64),
    let w (off : Nat) (v : Word64) : Res := exec (.stateWindowWrite m off (.eight v)) s
    let w4 (off : Nat) (u : Word32) : Res := exec (.stateWindowWrite m off (.four u)) s
    let owner : Prop := s.reaches m = true ∧ s.owns m = true
    (∀ epoch lease, w 0x108 (epoch ++ lease ++ 0#29 ++ 1#3) = exec (.ownClaim m epoch lease) s)
      ∧ (∀ q : Fin 8, w (0x2010 + 64 * q.val) v = exec (.lqtailWrite m q v) s
        ∧ (v.getLsbD 15 = false → w (0x2008 + 64 * q.val) v = exec (.lqctlDisable m q v) s))
      ∧ w 0x308 v = exec (.xlinvcWrite m v) s
      ∧ (∀ n, n ≤ 895 → w (0x1100080 + 1024 * n) v = exec (.trshutWrite m n v) s
        ∧ w (0x1100098 + 1024 * n) v = exec (.trdumpWrite m n v) s)
      ∧ (∀ i u, i ≤ 255 → w4 (0x1400 + 4 * i) u = exec (.islctlWrite m i u) s)
      ∧ (owner → ∀ j, j ≤ 127 → ∃ t, exec (.islctlWrite m (2 * j) (v.setWidth 32)) s = .next t
        ∧ w (0x1400 + 8 * j) v = exec (.islctlWrite m (2 * j + 1) (v.extractLsb' 32 32)) t)
      ∧ (∀ k u, k < 0x1400 ∨ 0x1800 ≤ k → k % 8 = 0 →
        w4 k u = w k ((s.windowRead m k &&& 0xFFFFFFFF00000000) ||| u.setWidth 64)
          ∧ w4 (k + 4) u = w k ((s.windowRead m k &&& 0xFFFFFFFF) ||| (u.setWidth 64 <<< 32)))
      ∧ (∀ slot gang, slot ≤ 255 → w (0x10008 + 256 * slot) 1 = exec (.launchAbort m slot) s
        ∧ w (0x10018 + 256 * slot) (1#2 ++ 0#30 ++ gang) = exec (.gangPreempt m slot gang) s
        ∧ w (0x10018 + 256 * slot) (2#2 ++ 0#30 ++ gang) = exec (.gangResume m slot gang) s)
      ∧ (s.reaches m = true → s.owns m = true →
        (s.savesBusy = false → v &&& 0xFF000000001FFFFF = 0 →
          w 0x200 v = .next (s.modHub fun h => { h with psaveb := v }))
        ∧ (s.savesBusy = false → v ≤ 1024 → w 0x208 v = .next (s.modHub fun h => { h with psaven := v }))
        ∧ (300 ≤ (v.setWidth 16).toNat → (v.setWidth 16).toNat ≤ 640 →
          let capped (s : State) : State := s.modHub fun h => { h with power := { h.power with cap := v.setWidth 16 } }
          (v.extractLsb' 16 16 = 0 ∨ v.extractLsb' 16 16 = s.hub.power.meas → w 0x1000 v = .next (capped s))
          ∧ (v.extractLsb' 16 16 ≠ 0 → v.extractLsb' 16 16 ≠ s.hub.power.meas →
            w 0x1000 v = .next (capped (s.drop m .malformed))))
        ∧ (∀ k, k < 3584 → k / 4 = s.coreIx → (s.ctxNo k).state = .idle → v &&& 0xFF00000000000007 = 0 → ∃ t,
          w (0x100000 + 4096 * k + 8 * 5) v = .next t ∧ (t.ctxNo k).ctrl.tvec = v
            ∧ (t.ctxNo k).regs = (s.ctxNo k).regs ∧ t.hbm = s.hbm)
        ∧ (∀ k, k < 3584 → k / 4 = s.coreIx → (s.ctxNo k).state = .idle →
          let x := s.ctxNo k
          let slot (off : Nat) : Nat := 0x100000 + 4096 * k + off
          let counted (old new : Owner) : Prop := (∀ j : Fin 3, j.val ≠ m → new.wstat.get j = old.wstat.get j)
            ∧ ∀ j : Fin 3, j.val = m → ((new.wstat.get j).extractLsb' 32 16).toNat
              = min (((old.wstat.get j).extractLsb' 32 16).toNat + 1) 65535
          (v.extractLsb' 4 28 = 0 → x.waits.faults = [] → ∃ t, w (slot 0) v = .next t
            ∧ (t.ctxNo k).ctrl = { x.ctrl with
              status := (v &&& 0xFFFFFFFF00000008) ||| (x.ctrl.status &&& 5) ||| (x.ctrl.status &&& v &&& 2) }
            ∧ (v &&& 5 = 0 ∨ v &&& 5 = x.ctrl.status &&& 5 → t.hub = s.hub)
            ∧ (v &&& 5 ≠ 0 → v &&& 5 ≠ x.ctrl.status &&& 5 → counted s.hub.own t.hub.own))
          ∧ (∀ i : Fin 4,
            (v &&& 0x1F00000000000007 = 0 → ∃ t, w (slot (0x8C0 + 16 * i.val)) v = .next t
              ∧ (t.ctxNo k).loops = x.loops.set i.val
                ⟨v.getLsbD 63, (v.extractLsb' 61 2).toNat, v &&& 0x00FFFFFFFFFFFFF8, (x.loops.get i).exit⟩ i.isLt
              ∧ (t.ctxNo k).regs = x.regs ∧ t.hbm = s.hbm)
            ∧ (v &&& 0xFF00000000000007 = 0 → ∃ t, w (slot (0x8C8 + 16 * i.val)) v = .next t
              ∧ (t.ctxNo k).loops = x.loops.set i.val { x.loops.get i with exit := v &&& 0x00FFFFFFFFFFFFF8 } i.isLt
              ∧ (t.ctxNo k).regs = x.regs ∧ t.hbm = s.hbm)
            ∧ (v &&& 0x1F00000000000007 ≠ 0 → w (slot (0x8C0 + 16 * i.val)) v = .next (s.drop m .malformed))))
        ∧ (m ≤ 1 → s.hub.boot.phase ≠ 3 → ∀ pa data,
          (hbmSize < pa + data.length → exec (.deviceMemoryWrite m pa data) s = .fault .beyondHbm)
          ∧ (pa + data.length ≤ hbmSize → Safety.stateOk s = true → s.badHbm = [] →
            ∃ t, exec (.deviceMemoryWrite m pa data) s = .next t
              ∧ (∀ i, i < data.length → memRead t.hbm (pa + i) = data.getD i 0)
              ∧ ∀ a, a < pa ∨ pa + data.length ≤ a → memRead t.hbm a = memRead s.hbm a)))

/-- R56, R57 and R63: only the owner changes state, and each offset of the state window is its register. -/
def Obligations.OwnerAndWindow : Prop := Claims.OwnerOnly ∧ Claims.StateWindow

/-- R58 to R62: the ownership requests: a malformed one, one of another EPOCH, one in the wrong state and one of the
wrong master are answered with their RESULT and change nothing else; the others are done. A lease or an acceptance
timer that runs out frees the device or withdraws the handover. The model's choices in it: log entry 55. -/
def Obligations.Ownership : Prop :=
  ∀ (s : State) (m : Nat) (epoch lease : BitVec 16) (tgt : BitVec 2), s.reaches m = true →
    let o := s.hub.own
    let answered (o : Owner) (r op : Nat) : Owner :=
      { o with res := o.res.setIfInBounds m (BitVec.ofNat 64 (o.epoch.toNat * 2 ^ 48 + r * 16 + op)) }
    let acts (i : Instr) (op : Nat) (formOk stateOk whoOk : Bool) (after : Owner) : Prop :=
      let r := if !formOk then 5 else if epoch ≠ o.epoch then 2 else if !stateOk then 3 else if !whoOk then 4 else 1
      ∃ t, exec i s = .next t ∧ t.hub.own = answered (if r = 1 then after else o) r op ∧ t.core = s.core ∧ t.hbm = s.hbm
    let leaseOk : Bool := decide (10 ≤ lease.toNat) && decide (lease.toNat ≤ 60000)
    let mine : Bool := o.owner.toNat == m
    let withdrawn : Owner := { o with state := .owned, htgt := 3, accept := 0, epoch := o.epoch + 1 }
    let freed : Owner := { o with state := .free, owner := 3, htgt := 3, lease := 0, accept := 0, epoch := o.epoch + 1 }
    acts (.ownClaim m epoch lease) 1 leaseOk (o.state == .free) true
        { o with state := .owned, owner := BitVec.ofNat 2 m, lease := lease, epoch := o.epoch + 1 }
      ∧ acts (.ownRenew m epoch lease) 2 leaseOk (o.state != .free) mine
        { (if o.state = .handover then withdrawn else o) with lease := lease }
      ∧ acts (.ownRelease m epoch) 3 true (o.state == .owned) mine freed
      ∧ acts (.ownHandover m epoch tgt) 4 (tgt != 3 && tgt.toNat != m) (o.state == .owned) mine
        { o with state := .handover, htgt := tgt, accept := 100, epoch := o.epoch + 1 }
      ∧ acts (.ownAccept m epoch lease) 5 leaseOk (o.state == .handover) (o.htgt.toNat == m)
        { withdrawn with owner := o.htgt, lease := lease }
      ∧ exec .leaseExpiry s = .next (s.modHub fun h => { h with own := if o.state = .free then o else freed })
      ∧ exec .handoverTimeout s = .next (s.modHub fun h => { h with own := if o.state = .handover then withdrawn else o })

/-- R14 to R21, R60 and R61: a host port trains; ISLCTL sets an island's pin and target and begins its transition,
which ends with the island at its target; in each millisecond the power manager moves a pod island one step down,
where it is too hot or the board draws more than its cap, or one up towards its target, where it draws less than 98 %
of it. A step changes when every core of the island stands at a bundle boundary (R17). The model's choices in it: log
entries 52, 55, 56 and 111. -/
def Sys2Proof.Claims.Islands : Prop :=
  ∀ (s : State) (m i port : Nat) (v : BitVec 32) (width rate : Nat) (cxl : Bool) (meas : BitVec 16) (hot cool : List Nat),
    Tab.wf Island.reset s.hub.power.islands = true →
    let x := s.island i
    let goal := (v.extractLsb' 16 5).toNat
    let kept (t : State) : Prop := t.core = s.core ∧ t.hbm = s.hbm ∧ t.others = s.others
    let cap := s.hub.power.cap.toNat
    let stuck : Prop := ∀ j, j < 224 → (s.island j).pin = true ∨ (s.island j).cur = 0
    let still : Prop := i < 224 → ∀ j, j < 4 → ∀ c, (s.coreAt (4 * i + j)).running = some c →
      (s.coreAt (4 * i + j)).atBoundary c = true
    let free : Prop := still ∧ x.due = none
    let o := s.hub.own
    (s.reaches m = true → s.owns m = true → i ≤ 255 →
        (v &&& 0x00E0FF00 ≠ 0 → exec (.islctlWrite m i v) s = .next (s.drop m .malformed))
        ∧ (v &&& 0x00E0FF00 = 0 → 18 < goal → exec (.islctlWrite m i v) s = .next s)
        ∧ (v &&& 0x00E0FF00 = 0 → goal ≤ 18 → ∃ t, exec (.islctlWrite m i v) s = .next t ∧ kept t
          ∧ (t.island i).pin = v.getLsbD 31 ∧ (t.island i).tgt = goal ∧ (t.island i).cur = x.cur
          ∧ (goal < x.cur → (t.island i).cause = 3) ∧ (goal = x.cur → (t.island i).cause = 0)
          ∧ (x.cur < goal → 224 ≤ i → (t.island i).cause = 3)
          ∧ (v &&& 0x7F0000FF = 0 → t.hub.own = s.hub.own)
          ∧ (∀ cur why, (t.island i).due = some (cur, why) → x.due = some (cur, why) ∧ (cur ≤ goal ∨ cur ≤ x.cur))
          ∧ ∀ j, j ≠ i → t.island j = s.island j))
      ∧ (still → x.due = none → x.cause = 3 → ∃ t, exec (.islandTransition i) s = .next t ∧ kept t
        ∧ t.island i = { x with cur := x.tgt, cause := 0 } ∧ ∀ j, j ≠ i → t.island j = s.island j)
      ∧ (∀ cur why, still → x.due = some (cur, why) → ∃ t, exec (.islandTransition i) s = .next t ∧ kept t
        ∧ t.island i = { x with
          cur := cur, cause := if x.tgt < cur then 3 else if cur = x.tgt then 0 else why, due := none }
        ∧ ∀ j, j ≠ i → t.island j = s.island j)
      ∧ (¬ still ∨ (x.due = none ∧ x.cause ≠ 3) → exec (.islandTransition i) s = .next s)
      ∧ (∃ t, exec (.powerManagerTick meas hot cool) s = .next t ∧ kept t ∧ t.hub.power.meas = meas
        ∧ (∀ j, j ∈ t.hub.power.hot ↔ (j ∈ s.hub.power.hot ∨ j ∈ hot) ∧ j ∉ cool)
        ∧ (i < 224 → (t.island i).pin = x.pin ∧ (t.island i).tgt = x.tgt)
        ∧ (i < 224 → free → i ∈ hot → (t.island i).cur = x.cur - 1)
        ∧ (i < 224 → free → i ∉ hot → cap < meas.toNat → (x.pin = false ∨ stuck) → (t.island i).cur = x.cur - 1)
        ∧ (i < 224 → x.due = none → i ∉ hot → cap < meas.toNat → x.pin = true → ¬ stuck → t.island i = x)
        ∧ (i < 224 → free → i ∉ hot → 100 * meas.toNat < 98 * cap → i ∉ t.hub.power.hot →
          (t.island i).cur = if x.cur < x.tgt then x.cur + 1 else x.cur)
        ∧ (i < 224 → x.due = none → i ∉ hot → meas.toNat ≤ cap → 98 * cap ≤ 100 * meas.toNat → t.island i = x)
        ∧ (i < 224 → ¬ still → x.due = none → i ∈ hot → 0 < x.cur → (t.island i).cur = x.cur
          ∧ ∃ why, (t.island i).due = some (x.cur - 1, why))
        ∧ t.hub.ecc.now = s.hub.ecc.now + 1
        ∧ (224 ≤ i → t.island i = x)
        ∧ (o.state = .free → t.hub.own = o)
        ∧ (o.state ≠ .free → o.lease.toNat ≤ 1 → t.hub.own.state = .free ∧ t.hub.own.epoch = o.epoch + 1)
        ∧ (o.state = .owned → 1 < o.lease.toNat → t.hub.own = { o with lease := o.lease - 1 })
        ∧ (o.state = .handover → 1 < o.lease.toNat → o.accept ≤ 1 → t.hub.own.state = .owned
          ∧ t.hub.own.owner = o.owner ∧ t.hub.own.epoch = o.epoch + 1)
        ∧ (o.state = .handover → 1 < o.lease.toNat → 1 < o.accept →
          t.hub.own = { o with lease := o.lease - 1, accept := o.accept - 1 }))
      ∧ ∀ k : Fin 2, k.val = port → (∃ t, exec (.hostLinkTrain port (.trained width rate cxl)) s = .next t
          ∧ t.hub.hosts.get k = ⟨true, width, rate, cxl⟩ ∧ kept t)
        ∧ ∃ t, exec (.hostLinkTrain port .failed) s = .next t ∧ (t.hub.hosts.get k).up = false ∧ kept t

/-- R12 and R22 to R24: a scrub logs the places of uncorrectable errors, by 64-bit units in SRAM arrays, and those that it
corrects with their time, and changes no value; a row of a stack with 16 corrected errors in 24 hours is spared with its
contents; a failed
pseudo-channel of a stack is rebuilt but for its lost lines, which hold uncorrectable errors. The model's choices in it: log entry 74. -/
def Sys2Proof.Claims.ErrorsAndSpares : Prop :=
  ∀ (s : State) (row stack channel : Nat) (lost : List Nat),
    let at_ (u : Nat) : Nat := 128 * (u / 4) / 2048 % 12 + 12 * Config.rowOf u
    let met := s.hub.ecc.corrected.countP fun (t, p) => decide (s.hub.ecc.now < t + 86400000) && match p with
      | .hbm u => at_ u == row
      | _ => false
    let kept (t : State) : Prop := t.hbm = s.hbm ∧ t.core = s.core ∧ t.others = s.others
    let log := s.hub.ecc.logged
    (∃ t, exec .hbmPatrolScrub s = .next t ∧ kept t ∧ t.badHbm = s.badHbm
        ∧ (∀ p, p ∈ t.hub.ecc.logged ↔ p ∈ log ∨ ∃ u, u ∈ s.badHbm ∧ p = .hbm u)
        ∧ ∃ us : List Nat, (∀ u, u ∈ us → 32 * u < hbmSize)
          ∧ t.hub.ecc.corrected = s.hub.ecc.corrected ++ us.map fun u => (s.hub.ecc.now, .hbm u))
      ∧ (∃ t, exec .sramPatrolScrub s = .next t ∧ kept t ∧ t.badDie = s.badDie ∧ (∀ p, p ∈ log → p ∈ t.hub.ecc.logged)
        ∧ (∀ w, w ∈ s.core.badWords → .spad s.coreIx w ∈ t.hub.ecc.logged)
        ∧ (∀ w, w ∈ s.core.badTile → .tile s.coreIx w ∈ t.hub.ecc.logged)
        ∧ (∀ w, w ∈ s.badDie → .die w ∈ t.hub.ecc.logged)
        ∧ (∀ c u, u ∈ (s.ctxAt c).badRegs → .regs s.coreIx c u ∈ t.hub.ecc.logged)
        ∧ (∀ c i l, (s.ctxAt c).latent[i]? = some l → l.bad = true → .latent s.coreIx c i 0 ∈ t.hub.ecc.logged)
        ∧ (∀ l u, l ∈ s.core.lines → u < 16 → l.bad.getLsbD u = true →
          .line s.coreIx l.lslot l.va u ∈ t.hub.ecc.logged)
        ∧ (∀ q h i m u, (q, h) ∈ s.hub.hqueues → h.onchip[i]? = some m → u < 16 → m.bad.getLsbD u = true →
          .queue q i u ∈ t.hub.ecc.logged)
        ∧ ∃ ps : List EccPlace, t.hub.ecc.corrected = s.hub.ecc.corrected ++ ps.map fun p => (s.hub.ecc.now, p))
      ∧ (met < 16 → exec (.rowSparing row) s = .next s)
      ∧ (16 ≤ met → ∃ t, exec (.rowSparing row) s = .next t ∧ kept t ∧ t.badHbm = s.badHbm
        ∧ ∀ r, r ∈ t.hub.ecc.spared ↔ r ∈ s.hub.ecc.spared ∨ r = row)
      ∧ (11 < stack → exec (.pseudoChannelFailure stack channel lost) s = .next s)
      ∧ (stack ≤ 11 → ∃ t, exec (.pseudoChannelFailure stack channel lost) s = .next t ∧ kept t
        ∧ t.hub.ecc.channels = s.hub.ecc.channels ++ [(stack, channel)]
        ∧ ∀ u, u ∈ t.badHbm ↔ u ∈ s.badHbm ∨ (u / 4 ∈ lost ∧ 128 * (u / 4) < hbmSize
          ∧ 128 * (u / 4) / 2048 % 12 = stack ∧ Config.channelOf (4 * (u / 4)) = channel))

/-- R14 to R24: power islands, host ports, errors and spares. -/
def Obligations.IslandsAndErrors : Prop := Claims.Islands ∧ Claims.ErrorsAndSpares

/-- R78 to R81: measured boot measures each stage before it runs it, and either ends with every stage run, or stops at
the first image that is refused, at each stage for its form, its signature or its version; the responder answers over each transport, a signed response being deferred and then
fetched in chunks. The digests and the signature, of 29,792 bytes, are functions that the specification does not compute
here. The model's choices in it: log entries 59 to 61 and 112. -/
def Obligations.BootAndAttestation : Prop :=
  ∀ (s : State) (t : Transport) (nonce : List Byte) (seq : Nat),
    let b := s.hub.boot
    let digest (x : BootImage) : List Byte := Config.shake256 x.bytes 512
    let extend (c d : List Byte) : List Byte := Config.shake256 (c ++ d) 512
    let zero : List Byte := List.replicate 64 0
    let passes (stage : Nat) (key : List Byte) (x : BootImage) : Prop := x.wellFormed = true
      ∧ (stage = 1 → Config.shake256 x.key 512 = Config.fusedKeyHash)
      ∧ (stage ≠ 5 → Config.slhDsaVerify key x.bytes x.signature = true ∧ Config.minVersion stage ≤ x.version)
    let x := s.hub.spdm.get (spdmIx t)
    let sends (u : State) (r : SpdmOut) : Prop := u.fabric.out = s.fabric.out ++ [.spdm t r]
      ∧ u.core = s.core ∧ u.hbm = s.hbm ∧ ∀ i, i ≠ spdmIx t → u.hub.spdm.get i = s.hub.spdm.get i
    let held (u : State) : Spdm := u.hub.spdm.get (spdmIx t)
    let signs (i : Instr) (body : List Byte) : Prop := ∃ u, exec i s = .next u ∧ sends u (.notReady 20)
      ∧ held u = { x with
          deferred := body ++ slhSign (Config.sha3 (spdmNegotiated ++ x.transcript ++ nonce ++ body)), transcript := [] }
    (b.phase = 2 ∨ b.phase = 3 → ∀ l, exec (.measuredBoot l) s = .next s)
      ∧ (b.phase ≠ 2 → b.phase ≠ 3 → ∀ x1 x2 x3 x4 x5,
        let c1 := extend zero (digest x1)
        let c2 := extend c1 (digest x2)
        let c3 := extend c2 (digest x3)
        let c4 := extend c3 (digest x4)
        ∃ u, exec (.measuredBoot [x1, x2, x3, x4, x5]) s = .next u ∧ u.core = s.core ∧ u.hbm = s.hbm
          ∧ (passes 1 x1.key x1 → passes 2 x1.key x2 → passes 3 x1.key x3 → passes 4 x1.key x4 → passes 5 x1.key x5 →
            u.hub.boot.phase = 2 ∧ u.hub.boot.stage = 5
            ∧ u.hub.boot.log = [(0, 0, Config.romDigest, zero), (1, x1.version, digest x1, c1),
              (2, x2.version, digest x2, c2), (3, x3.version, digest x3, c3), (4, x4.version, digest x4, c4),
              (5, x5.version, digest x5, extend c4 (digest x5))]))
      ∧ (b.phase ≠ 2 → b.phase ≠ 3 → ∀ y l, ¬ passes 1 y.key y → ∃ u r, exec (.measuredBoot (y :: l)) s = .next u
        ∧ u.hub.boot.phase = 3 ∧ u.hub.boot.reason = r ∧ u.hub.boot.stage = 0 ∧ u.hub.boot.log.length = 2
        ∧ (y.wellFormed = false → r = 3)
        ∧ (y.wellFormed = true → Config.shake256 y.key 512 ≠ Config.fusedKeyHash → r = 4)
        ∧ (y.wellFormed = true → Config.shake256 y.key 512 = Config.fusedKeyHash →
          Config.slhDsaVerify y.key y.bytes y.signature = false → r = 1)
        ∧ (y.wellFormed = true → Config.shake256 y.key 512 = Config.fusedKeyHash →
          Config.slhDsaVerify y.key y.bytes y.signature = true → r = 2))
      ∧ (b.phase ≠ 2 → b.phase ≠ 3 → ∀ x1 more y rest,
        let good : List BootImage := x1 :: more
        let n := good.length + 1
        n ≤ 5 → (∀ i z, good[i]? = some z → passes (i + 1) x1.key z) → ¬ passes n x1.key y →
        ∃ u r c, exec (.measuredBoot (good ++ y :: rest)) s = .next u ∧ u.core = s.core ∧ u.hbm = s.hbm
          ∧ u.hub.boot.phase = 3 ∧ u.hub.boot.reason = r ∧ u.hub.boot.stage = BitVec.ofNat 8 good.length
          ∧ u.hub.boot.log.length = n + 1 ∧ u.hub.boot.log.getLast? = some (n, y.version, digest y, extend c (digest y))
          ∧ (y.wellFormed = false → r = 3)
          ∧ (y.wellFormed = true → Config.slhDsaVerify x1.key y.bytes y.signature = false → r = 1)
          ∧ (y.wellFormed = true → Config.slhDsaVerify x1.key y.bytes y.signature = true → r = 2))
      ∧ (∀ msg, (slhSign msg).length = 29792)
      ∧ (∀ c, c ∈ spdmCaps ↔ c ≠ .keyEx ∧ c ≠ .mutAuth)
      ∧ spdmAlgorithms.extAsym = [Config.extAsym] ∧ spdmAlgorithms.baseAsym = 0 ∧ spdmAlgorithms.signature = 29792
      ∧ (s.transportUp t = true →
        signs (.spdmGetMeasurements t nonce) b.blocks
        ∧ signs (.spdmChallenge t nonce) (Config.sha3 Config.certificate ++ Config.sha3 b.blocks)
        ∧ (∃ u, exec (.spdmGetCertificate t) s = .next u ∧ sends u (.whole Config.certificate)
          ∧ held u = { x with transcript := x.transcript ++ Config.certificate })
        ∧ (x.deferred = [] → ∃ u, exec (.spdmRespondIfReady t) s = .next u ∧ sends u .refused ∧ held u = x)
        ∧ (x.deferred ≠ [] → ∃ u, exec (.spdmRespondIfReady t) s = .next u ∧ sends u (.large x.deferred.length)
          ∧ held u = { x with chunks := x.deferred, deferred := [], next := 0 })
        ∧ (x.chunks = [] ∨ seq ≠ x.next → ∃ u, exec (.spdmChunkGet t seq) s = .next u ∧ sends u .refused ∧ held u = x)
        ∧ (x.chunks ≠ [] → seq = x.next → ∃ u n, 0 < n ∧ exec (.spdmChunkGet t seq) s = .next u
          ∧ sends u (.chunk seq (x.chunks.drop n).isEmpty (x.chunks.take n))
          ∧ held u = { x with chunks := x.chunks.drop n, next := x.next + 1 }))
      ∧ (s.transportUp t = false → ∀ i, i ∈ ([.spdmGetMeasurements t nonce, .spdmChallenge t nonce,
        .spdmGetCertificate t, .spdmRespondIfReady t, .spdmChunkGet t seq] : List Instr) → exec i s = .next s)


/-! ## Decoding and steps -/

/-- R256 to R263: every well-formed syllable is read back from its words: no bit of an operand is dropped. -/
def Obligations.DecodeOfEncode : Prop :=
  ∀ (y : Syllable) (stop : Bool), y.wf = true → decodeWords (encode y stop) = .ok y

/-- R256 to R291: words written out from the encodings, and the instructions they stand for; codes that no chapter assigns
raise ILLOP. -/
def Obligations.TableWordsDecode : Prop :=
  decodeWords [0x00C101461C000030] = .ok ⟨0, false, 3, .add false false ⟨5, 6, 7, .i64⟩⟩
    ∧ decodeWords [0x880503C001200000] = .ok ⟨1, false, 0, .crd 15 18⟩
    ∧ decodeWords [0x8004504D0000000D] = .ok ⟨0, false, 0, .loop 1 13 13⟩
    ∧ decodeWords [0xD002100000000000] = .ok ⟨10, false, 0, .yield⟩
    ∧ decodeWords [0xB002024400800070] = .ok ⟨6, false, 0, .ldg ⟨9, ⟨4, 8, none⟩, .n64⟩⟩
    ∧ decodeWords [0x8000100000000000] = .ok ⟨0, false, 0, .nop⟩
    ∧ decodeWords [0xC804201000000000] = .ok ⟨9, false, 0, .txtMask 0 16⟩
    ∧ decodeWords [0x8000000000000000] = .illop ∧ decodeWords [0x800FF00000000000] = .illop
    ∧ decodeWords [0x9003F00000000000] = .illop

/-- A step whose agenda has an event runs that event at its core. One that brings a message by a fabric port runs where
the receiver takes the message's flits, with what they acknowledge, and else the flit is dropped and the message comes
again (R30); a syllable on the agenda is no event and is dropped. The event is the first of the agenda, or, of the
ownership events at its head, the first of those that R61 puts before the others. The model's choices in it: log entries
6, 55 and 101. -/
def Sys2Proof.Claims.StepRunsEvents : Prop :=
  ∀ s : State,
    let k := agendaPick s.agenda
    let rank (i : Nat) : Option Nat := (s.agenda[i]?).bind fun e => ownRank e.what
    (s.agenda ≠ [] → k < s.agenda.length)
      ∧ (rank 0 = none → k = 0)
      ∧ (∀ j a b, (∀ i, i ≤ j → rank i ≠ none) → rank k = some a → rank j = some b → a ≤ b ∧ (a = b → k ≤ j))
      ∧ ∀ e, s.agenda[k]? = some e →
        let left : State := { s with agenda := s.agenda.eraseIdx k }
        let runs (u : State) : Res := match exec e.what (u.select e.core) with
          | .next t => .next { t.flushNotes with free := t.free + 1 }
          | .fault f => .fault f
          | .refused r => .refused r
        let message := (left.select e.core).flitOf e.what
        (isEvent e.what = true → message = none → step s = runs left)
          ∧ (isEvent e.what = true → ∀ a, message = some a → left.takesFlits a = true → step s = runs (left.flitArrives a))
          ∧ (∀ a, message = some a → left.takesFlits a = false → ∃ t v, step s = .next t
            ∧ t.agenda = e :: left.agenda ∧ t.fabric.dropped = s.fabric.dropped + 1
            ∧ t.fabric.out = s.fabric.out ++ [.replay s.arrivalPort v] ∧ t.core = s.core ∧ t.hbm = s.hbm)
          ∧ (isEvent e.what = false → step s = .next left)

/-- R217 and R221: in a cycle of a RUNNING context at a bundle boundary, when the words at its pc are those of one
well-formed syllable that takes no chain, and nothing stops, freezes or holds it, the step is the syllable's
instruction run on the state in which the cycle's results have landed, and then the end of the bundle and of the
cycle. A syllable whose guard is false is only ended. The model's choices in it: log entries 6 and 13. -/
def Sys2Proof.Claims.StepRunsSyllable : Prop :=
  ∀ (s : State) (c : CtxNo) (y : Syllable),
    let s0 := ({ s with turn := true } : State).beginCycle
    let s1 := (((s0.modCtxAt c Ctx.replay).landCycle).present c 0).modFr fun f => { f with preland := some (s0.ctxAt c) }
    let ws := encode y true
    let p : Placed := ⟨0, ws.headD 0, y⟩
    let b : Bundle := ⟨s1.fr.pc + BitVec.ofNat 64 (8 * ws.length), [p]⟩
    let s2 := s1.modFr fun f => { f with next := b.next }
    let judged := exec y.instr ((s2.onSyllable p).modFr fun f => { f with tags := 0, touched := [] })
    let issued (touched : List (Bool × Nat × Nat)) (branch : Bool) : State :=
      (s1.modFr fun f => { f with
        judging := false, tags := 0, touched := touched, anyBranch := branch, preland := none
        next := b.next }).onSyllable p
    let ends (t : State) : Res :=
      .next ((t.finishBundle b s1.ctx.ctrl.status fun i => s1.rdLc (BitVec.ofNat 6 i.val)).tagLine c false).endCycle
    let runs (touched : List (Bool × Nat × Nat)) (branch : Bool) : Prop :=
      step s = match exec y.instr (issued touched branch) with
        | .next t => ends t
        | .fault f => .fault f
        | .refused r => .refused r
    s.agenda = [] → s.turn = false → s0.core.freeze = 0 → s0.core.tableRead = false → s0.core.running = some c →
    s0.core.sliceDue = false → (s0.ctxAt c).waits.entering = none → (s0.ctxAt c).bubbles = 0 → s0.mustStop c = false →
    (s1.ctx.waits.faults = [] ∨ s1.ctx.hm = true) → s1.ctx.waits.lateErr = none →
    s1.ctx.resident = BitVec.allOnes 69 → s1.ctx.badRegs = [] → s1.ctx.pend = [] → s1.ctx.poison = [] →
    y.wf = true → ((vecHdr y.instr).all fun h => !h.ch) = true → s1.fetchWords s1.fr.pc 16 = .inl (ws, true) →
    (s2.guardTrue p = true → alwaysProceeds y.slot = true → runs [] false)
      ∧ (s2.guardTrue p = true → alwaysProceeds y.slot = false → ∀ u, judged = .next u → u.fr.verdict = .proceed →
        runs u.fr.touched u.fr.branch.isSome)
      ∧ (s2.guardTrue p = true → alwaysProceeds y.slot = false → ∀ u, judged = .next u → u.fr.verdict = .trapped →
        step s = .next (u.tagLine c false).endCycle)
      ∧ (s2.guardTrue p = true → alwaysProceeds y.slot = false → ∀ u why, judged = .next u → u.fr.verdict = .frozen why →
        u.core.fills = s1.core.fills →
        step s = .next ((s0.freezeCycle [why] s1.core.fills).tagLine c (why == .tag)).endCycle)
      ∧ (s2.guardTrue p = false → chainDest y.instr = none → step s = ends (issued [] false))

/-- R217, R218, R264, R265 and R266: as above for a bundle of two syllables. In slot order, without a clash, each is
judged on the state before the bundle, in order, and both are then performed in order on one state, whose register reads
are those before the bundle; the first that traps is the bundle's trap. Out of slot order the bundle raises BUNDLE at the
second, and with a clash ILLENC there, naming the first. The model's choices in it: log entries 6 and 13. -/
def Sys2Proof.Claims.StepRunsBundle : Prop :=
  ∀ (s : State) (c : CtxNo) (y z : Syllable),
    let s0 := ({ s with turn := true } : State).beginCycle
    let s1 := (((s0.modCtxAt c Ctx.replay).landCycle).present c 0).modFr fun f => { f with preland := some (s0.ctxAt c) }
    let w1 := encode y false
    let w2 := encode z true
    let p : Placed := ⟨0, w1.headD 0, y⟩
    let q : Placed := ⟨w1.length, w2.headD 0, z⟩
    let b : Bundle := ⟨s1.fr.pc + BitVec.ofNat 64 (8 * (w1 ++ w2).length), [p, q]⟩
    let s2 := s1.modFr fun f => { f with next := b.next }
    let judged (x : Placed) (tags : Nat) (touched : List (Bool × Nat × Nat)) : Res :=
      exec x.syl.instr ((s2.onSyllable x).modFr fun f => { f with tags := tags, touched := touched })
    let issued (touched : List (Bool × Nat × Nat)) (branch : Bool) : State :=
      s1.modFr fun f => { f with
        judging := false, tags := 0, touched := touched, anyBranch := branch, preland := none, next := b.next }
    let ends (t : State) : Res :=
      .next ((t.finishBundle b s1.ctx.ctrl.status fun i => s1.rdLc (BitVec.ofNat 6 i.val)).tagLine c false).endCycle
    let runs (touched : List (Bool × Nat × Nat)) (branch : Bool) : Prop :=
      ∀ t u, exec y.instr ((issued touched branch).onSyllable p) = .next t → exec z.instr (t.onSyllable q) = .next u →
        step s = ends u
    let trapped (u : State) : Res := .next (u.tagLine c false).endCycle
    let judges (x : Placed) (tags : Nat) (touched : List (Bool × Nat × Nat)) (tags' : Nat)
        (touched' : List (Bool × Nat × Nat)) (branch : Bool) : Prop :=
      (alwaysProceeds x.syl.slot = true ∧ tags' = tags ∧ touched' = touched ∧ branch = false)
        ∨ (alwaysProceeds x.syl.slot = false ∧ ∃ u, judged x tags touched = .next u ∧ u.fr.verdict = .proceed
          ∧ tags' = u.fr.tags ∧ touched' = u.fr.touched ∧ branch = u.fr.branch.isSome)
    let vector : Prop := 2 ≤ y.slot.toNat ∧ y.slot.toNat ≤ 4
    let ordered : Prop := y.slot.toNat < z.slot.toNat ∨ (y.slot = z.slot ∧ vector)
    let clash : Prop := usesClash (sylUses y) (sylUses z) = true ∨ (y.slot = z.slot ∧ p.gm &&& q.gm ≠ 0)
    s.agenda = [] → s.turn = false → s0.core.freeze = 0 → s0.core.tableRead = false → s0.core.running = some c →
    s0.core.sliceDue = false → (s0.ctxAt c).waits.entering = none → (s0.ctxAt c).bubbles = 0 → s0.mustStop c = false →
    (s1.ctx.waits.faults = [] ∨ s1.ctx.hm = true) → s1.ctx.waits.lateErr = none →
    y.wf = true → z.wf = true → ((vecHdr y.instr).all fun h => !h.ch) = true → ((vecHdr z.instr).all fun h => !h.ch) = true →
    s1.fetchWords s1.fr.pc 16 = .inl (w1 ++ w2, true) →
    (¬ ordered → step s
        = trapped (s1.trapWith cBUNDLE s1.fr.pc s1.fr.pc ((BitVec.ofNat 4 q.ix ++ z.slot) ++ (0 : BitVec 56))))
      ∧ (ordered → clash → step s
        = trapped (s1.trapWith cILLENC s1.fr.pc s1.fr.pc ((BitVec.ofNat 4 q.ix ++ z.slot) ++ (0 : BitVec 56))))
      ∧ (ordered → ¬ clash → s1.ctx.resident = BitVec.allOnes 69 → s1.ctx.badRegs = [] → s1.ctx.pend = [] →
        s1.ctx.poison = [] → s2.guardTrue p = true → s2.guardTrue q = true →
        (∀ t1 c1 b1 t2 c2 b2, judges p 0 [] t1 c1 b1 → judges q t1 c1 t2 c2 b2 → runs c2 (b1 || b2))
        ∧ (alwaysProceeds y.slot = false → ∀ u, judged p 0 [] = .next u → u.fr.verdict = .trapped → step s = trapped u)
        ∧ (alwaysProceeds z.slot = false → ∀ t1 c1 b1 u, judges p 0 [] t1 c1 b1 → judged q t1 c1 = .next u →
          u.fr.verdict = .trapped → step s = trapped u))

/-- A step runs the decoded instruction: an event of the agenda at its core, and the syllable, or the syllables of a
bundle, at a RUNNING context's pc. -/
def Obligations.StepRunsDecoded : Prop := Claims.StepRunsEvents ∧ Claims.StepRunsSyllable ∧ Claims.StepRunsBundle

/-- The memories' canonical form and the values of s0, p0 and q0 are kept by every step, in every core and saved image
(R156, R261): from every state that has them, not only from reset. -/
def Obligations.StepKeepsStateOk : Prop :=
  ∀ s t : State, Safety.stateOk s = true → step s = .next t → Safety.stateOk t = true

/-- R16, R19, R28, R67, R119 and R236: after reset nothing is owned, launched or failed; every context is FREE, STATUS and
the trap registers are 0, s0 reads 0, p0 true and q0 all ones; the islands are at step 18 with CAP at 640 units of 10 W
(6.4 kW), every plane is active on four lanes, and the invariant of every step holds. The model's choices in it: log entries 3 to 5. -/
def Obligations.ResetState : Prop :=
  let s := State.reset
  Safety.stateOk s = true
    ∧ (∀ k, k < 3584 → (s.ctxNo k).state = .free ∧ (s.ctxNo k).ctrl = ⟨0, 0, 0, 0, 0, 0, 0, 0, 0, 0, 0, 0, 0, 0⟩)
    ∧ s.rdS 0 = 0 ∧ s.rdP 0 = true ∧ s.rdQ 0 = BitVec.allOnes 128
    ∧ s.hub.own.state = .free ∧ s.hub.own.owner = 3 ∧ s.hub.own.epoch = 0
    ∧ (∀ q : Fin 8, (s.queue q).ctl = 0x400 ∧ (s.queue q).head = 0 ∧ (s.queue q).tail = 0)
    ∧ (∀ slot, (s.lslot slot).state = .empty) ∧ (∀ q, (s.hqueue q).cfg = 0x800)
    ∧ (∀ i, (s.island i).cur = 18 ∧ (s.island i).tgt = 18 ∧ (s.island i).pin = false) ∧ s.hub.power.cap = 640
    ∧ s.fabric.planes = List.range 18 ∧ (∀ i : Fin 18, s.fabric.lanes.get i = 4)
    ∧ s.core.trace.trshut = 0x00FF000000000000 ∧ s.core.running = none

/-! ## Every form completes -/

/-- An instruction answers a next state in which it has had this effect. -/
def Sys2Proof.Claims.completes (i : Instr) (s : State) (effect : State → Prop) : Prop :=
  ∃ t, exec i s = .next t ∧ effect t

/-- R301, R316 to R329: LOOP starts its loop or leaves it, and every lane-wise form puts its active lanes and its flags
in flight with its latency: in every state and for all operands. The model's choices in it: log entry 12, when the groups
of a chained syllable land, and log entry 16, a LOOP that leaves at count 0. -/
def Sys2Proof.Claims.LaneFormsComplete : Prop :=
  ∀ (s : State) (d a : Reg) (len : BitVec 32) (o : VFArgs) (m : VArgs) (u : VUnArgs) (c : VCvtArgs) (r : VRngArgs) (f : FArgs),
    let cnt : Word32 := (s.rdS a).setWidth 32
    let exit := s.fr.next + 8 * len.setWidth 64
    let lanesFly (i : Instr) (h : VHdr) (d : Reg) (lat : Nat) : Prop :=
      ∃ out fl, exec i s = .next (laneWise s h d lat out fl)
    (cnt ≠ 0 → completes (.loop d a len) s fun t =>
        keepsAllBut s t
          ∧ t.ctx.loops.get (ix4 d) = ⟨true, 0, s.fr.next &&& 0x00FFFFFFFFFFFFF8, exit &&& 0x00FFFFFFFFFFFFF8⟩)
      ∧ (cnt = 0 → s.fr.anyBranch = false → completes (.loop d a len) s fun t =>
        keepsAllBut s t ∧ (t.ctx.loops.get (ix4 d)).active = false ∧ t.fr.goto = some exit)
      ∧ (cnt = 0 → s.fr.anyBranch = true → exec (.loop d a len) s = .next s)
      ∧ lanesFly (.vfadd o) o.h o.d 3 ∧ lanesFly (.vfsub o) o.h o.d 3 ∧ lanesFly (.vfmul o) o.h o.d 3
      ∧ lanesFly (.vfma o) o.h o.d 4 ∧ lanesFly (.vfms o) o.h o.d 4 ∧ lanesFly (.vfnma o) o.h o.d 4
      ∧ lanesFly (.vfmin m) m.h m.d 3 ∧ lanesFly (.vfmax m) m.h m.d 3
      ∧ lanesFly (.vfminp m) m.h m.d 3 ∧ lanesFly (.vfmaxp m) m.h m.d 3
      ∧ lanesFly (.vfabs u) u.h u.d 3 ∧ lanesFly (.vfneg u) u.h u.d 3
      ∧ lanesFly (.vcvt c) c.h c.d 3
      ∧ lanesFly (.vdot2 o) o.h o.d 4 ∧ lanesFly (.vdot4 o) o.h o.d 4 ∧ lanesFly (.vdot8 o) o.h o.d 4
      ∧ lanesFly (.vrng r) r.h r.d 4
      ∧ lanesFly (.rcp f) f.h f.d 8 ∧ lanesFly (.rsq f) f.h f.d 8 ∧ lanesFly (.sqrt f) f.h f.d 8
      ∧ lanesFly (.exp2 f) f.h f.d 8 ∧ lanesFly (.log2 f) f.h f.d 8 ∧ lanesFly (.sinpi f) f.h f.d 8
      ∧ lanesFly (.cospi f) f.h f.d 8 ∧ lanesFly (.tanh f) f.h f.d 8 ∧ lanesFly (.sigm f) f.h f.d 8

/-- R340 to R342, R346 and R148: a memory access whose lanes have no cause completes: a load has its destinations in
flight or pending, a store has its writes after the bundle's loads. -/
def Sys2Proof.Claims.AccessFormsComplete : Prop :=
  ∀ (s : State) (o : MArgs) (v : VMArgs), s.fr.judging = false → s.fr.verdict = .proceed →
    let w := scalarWidth o.ty
    let wv := laneWidth v.ty
    let lanes (unit stride : Nat) : List Word64 :=
      ((List.range 128).filter (s.activeLanes v.gm v.q).getLsbD).map (s.laneAddr (s.ea v.m unit) v.ofs stride)
    let loaded (t : State) : Prop := keepsAllBut s t ∧ t.fr.deferred = s.fr.deferred ∧ ∃ rs, loads s t rs
    let stored (t : State) : Prop := keepsAllBut s t ∧ t.ctx = s.ctx ∧ ∃ ws, t.fr.deferred = s.fr.deferred ++ ws
    let awaited (t : State) : Prop := ∃ q, q ∈ t.ctx.pend ∧ q.id = s.ctx.nextId
    (s.spadCauses (lanes wv wv) wv none true = none → completes (.vld v) s loaded ∧ completes (.vgath v) s loaded)
      ∧ (s.spadCauses (lanes 4 3) 3 (some (s.ea v.m 4)) true = none → completes (.vldb v) s loaded)
      ∧ (s.spadCauses (lanes wv wv) wv none (decide (wv < 4)) = none →
        completes (.vst v) s stored ∧ completes (.vscat v) s stored)
      ∧ (s.spadCauses (lanes 4 3) 3 (some (s.ea v.m 4)) true = none → completes (.vstPk6 v) s stored)
      ∧ (s.globCauses [s.ea o.m w] w .write = none → completes (.stg o) s stored ∧ completes (.stgRel o) s fun t =>
        keepsAllBut s t ∧ ∃ r, t.fr.deferred = s.fr.deferred ++ [.access s.fabric.next (.release r)])
      ∧ (s.globCauses (lanes wv wv) wv .write = none → completes (.vstg v) s stored)
      ∧ (s.globCauses [s.ea o.m w] w .read = none → completes (.ldg o) s awaited ∧ completes (.ldgAcq o) s awaited)
      ∧ (s.globCauses (lanes wv wv) wv .read = none → lanes wv wv ≠ [] → completes (.vldg v) s awaited)
      ∧ (s.globCauses (lanes wv wv) wv .read = none → lanes wv wv = [] → exec (.vldg v) s = .next s)

/-- R36, R44 to R46, R105, R161 and R163: the events of registers, prints and requests complete where they have something
to do: results in flight come a cycle nearer or land, a value that has come arrives, a line that was fetched is resident,
an operation that is acknowledged or that the switch has reduced is done, data that came for a known operation is
answered, and a request to local memory without errors is performed and answered. -/
def Sys2Proof.Claims.EventFormsComplete : Prop :=
  ∀ (s : State) (c : CtxNo) (g : BitVec 2) (op : Nat) (src : Nat) (tag : BitVec 12) (addr : BitVec 56),
    let v := s.viewAs s.coreIx c
    let answers (t : State) (bs : List Byte) : Prop := t.fabric.out = s.fabric.out ++ [.response src tag .ok bs]
    let here (n : Nat) : Prop := addr.toNat + n ≤ hbmSize ∧ linesBad s addr.toNat n = false
    let new (k : ReqKind) : Prop := s.duplicate src tag addr.toNat k = none
    completes .resultLanding s (fun t => t.hbm = s.hbm ∧ ∀ k, (t.ctxAt k).flight
        = ((s.ctxAt k).flight.filter fun f => decide (1 < f.rem)).map fun f : Flight => { f with rem := f.rem - 1 })
      ∧ (∀ p, (s.ctxAt c).pend.find? Pending.ripe = some p → completes (.pendingArrival c) s fun t =>
        (t.ctxAt c).pend = (s.ctxAt c).pend.filter (fun q => q.id != p.id) ∧ t.hbm = s.hbm)
      ∧ (∀ line b, (c, line) ∈ s.core.fills → line < 69 → s.readLine c line = .inl b →
        completes (.registerCacheFill c line) s fun t =>
          (t.ctxAt c).resident.getLsbD line = true ∧ (c, line) ∉ t.core.fills ∧ t.hbm = s.hbm)
      ∧ (∀ p o, s.core.printOf c g = some p → s.core.opOf g op = some o → p.ops[op]? = some .started →
        (∃ k, k ≠ op ∧ (p.ops[k]? = some .waiting ∨ p.ops[k]? = some .started)) →
        let lv := p.cmd.level.toNat
        (o.opk ≤ 1 → v.nodeCtx v.ctx.bind.lslot lv (v.nodeAt lv) ((v.peerRank o lv).getD 0) = none → 1 < v.tree.modules →
          completes (.printOpDone c g op .ok) s (opDone p o.succ op))
        ∧ (o.opk = 2 → ∀ parts u, parts.length = v.tree.size lv →
          (∃ x, parts[v.rankAt lv]? = some x ∧ p.contributes op o x = true) → (∀ x, x ∈ parts → o.agrees x = true) →
          v.land s.coreIx c { o with accop := 0 } p.bases 0 (switchResult o (parts.map Contribution.data)) = (u, .ok) →
          completes (.switchReduce c g op parts) s (opDone p o.succ op)))
      ∧ (∀ seq off data r o, (s.ctxAt c).bound = true → s.core.opOf g op = some o → o.opk ≤ 1 → off + data.length ≤ o.len →
        let x := s.ctxAt c
        let tree := (s.lslot x.bind.lslot).info.tree
        s.fabric.ready.find? (fun r => r.lslot == x.bind.lslot && r.graph == g && r.seq == seq
          && r.rank == tree.rank x.bind.coords r.level && r.node == tree.node x.bind.coords r.level) = some r →
        completes (.collectiveDataReceive src c g seq op off data) s fun t =>
          ∃ how, .response src (BitVec.ofNat 12 op) how [] ∈ t.fabric.out)
      ∧ (∀ n, addr.toNat + n ≤ hbmSize → s.hbmBad addr.toNat n = false →
        completes (.readRequestReceive src tag addr n) s fun t => answers t (s.readHbm addr.toNat n) ∧ t.hbm = s.hbm)
      ∧ (∀ data, here data.length → new (.write data) → completes (.writeRequestReceive src tag addr data) s fun t =>
        answers t [] ∧ t.hbm = writeBytes s.hbm addr.toNat data)
      ∧ (∀ k ty (x y : Word64), here (atomWidth ty) → new (.atomic k ty x y) →
        completes (.atomicRequestReceive src tag addr k ty x y) s fun t => ∃ bs, answers t bs)

/-- R301, R316 to R329, R340 to R346, R36 and R44 to R46: LOOP, the lane-wise vector forms, the memory accesses and the
events of registers, prints and requests complete, each with its own effect. The model's choices in it: log entries 12
and 16. -/
def Obligations.FormsComplete : Prop :=
  Claims.LaneFormsComplete ∧ Claims.AccessFormsComplete ∧ Claims.EventFormsComplete
end

