-- ==== Sys2Proof/Laws/Memory.lean ====
section
/-!
SUPPORT. The laws of sparse tables and byte memories: reading after writing, and the canonical form that every write
keeps.
-/

namespace Sys2Proof.Machine

/-! ## Reading after writing -/

/-- A table whose keys rise from a bound has no entry below it. -/
theorem tget_below {α : Type} [DecidableEq α] (d : α) :
    ∀ (t : List (Nat × α)) (lo a : Nat), Tab.wfFrom d lo t = true → a < lo → tget d t a = d
  | [], _, _, _, _ => rfl
  | (k, v) :: rest, lo, a, h, ha => by
    simp only [Tab.wfFrom, Bool.and_eq_true, decide_eq_true_eq] at h
    have hk : k ≠ a := by omega
    simp only [tget, if_neg hk]
    exact tget_below d rest (k + 1) a h.2 (by omega)

/-- What a set entry reads as. -/
theorem tget_tset_self {α : Type} [DecidableEq α] (d : α) :
    ∀ (t : List (Nat × α)) (lo a : Nat) (b : α), Tab.wfFrom d lo t = true → tget d (tset d t a b) a = b
  | [], _, a, b, _ => by
    simp only [tset]
    split <;> simp_all [tget]
  | (k, v) :: rest, lo, a, b, h => by
    simp only [Tab.wfFrom, Bool.and_eq_true, decide_eq_true_eq] at h
    have low : a < k + 1 → tget d rest a = d := tget_below d rest (k + 1) a h.2
    simp only [tset]
    split
    · next hlt =>
      have hne : k ≠ a := by omega
      split
      · next hb => simp [tget, hne, low (by omega), hb]
      · simp [tget]
    · split
      · next hle he =>
        split
        · next hb => rw [low (by omega), hb]
        · simp [tget]
      · next hle hne =>
        simp only [tget, if_neg hne]
        exact tget_tset_self d rest (k + 1) a b h.2

/-- Setting one entry leaves every other as it was. -/
theorem tget_tset_of_ne {α : Type} [DecidableEq α] (d : α) (a x : Nat) (b : α) (hx : x ≠ a) :
    ∀ t : List (Nat × α), tget d (tset d t a b) x = tget d t x
  | [] => by
    simp only [tset]
    split <;> simp [tget, Ne.symm hx]
  | (k, v) :: rest => by
    have ih := tget_tset_of_ne d a x b hx rest
    simp only [tset]
    split
    · split <;> simp [tget, Ne.symm hx]
    · split
      · next hk =>
        subst hk
        split <;> simp [tget, Ne.symm hx]
      · simp only [tget, ih]

/-- A table that rises from a bound rises from every lower one. -/
theorem wfFrom_mono {α : Type} [DecidableEq α] (d : α) :
    ∀ (t : List (Nat × α)) (lo lo' : Nat), lo' ≤ lo → Tab.wfFrom d lo t = true → Tab.wfFrom d lo' t = true
  | [], _, _, _, _ => rfl
  | (k, v) :: rest, lo, lo', hle, h => by
    simp only [Tab.wfFrom, Bool.and_eq_true, decide_eq_true_eq] at h ⊢
    exact ⟨⟨by omega, h.1.2⟩, h.2⟩

/-- Setting an entry keeps the canonical form above every bound that the entry respects. -/
theorem wfFrom_tset {α : Type} [DecidableEq α] (d : α) :
    ∀ (t : List (Nat × α)) (lo a : Nat) (b : α), lo ≤ a → Tab.wfFrom d lo t = true →
      Tab.wfFrom d lo (tset d t a b) = true
  | [], lo, a, b, ha, _ => by
    simp only [tset]
    split
    · rfl
    · next hb => simp [Tab.wfFrom, ha, hb]
  | (k, v) :: rest, lo, a, b, ha, h => by
    have h' := h
    simp only [Tab.wfFrom, Bool.and_eq_true, decide_eq_true_eq] at h
    simp only [tset]
    split
    · next hlt =>
      split
      · exact h'
      · next hb =>
        simp only [Tab.wfFrom, Bool.and_eq_true, decide_eq_true_eq]
        exact ⟨⟨ha, by simpa using hb⟩, ⟨⟨by omega, h.1.2⟩, h.2⟩⟩
    · split
      · next he =>
        subst he
        split
        · exact wfFrom_mono d rest (k + 1) lo (by omega) h.2
        · next hb =>
          simp only [Tab.wfFrom, Bool.and_eq_true, decide_eq_true_eq]
          exact ⟨⟨ha, by simpa using hb⟩, h.2⟩
      · next hlt hne =>
        simp only [Tab.wfFrom, Bool.and_eq_true, decide_eq_true_eq]
        exact ⟨⟨h.1.1, h.1.2⟩, wfFrom_tset d rest (k + 1) a b (by omega) h.2⟩

/-! ## Bytes -/

/-- A byte that has just been written reads as written. -/
theorem memRead_memWrite_self (m : Memory) (a : Nat) (b : Byte) (h : m.wf = true) :
    memRead (memWrite m a b) a = b := tget_tset_self 0 m 0 a b h

/-- Every other byte reads as before. -/
theorem memRead_memWrite_of_ne (m : Memory) (a x : Nat) (b : Byte) (h : x ≠ a) :
    memRead (memWrite m a b) x = memRead m x := tget_tset_of_ne 0 a x b h m

/-- Writing a byte keeps the canonical form. -/
theorem wf_memWrite (m : Memory) (a : Nat) (b : Byte) (h : m.wf = true) : (memWrite m a b).wf = true :=
  wfFrom_tset 0 m 0 a b (Nat.zero_le a) h

/-- Writing bytes keeps the canonical form. -/
theorem wf_writeBytes : ∀ (bs : List Byte) (m : Memory) (a : Nat), m.wf = true → (writeBytes m a bs).wf = true
  | [], _, _, h => h
  | b :: bs, m, a, h => wf_writeBytes bs (memWrite m a b) (a + 1) (wf_memWrite m a b h)

/-- Writing a value keeps the canonical form. -/
theorem wf_writeNat (m : Memory) (a n v : Nat) (h : m.wf = true) : (writeNat m a n v).wf = true :=
  wf_writeBytes _ m a h

/-- What every byte reads as after a write of several. -/
theorem memRead_writeBytes : ∀ (bs : List Byte) (m : Memory) (a x : Nat), m.wf = true →
    memRead (writeBytes m a bs) x = if a ≤ x ∧ x < a + bs.length then bs.getD (x - a) 0 else memRead m x
  | [], m, a, x, _ => by simp only [writeBytes, List.length_nil]; split <;> first | omega | rfl
  | b :: bs, m, a, x, h => by
    have ih := memRead_writeBytes bs (memWrite m a b) (a + 1) x (wf_memWrite m a b h)
    simp only [writeBytes, ih, List.length_cons]
    by_cases hx : x = a
    · subst hx
      have : ¬ (x + 1 ≤ x ∧ x < x + 1 + bs.length) := by omega
      rw [if_neg this, if_pos ⟨Nat.le_refl x, by omega⟩, memRead_memWrite_self m x b h]
      simp
    · rw [memRead_memWrite_of_ne m a x b hx]
      by_cases hin : a ≤ x ∧ x < a + (bs.length + 1)
      · rw [if_pos hin, if_pos (by omega)]
        obtain ⟨k, rfl⟩ : ∃ k, x = a + 1 + k := ⟨x - (a + 1), by omega⟩
        rw [show a + 1 + k - a = k + 1 by omega, show a + 1 + k - (a + 1) = k by omega]
        simp
      · rw [if_neg hin, if_neg (by omega)]

/-- Every byte outside a written range reads as before. -/
theorem memRead_writeBytes_outside (bs : List Byte) (m : Memory) (a x : Nat) (h : m.wf = true)
    (hx : x < a ∨ a + bs.length ≤ x) : memRead (writeBytes m a bs) x = memRead m x := by
  rw [memRead_writeBytes bs m a x h, if_neg (by omega)]

end Sys2Proof.Machine
end

