-- ==== Sys2Proof/Laws/PerInstr.lean ====
section
/-!
SUPPORT. One lemma per constructor: a well-formed instruction has operand fields to be encoded in.
-/

/-- A well-formed instruction has its operand fields (R259). -/
def Sys2Proof.Laws.Encoding.Statement (i : Sys2Proof.Instr) : Prop :=
  i.wf = true → i.fields.isSome = true

namespace Sys2Proof.Laws.Encoding

theorem add : ∀ a b c, Statement (.add a b c) := by
  intros; exact fun _ => rfl
theorem sub : ∀ a, Statement (.sub a) := by
  intros; exact fun _ => rfl
theorem and : ∀ a, Statement (.and a) := by
  intros; exact fun _ => rfl
theorem or : ∀ a, Statement (.or a) := by
  intros; exact fun _ => rfl
theorem xor : ∀ a, Statement (.xor a) := by
  intros; exact fun _ => rfl
theorem andn : ∀ a, Statement (.andn a) := by
  intros; exact fun _ => rfl
theorem shl : ∀ a, Statement (.shl a) := by
  intros; exact fun _ => rfl
theorem shr : ∀ a, Statement (.shr a) := by
  intros; exact fun _ => rfl
theorem sar : ∀ a, Statement (.sar a) := by
  intros; exact fun _ => rfl
theorem rol : ∀ a, Statement (.rol a) := by
  intros; exact fun _ => rfl
theorem min : ∀ a, Statement (.min a) := by
  intros; exact fun _ => rfl
theorem max : ∀ a, Statement (.max a) := by
  intros; exact fun _ => rfl
theorem mul : ∀ a, Statement (.mul a) := by
  intros; exact fun _ => rfl
theorem mulh : ∀ a, Statement (.mulh a) := by
  intros; exact fun _ => rfl
theorem clz : ∀ a b c, Statement (.clz a b c) := by
  intros; exact fun _ => rfl
theorem popc : ∀ a b c, Statement (.popc a b c) := by
  intros; exact fun _ => rfl
theorem addi : ∀ a, Statement (.addi a) := by
  intros; exact fun _ => rfl
theorem subi : ∀ a, Statement (.subi a) := by
  intros; exact fun _ => rfl
theorem andi : ∀ a, Statement (.andi a) := by
  intros; exact fun _ => rfl
theorem ori : ∀ a, Statement (.ori a) := by
  intros; exact fun _ => rfl
theorem xori : ∀ a, Statement (.xori a) := by
  intros; exact fun _ => rfl
theorem shli : ∀ a, Statement (.shli a) := by
  intros; exact fun _ => rfl
theorem shri : ∀ a, Statement (.shri a) := by
  intros; exact fun _ => rfl
theorem sari : ∀ a, Statement (.sari a) := by
  intros; exact fun _ => rfl
theorem mini : ∀ a, Statement (.mini a) := by
  intros; exact fun _ => rfl
theorem maxi : ∀ a, Statement (.maxi a) := by
  intros; exact fun _ => rfl
theorem movi : ∀ a b c, Statement (.movi a b c) := by
  intros; exact fun _ => rfl
theorem muli : ∀ a, Statement (.muli a) := by
  intros; exact fun _ => rfl
theorem cmp : ∀ a b c d e, Statement (.cmp a b c d e) := by
  intros; exact fun _ => rfl
theorem cmpi : ∀ a b c d e, Statement (.cmpi a b c d e) := by
  intros; exact fun _ => rfl
theorem sel : ∀ a b c d, Statement (.sel a b c d) := by
  intros; exact fun _ => rfl
theorem ext : ∀ a b c d e, Statement (.ext a b c d e) := by
  intros; exact fun _ => rfl
theorem dep : ∀ a b c d e, Statement (.dep a b c d e) := by
  intros; exact fun _ => rfl
theorem addsc : ∀ a b c d, Statement (.addsc a b c d) := by
  intros; exact fun _ => rfl
theorem pand : ∀ a, Statement (.pand a) := by
  intros; exact fun _ => rfl
theorem por : ∀ a, Statement (.por a) := by
  intros; exact fun _ => rfl
theorem pxor : ∀ a, Statement (.pxor a) := by
  intros; exact fun _ => rfl
theorem br : ∀ a, Statement (.br a) := by
  intros; exact fun _ => rfl
theorem brC : ∀ a, Statement (.brC a) := by
  intros; exact fun _ => rfl
theorem call : ∀ a, Statement (.call a) := by
  intros; exact fun _ => rfl
theorem jmpi : ∀ a, Statement (.jmpi a) := by
  intros; exact fun _ => rfl
theorem calli : ∀ a, Statement (.calli a) := by
  intros; exact fun _ => rfl
theorem loop : ∀ a b c, Statement (.loop a b c) := by
  intros; exact fun _ => rfl
theorem crd : ∀ a b, Statement (.crd a b) := by
  intros; exact fun _ => rfl
theorem cwr : ∀ a b, Statement (.cwr a b) := by
  intros; exact fun _ => rfl
theorem cwrBindb : ∀ a, Statement (.cwrBindb a) := by
  intros; exact fun _ => rfl
theorem cwrSeqtb : ∀ a, Statement (.cwrSeqtb a) := by
  intros; exact fun _ => rfl
theorem mupcAbort : ∀ a, Statement (.mupcAbort a) := by
  intros; exact fun h => absurd h Bool.false_ne_true
theorem ecmdDisct : ∀ a, Statement (.ecmdDisct a) := by
  intros; exact fun h => absurd h Bool.false_ne_true
theorem ecmdDiscx : ∀ a, Statement (.ecmdDiscx a) := by
  intros; exact fun h => absurd h Bool.false_ne_true
theorem lvid : ∀ a b c, Statement (.lvid a b c) := by
  intros; exact fun _ => rfl
theorem phyid : ∀ a b, Statement (.phyid a b) := by
  intros; exact fun _ => rfl
theorem spawn : ∀ a b c, Statement (.spawn a b c) := by
  intros; exact fun _ => rfl
theorem trap : ∀ a, Statement (.trap a) := by
  intros; exact fun _ => rfl
theorem waitc : ∀ a b c d, Statement (.waitc a b c d) := by
  intros; exact fun _ => rfl
theorem bara : ∀ a b c, Statement (.bara a b c) := by
  intros; exact fun _ => rfl
theorem barw : ∀ a b c, Statement (.barw a b c) := by
  intros; exact fun _ => rfl
theorem bar : ∀ a b c, Statement (.bar a b c) := by
  intros; exact fun _ => rfl
theorem qput : ∀ a b, Statement (.qput a b) := by
  intros; exact fun _ => rfl
theorem qget : ∀ a b c, Statement (.qget a b c) := by
  intros; exact fun _ => rfl
theorem vadd : ∀ a, Statement (.vadd a) := by
  intros; exact fun _ => rfl
theorem vsub : ∀ a, Statement (.vsub a) := by
  intros; exact fun _ => rfl
theorem vmul : ∀ a, Statement (.vmul a) := by
  intros; exact fun _ => rfl
theorem vmulh : ∀ a, Statement (.vmulh a) := by
  intros; exact fun _ => rfl
theorem vand : ∀ a, Statement (.vand a) := by
  intros; exact fun _ => rfl
theorem vor : ∀ a, Statement (.vor a) := by
  intros; exact fun _ => rfl
theorem vxor : ∀ a, Statement (.vxor a) := by
  intros; exact fun _ => rfl
theorem vandn : ∀ a, Statement (.vandn a) := by
  intros; exact fun _ => rfl
theorem vshl : ∀ a, Statement (.vshl a) := by
  intros; exact fun _ => rfl
theorem vshr : ∀ a, Statement (.vshr a) := by
  intros; exact fun _ => rfl
theorem vsar : ∀ a, Statement (.vsar a) := by
  intros; exact fun _ => rfl
theorem vmin : ∀ a, Statement (.vmin a) := by
  intros; exact fun _ => rfl
theorem vmax : ∀ a, Statement (.vmax a) := by
  intros; exact fun _ => rfl
theorem vadds : ∀ a, Statement (.vadds a) := by
  intros; exact fun _ => rfl
theorem vsubs : ∀ a, Statement (.vsubs a) := by
  intros; exact fun _ => rfl
theorem vsel : ∀ a b, Statement (.vsel a b) := by
  intros; exact fun _ => rfl
theorem vfadd : ∀ a, Statement (.vfadd a) := by
  intros; exact fun _ => rfl
theorem vfsub : ∀ a, Statement (.vfsub a) := by
  intros; exact fun _ => rfl
theorem vfmul : ∀ a, Statement (.vfmul a) := by
  intros; exact fun _ => rfl
theorem vfma : ∀ a, Statement (.vfma a) := by
  intros; exact fun _ => rfl
theorem vfms : ∀ a, Statement (.vfms a) := by
  intros; exact fun _ => rfl
theorem vfnma : ∀ a, Statement (.vfnma a) := by
  intros; exact fun _ => rfl
theorem vfmin : ∀ a, Statement (.vfmin a) := by
  intros; exact fun _ => rfl
theorem vfmax : ∀ a, Statement (.vfmax a) := by
  intros; exact fun _ => rfl
theorem vfminp : ∀ a, Statement (.vfminp a) := by
  intros; exact fun _ => rfl
theorem vfmaxp : ∀ a, Statement (.vfmaxp a) := by
  intros; exact fun _ => rfl
theorem vfabs : ∀ a, Statement (.vfabs a) := by
  intros; exact fun _ => rfl
theorem vfneg : ∀ a, Statement (.vfneg a) := by
  intros; exact fun _ => rfl
theorem vcmp : ∀ a, Statement (.vcmp a) := by
  intros; exact fun _ => rfl
theorem vfcmp : ∀ a, Statement (.vfcmp a) := by
  intros; exact fun _ => rfl
theorem vcvt : ∀ a, Statement (.vcvt a) := by
  intros; exact fun _ => rfl
theorem vperm : ∀ a, Statement (.vperm a) := by
  intros; exact fun _ => rfl
theorem vbcast : ∀ a b c d, Statement (.vbcast a b c d) := by
  intros; exact fun _ => rfl
theorem vred : ∀ a, Statement (.vred a) := by
  intros; exact fun _ => rfl
theorem vscan : ∀ a, Statement (.vscan a) := by
  intros; exact fun _ => rfl
theorem vqcnt : ∀ a b c d, Statement (.vqcnt a b c d) := by
  intros; exact fun _ => rfl
theorem vmov : ∀ a b c d, Statement (.vmov a b c d) := by
  intros; exact fun _ => rfl
theorem gxfer : ∀ a b c d e, Statement (.gxfer a b c d e) := by
  intros; exact fun _ => rfl
theorem vdot2 : ∀ a, Statement (.vdot2 a) := by
  intros; exact fun _ => rfl
theorem vdot4 : ∀ a, Statement (.vdot4 a) := by
  intros; exact fun _ => rfl
theorem vdot8 : ∀ a, Statement (.vdot8 a) := by
  intros; exact fun _ => rfl
theorem vrng : ∀ a, Statement (.vrng a) := by
  intros; exact fun _ => rfl
theorem qand : ∀ a, Statement (.qand a) := by
  intros; exact fun _ => rfl
theorem qor : ∀ a, Statement (.qor a) := by
  intros; exact fun _ => rfl
theorem qxor : ∀ a, Statement (.qxor a) := by
  intros; exact fun _ => rfl
theorem qandn : ∀ a, Statement (.qandn a) := by
  intros; exact fun _ => rfl
theorem vmovi : ∀ a b c, Statement (.vmovi a b c) := by
  intros; exact fun _ => rfl
theorem rcp : ∀ a, Statement (.rcp a) := by
  intros; exact fun _ => rfl
theorem rsq : ∀ a, Statement (.rsq a) := by
  intros; exact fun _ => rfl
theorem sqrt : ∀ a, Statement (.sqrt a) := by
  intros; exact fun _ => rfl
theorem exp2 : ∀ a, Statement (.exp2 a) := by
  intros; exact fun _ => rfl
theorem log2 : ∀ a, Statement (.log2 a) := by
  intros; exact fun _ => rfl
theorem sinpi : ∀ a, Statement (.sinpi a) := by
  intros; exact fun _ => rfl
theorem cospi : ∀ a, Statement (.cospi a) := by
  intros; exact fun _ => rfl
theorem tanh : ∀ a, Statement (.tanh a) := by
  intros; exact fun _ => rfl
theorem sigm : ∀ a, Statement (.sigm a) := by
  intros; exact fun _ => rfl
theorem xcad : ∀ a b c d, Statement (.xcad a b c d) := by
  intros; exact fun _ => rfl
theorem xpopc : ∀ a b c, Statement (.xpopc a b c) := by
  intros; exact fun _ => rfl
theorem xexp : ∀ a b c d e, Statement (.xexp a b c d e) := by
  intros; exact fun _ => rfl
theorem xmps : ∀ a, Statement (.xmps a) := by
  intros; exact fun _ => rfl
theorem xins : ∀ a b c d, Statement (.xins a b c d) := by
  intros; exact fun _ => rfl
theorem xget : ∀ a b c d, Statement (.xget a b c d) := by
  intros; exact fun _ => rfl
theorem xsplat : ∀ a b c, Statement (.xsplat a b c) := by
  intros; exact fun _ => rfl
theorem xadds : ∀ a b c d, Statement (.xadds a b c d) := by
  intros; exact fun _ => rfl
theorem xscan : ∀ a b c d, Statement (.xscan a b c d) := by
  intros; exact fun _ => rfl
theorem xcmp : ∀ a b c d e, Statement (.xcmp a b c d e) := by
  intros; exact fun _ => rfl
theorem xtoq : ∀ a b c, Statement (.xtoq a b c) := by
  intros; exact fun _ => rfl
theorem ld : ∀ a, Statement (.ld a) := by
  intros; exact fun _ => rfl
theorem st : ∀ a, Statement (.st a) := by
  intros; exact fun _ => rfl
theorem vld : ∀ a, Statement (.vld a) := by
  intros; exact fun _ => rfl
theorem vst : ∀ a, Statement (.vst a) := by
  intros; exact fun _ => rfl
theorem vstPk6 : ∀ a, Statement (.vstPk6 a) := by
  intros; exact fun _ => rfl
theorem vgath : ∀ a, Statement (.vgath a) := by
  intros; exact fun _ => rfl
theorem vscat : ∀ a, Statement (.vscat a) := by
  intros; exact fun _ => rfl
theorem vldb : ∀ a, Statement (.vldb a) := by
  intros; exact fun _ => rfl
theorem pst : ∀ a, Statement (.pst a) := by
  intros; exact fun _ => rfl
theorem ldg : ∀ a, Statement (.ldg a) := by
  intros; exact fun _ => rfl
theorem ldgAcq : ∀ a, Statement (.ldgAcq a) := by
  intros; exact fun _ => rfl
theorem stg : ∀ a, Statement (.stg a) := by
  intros; exact fun _ => rfl
theorem stgRel : ∀ a, Statement (.stgRel a) := by
  intros; exact fun _ => rfl
theorem vldg : ∀ a, Statement (.vldg a) := by
  intros; exact fun _ => rfl
theorem vstg : ∀ a, Statement (.vstg a) := by
  intros; exact fun _ => rfl
theorem atomgAdd : ∀ a, Statement (.atomgAdd a) := by
  intros; exact fun _ => rfl
theorem atomgMin : ∀ a, Statement (.atomgMin a) := by
  intros; exact fun _ => rfl
theorem atomgMax : ∀ a, Statement (.atomgMax a) := by
  intros; exact fun _ => rfl
theorem atomgAnd : ∀ a, Statement (.atomgAnd a) := by
  intros; exact fun _ => rfl
theorem atomgOr : ∀ a, Statement (.atomgOr a) := by
  intros; exact fun _ => rfl
theorem atomgXor : ∀ a, Statement (.atomgXor a) := by
  intros; exact fun _ => rfl
theorem atomgSwap : ∀ a, Statement (.atomgSwap a) := by
  intros; exact fun _ => rfl
theorem atomgCas : ∀ a, Statement (.atomgCas a) := by
  intros; exact fun _ => rfl
theorem fence : ∀ a b, Statement (.fence a b) := by
  intros; exact fun _ => rfl
theorem fencex : ∀ a b c, Statement (.fencex a b c) := by
  intros; exact fun _ => rfl
theorem waita : ∀ a b c d e f, Statement (.waita a b c d e f) := by
  intros; exact fun _ => rfl
theorem linv : ∀ a b c, Statement (.linv a b c) := by
  intros; exact fun _ => rfl
theorem mcall : ∀ a, Statement (.mcall a) := by
  intros; exact fun _ => rfl
theorem mstat : ∀ a b, Statement (.mstat a b) := by
  intros; exact fun _ => rfl
theorem mput : ∀ a b, Statement (.mput a b) := by
  intros; exact fun _ => rfl
theorem mget : ∀ a b, Statement (.mget a b) := by
  intros; exact fun _ => rfl
theorem cellld : ∀ a b c d, Statement (.cellld a b c d) := by
  intros; exact fun _ => rfl
theorem flowset : ∀ a b, Statement (.flowset a b) := by
  intros; exact fun _ => rfl
theorem xwin : ∀ a b, Statement (.xwin a b) := by
  intros; exact fun _ => rfl
theorem tsld : ∀ a b, Statement (.tsld a b) := by
  intros; exact fun _ => rfl
theorem tsst : ∀ a b, Statement (.tsst a b) := by
  intros; exact fun _ => rfl
theorem xcopy : ∀ a b, Statement (.xcopy a b) := by
  intros; exact fun _ => rfl
theorem xgather : ∀ a b, Statement (.xgather a b) := by
  intros; exact fun _ => rfl
theorem embpool : ∀ a b, Statement (.embpool a b) := by
  intros; exact fun _ => rfl
theorem xcvt : ∀ a b, Statement (.xcvt a b) := by
  intros; exact fun _ => rfl
theorem cgload : ∀ a b c, Statement (.cgload a b c) := by
  intros; exact fun _ => rfl
theorem cgrun : ∀ a b c d e, Statement (.cgrun a b c d e) := by
  intros; exact fun _ => rfl
theorem printOpStart : ∀ a b c, Statement (.printOpStart a b c) := by
  intros; exact fun h => absurd h Bool.false_ne_true
theorem printOpDone : ∀ a b c d, Statement (.printOpDone a b c d) := by
  intros; exact fun h => absurd h Bool.false_ne_true
theorem a2aDisp : ∀ a b c, Statement (.a2aDisp a b c) := by
  intros; exact fun _ => rfl
theorem a2aComb : ∀ a b c, Statement (.a2aComb a b c) := by
  intros; exact fun _ => rfl
theorem repart : ∀ a b c, Statement (.repart a b c) := by
  intros; exact fun _ => rfl
theorem txtEnc : ∀ a b, Statement (.txtEnc a b) := by
  intros; exact fun _ => rfl
theorem txtDec : ∀ a b, Statement (.txtDec a b) := by
  intros; exact fun _ => rfl
theorem txtMask : ∀ a b, Statement (.txtMask a b) := by
  intros; exact fun _ => rfl
theorem engineCommandStart : ∀ a b, Statement (.engineCommandStart a b) := by
  intros; exact fun h => absurd h Bool.false_ne_true
theorem engineFaultDelivery : ∀ a, Statement (.engineFaultDelivery a) := by
  intros; exact fun h => absurd h Bool.false_ne_true
theorem pendingArrival : ∀ a, Statement (.pendingArrival a) := by
  intros; exact fun h => absurd h Bool.false_ne_true
theorem registerCacheFill : ∀ a b, Statement (.registerCacheFill a b) := by
  intros; exact fun h => absurd h Bool.false_ne_true
theorem holdEnd : ∀ a, Statement (.holdEnd a) := by
  intros; exact fun h => absurd h Bool.false_ne_true
theorem nullifierSkip : ∀ a, Statement (.nullifierSkip a) := by
  intros; exact fun h => absurd h Bool.false_ne_true
theorem trapEntry : ∀ a b c d e, Statement (.trapEntry a b c d e) := by
  intros; exact fun h => absurd h Bool.false_ne_true
theorem waitaWake : ∀ a b, Statement (.waitaWake a b) := by
  intros; exact fun h => absurd h Bool.false_ne_true
theorem waitaTimeout : ∀ a, Statement (.waitaTimeout a) := by
  intros; exact fun h => absurd h Bool.false_ne_true
theorem waitcTimeout : ∀ a, Statement (.waitcTimeout a) := by
  intros; exact fun h => absurd h Bool.false_ne_true
theorem qgetTimeout : ∀ a, Statement (.qgetTimeout a) := by
  intros; exact fun h => absurd h Bool.false_ne_true
theorem qputTimeout : ∀ a, Statement (.qputTimeout a) := by
  intros; exact fun h => absurd h Bool.false_ne_true
theorem fenceComplete : ∀ a, Statement (.fenceComplete a) := by
  intros; exact fun h => absurd h Bool.false_ne_true
theorem releasePerform : ∀ a, Statement (.releasePerform a) := by
  intros; exact fun h => absurd h Bool.false_ne_true
theorem translationWalk : ∀ a b c, Statement (.translationWalk a b c) := by
  intros; exact fun h => absurd h Bool.false_ne_true
theorem lineWritebackFail : ∀ a b c, Statement (.lineWritebackFail a b c) := by
  intros; exact fun h => absurd h Bool.false_ne_true
theorem remoteRequestTimeout : ∀ a, Statement (.remoteRequestTimeout a) := by
  intros; exact fun h => absurd h Bool.false_ne_true
theorem readRequestReceive : ∀ a b c d, Statement (.readRequestReceive a b c d) := by
  intros; exact fun h => absurd h Bool.false_ne_true
theorem writeRequestReceive : ∀ a b c d, Statement (.writeRequestReceive a b c d) := by
  intros; exact fun h => absurd h Bool.false_ne_true
theorem atomicRequestReceive : ∀ a b c d e f g, Statement (.atomicRequestReceive a b c d e f g) := by
  intros; exact fun h => absurd h Bool.false_ne_true
theorem responseReceive : ∀ a b c d, Statement (.responseReceive a b c d) := by
  intros; exact fun h => absurd h Bool.false_ne_true
theorem collectiveDataReceive : ∀ a b c d e f g, Statement (.collectiveDataReceive a b c d e f g) := by
  intros; exact fun h => absurd h Bool.false_ne_true
theorem switchReduce : ∀ a b c d, Statement (.switchReduce a b c d) := by
  intros; exact fun h => absurd h Bool.false_ne_true
theorem controlFlitReceive : ∀ a, Statement (.controlFlitReceive a) := by
  intros; exact fun h => absurd h Bool.false_ne_true
theorem fabricPortDegrade : ∀ a b, Statement (.fabricPortDegrade a b) := by
  intros; exact fun h => absurd h Bool.false_ne_true
theorem planeLoss : ∀ a, Statement (.planeLoss a) := by
  intros; exact fun h => absurd h Bool.false_ne_true
theorem hostLinkTrain : ∀ a b, Statement (.hostLinkTrain a b) := by
  intros; exact fun h => absurd h Bool.false_ne_true
theorem measuredBoot : ∀ a, Statement (.measuredBoot a) := by
  intros; exact fun h => absurd h Bool.false_ne_true
theorem spdmGetMeasurements : ∀ a b, Statement (.spdmGetMeasurements a b) := by
  intros; exact fun h => absurd h Bool.false_ne_true
theorem spdmChunkGet : ∀ a b, Statement (.spdmChunkGet a b) := by
  intros; exact fun h => absurd h Bool.false_ne_true
theorem spdmRespondIfReady : ∀ a, Statement (.spdmRespondIfReady a) := by
  intros; exact fun h => absurd h Bool.false_ne_true
theorem ownClaim : ∀ a b c, Statement (.ownClaim a b c) := by
  intros; exact fun h => absurd h Bool.false_ne_true
theorem ownRenew : ∀ a b c, Statement (.ownRenew a b c) := by
  intros; exact fun h => absurd h Bool.false_ne_true
theorem ownRelease : ∀ a b, Statement (.ownRelease a b) := by
  intros; exact fun h => absurd h Bool.false_ne_true
theorem ownHandover : ∀ a b c, Statement (.ownHandover a b c) := by
  intros; exact fun h => absurd h Bool.false_ne_true
theorem ownAccept : ∀ a b c, Statement (.ownAccept a b c) := by
  intros; exact fun h => absurd h Bool.false_ne_true
theorem stateWindowWrite : ∀ a b c, Statement (.stateWindowWrite a b c) := by
  intros; exact fun h => absurd h Bool.false_ne_true
theorem deviceMemoryWrite : ∀ a b c, Statement (.deviceMemoryWrite a b c) := by
  intros; exact fun h => absurd h Bool.false_ne_true
theorem lqtailWrite : ∀ a b c, Statement (.lqtailWrite a b c) := by
  intros; exact fun h => absurd h Bool.false_ne_true
theorem lqctlDisable : ∀ a b c, Statement (.lqctlDisable a b c) := by
  intros; exact fun h => absurd h Bool.false_ne_true
theorem launchRecordTake : ∀ a, Statement (.launchRecordTake a) := by
  intros; exact fun h => absurd h Bool.false_ne_true
theorem waitWordsMet : ∀ a, Statement (.waitWordsMet a) := by
  intros; exact fun h => absurd h Bool.false_ne_true
theorem treeBind : ∀ a, Statement (.treeBind a) := by
  intros; exact fun h => absurd h Bool.false_ne_true
theorem launchEnd : ∀ a, Statement (.launchEnd a) := by
  intros; exact fun h => absurd h Bool.false_ne_true
theorem launchAbort : ∀ a b, Statement (.launchAbort a b) := by
  intros; exact fun h => absurd h Bool.false_ne_true
theorem gangPreempt : ∀ a b c, Statement (.gangPreempt a b c) := by
  intros; exact fun h => absurd h Bool.false_ne_true
theorem gangResume : ∀ a b c, Statement (.gangResume a b c) := by
  intros; exact fun h => absurd h Bool.false_ne_true
theorem gangStop : ∀ a, Statement (.gangStop a) := by
  intros; exact fun h => absurd h Bool.false_ne_true
theorem podFailure : ∀ a b, Statement (.podFailure a b) := by
  intros; exact fun h => absurd h Bool.false_ne_true
theorem xlinvcWrite : ∀ a b, Statement (.xlinvcWrite a b) := by
  intros; exact fun h => absurd h Bool.false_ne_true
theorem queueDisable : ∀ a b, Statement (.queueDisable a b) := by
  intros; exact fun h => absurd h Bool.false_ne_true
theorem islctlWrite : ∀ a b c, Statement (.islctlWrite a b c) := by
  intros; exact fun h => absurd h Bool.false_ne_true
theorem islandTransition : ∀ a, Statement (.islandTransition a) := by
  intros; exact fun h => absurd h Bool.false_ne_true
theorem powerManagerTick : ∀ a b c, Statement (.powerManagerTick a b c) := by
  intros; exact fun h => absurd h Bool.false_ne_true
theorem trshutWrite : ∀ a b c, Statement (.trshutWrite a b c) := by
  intros; exact fun h => absurd h Bool.false_ne_true
theorem trdumpWrite : ∀ a b c, Statement (.trdumpWrite a b c) := by
  intros; exact fun h => absurd h Bool.false_ne_true
theorem rowSparing : ∀ a, Statement (.rowSparing a) := by
  intros; exact fun h => absurd h Bool.false_ne_true
theorem pseudoChannelFailure : ∀ a b c, Statement (.pseudoChannelFailure a b c) := by
  intros; exact fun h => absurd h Bool.false_ne_true
theorem commandFinished : ∀ a b, Statement (.commandFinished a b) := by
  intros; exact fun h => absurd h Bool.false_ne_true
theorem poolLinkFault : ∀ a, Statement (.poolLinkFault a) := by
  intros; exact fun h => absurd h Bool.false_ne_true
theorem crcFailFlitReceive : ∀ a b, Statement (.crcFailFlitReceive a b) := by
  intros; exact fun h => absurd h Bool.false_ne_true
theorem trdumpCopyDone : ∀ a, Statement (.trdumpCopyDone a) := by
  intros; exact fun h => absurd h Bool.false_ne_true
theorem spdmGetCertificate : ∀ a, Statement (.spdmGetCertificate a) := by
  intros; exact fun h => absurd h Bool.false_ne_true
theorem spdmChallenge : ∀ a b, Statement (.spdmChallenge a b) := by
  intros; exact fun h => absurd h Bool.false_ne_true
theorem nop : Statement .nop := by
  exact fun _ => rfl
theorem ret : Statement .ret := by
  exact fun _ => rfl
theorem seqsel : Statement .seqsel := by
  exact fun _ => rfl
theorem yield : Statement .yield := by
  exact fun _ => rfl
theorem halt : Statement .halt := by
  exact fun _ => rfl
theorem tret : Statement .tret := by
  exact fun _ => rfl
theorem resultLanding : Statement .resultLanding := by
  exact fun h => absurd h Bool.false_ne_true
theorem timesliceExpiry : Statement .timesliceExpiry := by
  exact fun h => absurd h Bool.false_ne_true
theorem leaseExpiry : Statement .leaseExpiry := by
  exact fun h => absurd h Bool.false_ne_true
theorem handoverTimeout : Statement .handoverTimeout := by
  exact fun h => absurd h Bool.false_ne_true
theorem bindRetry : Statement .bindRetry := by
  exact fun h => absurd h Bool.false_ne_true
theorem xlatInvalidateDone : Statement .xlatInvalidateDone := by
  exact fun h => absurd h Bool.false_ne_true
theorem hbmPatrolScrub : Statement .hbmPatrolScrub := by
  exact fun h => absurd h Bool.false_ne_true
theorem sramPatrolScrub : Statement .sramPatrolScrub := by
  exact fun h => absurd h Bool.false_ne_true

end Sys2Proof.Laws.Encoding
end

