-- ==== Sys2Proof/Laws/State.lean ====
section
/-!
SUPPORT. What each field of the state is after each update: one lemma per field and update, true by rfl, so that no
proof unfolds a record update; and reading back a context that has been set.
-/

namespace Sys2Proof.Machine

variable (s : State)

/-! ### setCtxAt -/

@[simp] theorem State.setCtxAt_core (c : CtxNo) (x : Ctx) : (s.setCtxAt c x).core = { s.core with ctxs := s.core.ctxs.set c.val x c.isLt } := rfl
@[simp] theorem State.setCtxAt_coreIx (c : CtxNo) (x : Ctx) : (s.setCtxAt c x).coreIx = s.coreIx := rfl
@[simp] theorem State.setCtxAt_others (c : CtxNo) (x : Ctx) : (s.setCtxAt c x).others = s.others := rfl
@[simp] theorem State.setCtxAt_pods (c : CtxNo) (x : Ctx) : (s.setCtxAt c x).pods = s.pods := rfl
@[simp] theorem State.setCtxAt_text (c : CtxNo) (x : Ctx) : (s.setCtxAt c x).text = s.text := rfl
@[simp] theorem State.setCtxAt_upper (c : CtxNo) (x : Ctx) : (s.setCtxAt c x).upper = s.upper := rfl
@[simp] theorem State.setCtxAt_hbm (c : CtxNo) (x : Ctx) : (s.setCtxAt c x).hbm = s.hbm := rfl
@[simp] theorem State.setCtxAt_badHbm (c : CtxNo) (x : Ctx) : (s.setCtxAt c x).badHbm = s.badHbm := rfl
@[simp] theorem State.setCtxAt_dieBuf (c : CtxNo) (x : Ctx) : (s.setCtxAt c x).dieBuf = s.dieBuf := rfl
@[simp] theorem State.setCtxAt_badDie (c : CtxNo) (x : Ctx) : (s.setCtxAt c x).badDie = s.badDie := rfl
@[simp] theorem State.setCtxAt_hub (c : CtxNo) (x : Ctx) : (s.setCtxAt c x).hub = s.hub := rfl
@[simp] theorem State.setCtxAt_fabric (c : CtxNo) (x : Ctx) : (s.setCtxAt c x).fabric = s.fabric := rfl
@[simp] theorem State.setCtxAt_fr (c : CtxNo) (x : Ctx) : (s.setCtxAt c x).fr = s.fr := rfl
@[simp] theorem State.setCtxAt_agenda (c : CtxNo) (x : Ctx) : (s.setCtxAt c x).agenda = s.agenda := rfl
@[simp] theorem State.setCtxAt_turn (c : CtxNo) (x : Ctx) : (s.setCtxAt c x).turn = s.turn := rfl
@[simp] theorem State.setCtxAt_free (c : CtxNo) (x : Ctx) : (s.setCtxAt c x).free = s.free := rfl
@[simp] theorem State.setCtxAt_round (c : CtxNo) (x : Ctx) : (s.setCtxAt c x).round = s.round := rfl

/-! ### modCtxAt -/

@[simp] theorem State.modCtxAt_core (c : CtxNo) (f : Ctx → Ctx) : (s.modCtxAt c f).core = { s.core with ctxs := s.core.ctxs.set c.val (f (s.ctxAt c)) c.isLt } := rfl
@[simp] theorem State.modCtxAt_coreIx (c : CtxNo) (f : Ctx → Ctx) : (s.modCtxAt c f).coreIx = s.coreIx := rfl
@[simp] theorem State.modCtxAt_others (c : CtxNo) (f : Ctx → Ctx) : (s.modCtxAt c f).others = s.others := rfl
@[simp] theorem State.modCtxAt_pods (c : CtxNo) (f : Ctx → Ctx) : (s.modCtxAt c f).pods = s.pods := rfl
@[simp] theorem State.modCtxAt_text (c : CtxNo) (f : Ctx → Ctx) : (s.modCtxAt c f).text = s.text := rfl
@[simp] theorem State.modCtxAt_upper (c : CtxNo) (f : Ctx → Ctx) : (s.modCtxAt c f).upper = s.upper := rfl
@[simp] theorem State.modCtxAt_hbm (c : CtxNo) (f : Ctx → Ctx) : (s.modCtxAt c f).hbm = s.hbm := rfl
@[simp] theorem State.modCtxAt_badHbm (c : CtxNo) (f : Ctx → Ctx) : (s.modCtxAt c f).badHbm = s.badHbm := rfl
@[simp] theorem State.modCtxAt_dieBuf (c : CtxNo) (f : Ctx → Ctx) : (s.modCtxAt c f).dieBuf = s.dieBuf := rfl
@[simp] theorem State.modCtxAt_badDie (c : CtxNo) (f : Ctx → Ctx) : (s.modCtxAt c f).badDie = s.badDie := rfl
@[simp] theorem State.modCtxAt_hub (c : CtxNo) (f : Ctx → Ctx) : (s.modCtxAt c f).hub = s.hub := rfl
@[simp] theorem State.modCtxAt_fabric (c : CtxNo) (f : Ctx → Ctx) : (s.modCtxAt c f).fabric = s.fabric := rfl
@[simp] theorem State.modCtxAt_fr (c : CtxNo) (f : Ctx → Ctx) : (s.modCtxAt c f).fr = s.fr := rfl
@[simp] theorem State.modCtxAt_agenda (c : CtxNo) (f : Ctx → Ctx) : (s.modCtxAt c f).agenda = s.agenda := rfl
@[simp] theorem State.modCtxAt_turn (c : CtxNo) (f : Ctx → Ctx) : (s.modCtxAt c f).turn = s.turn := rfl
@[simp] theorem State.modCtxAt_free (c : CtxNo) (f : Ctx → Ctx) : (s.modCtxAt c f).free = s.free := rfl
@[simp] theorem State.modCtxAt_round (c : CtxNo) (f : Ctx → Ctx) : (s.modCtxAt c f).round = s.round := rfl

/-! ### modCtx -/

@[simp] theorem State.modCtx_core (f : Ctx → Ctx) : (s.modCtx f).core = { s.core with ctxs := s.core.ctxs.set s.fr.ctx.val (f s.ctx) s.fr.ctx.isLt } := rfl
@[simp] theorem State.modCtx_coreIx (f : Ctx → Ctx) : (s.modCtx f).coreIx = s.coreIx := rfl
@[simp] theorem State.modCtx_others (f : Ctx → Ctx) : (s.modCtx f).others = s.others := rfl
@[simp] theorem State.modCtx_pods (f : Ctx → Ctx) : (s.modCtx f).pods = s.pods := rfl
@[simp] theorem State.modCtx_text (f : Ctx → Ctx) : (s.modCtx f).text = s.text := rfl
@[simp] theorem State.modCtx_upper (f : Ctx → Ctx) : (s.modCtx f).upper = s.upper := rfl
@[simp] theorem State.modCtx_hbm (f : Ctx → Ctx) : (s.modCtx f).hbm = s.hbm := rfl
@[simp] theorem State.modCtx_badHbm (f : Ctx → Ctx) : (s.modCtx f).badHbm = s.badHbm := rfl
@[simp] theorem State.modCtx_dieBuf (f : Ctx → Ctx) : (s.modCtx f).dieBuf = s.dieBuf := rfl
@[simp] theorem State.modCtx_badDie (f : Ctx → Ctx) : (s.modCtx f).badDie = s.badDie := rfl
@[simp] theorem State.modCtx_hub (f : Ctx → Ctx) : (s.modCtx f).hub = s.hub := rfl
@[simp] theorem State.modCtx_fabric (f : Ctx → Ctx) : (s.modCtx f).fabric = s.fabric := rfl
@[simp] theorem State.modCtx_fr (f : Ctx → Ctx) : (s.modCtx f).fr = s.fr := rfl
@[simp] theorem State.modCtx_agenda (f : Ctx → Ctx) : (s.modCtx f).agenda = s.agenda := rfl
@[simp] theorem State.modCtx_turn (f : Ctx → Ctx) : (s.modCtx f).turn = s.turn := rfl
@[simp] theorem State.modCtx_free (f : Ctx → Ctx) : (s.modCtx f).free = s.free := rfl
@[simp] theorem State.modCtx_round (f : Ctx → Ctx) : (s.modCtx f).round = s.round := rfl

/-! ### modCore -/

@[simp] theorem State.modCore_core (f : Core → Core) : (s.modCore f).core = f s.core := rfl
@[simp] theorem State.modCore_coreIx (f : Core → Core) : (s.modCore f).coreIx = s.coreIx := rfl
@[simp] theorem State.modCore_others (f : Core → Core) : (s.modCore f).others = s.others := rfl
@[simp] theorem State.modCore_pods (f : Core → Core) : (s.modCore f).pods = s.pods := rfl
@[simp] theorem State.modCore_text (f : Core → Core) : (s.modCore f).text = s.text := rfl
@[simp] theorem State.modCore_upper (f : Core → Core) : (s.modCore f).upper = s.upper := rfl
@[simp] theorem State.modCore_hbm (f : Core → Core) : (s.modCore f).hbm = s.hbm := rfl
@[simp] theorem State.modCore_badHbm (f : Core → Core) : (s.modCore f).badHbm = s.badHbm := rfl
@[simp] theorem State.modCore_dieBuf (f : Core → Core) : (s.modCore f).dieBuf = s.dieBuf := rfl
@[simp] theorem State.modCore_badDie (f : Core → Core) : (s.modCore f).badDie = s.badDie := rfl
@[simp] theorem State.modCore_hub (f : Core → Core) : (s.modCore f).hub = s.hub := rfl
@[simp] theorem State.modCore_fabric (f : Core → Core) : (s.modCore f).fabric = s.fabric := rfl
@[simp] theorem State.modCore_fr (f : Core → Core) : (s.modCore f).fr = s.fr := rfl
@[simp] theorem State.modCore_agenda (f : Core → Core) : (s.modCore f).agenda = s.agenda := rfl
@[simp] theorem State.modCore_turn (f : Core → Core) : (s.modCore f).turn = s.turn := rfl
@[simp] theorem State.modCore_free (f : Core → Core) : (s.modCore f).free = s.free := rfl
@[simp] theorem State.modCore_round (f : Core → Core) : (s.modCore f).round = s.round := rfl

/-! ### modFr -/

@[simp] theorem State.modFr_core (f : Frame → Frame) : (s.modFr f).core = s.core := rfl
@[simp] theorem State.modFr_coreIx (f : Frame → Frame) : (s.modFr f).coreIx = s.coreIx := rfl
@[simp] theorem State.modFr_others (f : Frame → Frame) : (s.modFr f).others = s.others := rfl
@[simp] theorem State.modFr_pods (f : Frame → Frame) : (s.modFr f).pods = s.pods := rfl
@[simp] theorem State.modFr_text (f : Frame → Frame) : (s.modFr f).text = s.text := rfl
@[simp] theorem State.modFr_upper (f : Frame → Frame) : (s.modFr f).upper = s.upper := rfl
@[simp] theorem State.modFr_hbm (f : Frame → Frame) : (s.modFr f).hbm = s.hbm := rfl
@[simp] theorem State.modFr_badHbm (f : Frame → Frame) : (s.modFr f).badHbm = s.badHbm := rfl
@[simp] theorem State.modFr_dieBuf (f : Frame → Frame) : (s.modFr f).dieBuf = s.dieBuf := rfl
@[simp] theorem State.modFr_badDie (f : Frame → Frame) : (s.modFr f).badDie = s.badDie := rfl
@[simp] theorem State.modFr_hub (f : Frame → Frame) : (s.modFr f).hub = s.hub := rfl
@[simp] theorem State.modFr_fabric (f : Frame → Frame) : (s.modFr f).fabric = s.fabric := rfl
@[simp] theorem State.modFr_fr (f : Frame → Frame) : (s.modFr f).fr = f s.fr := rfl
@[simp] theorem State.modFr_agenda (f : Frame → Frame) : (s.modFr f).agenda = s.agenda := rfl
@[simp] theorem State.modFr_turn (f : Frame → Frame) : (s.modFr f).turn = s.turn := rfl
@[simp] theorem State.modFr_free (f : Frame → Frame) : (s.modFr f).free = s.free := rfl
@[simp] theorem State.modFr_round (f : Frame → Frame) : (s.modFr f).round = s.round := rfl

/-! ### modHub -/

@[simp] theorem State.modHub_core (f : Hub → Hub) : (s.modHub f).core = s.core := rfl
@[simp] theorem State.modHub_coreIx (f : Hub → Hub) : (s.modHub f).coreIx = s.coreIx := rfl
@[simp] theorem State.modHub_others (f : Hub → Hub) : (s.modHub f).others = s.others := rfl
@[simp] theorem State.modHub_pods (f : Hub → Hub) : (s.modHub f).pods = s.pods := rfl
@[simp] theorem State.modHub_text (f : Hub → Hub) : (s.modHub f).text = s.text := rfl
@[simp] theorem State.modHub_upper (f : Hub → Hub) : (s.modHub f).upper = s.upper := rfl
@[simp] theorem State.modHub_hbm (f : Hub → Hub) : (s.modHub f).hbm = s.hbm := rfl
@[simp] theorem State.modHub_badHbm (f : Hub → Hub) : (s.modHub f).badHbm = s.badHbm := rfl
@[simp] theorem State.modHub_dieBuf (f : Hub → Hub) : (s.modHub f).dieBuf = s.dieBuf := rfl
@[simp] theorem State.modHub_badDie (f : Hub → Hub) : (s.modHub f).badDie = s.badDie := rfl
@[simp] theorem State.modHub_hub (f : Hub → Hub) : (s.modHub f).hub = f s.hub := rfl
@[simp] theorem State.modHub_fabric (f : Hub → Hub) : (s.modHub f).fabric = s.fabric := rfl
@[simp] theorem State.modHub_fr (f : Hub → Hub) : (s.modHub f).fr = s.fr := rfl
@[simp] theorem State.modHub_agenda (f : Hub → Hub) : (s.modHub f).agenda = s.agenda := rfl
@[simp] theorem State.modHub_turn (f : Hub → Hub) : (s.modHub f).turn = s.turn := rfl
@[simp] theorem State.modHub_free (f : Hub → Hub) : (s.modHub f).free = s.free := rfl
@[simp] theorem State.modHub_round (f : Hub → Hub) : (s.modHub f).round = s.round := rfl

/-! ### modFabric -/

@[simp] theorem State.modFabric_core (f : Fabric → Fabric) : (s.modFabric f).core = s.core := rfl
@[simp] theorem State.modFabric_coreIx (f : Fabric → Fabric) : (s.modFabric f).coreIx = s.coreIx := rfl
@[simp] theorem State.modFabric_others (f : Fabric → Fabric) : (s.modFabric f).others = s.others := rfl
@[simp] theorem State.modFabric_pods (f : Fabric → Fabric) : (s.modFabric f).pods = s.pods := rfl
@[simp] theorem State.modFabric_text (f : Fabric → Fabric) : (s.modFabric f).text = s.text := rfl
@[simp] theorem State.modFabric_upper (f : Fabric → Fabric) : (s.modFabric f).upper = s.upper := rfl
@[simp] theorem State.modFabric_hbm (f : Fabric → Fabric) : (s.modFabric f).hbm = s.hbm := rfl
@[simp] theorem State.modFabric_badHbm (f : Fabric → Fabric) : (s.modFabric f).badHbm = s.badHbm := rfl
@[simp] theorem State.modFabric_dieBuf (f : Fabric → Fabric) : (s.modFabric f).dieBuf = s.dieBuf := rfl
@[simp] theorem State.modFabric_badDie (f : Fabric → Fabric) : (s.modFabric f).badDie = s.badDie := rfl
@[simp] theorem State.modFabric_hub (f : Fabric → Fabric) : (s.modFabric f).hub = s.hub := rfl
@[simp] theorem State.modFabric_fabric (f : Fabric → Fabric) : (s.modFabric f).fabric = f s.fabric := rfl
@[simp] theorem State.modFabric_fr (f : Fabric → Fabric) : (s.modFabric f).fr = s.fr := rfl
@[simp] theorem State.modFabric_agenda (f : Fabric → Fabric) : (s.modFabric f).agenda = s.agenda := rfl
@[simp] theorem State.modFabric_turn (f : Fabric → Fabric) : (s.modFabric f).turn = s.turn := rfl
@[simp] theorem State.modFabric_free (f : Fabric → Fabric) : (s.modFabric f).free = s.free := rfl
@[simp] theorem State.modFabric_round (f : Fabric → Fabric) : (s.modFabric f).round = s.round := rfl

/-! ### emit -/

@[simp] theorem State.emit_core (o : Out) : (s.emit o).core = s.core := rfl
@[simp] theorem State.emit_coreIx (o : Out) : (s.emit o).coreIx = s.coreIx := rfl
@[simp] theorem State.emit_others (o : Out) : (s.emit o).others = s.others := rfl
@[simp] theorem State.emit_pods (o : Out) : (s.emit o).pods = s.pods := rfl
@[simp] theorem State.emit_text (o : Out) : (s.emit o).text = s.text := rfl
@[simp] theorem State.emit_upper (o : Out) : (s.emit o).upper = s.upper := rfl
@[simp] theorem State.emit_hbm (o : Out) : (s.emit o).hbm = s.hbm := rfl
@[simp] theorem State.emit_badHbm (o : Out) : (s.emit o).badHbm = s.badHbm := rfl
@[simp] theorem State.emit_dieBuf (o : Out) : (s.emit o).dieBuf = s.dieBuf := rfl
@[simp] theorem State.emit_badDie (o : Out) : (s.emit o).badDie = s.badDie := rfl
@[simp] theorem State.emit_hub (o : Out) : (s.emit o).hub = s.hub := rfl
@[simp] theorem State.emit_fabric (o : Out) : (s.emit o).fabric = { s.fabric with out := s.fabric.out ++ [o] } := rfl
@[simp] theorem State.emit_fr (o : Out) : (s.emit o).fr = s.fr := rfl
@[simp] theorem State.emit_agenda (o : Out) : (s.emit o).agenda = s.agenda := rfl
@[simp] theorem State.emit_turn (o : Out) : (s.emit o).turn = s.turn := rfl
@[simp] theorem State.emit_free (o : Out) : (s.emit o).free = s.free := rfl
@[simp] theorem State.emit_round (o : Out) : (s.emit o).round = s.round := rfl

/-! ### modSlot -/

@[simp] theorem State.modSlot_core (n : Nat) (f : LSlot → LSlot) : (s.modSlot n f).core = s.core := rfl
@[simp] theorem State.modSlot_coreIx (n : Nat) (f : LSlot → LSlot) : (s.modSlot n f).coreIx = s.coreIx := rfl
@[simp] theorem State.modSlot_others (n : Nat) (f : LSlot → LSlot) : (s.modSlot n f).others = s.others := rfl
@[simp] theorem State.modSlot_pods (n : Nat) (f : LSlot → LSlot) : (s.modSlot n f).pods = s.pods := rfl
@[simp] theorem State.modSlot_text (n : Nat) (f : LSlot → LSlot) : (s.modSlot n f).text = s.text := rfl
@[simp] theorem State.modSlot_upper (n : Nat) (f : LSlot → LSlot) : (s.modSlot n f).upper = s.upper := rfl
@[simp] theorem State.modSlot_hbm (n : Nat) (f : LSlot → LSlot) : (s.modSlot n f).hbm = s.hbm := rfl
@[simp] theorem State.modSlot_badHbm (n : Nat) (f : LSlot → LSlot) : (s.modSlot n f).badHbm = s.badHbm := rfl
@[simp] theorem State.modSlot_dieBuf (n : Nat) (f : LSlot → LSlot) : (s.modSlot n f).dieBuf = s.dieBuf := rfl
@[simp] theorem State.modSlot_badDie (n : Nat) (f : LSlot → LSlot) : (s.modSlot n f).badDie = s.badDie := rfl
@[simp] theorem State.modSlot_fabric (n : Nat) (f : LSlot → LSlot) : (s.modSlot n f).fabric = s.fabric := rfl
@[simp] theorem State.modSlot_fr (n : Nat) (f : LSlot → LSlot) : (s.modSlot n f).fr = s.fr := rfl
@[simp] theorem State.modSlot_agenda (n : Nat) (f : LSlot → LSlot) : (s.modSlot n f).agenda = s.agenda := rfl
@[simp] theorem State.modSlot_turn (n : Nat) (f : LSlot → LSlot) : (s.modSlot n f).turn = s.turn := rfl
@[simp] theorem State.modSlot_free (n : Nat) (f : LSlot → LSlot) : (s.modSlot n f).free = s.free := rfl
@[simp] theorem State.modSlot_round (n : Nat) (f : LSlot → LSlot) : (s.modSlot n f).round = s.round := rfl

/-! ### modPod -/

@[simp] theorem State.modPod_core (p : Nat) (f : Pod → Pod) : (s.modPod p f).core = s.core := rfl
@[simp] theorem State.modPod_coreIx (p : Nat) (f : Pod → Pod) : (s.modPod p f).coreIx = s.coreIx := rfl
@[simp] theorem State.modPod_others (p : Nat) (f : Pod → Pod) : (s.modPod p f).others = s.others := rfl
@[simp] theorem State.modPod_text (p : Nat) (f : Pod → Pod) : (s.modPod p f).text = s.text := rfl
@[simp] theorem State.modPod_upper (p : Nat) (f : Pod → Pod) : (s.modPod p f).upper = s.upper := rfl
@[simp] theorem State.modPod_hbm (p : Nat) (f : Pod → Pod) : (s.modPod p f).hbm = s.hbm := rfl
@[simp] theorem State.modPod_badHbm (p : Nat) (f : Pod → Pod) : (s.modPod p f).badHbm = s.badHbm := rfl
@[simp] theorem State.modPod_dieBuf (p : Nat) (f : Pod → Pod) : (s.modPod p f).dieBuf = s.dieBuf := rfl
@[simp] theorem State.modPod_badDie (p : Nat) (f : Pod → Pod) : (s.modPod p f).badDie = s.badDie := rfl
@[simp] theorem State.modPod_hub (p : Nat) (f : Pod → Pod) : (s.modPod p f).hub = s.hub := rfl
@[simp] theorem State.modPod_fabric (p : Nat) (f : Pod → Pod) : (s.modPod p f).fabric = s.fabric := rfl
@[simp] theorem State.modPod_fr (p : Nat) (f : Pod → Pod) : (s.modPod p f).fr = s.fr := rfl
@[simp] theorem State.modPod_agenda (p : Nat) (f : Pod → Pod) : (s.modPod p f).agenda = s.agenda := rfl
@[simp] theorem State.modPod_turn (p : Nat) (f : Pod → Pod) : (s.modPod p f).turn = s.turn := rfl
@[simp] theorem State.modPod_free (p : Nat) (f : Pod → Pod) : (s.modPod p f).free = s.free := rfl
@[simp] theorem State.modPod_round (p : Nat) (f : Pod → Pod) : (s.modPod p f).round = s.round := rfl

/-! ### writeDie -/

@[simp] theorem State.writeDie_core (die off : Nat) (d : List Byte) : (s.writeDie die off d).core = s.core := rfl
@[simp] theorem State.writeDie_coreIx (die off : Nat) (d : List Byte) : (s.writeDie die off d).coreIx = s.coreIx := rfl
@[simp] theorem State.writeDie_others (die off : Nat) (d : List Byte) : (s.writeDie die off d).others = s.others := rfl
@[simp] theorem State.writeDie_pods (die off : Nat) (d : List Byte) : (s.writeDie die off d).pods = s.pods := rfl
@[simp] theorem State.writeDie_text (die off : Nat) (d : List Byte) : (s.writeDie die off d).text = s.text := rfl
@[simp] theorem State.writeDie_upper (die off : Nat) (d : List Byte) : (s.writeDie die off d).upper = s.upper := rfl
@[simp] theorem State.writeDie_hbm (die off : Nat) (d : List Byte) : (s.writeDie die off d).hbm = s.hbm := rfl
@[simp] theorem State.writeDie_badHbm (die off : Nat) (d : List Byte) : (s.writeDie die off d).badHbm = s.badHbm := rfl
@[simp] theorem State.writeDie_dieBuf (die off : Nat) (d : List Byte) : (s.writeDie die off d).dieBuf = writeBytes s.dieBuf (2 ^ 24 * die + off) d := rfl
@[simp] theorem State.writeDie_badDie (die off : Nat) (d : List Byte) : (s.writeDie die off d).badDie = s.badDie := rfl
@[simp] theorem State.writeDie_hub (die off : Nat) (d : List Byte) : (s.writeDie die off d).hub = s.hub := rfl
@[simp] theorem State.writeDie_fabric (die off : Nat) (d : List Byte) : (s.writeDie die off d).fabric = s.fabric := rfl
@[simp] theorem State.writeDie_fr (die off : Nat) (d : List Byte) : (s.writeDie die off d).fr = s.fr := rfl
@[simp] theorem State.writeDie_agenda (die off : Nat) (d : List Byte) : (s.writeDie die off d).agenda = s.agenda := rfl
@[simp] theorem State.writeDie_turn (die off : Nat) (d : List Byte) : (s.writeDie die off d).turn = s.turn := rfl
@[simp] theorem State.writeDie_free (die off : Nat) (d : List Byte) : (s.writeDie die off d).free = s.free := rfl
@[simp] theorem State.writeDie_round (die off : Nat) (d : List Byte) : (s.writeDie die off d).round = s.round := rfl

/-! ### Contexts -/

@[simp] theorem State.ctxAt_setCtxAt_self (c : CtxNo) (x : Ctx) : (s.setCtxAt c x).ctxAt c = x := by
  show (s.core.ctxs.set c.val x c.isLt)[c.val]'(by simp) = x
  simp

theorem State.ctxAt_setCtxAt_of_ne (c d : CtxNo) (x : Ctx) (h : d ≠ c) : (s.setCtxAt c x).ctxAt d = s.ctxAt d := by
  show (s.core.ctxs.set c.val x c.isLt)[d.val]'(by simp) = s.core.ctxs[d.val]'d.isLt
  rw [Vector.getElem_set_ne]
  exact fun e => h (Fin.ext e.symm)

@[simp] theorem State.ctxAt_modCtxAt_self (c : CtxNo) (f : Ctx → Ctx) :
    (s.modCtxAt c f).ctxAt c = f (s.ctxAt c) := s.ctxAt_setCtxAt_self c _

theorem State.ctxAt_modCtxAt_of_ne (c d : CtxNo) (f : Ctx → Ctx) (h : d ≠ c) :
    (s.modCtxAt c f).ctxAt d = s.ctxAt d := s.ctxAt_setCtxAt_of_ne c d _ h

@[simp] theorem State.ctx_modCtx (f : Ctx → Ctx) : (s.modCtx f).ctx = f s.ctx :=
  s.ctxAt_setCtxAt_self s.fr.ctx _

@[simp] theorem State.ctx_modFr (f : Frame → Frame) (h : (f s.fr).ctx = s.fr.ctx) : (s.modFr f).ctx = s.ctx := by
  show s.core.ctxs.get (f s.fr).ctx = s.core.ctxs.get s.fr.ctx
  rw [h]

@[simp] theorem State.ctxAt_modFr (c : CtxNo) (f : Frame → Frame) : (s.modFr f).ctxAt c = s.ctxAt c := rfl
@[simp] theorem State.ctxAt_modHub (c : CtxNo) (f : Hub → Hub) : (s.modHub f).ctxAt c = s.ctxAt c := rfl
@[simp] theorem State.ctxAt_modFabric (c : CtxNo) (f : Fabric → Fabric) : (s.modFabric f).ctxAt c = s.ctxAt c := rfl
@[simp] theorem State.ctxAt_emit (c : CtxNo) (o : Out) : (s.emit o).ctxAt c = s.ctxAt c := rfl

/-- Setting a context to what it is changes nothing. -/
@[simp] theorem State.setCtxAt_ctxAt (c : CtxNo) : s.setCtxAt c (s.ctxAt c) = s := by
  have h : s.core.ctxs.set c.val (s.ctxAt c) c.isLt = s.core.ctxs := by
    apply Vector.ext
    intro i hi
    rw [Vector.getElem_set]
    split
    · next e => subst e; rfl
    · rfl
  show { s with core := { s.core with ctxs := s.core.ctxs.set c.val (s.ctxAt c) c.isLt } } = s
  rw [h]

/-- Two changes of one context are one. -/
theorem State.modCtxAt_modCtxAt (c : CtxNo) (f g : Ctx → Ctx) :
    (s.modCtxAt c f).modCtxAt c g = s.modCtxAt c fun x => g (f x) := by
  unfold State.modCtxAt
  rw [State.ctxAt_setCtxAt_self]
  unfold State.setCtxAt
  simp

/-- Two changes of the issuing context are one. -/
theorem State.modCtx_modCtx (f g : Ctx → Ctx) : (s.modCtx f).modCtx g = s.modCtx fun x => g (f x) :=
  s.modCtxAt_modCtxAt s.fr.ctx f g

end Sys2Proof.Machine
end

