-- ==== Sys2Proof/Laws/Results.lean ====
section
/-!
SUPPORT. What putting results in flight does (R156), and what a landing does to the registers that are fixed.
-/

namespace Sys2Proof.Machine

/-- A result for a register whose writes are discarded changes nothing. -/
theorem State.put_of_discarded (s : State) (d : Dest) (x : BitVec 512) (lat : Nat) (h : d.discarded = true) :
    s.put d x lat = s := by
  unfold State.put
  rw [if_pos h]

/-- A result goes to the end of the context's results in flight, and nothing else changes. -/
theorem State.put_of_kept (s : State) (d : Dest) (x : BitVec 512) (lat : Nat) (h : d.discarded = false) :
    s.put d x lat = s.modCtx fun c =>
      { c with flight := c.flight ++ [⟨d, x, lat, c.seq, s.fr.slot, s.fr.pc⟩] } := by
  unfold State.put
  rw [if_neg (by simp [h])]

/-- Putting a result in flight changes the flight of the issuing context and nothing else. -/
theorem State.put_frame (s : State) (d : Dest) (x : BitVec 512) (lat : Nat) :
    ∃ l, s.put d x lat = s.modCtx fun c => { c with flight := c.flight ++ l } := by
  by_cases h : d.discarded = true
  · refine ⟨[], ?_⟩
    rw [s.put_of_discarded d x lat h]
    have : (fun c : Ctx => { c with flight := c.flight ++ [] }) = id := by
      funext c
      simp
    rw [this]
    exact (s.setCtxAt_ctxAt s.fr.ctx).symm
  · exact ⟨[⟨d, x, lat, s.ctx.seq, s.fr.slot, s.fr.pc⟩], s.put_of_kept d x lat (by simpa using h)⟩

/-- The frame is not changed by putting a result in flight. -/
@[simp] theorem State.put_fr (s : State) (d : Dest) (x : BitVec 512) (lat : Nat) : (s.put d x lat).fr = s.fr := by
  unfold State.put
  split <;> rfl

/-- Nor is global memory. -/
@[simp] theorem State.put_hbm (s : State) (d : Dest) (x : BitVec 512) (lat : Nat) : (s.put d x lat).hbm = s.hbm := by
  unfold State.put
  split <;> rfl

/-- Nor is the scratchpad of the core. -/
@[simp] theorem State.put_spad (s : State) (d : Dest) (x : BitVec 512) (lat : Nat) :
    (s.put d x lat).core.spad = s.core.spad := by
  unfold State.put
  split <;> rfl

/-! ## Fixed registers (R156, R261) -/

/-- No landing changes s0. -/
theorem Regs.land_s0 (r : Regs) (d : Dest) (x : BitVec 512) : (r.land d x).s.get 0 = r.s.get 0 := by
  cases d with
  | s n =>
    simp only [Regs.land]
    split
    · rfl
    · next h =>
      have hn : n.toNat ≠ 0 := fun e => h (BitVec.eq_of_toNat_eq (by simpa using e))
      exact Vector.getElem_set_ne n.isLt (by decide : 0 < 64) hn
  | p n => simp only [Regs.land]; split <;> rfl
  | q n g l => simp only [Regs.land]; split <;> rfl
  | v n g l => rfl
  | x n => rfl
  | lc n => rfl
  | m n => rfl
  | cr n => rfl
  | flags => rfl

/-- No landing changes p0. -/
theorem Regs.land_p0 (r : Regs) (d : Dest) (x : BitVec 512) : (r.land d x).p.get 0 = r.p.get 0 := by
  cases d with
  | p n =>
    simp only [Regs.land]
    split
    · rfl
    · next h =>
      have hn : (ix16 n).val ≠ 0 := fun e => h (Fin.ext e)
      exact Vector.getElem_set_ne (ix16 n).isLt (by decide : 0 < 16) hn
  | s n => simp only [Regs.land]; split <;> rfl
  | q n g l => simp only [Regs.land]; split <;> rfl
  | v n g l => rfl
  | x n => rfl
  | lc n => rfl
  | m n => rfl
  | cr n => rfl
  | flags => rfl

/-- No landing changes q0. -/
theorem Regs.land_q0 (r : Regs) (d : Dest) (x : BitVec 512) : (r.land d x).q.get 0 = r.q.get 0 := by
  cases d with
  | q n g l =>
    simp only [Regs.land]
    split
    · rfl
    · next h =>
      have hn : (ix8 n).val ≠ 0 := fun e => h (Fin.ext e)
      exact Vector.getElem_set_ne (ix8 n).isLt (by decide : 0 < 8) hn
  | s n => simp only [Regs.land]; split <;> rfl
  | p n => simp only [Regs.land]; split <;> rfl
  | v n g l => rfl
  | x n => rfl
  | lc n => rfl
  | m n => rfl
  | cr n => rfl
  | flags => rfl

end Sys2Proof.Machine
end

