-- ==== Sys2Proof/Laws/Stores.lean ====
section
/-!
SUPPORT. What a store to local memory does to memory: one lemma for the shared operation (R23), with the changes of
contexts that come with it; and the steps of a table walk (R134).
-/

namespace Sys2Proof.Machine

theorem State.modCtxOf_hbm (s : State) (n : Nat) (c : CtxNo) (f : Ctx → Ctx) : (s.modCtxOf n c f).hbm = s.hbm := by
  unfold State.modCtxOf State.modCoreAt
  split <;> rfl

theorem State.modCtxOf_badHbm (s : State) (n : Nat) (c : CtxNo) (f : Ctx → Ctx) :
    (s.modCtxOf n c f).badHbm = s.badHbm := by
  unfold State.modCtxOf State.modCoreAt
  split <;> rfl

/-- A fold of steps that keep HBM and its errors keeps them. -/
theorem State.foldl_keeps_hbm {α : Type} (f : State → α → State) (hf : ∀ s x, (f s x).hbm = s.hbm ∧ (f s x).badHbm = s.badHbm) :
    ∀ (l : List α) (s : State), (l.foldl f s).hbm = s.hbm ∧ (l.foldl f s).badHbm = s.badHbm
  | [], _ => ⟨rfl, rfl⟩
  | x :: l, s => by
    have h := State.foldl_keeps_hbm f hf l (f s x)
    exact ⟨h.1.trans (hf s x).1, h.2.trans (hf s x).2⟩

theorem State.scramble_keeps_hbm (s : State) (pa len : Nat) :
    (s.scramble pa len).hbm = s.hbm ∧ (s.scramble pa len).badHbm = s.badHbm :=
  State.foldl_keeps_hbm _ (fun _ _ => ⟨State.modCtxOf_hbm _ _ _ _, State.modCtxOf_badHbm _ _ _ _⟩) _ s

theorem State.wakeWord_keeps_hbm (s : State) (w : WatchWord) (len : Nat) :
    (s.wakeWord w len).hbm = s.hbm ∧ (s.wakeWord w len).badHbm = s.badHbm :=
  State.foldl_keeps_hbm _ (fun _ _ => ⟨State.modCtxOf_hbm _ _ _ _, State.modCtxOf_badHbm _ _ _ _⟩) _ s

/-- A write to HBM that holds no uncorrectable error is performed, changes exactly its bytes, and leaves none. -/
theorem State.storeHbm_of_clean (s : State) (pa : Nat) (data : List Byte) (h : s.badHbm = []) :
    (s.storeHbm pa data).2 = true ∧ (s.storeHbm pa data).1.hbm = writeBytes s.hbm pa data
      ∧ (s.storeHbm pa data).1.badHbm = [] := by
  have hb : s.hbmBad (pa / 128 * 128) ((pa % 128 + data.length + 127) / 128 * 128) = false := by
    simp [State.hbmBad, h]
  have e : s.storeHbm pa data = ((s.scramble pa data.length).writeHbm pa data, true) := by simp [State.storeHbm, hb]
  have k := State.scramble_keeps_hbm s pa data.length
  have w := State.wakeWord_keeps_hbm
    { s.scramble pa data.length with hbm := writeBytes (s.scramble pa data.length).hbm pa data } (.hbm pa) data.length
  rw [e]
  refine ⟨rfl, ?_, ?_⟩
  · show (State.wakeWord _ _ _).hbm = _
    rw [w.1]
    show writeBytes (s.scramble pa data.length).hbm pa data = _
    rw [k.1]
  · show (State.wakeWord _ _ _).badHbm = _
    rw [w.2]
    show (s.scramble pa data.length).badHbm = _
    rw [k.2, h]

/-- Bytes outside a written range read as before, whatever form the memory is in. -/
theorem memRead_writeBytes_other : ∀ (bs : List Byte) (m : Memory) (a x : Nat), (x < a ∨ a + bs.length ≤ x) →
    memRead (writeBytes m a bs) x = memRead m x
  | [], _, _, _, _ => rfl
  | b :: bs, m, a, x, h => by
    simp only [List.length_cons] at h
    rw [writeBytes, memRead_writeBytes_other bs _ _ x (by omega), memRead_memWrite_of_ne m a x b (by omega)]

/-- The same for several bytes. -/
theorem readBytes_writeBytes_other (bs : List Byte) (m : Memory) (a : Nat) : ∀ (n x : Nat), (x + n ≤ a ∨ a + bs.length ≤ x) →
    readBytes (writeBytes m a bs) x n = readBytes m x n
  | 0, _, _ => rfl
  | n + 1, x, h => by
    rw [readBytes, readBytes, memRead_writeBytes_other bs m a x (by omega),
      readBytes_writeBytes_other bs m a n (x + 1) (by omega)]

theorem readBytes_length (m : Memory) : ∀ (n a : Nat), (readBytes m a n).length = n
  | 0, _ => rfl
  | n + 1, a => by rw [readBytes, List.length_cons, readBytes_length m n (a + 1)]

/-- Bytes in two parts. -/
theorem readBytes_append (m : Memory) : ∀ (i a j : Nat), readBytes m a (i + j) = readBytes m a i ++ readBytes m (a + i) j
  | 0, a, j => by simp [readBytes]
  | i + 1, a, j => by
    rw [show i + 1 + j = (i + j) + 1 by omega, readBytes, readBytes, readBytes_append m i (a + 1) j, List.cons_append,
      show a + 1 + i = a + (i + 1) by omega]

/-- An address that nothing lists reads as 0. -/
theorem memRead_unlisted : ∀ (m : Memory) (a : Nat), m.all (fun p => p.1 != a) = true → memRead m a = 0
  | [], _, _ => rfl
  | (k, v) :: rest, a, h => by
    simp only [List.all_cons, Bool.and_eq_true, bne_iff_ne, ne_eq] at h
    show (if k = a then v else tget 0 rest a) = 0
    rw [if_neg h.1]
    exact memRead_unlisted rest a (by simpa using h.2)

/-- A range of which memory lists nothing reads as zeros. -/
theorem readBytes_unlisted (m : Memory) : ∀ (n a : Nat), m.all (fun p => decide (p.1 < a ∨ a + n ≤ p.1)) = true →
    readBytes m a n = List.replicate n 0
  | 0, _, _ => rfl
  | n + 1, a, h => by
    have h' : ∀ p, p ∈ m → p.1 < a ∨ a + (n + 1) ≤ p.1 := by simpa using h
    rw [readBytes, List.replicate_succ, memRead_unlisted m a, readBytes_unlisted m n (a + 1)]
    · exact List.all_eq_true.2 fun p hp => by have := h' p hp; simp; omega
    · exact List.all_eq_true.2 fun p hp => by have := h' p hp; simp; omega

/-! ## Walks -/

/-- A walk goes down through an entry that names a table (R134). -/
theorem walk_down (m : Memory) (va e : Word64) (k : AccKind) (l base : Nat) (hs : ¬ hbmSize < base + tableSize (l + 1))
    (he : read64 m (base + 8 * tableIndex va (l + 1)) = e)
    (h : e.getLsbD 63 = true ∧ e.getLsbD 62 = false ∧ bits e 48 14 = 0) :
    walk m va k (l + 1) base = walk m va k l (bits e 0 48 * 256) := by
  subst he
  have h63 : ¬ (!(read64 m (base + 8 * tableIndex va (l + 1))).getLsbD 63) = true := by rw [h.1]; exact Bool.false_ne_true
  have h62 : (!(read64 m (base + 8 * tableIndex va (l + 1))).getLsbD 62) = true := by rw [h.2.1]; rfl
  exact (if_neg hs).trans ((if_neg h63).trans ((if_pos h62).trans (if_neg (fun n => n h.2.2))))

/-- A walk that reaches a leaf of the lowest level answers as the leaf judges (R134). -/
theorem walk_leaf (m : Memory) (va e : Word64) (k : AccKind) (base : Nat) (hs : ¬ hbmSize < base + tableSize 0)
    (he : read64 m (base + 8 * tableIndex va 0) = e) (h : e.getLsbD 63 = true ∧ e.getLsbD 62 = true) :
    (walk m va k 0 base).1 = leafResult e va k 0 := by
  subst he
  have h63 : ¬ (!(read64 m (base + 8 * tableIndex va 0)).getLsbD 63) = true := by rw [h.1]; exact Bool.false_ne_true
  have h62 : ¬ (!(read64 m (base + 8 * tableIndex va 0)).getLsbD 62) = true := by rw [h.2]; exact Bool.false_ne_true
  exact congrArg Prod.fst ((if_neg hs).trans ((if_neg h63).trans (if_neg h62)))

end Sys2Proof.Machine
end

