-- ==== Sys2Proof/Laws/Waits.lean ====
section
/-!
SUPPORT. What an access keeps of the values that contexts wait for (R163): the core that is selected, the frame, and the
numbers of every pending value. A load puts its value into a pending entry; none is added or taken out.
-/

namespace Sys2Proof.Machine

/-- The numbers of a context's pending values. -/
def Ctx.pendIds (c : Ctx) : List Nat := c.pend.map Pending.id

/-- The selected core, the frame and the numbers of its contexts' pending values are kept. -/
def KeepsWaits (s t : State) : Prop :=
  t.coreIx = s.coreIx ∧ t.fr = s.fr ∧ ∀ c, (t.ctxAt c).pendIds = (s.ctxAt c).pendIds

theorem KeepsWaits.refl (s : State) : KeepsWaits s s := ⟨rfl, rfl, fun _ => rfl⟩

theorem KeepsWaits.trans {s t u : State} (h : KeepsWaits s t) (g : KeepsWaits t u) : KeepsWaits s u :=
  ⟨g.1.trans h.1, g.2.1.trans h.2.1, fun c => (g.2.2 c).trans (h.2.2 c)⟩

theorem KeepsWaits.foldl {α : Type} (f : State → α → State) (h : ∀ s x, KeepsWaits s (f s x)) :
    ∀ (l : List α) (s : State), KeepsWaits s (l.foldl f s)
  | [], s => .refl s
  | x :: l, s => (h s x).trans (KeepsWaits.foldl f h l (f s x))

theorem KeepsWaits.modCoreAt (s : State) (n : Nat) (f : Core → Core)
    (h : ∀ k c, ((f k).ctxs.get c).pendIds = (k.ctxs.get c).pendIds) : KeepsWaits s (s.modCoreAt n f) := by
  unfold State.modCoreAt
  split
  · exact ⟨rfl, rfl, fun c => h _ c⟩
  · exact ⟨rfl, rfl, fun _ => rfl⟩

theorem KeepsWaits.modCtxOf (s : State) (n : Nat) (c : CtxNo) (f : Ctx → Ctx) (h : ∀ x, (f x).pendIds = x.pendIds) :
    KeepsWaits s (s.modCtxOf n c f) := by
  refine KeepsWaits.modCoreAt s n _ fun k d => ?_
  show ((k.ctxs.set c.val (f (k.ctxs.get c)) c.isLt)[d.val]'d.isLt).pendIds = (k.ctxs[d.val]'d.isLt).pendIds
  rw [Vector.getElem_set]
  split
  · next e => rw [h]; simp only [Vector.get, ← e]; rfl
  · rfl

theorem KeepsWaits.modFabric (s : State) (f : Fabric → Fabric) : KeepsWaits s (s.modFabric f) := ⟨rfl, rfl, fun _ => rfl⟩

theorem KeepsWaits.wakeWord (s : State) (w : WatchWord) (n : Nat) : KeepsWaits s (s.wakeWord w n) := by
  refine KeepsWaits.foldl _ (fun s x => ?_) _ s
  refine KeepsWaits.modCtxOf s _ _ _ fun x => ?_
  unfold Ctx.wake Ctx.ready
  simp only []
  split
  · split <;> rfl
  · rfl

theorem KeepsWaits.scramble (s : State) (pa n : Nat) : KeepsWaits s (s.scramble pa n) := by
  refine KeepsWaits.foldl _ (fun t x => ?_) _ s
  exact .modCtxOf t _ _ _ fun _ => rfl

theorem KeepsWaits.writeHbm (s : State) (pa : Nat) (data : List Byte) : KeepsWaits s (s.writeHbm pa data) := by
  have h : KeepsWaits s { s with hbm := writeBytes s.hbm pa data } := ⟨rfl, rfl, fun _ => rfl⟩
  exact h.trans (.wakeWord ..)

theorem KeepsWaits.clearHbm (s : State) (bad : List Nat) (pa : Nat) (data : List Byte) :
    KeepsWaits s (({ s with badHbm := bad }.scramble pa 128).writeHbm pa data) := by
  have h : KeepsWaits s { s with badHbm := bad } := ⟨rfl, rfl, fun _ => rfl⟩
  generalize { s with badHbm := bad } = t at h ⊢
  exact h.trans ((KeepsWaits.scramble t pa 128).trans (KeepsWaits.writeHbm (t.scramble pa 128) pa data))

theorem KeepsWaits.wholeWrite (s : State) (pa : Nat) (data : List Byte) :
    KeepsWaits s ((s.scramble pa data.length).writeHbm pa data) :=
  (KeepsWaits.scramble s pa data.length).trans (KeepsWaits.writeHbm _ pa data)

theorem KeepsWaits.storeLine128 (s : State) (pa : Nat) (data : List Byte) : KeepsWaits s (s.storeLine128 pa data).1 := by
  have pick (P : Prop) [Decidable P] (b : Bool) (x y z : State) (hx : KeepsWaits s x) (hy : KeepsWaits s y)
      (hz : KeepsWaits s z) : KeepsWaits s (if b then (x, true) else if P then (y, true) else (z, false)).1 := by
    cases b
    · by_cases g : P
      · simpa [g] using hy
      · simpa [g] using hz
    · exact hx
  exact pick _ _ _ _ _ (.wholeWrite s pa data) (.clearHbm s (s.badHbm.filter fun u => u / 4 != pa / 128) pa data)
    (.refl s)

theorem KeepsWaits.storeHbm (s : State) (pa : Nat) (data : List Byte) : KeepsWaits s (s.storeHbm pa data).1 := by
  have lines (l : List (Nat × List Byte)) : ∀ r : State × Bool, KeepsWaits r.1 (l.foldl
      (fun (r : State × Bool) (a, d) => let (t, ok) := r.1.storeLine128 a d; (t, r.2 && ok)) r).1 := by
    induction l with
    | nil => exact fun r => .refl r.1
    | cons x l ih => exact fun r => (KeepsWaits.storeLine128 r.1 x.1 x.2).trans (ih (_, _))
  unfold State.storeHbm
  by_cases g : (!s.hbmBad (pa / 128 * 128) ((pa % 128 + data.length + 127) / 128 * 128)) = true
  · rw [if_pos g]
    exact .wholeWrite s pa data
  · rw [if_neg g]
    exact lines _ (s, true)

theorem KeepsWaits.noteLost (s : State) (n : Nat) : KeepsWaits s (s.noteLost n) := by
  unfold State.noteLost
  split
  · split
    · exact ⟨rfl, rfl, fun _ => rfl⟩
    · exact .refl s
  · exact .refl s

theorem KeepsWaits.failAll (s : State) (n slot : Nat) (r : Reply) (k va len : Nat) :
    KeepsWaits s (s.failAll n slot r k va len) := by
  unfold State.failAll
  refine .trans ?_ (.noteLost _ n)
  have step (k : Core) (f : Ctx → Ctx) (hf : ∀ x, (f x).pendIds = x.pendIds) (i : CtxNo) (c : CtxNo) :
      (({ k with ctxs := k.ctxs.set i.val (f (k.ctxs.get i)) i.isLt } : Core).ctxs.get c).pendIds = (k.ctxs.get c).pendIds := by
    show ((k.ctxs.set i.val (f (k.ctxs.get i)) i.isLt)[c.val]'c.isLt).pendIds = (k.ctxs[c.val]'c.isLt).pendIds
    rw [Vector.getElem_set]
    split
    · next e => rw [hf]; simp only [Vector.get, ← e]; rfl
    · rfl
  have all (c : CtxNo) (f : Ctx → Ctx) (hf : ∀ x, (f x).pendIds = x.pendIds) : ∀ (l : List CtxNo) (k : Core),
      ((l.foldl (fun k c => { k with ctxs := k.ctxs.set c.val (f (k.ctxs.get c)) c.isLt }) k).ctxs.get c).pendIds
        = (k.ctxs.get c).pendIds := by
    intro l
    induction l with
    | nil => exact fun _ => rfl
    | cons i l ih => exact fun k => (ih _).trans (step k f hf i c)
  unfold Core.mapCtxs
  have hf (x : Ctx) : Ctx.pendIds (if x.bound && x.bind.lslot == slot then
      { x.recordFail 0 r k with lost := x.lost ++ [(0, va, len)] } else x) = x.pendIds := by
    cases x.bound && x.bind.lslot == slot <;> rfl
  exact KeepsWaits.modCoreAt s n _ fun k c => all c _ hf allCtxs k

theorem KeepsWaits.ask (s : State) (tgt : BitVec 3) (m addr va : Nat) (kind : ReqKind) (who : ReqFor) (num : Nat) :
    KeepsWaits s (s.ask tgt m addr va kind who num) := by
  refine .trans (.modFabric s _) (KeepsWaits.foldl _ (fun s r => ?_) _ _)
  split
  · exact .refl s
  · split
    · exact .refl s
    · have out (s : State) (r : Request) : KeepsWaits s (s.sendOut r) := by
        unfold State.sendOut
        split
        · exact .refl _
        · exact .modFabric _ _
      exact .trans (.modFabric s _) (out _ _)

theorem KeepsWaits.writeback (s : State) (n : Nat) (l : Line) : KeepsWaits s (s.writeback n l) := by
  refine .trans (KeepsWaits.foldl _ (fun s x => KeepsWaits.failAll ..) _ s) (KeepsWaits.foldl _ (fun s x => ?_) _ _)
  simp only []
  split
  · split
    · exact .failAll ..
    · split
      · exact .storeHbm ..
      · exact (KeepsWaits.storeHbm ..).trans (.failAll ..)
  · exact .ask ..

theorem KeepsWaits.spoilReads (s : State) (n : Nat) (p : Line → Bool) : KeepsWaits s (s.spoilReads n p) := by
  unfold State.spoilReads
  simp only []
  split
  · exact .modFabric ..
  · exact .refl s

theorem KeepsWaits.clean (s : State) (n : Nat) (drop : Bool) (p : Line → Bool) : KeepsWaits s (s.clean n drop p) := by
  have h0 : KeepsWaits s (if drop then s.spoilReads n p else s) := by
    split
    · exact .spoilReads ..
    · exact .refl s
  refine h0.trans ?_
  unfold State.clean
  simp only []
  generalize (if drop then s.spoilReads n p else s) = s
  have h := KeepsWaits.foldl _ (fun s l => KeepsWaits.writeback s n l) ((s.coreAt n).lines.filter p) s
  split
  · exact h
  · refine h.trans (.modCoreAt _ _ _ fun _ _ => rfl)

theorem KeepsWaits.fillLine (s : State) (n slot va : Nat) (m : Option Nat) (pa : Nat) (data : List Byte) :
    KeepsWaits s (s.fillLine n slot va m pa data) := by
  unfold State.fillLine
  split
  · exact .modCoreAt _ _ _ fun _ _ => rfl
  · refine .trans ?_ (.modCoreAt _ _ _ fun _ _ => rfl)
    unfold State.makeRoom
    simp only []
    split
    · exact .refl s
    · split
      · exact .clean ..
      · exact .refl s

/-- A value put into a pending entry. -/
theorem KeepsWaits.supply (s : State) (n : Nat) (c : CtxNo) (id : Nat) (places : List (Nat × Nat × Nat × Nat)) (v : Nat)
    (bad : Bool) (va : Nat) : KeepsWaits s (s.modCtxOf n c (·.supply id places v bad va)) := by
  refine .modCtxOf s n c _ fun x => ?_
  unfold Ctx.pendIds Ctx.supply
  rw [List.map_map]
  refine List.map_congr_left fun p _ => ?_
  simp only [Function.comp]
  split <;> rfl

theorem KeepsWaits.refuseLoad (s : State) (n : Nat) (c : CtxNo) (l : GLoad) : KeepsWaits s (s.refuseLoad n c l) := by
  refine .modCtxOf s n c _ fun x => ?_
  show Ctx.pendIds (x.supply l.id l.places 0 false l.va) = _
  unfold Ctx.pendIds Ctx.supply
  rw [List.map_map]
  refine List.map_congr_left fun p _ => ?_
  simp only [Function.comp]
  split <;> rfl

theorem KeepsWaits.loadCached (s : State) (n : Nat) (c : CtxNo) (l : GLoad) (num : Nat) :
    KeepsWaits s (s.loadCached n c l num) := by
  unfold State.loadCached
  simp only []
  split
  · exact .supply ..
  · split
    · exact .ask ..
    · split
      · exact .refuseLoad ..
      · split
        · exact .supply ..
        · split
          · exact (KeepsWaits.fillLine ..).trans (.supply ..)
          · exact .fillLine ..

theorem KeepsWaits.acquired (s : State) (n : Nat) (c : CtxNo) (id va : Nat) : KeepsWaits s (s.acquired n c id va) := by
  have h (x : Ctx) := KeepsWaits.foldl _ (fun s (e : BindEntry) => KeepsWaits.clean s n true
    (Line.within x.bind.lslot e.rbase.toNat (e.rbase.toNat + e.rlen.toNat))) (x.bound? va) s
  have done (t : State) : KeepsWaits t (if t.cleaning n t.fabric.next then
      t.modCtxOf n c fun x => { x with acquires := x.acquires.map fun a => if a.id = id then { a with upTo := some t.fabric.next } else a }
    else t.modCtxOf n c fun x => { x with acquires := x.acquires.filter fun a => a.id != id }) := by
    by_cases g : t.cleaning n t.fabric.next = true
    · rw [if_pos g]
      exact .modCtxOf t n c _ fun _ => rfl
    · rw [if_neg g]
      exact .modCtxOf t n c _ fun _ => rfl
  exact (h (s.ctxOf n c)).trans (done _)

theorem KeepsWaits.loadHome (s : State) (n : Nat) (c : CtxNo) (l : GLoad) (num : Nat) :
    KeepsWaits s (s.loadHome n c l num) := by
  have h0 : KeepsWaits s (if l.acq then s.clean n true (·.isAt (s.ctxOf n c).bind.lslot l.va) else s) := by
    split
    · exact .clean ..
    · exact .refl s
  refine h0.trans ?_
  unfold State.loadHome
  simp only []
  generalize (if l.acq then s.clean n true (·.isAt (s.ctxOf n c).bind.lslot l.va) else s) = t
  split
  · split
    · refine .trans ?_ (.acquired ..)
      split
      · exact .refuseLoad ..
      · exact .supply ..
    · split
      · exact .refuseLoad ..
      · exact .supply ..
  · exact .ask ..

/-- A load that is performed or kept waiting adds no pending value and takes none out. -/
theorem KeepsWaits.accessLoad (s : State) (n : Nat) (c : CtxNo) (num : Nat) (l : GLoad) :
    KeepsWaits s (s.access n c num (.load l)) := by
  unfold State.access State.perform
  split
  · exact .modCtxOf _ _ _ _ fun _ => rfl
  · simp only []
    split
    · exact .loadCached ..
    · exact .loadHome ..

end Sys2Proof.Machine
end

