-- ==== Sys2Proof/Tests/Slice0.lean ====
section
/-!
SUPPORT. The model's own tests: ill-formed terms, words written out from the encodings, single steps with results
calculated by hand from the rules, and for every statement with hypotheses states and operands that meet them.
-/

namespace Sys2Proof.Tests

set_option Elab.async false

open Sys2Proof.Machine Sys2Proof.Claims

/-! ## Small states -/

/-- One running context on two mapped pages: 0x4000000000 (its code) and 0x4000010000 (its context area). -/
def base : State := State.reset.withFetchWord 64 0x8000100000000000

/-- A scalar register set. -/
def setS (r : Reg) (x : Word64) (s : State) : State :=
  s.modCtx fun c => { c with regs := c.regs.land (.s r) (x.setWidth 512) }

/-- A further page, 0x4000010000 × (2 + k) / 2 of the tables: its leaf entry at 0x202010 + 8 × k. -/
def map (k : Nat) (entry : Nat) (s : State) : State := { s with hbm := writeNat s.hbm (0x202010 + 8 * k) 8 entry }

/-- A page of local memory that is not cached, at 0x4000020000. -/
def uncached : State := map 0 0xC000E00000000032 base

/-- A control register or field of the running context. -/
def withCtx (f : Ctx → Ctx) (s : State) : State := s.modCtx f

/-- A trap handler of the running context. -/
def handled : State := withCtx (fun c => { c with ctrl := { c.ctrl with tvec := 0x4000000100 } }) base

/-- The same context in handler mode. -/
def inHandler : State := withCtx (fun c => { c with ctrl := { c.ctrl with status := 1, epc := 0x4000000040 } }) handled

/-- The device owned by master 0, whose port has trained, with boot over. -/
def owned (s : State) : State := s.modHub fun h => { h with
  own := { h.own with state := .owned, owner := 0, lease := 1000 }
  hosts := h.hosts.set 0 ⟨true, 16, 128, false⟩, boot := { h.boot with phase := 2 } }

/-! ## Ill-formed terms: one for each check -/

theorem test_wf_arith_type : (Instr.add false false ⟨1, 2, 3, .f32⟩).wf = false := by decide
theorem test_wf_add_counters : (Instr.add true false ⟨1, 4, 3, .i64⟩).wf = false
    ∧ (Instr.add false true ⟨4, 1, 3, .i64⟩).wf = false := by decide
theorem test_wf_clz : (Instr.clz 1 2 .bf16).wf = false ∧ (Instr.popc 1 2 .f16).wf = false := by decide
theorem test_wf_cmp_sign : (Instr.cmp 1 .eq 2 3 .n32).wf = false := by decide
theorem test_wf_predicates : (Instr.sel 1 2 3 16).wf = false ∧ (Instr.pand ⟨16, 0, 0, false, false⟩).wf = false
    ∧ (Instr.qget 16 1 2).wf = false := by decide
theorem test_wf_fields : (Instr.ext 1 2 60 5 false).wf = false ∧ (Instr.dep 1 2 3 63 1).wf = false
    ∧ (Instr.ext 1 2 63 0 false).wf = true := by decide
theorem test_wf_loop : (Instr.loop 4 1 1).wf = false ∧ (Instr.loop 0 1 0).wf = false
    ∧ (Instr.loop 0 1 65537).wf = false ∧ (Instr.loop 0 1 65536).wf = true := by decide
theorem test_wf_control_registers : (Instr.crd 1 19).wf = false ∧ (Instr.cwr 1 9).wf = false
    ∧ (Instr.cwr 1 10).wf = false := by decide
theorem test_wf_octets : (Instr.spawn 1 2 4).wf = false ∧ (Instr.cgrun 1 2 9 0 0).wf = false := by decide
theorem test_wf_vector_masks : (Instr.vadd ⟨⟨0, 0, false⟩, 1, 2, 3, false, .i32⟩).wf = false
    ∧ (Instr.vadd ⟨⟨1, 0, true⟩, 1, 2, 3, false, .i32⟩).wf = false
    ∧ (Instr.vadd ⟨⟨1, 0, false⟩, 32, 2, 3, false, .i32⟩).wf = false
    ∧ (Instr.vadd ⟨⟨1, 0, false⟩, 1, 2, 40, false, .i32⟩).wf = false
    ∧ (Instr.vadd ⟨⟨1, 0, false⟩, 1, 2, 40, true, .i32⟩).wf = true := by decide
theorem test_wf_vector_types : (Instr.vadd ⟨⟨1, 0, false⟩, 1, 2, 3, false, .i64⟩).wf = false
    ∧ (Instr.vfmin ⟨⟨1, 0, false⟩, 1, 2, 3, false, .e4m3⟩).wf = false
    ∧ (Instr.vfabs ⟨⟨1, 0, false⟩, 1, 2, .i32⟩).wf = false := by decide
theorem test_wf_chain_refused : (Instr.vqcnt ⟨1, 0, true⟩ 1 false 2).wf = false
    ∧ (Instr.qand ⟨⟨1, 0, true⟩, 1, 2, 3⟩).wf = false ∧ (Instr.rcp ⟨⟨1, 0, true⟩, 1, 0⟩).wf = false := by decide
theorem test_wf_rounding_key : (Instr.vfadd ⟨⟨1, 0, false⟩, 1, 2, 3, false, 0, .f32, .sr, none⟩).wf = false
    ∧ (Instr.vfadd ⟨⟨1, 0, false⟩, 1, 2, 3, false, 0, .f32, .rne, some 2⟩).wf = false
    ∧ (Instr.vfadd ⟨⟨1, 0, false⟩, 1, 2, 3, false, 0, .f32, .sr, some 3⟩).wf = false
    ∧ (Instr.vfadd ⟨⟨1, 0, false⟩, 1, 2, 3, false, 4, .f32, .rne, none⟩).wf = false
    ∧ (Instr.vfadd ⟨⟨1, 0, false⟩, 1, 2, 3, false, 0, .f32, .sr, some 2⟩).wf = true := by decide
theorem test_wf_dots : (Instr.vdot2 ⟨⟨1, 0, false⟩, 1, 2, 3, false, 4, .f32, .rne, none⟩).wf = false
    ∧ (Instr.vdot4 ⟨⟨1, 0, false⟩, 1, 2, 3, false, 4, .i8, .rtz, none⟩).wf = false
    ∧ (Instr.vdot8 ⟨⟨1, 0, false⟩, 1, 2, 3, false, 4, .e4m3, .rne, none⟩).wf = false := by decide
theorem test_wf_conversions : (Instr.vcvt ⟨⟨1, 0, false⟩, 1, 2, .f32, .f32, 0, .rne, none⟩).wf = false
    ∧ (Instr.vcvt ⟨⟨1, 0, false⟩, 1, 2, .f32, .bf16, 2, .rne, none⟩).wf = false
    ∧ (Instr.vcvt ⟨⟨1, 0, false⟩, 1, 2, .bf16, .f32, 0, .rtz, none⟩).wf = false
    ∧ (Instr.vcvt ⟨⟨1, 0, false⟩, 1, 2, .f32, .bf16, 1, .rtz, none⟩).wf = true := by decide
theorem test_wf_folds : (Instr.vred ⟨⟨1, 0, false⟩, 1, 2, false, .and, .f32⟩).wf = false
    ∧ (Instr.vred ⟨⟨1, 0, false⟩, 1, 2, true, .add, .i32⟩).wf = false
    ∧ (Instr.vscan ⟨⟨1, 0, false⟩, 1, 2, true, .add, .i16⟩).wf = false := by decide
theorem test_wf_random : (Instr.vrng ⟨⟨1, 0, false⟩, 1, 2, 3, false, 0⟩).wf = false := by decide
theorem test_wf_lane_predicates : (Instr.qand ⟨⟨1, 0, false⟩, 8, 0, 0⟩).wf = false := by decide
theorem test_wf_index : (Instr.xcad 1 16 2 .n16).wf = false ∧ (Instr.xcad 1 2 3 .i16).wf = false
    ∧ (Instr.xins 1 2 8 .n32).wf = false ∧ (Instr.xins 1 2 8 .n16).wf = true
    ∧ (Instr.xtoq 8 0 false).wf = false := by decide
theorem test_wf_memory : (Instr.ld ⟨1, ⟨2, 1, some 0⟩, .i32⟩).wf = false ∧ (Instr.ld ⟨1, ⟨2, 0, none⟩, .e2m1⟩).wf = false
    ∧ (Instr.vld ⟨1, ⟨2, 0, none⟩, 0, 0, .none, .i32⟩).wf = false
    ∧ (Instr.vld ⟨1, ⟨2, 0, none⟩, 1, 0, .vec 3, .i32⟩).wf = false
    ∧ (Instr.vgath ⟨1, ⟨2, 0, none⟩, 1, 0, .none, .i32⟩).wf = false
    ∧ (Instr.vld ⟨1, ⟨2, 0, none⟩, 1, 0, .none, .i64⟩).wf = false
    ∧ (Instr.vld ⟨1, ⟨2, 0, none⟩, 1, 0, .pair 1, .i64⟩).wf = false
    ∧ (Instr.vst ⟨1, ⟨2, 0, none⟩, 1, 0, .none, .i8⟩).wf = false
    ∧ (Instr.vstPk6 ⟨1, ⟨2, 0, none⟩, 1, 0, .none, .n8⟩).wf = false
    ∧ (Instr.vldb ⟨1, ⟨2, 0, none⟩, 1, 0, .none, .i8⟩).wf = false := by decide
theorem test_wf_peer_store : (Instr.pst ⟨1, ⟨2, 0, none⟩, false, 1, 0, .i32⟩).wf = false
    ∧ (Instr.pst ⟨1, ⟨2, 0, none⟩, true, 0, 0, .i32⟩).wf = false := by decide
theorem test_wf_atomics : (Instr.atomgAdd ⟨1, 2, 3, 0, .f16, .plain⟩).wf = false
    ∧ (Instr.atomgMin ⟨1, 2, 3, 0, .n32, .plain⟩).wf = false
    ∧ (Instr.atomgCas ⟨1, 2, 3, 0, .i32, .plain⟩).wf = false := by decide
theorem test_wf_fences_and_waits : (Instr.fencex 1 0 0).wf = false ∧ (Instr.waita 3 1 3 0 .n32 false).wf = false
    ∧ (Instr.waita 3 1 4 0 .i32 false).wf = false := by decide
theorem test_wf_parameters : (Instr.mput 8 1).wf = false ∧ (Instr.mget 1 8).wf = false := by decide
theorem test_wf_events : Instr.leaseExpiry.wf = false ∧ (Instr.commandFinished .copy 0).wf = false := by decide
theorem test_wf_slots : (⟨0, false, 0, .yield⟩ : Syllable).wf = false ∧ (⟨11, false, 0, .nop⟩ : Syllable).wf = false
    ∧ (⟨10, false, 0, .yield⟩ : Syllable).wf = true := by decide

/-! ## Words written out from the encodings (R256 to R291) -/

theorem test_decode_scalar : decodeWords [0x00C101461C000030] = .ok ⟨0, false, 3, .add false false ⟨5, 6, 7, .i64⟩⟩
    ∧ decodeWords [0x800102C02C080030] = .ok ⟨0, false, 0, .add true false ⟨11, 0, 11, .i64⟩⟩
    ∧ decodeWords [0x800312CB0000000A] = .ok ⟨0, false, 0, .cmpi 1 .ge 11 10 none⟩
    ∧ decodeWords [0x8004504D0000000D] = .ok ⟨0, false, 0, .loop 1 13 13⟩
    ∧ decodeWords [0x880503C001200000] = .ok ⟨1, false, 0, .crd 15 18⟩
    ∧ decodeWords [0x0005220000000100] = .ok ⟨0, false, 0, .lvid 8 0 .rank⟩ := by decide
theorem test_decode_control : decodeWords [0xD0030A85B8000000] = .ok ⟨10, false, 0, .waitc 42 5 46 0⟩
    ∧ decodeWords [0xD002100000000000] = .ok ⟨10, false, 0, .yield⟩ := by decide
theorem test_decode_vector :
    decodeWords [0x100230C10830F080] = .ok ⟨2, false, 0, .vfma ⟨⟨0x0F, 0, false⟩, 3, 1, 2, false, 3, .f32, .rne, none⟩⟩
    ∧ decodeWords [0x180201801C00F580]
      = .ok ⟨3, false, 0, .vfadd ⟨⟨0x0F, 2, true⟩, 6, 0, 7, false, 0, .f32, .rne, none⟩⟩
    ∧ decodeWords [0x900230C1109FF081]
      = .ok ⟨2, false, 0, .vfma ⟨⟨0xFF, 0, false⟩, 3, 1, 4, true, 9, .f32, .rne, none⟩⟩
    ∧ decodeWords [0x9004328900001080] = .ok ⟨2, false, 0, .vscan ⟨⟨1, 0, false⟩, 10, 9, false, .add, .f32⟩⟩
    ∧ decodeWords [0x9003130A50001081] = .ok ⟨2, false, 0, .vfcmp ⟨⟨1, 0, false⟩, 1, .le, 10, 20, true⟩⟩
    ∧ decodeWords [0x900442C000201000] = .ok ⟨2, false, 0, .vqcnt ⟨1, 0, false⟩ 11 false 2⟩
    ∧ decodeWords [0x90042507000FFA80] = .ok ⟨2, false, 0, .vred ⟨⟨0xFF, 5, false⟩, 20, 7, false, .add, .f32⟩⟩
    ∧ decodeWords [0x90027081000FF081] = .ok ⟨2, false, 0, .vfmax ⟨⟨0xFF, 0, false⟩, 2, 1, 0, true, .f32⟩⟩ := by decide
theorem test_decode_index : decodeWords [0xC001378101F00060] = .ok ⟨8, false, 0, .xmps ⟨30, 1, 0, 31, .n32⟩⟩ := by decide
theorem test_decode_memory : decodeWords [0xB002024400800070] = .ok ⟨6, false, 0, .ldg ⟨9, ⟨4, 8, none⟩, .n64⟩⟩
    ∧ decodeWords [0xB001728800100060] = .ok ⟨6, false, 0, .pst ⟨10, ⟨8, 1, none⟩, false, 0, 0, .n32⟩⟩
    ∧ decodeWords [0xB004214418000063] = .ok ⟨6, false, 0, .waita 5 4 6 0 .n32 false⟩
    ∧ decodeWords [0xB004214A34000077] = .ok ⟨6, false, 0, .waita 5 10 13 0 .n64 true⟩
    ∧ decodeWords [0xB00301811C000073] = .ok ⟨6, false, 0, .atomgAdd ⟨6, 1, 7, 0, .n64, .plain⟩⟩
    ∧ decodeWords [0xB002144A00000078] = .ok ⟨6, false, 0, .stgRel ⟨17, ⟨10, 0, none⟩, .n64⟩⟩
    ∧ decodeWords [0xB001204B000FF180] = .ok ⟨6, false, 0, .vld ⟨1, ⟨11, 0, none⟩, 0xFF, 0, .none, .f32⟩⟩
    ∧ decodeWords [0xB80224C2381FF161] = .ok ⟨7, false, 0, .vldg ⟨19, ⟨2, 1, none⟩, 0xFF, 0, .vec 14, .n32⟩⟩ := by decide
theorem test_decode_engine : decodeWords [0xC802050400000000] = .ok ⟨9, false, 0, .xcopy 20 4⟩
    ∧ decodeWords [0xC801054A2CC01000] = .ok ⟨9, false, 0, .mcall ⟨21, 10, 11, 12, 1, false, 0, false⟩⟩
    ∧ decodeWords [0xCD01070A28A00700] = .ok ⟨9, true, 4, .mcall ⟨28, 10, 10, 10, 0, false, 3, true⟩⟩
    ∧ decodeWords [0xC803101B40000000] = .ok ⟨9, false, 0, .cgrun 0 27 16 0 0⟩
    ∧ decodeWords [0xC801501000000000] = .ok ⟨9, false, 0, .flowset 0 16⟩ := by decide
theorem test_decode_function : decodeWords [0xA801004200001080] = .ok ⟨5, false, 0, .rcp ⟨⟨1, 0, false⟩, 1, 2⟩⟩ := by decide
theorem test_decode_refuses : decodeWords [0x8000000000000000] = .illop ∧ decodeWords [0x800FF00000000000] = .illop
    ∧ decodeWords [0xE000100000000000] = .rsvd ∧ decodeWords [0x8000100000000001] = .rsvd := by decide

/-! ## Single steps, with results calculated by hand from the rules -/

/-- A property of the next state. -/
def gives (r : Res) (p : State → Bool) : Bool :=
  match r with
  | .next t => p t
  | .fault _ => false
  | .refused _ => false

/-- The last result put in flight goes to a destination with a value after a latency. -/
def lastFlight (d : Dest) (x : BitVec 512) (lat : Nat) (t : State) : Bool :=
  match t.ctx.flight.getLast? with
  | some f => f.dest == d && f.value == x && f.rem == lat
  | none => false

/-- The trap that has been taken. -/
def trapped (cause : Nat) (eaddr : Word64) (t : State) : Bool :=
  t.ctx.ctrl.ecause.toNat == cause && t.ctx.ctrl.eaddr == eaddr

/-- A lane of a vector register set. -/
def setV (r : Reg) (g : Fin 8) (x : BitVec 512) (s : State) : State :=
  s.modCtx fun c => { c with regs := c.regs.land (.v r g 0xFFFF) x }

def ones : Word64 := 0xFFFFFFFFFFFFFFFF

theorem test_add_wraps : gives (exec (.add false false ⟨5, 1, 2, .n8⟩) (setS 1 0xFF (setS 2 2 base)))
    (lastFlight (.s 5) 1 1) = true := by decide +kernel
theorem test_sub_sign_extends : gives (exec (.sub ⟨5, 1, 2, .i32⟩) (setS 2 1 base))
    (lastFlight (.s 5) (ones.setWidth 512) 1) = true := by decide +kernel
theorem test_shl_counts_modulo : gives (exec (.shl ⟨5, 1, 2, .n16⟩) (setS 1 0x8001 (setS 2 17 base)))
    (lastFlight (.s 5) 2 1) = true := by decide +kernel
theorem test_mulh_signed : gives (exec (.mulh ⟨5, 1, 2, .i8⟩) (setS 1 0x80 (setS 2 0x80 base)))
    (lastFlight (.s 5) 0x40 3) = true := by decide +kernel
theorem test_clz_of_zero : gives (exec (.clz 5 1 .n16) base) (lastFlight (.s 5) 16 1) = true := by decide +kernel
theorem test_popc : gives (exec (.popc 5 1 .i8) (setS 1 0x1FF base)) (lastFlight (.s 5) 8 1) = true := by decide +kernel
theorem test_write_s0_discarded : gives (exec (.addi ⟨0, 1, 5, none⟩) base) (fun t => t.ctx.flight == []) = true := by decide +kernel
theorem test_movi_extended : gives (exec (.movi 5 0x80000000 none) base)
    (lastFlight (.s 5) 0xFFFFFFFF80000000 1) = true := by decide +kernel
theorem test_cmp_unsigned_pair : gives (exec (.cmp 0 .ltu 1 2 .i64) (setS 1 1 (setS 2 ones base)))
    (lastFlight (.p 1) 0 1) = true := by decide +kernel
theorem test_ext_signed : gives (exec (.ext 5 1 4 3 true) (setS 1 0xF8F base))
    (lastFlight (.s 5) 0xFFFFFFFFFFFFFFF8 1) = true := by decide +kernel
theorem test_dep : gives (exec (.dep 5 1 2 4 3) (setS 1 0xFFF (setS 2 0xA0 base)))
    (lastFlight (.s 5) 0xF0F 1) = true := by decide +kernel
theorem test_pxor_complement : gives (exec (.pxor ⟨5, 0, 0, false, true⟩) base) (lastFlight (.p 5) 1 1) = true := by decide +kernel
theorem test_br_backwards : gives (exec (.br 0xFFFFFFFF) (base.modFr fun f => { f with pc := 0x100 }))
    (fun t => t.fr.branch == some (0, 0xF8)) = true := by decide +kernel
theorem test_br_misaligned : gives (exec (.jmpi 1) (setS 1 0x14 handled)) (trapped 9 0x14) = true := by decide +kernel
theorem test_call_pushes : gives (exec (.calli 1) (setS 1 0x40 (base.modFr fun f => { f with next := 0x88 })))
    (fun t => t.ctx.retStack == [0x88]) = true := by decide +kernel
theorem test_ret_underflow : gives (exec .ret handled) (fun t => trapped 11 0 t && t.ctx.ctrl.einfo.setWidth 32 == 5#32) = true := by decide +kernel
theorem test_loop_target : gives (exec (.loop 2 1 3) (setS 1 9 (base.modFr fun f => { f with next := 0x40 })))
    (fun t => (t.ctx.loops.get 2).exit == 0x58 && (t.ctx.loops.get 2).start == 0x40) = true := by decide +kernel
theorem test_cwr_reserved_bit : gives (exec (.cwr 1 12) (setS 1 16 handled)) (trapped 8 0) = true := by decide +kernel
theorem test_tret_restores_step : gives (exec .tret
      (withCtx (fun c => { c with ctrl := { c.ctrl with status := 0x100000003 } }) inHandler))
    (fun t => t.ctx.ctrl.status == 0xA && t.fr.branch == some (0, 0x4000000040)) = true := by decide +kernel
theorem test_trap_entry : gives (exec (.trapEntry 0 15 0x4000000010 7 9) handled)
    (fun t => t.ctx.pc == 0x4000000100 && t.ctx.ctrl.epc == 0x4000000010 && t.ctx.ctrl.status == 1
      && t.ctx.bubbles == 2) = true := by decide +kernel
theorem test_trap_in_handler_ends_launch : gives (exec (.trapEntry 0 15 0x4000000010 7 9) inHandler)
    (fun t => (t.lslot 0).status == 9 && (t.lslot 0).cause == 15) = true := by decide +kernel
theorem test_waitc_goes_on : gives (exec (.waitc 5 1 2 3) base) (lastFlight (.s 5) 0 1) = true := by decide +kernel
theorem test_waitc_held : gives (exec (.waitc 5 1 2 3) (setS 2 1 base)) (fun t => t.fr.verdict == .held .waitc) = true := by decide +kernel
theorem test_vadd_saturates : gives (exec (.vadds ⟨⟨1, 0, false⟩, 3, 1, 2, false, .n8⟩)
      (setV 1 0 0xFF (setV 2 0 1 base)))
    (fun t => t.ctx.flight.any fun f => f.dest == .flags && f.value == 0x40) = true := by decide +kernel
theorem test_vadd_elements : gives (exec (.vadd ⟨⟨1, 0, false⟩, 3, 1, 2, false, .n8⟩)
      (setV 1 0 0x01FF (setV 2 0 0x0101 base))) (lastFlight (.v 3 0 0xFFFF) 0x0200 2) = true := by decide +kernel
theorem test_xpopc : gives (exec (.xpopc 5 1 2) (setS 2 300
      (base.modCtx fun c => { c with regs := c.regs.land (.x 1) 7 }))) (lastFlight (.s 5) 3 2) = true := by decide +kernel
theorem test_xmps_of_the_rule : gives (exec (.xmps ⟨5, 1, 0, 2, .n16⟩) (setS 2 6
      (base.modCtx fun c => { c with
        regs := c.regs.land (.x 1) 0xFFFFFFFFFFFFFFFFFFFFFFFFFFFFFFFFFFFFFFFFFFFFFFFF0009000500020002 })))
    (lastFlight (.s 5) 2 2) = true := by decide +kernel
theorem test_ld_sign_extends : gives (exec (.ld ⟨5, ⟨1, 0, none⟩, .i16⟩) (setS 1 0xBFFFE
      (base.modCore fun k => { k with spad := writeNat k.spad 0xBFFFE 2 0x8000 })))
    (lastFlight (.s 5) 0xFFFFFFFFFFFF8000 4) = true := by decide +kernel
theorem test_ld_beyond_scratchpad : gives (exec (.ld ⟨5, ⟨1, 0, none⟩, .i8⟩) (setS 1 0xC0000 handled))
    (trapped 8 0xC0000) = true := by decide +kernel
theorem test_st_misaligned : gives (exec (.st ⟨5, ⟨1, 0, none⟩, .n32⟩) (setS 1 2 handled)) (trapped 9 2) = true := by decide +kernel
theorem test_st_after_loads : gives (exec (.st ⟨5, ⟨1, 1, none⟩, .n16⟩) (setS 1 0x10 (setS 5 0xABCD1234 base)))
    (fun t => t.fr.deferred == [.spad 0 0x12 [0x34, 0x12]]) = true := by decide +kernel
theorem test_ldg_unmapped : gives (exec (.ldg ⟨5, ⟨1, 0, none⟩, .n32⟩) (setS 1 0x1000 handled))
    (trapped 7 0x1000) = true := by decide +kernel
theorem test_fence_level : gives (exec (.fence 5 0x20) handled) (trapped 13 0) = true := by decide +kernel
theorem test_mput_lands : gives (exec (.mput 3 1) (setS 1 77 base)) (lastFlight (.m 3) 77 1) = true := by decide +kernel
theorem test_flowset_ticket : gives (exec (.flowset 5 1) base)
    (fun t => t.core.mqueue.length == 1 && t.ctx.tickets.issued.get 0 == 1) = true := by decide +kernel
theorem test_own_claim : gives (exec (.ownClaim 0 0 1000) (State.reset.modHub fun h => { h with
      hosts := h.hosts.set 0 ⟨true, 16, 128, false⟩ }))
    (fun t => t.hub.own.state == .owned && t.hub.own.owner == 0 && t.hub.own.epoch == 1) = true := by decide +kernel
theorem test_step_runs_word : gives (step (State.reset.withFetchWord 64 0x00001C010101400000)) (fun _ => true) = true := by decide +kernel

/-! ## The hypotheses of every statement are met, each clause's at a boundary value where it has a range -/

/-- A check that passes, and one that does not. -/
def good {α : Type} : Judged α → Bool
  | .ok _ => true
  | .bad _ _ _ => false
def bad {α : Type} (x : Judged α) : Bool := !good x

def isOk : Reply → Bool
  | .ok => true
  | _ => false

/-- A field of the issue frame. -/
def withFr (f : Frame → Frame) (s : State) : State := s.modFr f

theorem test_meets_ScalarArithmetic : (⟨63, 1, 2, .n8⟩ : SArgs).ty.isInt ∧ (⟨0, 1, 2, .i64⟩ : SArgs).ty.isInt := by
  decide +kernel
theorem test_meets_ScalarCounts : Ty.isInt .i8 ∧ Ty.isInt .n64 := by decide +kernel
theorem test_meets_ComparesAndPredicates : Ty.isInt .i8 ∧ Ty.isInt .n64
    ∧ (0 : BitVec 6).toNat + ((63 : BitVec 6).toNat + 1) ≤ 64 ∧ (63 : BitVec 6).toNat + ((0 : BitVec 6).toNat + 1) ≤ 64 := by
  decide +kernel

def oddPc : State := withFr (fun f => { f with pc := 4 }) base
theorem test_meets_Branches : relative base 0xFFFFFFFF % 8 = 0 ∧ (setS 1 8 base).rdS 1 % 8 = 0
    ∧ relative oddPc 1 % 8 ≠ 0 ∧ (setS 1 7 base).rdS 1 % 8 ≠ 0 ∧ base.fr.branch = none := by decide +kernel
/-- Past its judging, a branch of the bundle has been taken. -/
def lostTo : State := withFr (fun f => { f with judging := false, branch := some (0, 0x40) }) base
theorem test_meets_Branches_lost : beaten lostTo := by unfold beaten; decide +kernel
/-- A sequence cache whose entry for OCC 7 and DLEN 15 is valid with an offset within the code, and one of 1,024 bytes of
code. -/
def sequenced (e : Word64) : State := withCtx (fun c => { c with
    seqCache := List.replicate 127 0 ++ [e], ctrl := { c.ctrl with occ := 7, dlen := 15 } })
  (base.modSlot 0 fun l => { l with info := { l.info with codeLen := 1024 } })
theorem test_meets_SequenceSelect :
    let s := sequenced 0x80000000000003F8
    let e := s.ctx.seqCache.getD (16 * 7 + 15) 0
    (s.ctx.ctrl.occ.extractLsb' 0 3).toNat = 7 ∧ (s.ctx.ctrl.dlen.extractLsb' 0 4).toNat = 15 ∧ e.getLsbD 63
      ∧ e.extractLsb' 32 31 = 0 ∧ ((e.extractLsb' 0 32).setWidth 64 : Word64) = 1016 ∧ 1016 < s.launch.info.codeLen
      ∧ gives (exec .seqsel s) (fun t => t.fr.branch == some (0, s.instBase + 1016)) = true
      ∧ gives (exec .seqsel (sequenced 0x8000000000000400)) (fun t => t.fr.branch == none) = true := by decide +kernel

def stacked (l : List Word64) (n : Nat) : State := withCtx (fun c => { c with retStack := l, spilled := n }) base
def home (n : Nat) : Word64 := base.ctx.ctrl.rsb + BitVec.ofNat 64 (0x8000 + 8 * n)
theorem test_meets_ReturnStack_calls :
    let full := List.replicate 16 (0x40 : Word64)
    relative base 0 % 8 = 0 ∧ base.rdS 1 % 8 = 0 ∧ (stacked (full.take 15) 0).ctx.retStack.length < 16
      ∧ 16 ≤ (stacked full 2047).ctx.retStack.length ∧ (stacked full 2047).ctx.spilled < 2048
      ∧ (stacked full 2047).translate (home 2047) .write = .ok 0 0 0x31BFF8 false
      ∧ isOk ((stacked full 2047).homeWrite (dieOf 0) 0 0 0x31BFF8 1024 (natToBytes 8 0x40)).2
      ∧ 2048 ≤ (stacked full 2048).ctx.spilled := by decide +kernel
theorem test_meets_ReturnStack_returns : (stacked [0x40, 0x44] 0).ctx.retStack = [0x40, 0x44] ∧ (0x40 : Word64) % 8 = 0
      ∧ (stacked [0x44] 0).ctx.retStack = [0x44] ∧ (0x44 : Word64) % 8 ≠ 0
      ∧ (stacked [] 1).ctx.retStack = [] ∧ 0 < (stacked [] 1).ctx.spilled
      ∧ (stacked [] 1).translate (home 0) .read = .ok 0 0 0x318000 false
      ∧ isOk ((stacked [] 1).homeRead (dieOf 0) 0 0 0x318000 8 1032).2
      ∧ (BitVec.ofNat 64 (bytesToNat ((stacked [] 1).homeRead (dieOf 0) 0 0 0x318000 8 1032).1) : Word64) % 8 = 0
      ∧ base.ctx.retStack = [] ∧ base.ctx.spilled = 0 := by decide +kernel

theorem test_meets_LoopStartsOrLeaves : ((setS 1 0xFFFFFFFF base).rdS 1).setWidth 32 ≠ (0 : Word32)
    ∧ ((setS 1 0x100000000 base).rdS 1).setWidth 32 = (0 : Word32) ∧ base.fr.anyBranch = false
    ∧ (withFr (fun f => { f with anyBranch := true }) base).fr.anyBranch = true := by decide +kernel

/-- A command on an engine of the running context. -/
def cmd (op : CmdOp) (run : CmdRun) : Cmd := { Cmd.blank op with run := run }
def onMatrix (l : List Cmd) (s : State) : State := s.modCore fun k => { k with mqueue := l }
def onCopy (l : List Cmd) (s : State) : State := s.modCore fun k => { k with cqueue := l }
def onFabric (l : List Cmd) (s : State) : State := s.modCore fun k => { k with fqueue := l }
def onText (l : List Cmd) (s : State) : State := { s with text := [(0, l)] }
/-- A suspended routine as far as the fields of RPROG reach. -/
def midRoutine : Cmd := { cmd .mcall .suspended with routine := { Progress.reset with ncol := 256, wrow := 128, drow := 128 } }

theorem test_meets_ControlRegisterReads : base.ctx.flight = [] ∧ base.interrupted .matrix base.fr.ctx = none
    ∧ base.interrupted .copy base.fr.ctx = none
    ∧ (withCtx (fun c => { c with state := .preempted })
        (onMatrix [{ midRoutine with run := .running }] base)).interrupted .matrix base.fr.ctx
      = some { midRoutine with run := .running }
    ∧ (onMatrix [midRoutine] base).interrupted .matrix base.fr.ctx = some midRoutine ∧ midRoutine.routine.ncol ≤ 256
    ∧ midRoutine.routine.wrow ≤ 128 ∧ midRoutine.routine.drow ≤ 128
    ∧ (onCopy [cmd .tsld .suspended] base).interrupted .copy base.fr.ctx = some (cmd .tsld .suspended) := by decide +kernel

theorem test_meets_ControlRegisterWrites : (12 : Reg) ≠ 9 ∧ (12 : Reg) ≠ 10 ∧ (setS 1 15 base).rdS 1 < 16
    ∧ ¬ (setS 1 16 base).rdS 1 < 16
    ∧ (0xF : Word64) &&& 0x00000000FFFFFFF0 = 0 ∧ (0x10 : Word64) &&& 0x00000000FFFFFFF0 ≠ 0
    ∧ (0x00FFFFFFFFFFFFF8 : Word64) &&& 0xFF00000000000007 = 0 ∧ (4 : Word64) &&& 0xFF00000000000007 ≠ 0
    ∧ (0x8000000000000000 : Word64) <<< 1 = 0 ∧ (onMatrix [midRoutine] base).suspended .matrix base.fr.ctx ≠ none
    ∧ (0x80000003FFFFFFFF : Word64) &&& 0x0FFFFFFC00000000 = 0
    ∧ (onCopy [cmd .tsld .suspended] base).suspended .copy base.fr.ctx ≠ none := by decide +kernel

/-- A page of local memory that is cached, at 0x4000020000, and in it a binding table of one entry. -/
def cachedPage : State := map 0 0xC000C00000000032 base
def bindEntryBytes : List Byte := natToBytes 8 0x1000 ++ natToBytes 8 0x8000000000 ++ natToBytes 8 128 ++ natToBytes 8 0x100
def bound : State := { cachedPage with hbm := writeBytes cachedPage.hbm 0x320000 bindEntryBytes }
theorem test_meets_TableWrites : (0x0100000000000000 : Word64) >>> 56 ≠ 0 ∧ (32 : Word64) % 64 ≠ 0
    ∧ (0x00FFFFFFFFFFFFC0 : Word64) >>> 56 = 0 ∧ bad ((setS 1 0x1000 base).readTable 0x1000 64 2048 16)
    ∧ good (cachedPage.readTable 0x4000020000 64 2048 16)
    ∧ (0x800 : Word64).getLsbD 11 ∧ 1024 < ((0x401 : Word64).extractLsb' 0 11).toNat
    ∧ ((0x400 : Word64).extractLsb' 0 11).toNat ≤ 1024
    ∧ cachedPage.readTable 0x4000020000 32 4096 1 = .ok (List.replicate 32 0)
    ∧ bad (cachedPage.checkBinds 1 0 (List.replicate 32 0))
    ∧ bound.readTable 0x4000020000 32 4096 1 = .ok bindEntryBytes ∧ good (bound.checkBinds 1 0 bindEntryBytes) := by
  decide +kernel

theorem test_meets_Discards : (onMatrix [midRoutine] base).suspended .matrix 0 = some midRoutine
    ∧ (onCopy [cmd .tsld .suspended] base).suspended .copy 0 = some (cmd .tsld .suspended)
    ∧ (cmd .tsld .suspended).op.engine = .copy
    ∧ (onText [cmd .txtEnc .suspended] base).suspended .text 0 = some (cmd .txtEnc .suspended)
    ∧ (cmd .txtEnc .suspended).op.engine = .text
    ∧ base.suspended .matrix 3 = none ∧ base.suspended .copy 3 = none ∧ base.suspended .text 3 = none := by decide +kernel

theorem test_meets_Identity : (0 : BitVec 6).toNat < base.tree.phys.length ∧ (0 : BitVec 6).toNat ≤ base.tree.cl
    ∧ ¬ (1 : BitVec 6).toNat < base.tree.phys.length := by decide +kernel

def idle (r : BitVec 69) : State := base.modCtxAt 1 fun c => { c with state := .idle, resident := r }
theorem test_meets_Spawn : (setS 1 0x40 (idle 1)).rdS 1 % 8 = 0 ∧ (1 : CtxNo) ≠ (idle 1).fr.ctx
    ∧ ((idle 1).ctxAt 1).bind.lslot = (idle 1).ctx.bind.lslot ∧ ((idle 1).ctxAt 1).state = .idle
    ∧ ((idle 1).ctxAt 1).resident.getLsbD 0 = true ∧ ((idle 2).ctxAt 1).resident.getLsbD 0 = false
    ∧ (setS 1 0x41 (idle 1)).rdS 1 % 8 ≠ 0 ∧ (base.ctxAt 1).state ≠ .idle ∧ (base.ctxAt 0).state = .running := by decide +kernel

def pended (s : State) : State := withCtx (fun c => { c with pend := [⟨0, [(.s 5, 0)], true, none, 1, 0, false, 0⟩] }) s
theorem test_meets_TrapEntry : ((boundary inHandler 0).ctxAt 0).ctrl.status.getLsbD 0 = true
    ∧ ((boundary base 0).ctxAt 0).ctrl.status.getLsbD 0 = false ∧ ((boundary base 0).ctxAt 0).ctrl.tvec = 0
    ∧ ((boundary base 0).lslot 0).state = .running ∧ ((boundary base 0).ctxAt 0).state ≠ .free
    ∧ ((boundary handled 0).ctxAt 0).ctrl.status.getLsbD 0 = false ∧ ((boundary handled 0).ctxAt 0).ctrl.tvec ≠ 0
    ∧ ((boundary (pended handled) 0).ctxAt 0).mustWait = true
    ∧ ((boundary handled 0).ctxAt 0).mustWait = false := by decide +kernel

theorem test_meets_TrapReturn : base.ctx.ctrl.status.getLsbD 0 = false
    ∧ (0x200000001 : Word64).getLsbD 0 = true ∧ (0x200000001 : Word64) >>> 33 ≠ 0
    ∧ (withCtx (fun c => { c with ctrl := { c.ctrl with status := 0x200000001 } }) base).ctx.ctrl.status = 0x200000001
    ∧ inHandler.ctx.ctrl.status.getLsbD 0 = true ∧ inHandler.ctx.ctrl.status >>> 33 = 0 ∧ inHandler.fr.branch = none
    ∧ (withFr (fun f => { f with branch := some (0, 0) }) inHandler).fr.branch ≠ none := by decide +kernel

def heldFor (h : Hold) (n : Nat) (s : State) : State :=
  withCtx (fun c => { c with waits := { c.waits with hold := h, heldC := true, cycles := n } }) s
theorem test_meets_WaitForCounter : ¬ base.core.tcnt.get (ix64 1) < (base.rdS 2).setWidth 32
    ∧ base.core.tcnt.get (ix64 1) < ((setS 2 1 base).rdS 2).setWidth 32
    ∧ (setS 3 7 base).rdS 3 ≠ 0 ∧ (heldFor .waitc 7 base).ctx.waits.heldC = true
    ∧ ((setS 3 7 base).rdS 3).toNat ≤ (heldFor .waitc 7 base).ctx.waits.cycles
    ∧ ¬ ((setS 3 7 base).rdS 3).toNat ≤ (heldFor .waitc 6 base).ctx.waits.cycles := by decide +kernel

/-- The same context under a level above its context level, bound at PHYS `p`, with `n` contexts: one to a module where
there are several. -/
def under (p n modules : Nat) (s : State) : State :=
  withCtx (fun c => { c with bind := { c.bind with coords := if modules = 1 then [0, 0] else [0, 0, 0] } })
    (s.modSlot 0 fun l => { l with info := { l.info with
      tree := if modules = 1 then ⟨0, modules, [1, n], [p, 2]⟩ else ⟨0, modules, [1, n, 1], [p, 6, 2]⟩ } })
def opened (slot : Nat) (gen : BitVec 16) (count : Nat) (s : State) : State :=
  s.modCore fun k => { k with barriers := k.barriers.set 127 ⟨slot, gen, count⟩ }
theorem test_meets_BarrierArrivals : (under 3 2 1 base).tree.levelOk 0 false = true
    ∧ (under 3 2 1 base).tree.physAt 0 = 3 ∧ ((under 3 2 1 base).core.barriers.get 127).lslot = 0
    ∧ ((opened 1 0 1 (under 3 2 1 base)).core.barriers.get 127).lslot ≠ 0
    ∧ ((opened 1 0 1 (under 3 2 1 base)).core.barriers.get 127).count ≠ 0
    ∧ (under 7 2 2 base).tree.levelOk 0 false = true ∧ (under 7 2 2 base).tree.physAt 0 ≠ 3
    ∧ 6 < (under 7 2 2 base).tree.physAt 0 ∧ 1 < (under 7 2 2 base).tree.modules := by decide +kernel

def passedBy (u : State) (g : BitVec 16) : Bool :=
  decide (0 < (u.barrierGen 0 127 - g).toNat) && decide ((u.barrierGen 0 127 - g).toNat ≤ 32767)
theorem test_meets_BarrierWaits : base.tree.levelOk 1 false = false ∧ (under 3 2 1 base).tree.levelOk 0 false = true
    ∧ passedBy (opened 0 32767 0 (under 3 2 1 base)) 0 = true ∧ passedBy (opened 0 32768 0 (under 3 2 1 base)) 0 = false
    ∧ passedBy (under 3 2 1 base) 0 = false
    ∧ ((under 3 1 1 base).barArrive 0 127).ctx.waits.bar = some (base.fr.pc, 0)
    ∧ passedBy ((under 3 1 1 base).barArrive 0 127) 0 = true
    ∧ ((under 3 2 1 base).barArrive 0 127).ctx.waits.bar = some (base.fr.pc, 0)
    ∧ passedBy ((under 3 2 1 base).barArrive 0 127) 0 = false
    ∧ (withCtx (fun c => { c with waits := { c.waits with bar := some (0, 0) } }) base).ctx.waits.bar = some (base.fr.pc, 0)
    ∧ (under 3 2 1 base).ctx.waits.bar = none ∧ (under 3 2 1 base).barrierTaken 0 127 = false := by decide +kernel

/-- Queue 0 enabled for every launch, with these messages; messages have 16 bytes, and the ring sixteen places. -/
def queue (onchip spilled : List QMsg) (getters : List (Nat × CtxNo)) (tmo : Word64) (s : State) : State :=
  (s.modHqueue 0 fun _ => ⟨0x80008410, 0x500000, tmo, 0, 0, onchip, spilled, 0, getters⟩).modSlot 0 fun l =>
    { l with info := { l.info with spillq := 1 } }
def msg : QMsg := ⟨List.replicate 16 7, [0], 0, 0⟩
def badMsg : QMsg := ⟨List.replicate 16 7, [0], 0, 2⟩
theorem test_meets_QueuePut :
    let s := queue [] [] [] 5 base
    let full := List.replicate 8 msg
    let ring := queue full (List.replicate 16 msg) [] 5 base
    s.queueCauses (s.rdS 1) (s.rdS 2) true = none
      ∧ s.sbConflict (s.spadAccess false [s.rdS 2] (s.hqueue 0).bytes) = false
      ∧ s.queueBlocked (s.hqueue 0) = none ∧ (s.hqueue 0).spilled = []
      ∧ (queue (full.take 7) [] [] 5 base).queueBlocked ((queue (full.take 7) [] [] 5 base).hqueue 0) = none
      ∧ (full.take 7).length < 8
      ∧ (queue full [] [] 5 base).queueBlocked ((queue full [] [] 5 base).hqueue 0) = none ∧ 8 ≤ full.length
      ∧ base.queueCauses (base.rdS 1) (base.rdS 2) true ≠ none
      ∧ ring.queueCauses (ring.rdS 1) (ring.rdS 2) true = none
      ∧ ring.sbConflict (ring.spadAccess false [ring.rdS 2] (ring.hqueue 0).bytes) = false
      ∧ ring.queueBlocked (ring.hqueue 0) = some 3
      ∧ (heldFor .qput 5 ring).ctx.waits.heldC = true ∧ 5 ≤ (heldFor .qput 5 ring).ctx.waits.cycles
      ∧ ((ring.hqueue 0).tmo.extractLsb' 0 32).toNat = 5 := by decide +kernel

theorem test_meets_QueueGet :
    let s := queue [msg] [] [] 5 base
    let line := queue [msg] [msg] [(0, 0), (4, 1)] 5 base
    let none_ := queue [] [] [] 5 base
    s.queueCauses (s.rdS 1) (s.rdS 2) false = none
      ∧ s.sbConflict (s.spadAccess true [s.rdS 2] (s.hqueue 0).bytes) = false
      ∧ (s.hqueue 0).onchip = [msg] ∧ (s.hqueue 0).getters = [] ∧ (s.hqueue 0).spilled = []
      ∧ good (s.spadTarget (s.rdS 2))
      ∧ line.queueCauses (line.rdS 1) (line.rdS 2) false = none
      ∧ line.sbConflict (line.spadAccess true [line.rdS 2] (line.hqueue 0).bytes) = false
      ∧ (line.hqueue 0).onchip = [msg] ∧ (line.hqueue 0).getters.head? = some (line.coreIx, line.fr.ctx)
      ∧ (line.hqueue 0).onchip.length ≤ 8 ∧ (line.hqueue 0).spilled = [msg]
      ∧ none_.queueCauses (none_.rdS 1) (none_.rdS 2) false = none
      ∧ none_.sbConflict (none_.spadAccess true [none_.rdS 2] (none_.hqueue 0).bytes) = false
      ∧ (none_.hqueue 0).onchip = [] ∧ none_.ctx.waits.heldC = false
      ∧ s.fr.deferred = [] ∧ (line.hqueue 0).slotAddr 0 + (line.hqueue 0).bytes ≤ hbmSize
      ∧ (heldFor .qget 5 none_).ctx.waits.heldC = true
      ∧ ((none_.hqueue 0).tmo.extractLsb' 0 32).toNat ≤ (heldFor .qget 5 none_).ctx.waits.cycles
      ∧ ((none_.hqueue 0).tmo.extractLsb' 0 32).toNat ≠ 0
      ∧ base.queueCauses (base.rdS 1) (base.rdS 2) false ≠ none := by decide +kernel
theorem test_meets_QueueGet_others :
    let behind := queue [msg] [] [(4, 1), (0, 0)] 5 base
    let spoilt := queue [badMsg] [] [] 5 base
    let far := (queue [msg] [msg] [] 5 base).modHqueue 0 fun h => { h with ring := BitVec.ofNat 64 (hbmSize - 8) }
    behind.queueCauses (behind.rdS 1) (behind.rdS 2) false = none ∧ (behind.hqueue 0).onchip ≠ []
      ∧ (behind.hqueue 0).getters ≠ [] ∧ (behind.hqueue 0).getters.head? ≠ some (behind.coreIx, behind.fr.ctx)
      ∧ behind.sbConflict (behind.spadAccess true [behind.rdS 2] (behind.hqueue 0).bytes) = false
      ∧ spoilt.queueCauses (spoilt.rdS 1) (spoilt.rdS 2) false = none ∧ (spoilt.hqueue 0).onchip = [badMsg] ∧ badMsg.bad ≠ 0
      ∧ hbmSize < (far.hqueue 0).slotAddr 0 + (far.hqueue 0).bytes ∧ (far.hqueue 0).spilled = [msg]
      ∧ base.spadTarget (base.rdS 2) = .ok (0, 0) ∧ msg.data.length ≤ 0xC0000 - (base.rdS 2).toNat % 0xC0000 := by
  decide +kernel

theorem test_meets_VectorIntegers : Ty.isInt .i8 ∧ tyBits .i8 ≤ 32 ∧ Ty.isInt .n32 ∧ tyBits .n32 ≤ 32 := by decide +kernel
theorem test_meets_VectorFolds : (⟨⟨1, 0, false⟩, 1, 2, false, .add, .f32⟩ : VFoldArgs).excl = false
    ∧ (⟨⟨1, 0, false⟩, 1, 2, true, .add, .i32⟩ : VFoldArgs).excl = true
    ∧ (base.activeLanes 1 0).getLsbD 15 = true ∧ (base.activeLanes 1 0).getLsbD 16 = false := by decide +kernel
theorem test_meets_VectorConversionsAndFunctions : ffmt .bf16 = some .bf16 ∧ ffmt .e4m3 = some .e4m3 := by decide +kernel
/-- Codes of FP32, BF16 and FP16: the largest finite number, the smallest subnormal, ±0, the infinity and both kinds of
NaN. -/
theorem test_meets_VectorFloats :
    finite .f32 0x7F7FFFFF ∧ finite .bf16 1 ∧ finite .f16 0x8000 ∧ ¬ finite .f32 0x7F800000
      ∧ codeNumber .bf16 (taken .bf16 1) = 0 ∧ codeNumber .f32 (taken .f32 1) ≠ 0
      ∧ some (FFmt.mag .f16 0xFC00) = FFmt.infCode .f16 ∧ FFmt.neg .f16 0xFC00 = true
      ∧ FFmt.isNaN .f32 0x7FC00000 = true ∧ FFmt.isSNaN .f32 0x7F800001 = true ∧ FFmt.isSNaN .f32 0x7FC00000 = false
      ∧ FFmt.infCode .e2m1 = none ∧ flushed .f16 0x3FF = true ∧ flushed .f16 0x400 = false ∧ flushed .f32 1 = false := by
  unfold finite
  decide +kernel
/-- 1 + 2^-24 is a tie to the even 1; 1 + 3 × 2^-24 goes up; 1 − 1 is +0, and −0 rounding down. -/
theorem test_float_sums : fadd .f32 false .rne 0 0x3F800000 0x33800000 = (0x3F800000, fINX)
    ∧ fadd .f32 false .rne 0 0x3F800000 0x34400000 = (0x3F800002, fINX)
    ∧ fadd .f32 true .rne 0 0x3F800000 0x3F800000 = (0, 0) ∧ fadd .f32 true .rdn 0 0x3F800000 0x3F800000 = (0x80000000, 0)
    ∧ fmul .f32 .rne 0 0x7F7FFFFF 0x40000000 = (0x7F800000, fOVF ||| fINX) := by decide +kernel
/-- Rounding is to nearest even, and sees the rest: the relation of the statements holds of 1 + 2^-24 and 1 + 3 × 2^-24. -/
theorem test_rounds_to : awayFromZero .rne 0 false 0x800001 (1/2) ∧ ¬ awayFromZero .rne 0 false 0x800000 (1/2)
    ∧ ¬ awayFromZero .rtz 0 false 1 (1/2) ∧ awayFromZero .rup 0 false 2 (1/8) ∧ awayFromZero .rdn 0 true 2 (1/8)
    ∧ ¬ awayFromZero .sr 0x80000000 false 2 (1/2) ∧ awayFromZero .sr 0x7FFFFF00 false 2 (1/2) := by
  unfold awayFromZero
  decide +kernel
/-- Operands of the conversions' and the special functions' cases. -/
theorem test_meets_Conversions : finite .f32 0x40490FDB ∧ codeNumber .f32 0xC0000000 = -2 ∧ codeNumber .f32 0x80000000 = 0
    ∧ (BitVec.ofNat 8 255).toInt = -1 ∧ codeNumber .f32 0x3F000000 = 1 / 2 ∧ codeNumber .f32 0x43000000 = 128
    ∧ codeNumber .f32 0xC3160001 < -150 ∧ twoTo 128 - twoTo 103 ≤ 1 / (codeNumber .f32 1).abs
    ∧ 1 / (codeNumber .f32 0x40400000).abs < twoTo 128 - twoTo 103 ∧ 91 ≤ 10 * (codeNumber .f32 0x4111999A).abs
    ∧ codeNumber .f32 0x42FE0000 = (127 : Int) ∧ codeNumber .f32 0xC3150000 = (-149 : Int)
    ∧ 2 * codeNumber .f32 0x40200000 = 2 * (2 : Int) + 1 := by
  unfold finite
  decide +kernel
theorem test_meets_DotProducts : (∀ x, x ∈ [0x38, 0xB8] → finite .e4m3 x) ∧ (∀ x, x ∈ [0x38, 0x38] → finite .e4m3 x)
    ∧ finite .f32 0x3F800000
    ∧ (([0x38, 0xB8].zip [0x38, 0x38]).map fun p => codeNumber .e4m3 p.1 * codeNumber .e4m3 p.2).sum + codeNumber .f32 0x3F800000 = 1
    ∧ (([0x38, 0xB8].zip [0x38, 0x38]).map fun p => codeNumber .e4m3 p.1 * codeNumber .e4m3 p.2).sum + codeNumber .f32 0 = 0 := by
  unfold finite
  decide +kernel
theorem test_meets_IndexElements : (15 : BitVec 4).toNat < 256 / 16 ∧ (7 : BitVec 4).toNat < 256 / 32 := by decide +kernel

/-- The pooled profile on a pod that supports it. -/
def pooled : State := base.modSlot 0 fun l => { l with info := { l.info with profile := true } }
def at16 : MArgs := ⟨5, ⟨1, 0, none⟩, .i16⟩
theorem test_meets_LocalScalarAccess : base.fr.judging = false ∧ base.launch.info.profile = false
    ∧ ((setS 1 0xBFFFE base).ea at16.m 2).toNat + 2 ≤ 0xC0000 ∧ ((setS 1 0xBFFFE base).ea at16.m 2).toNat % 2 = 0
    ∧ base.core.badWords = [] ∧ 0xC0000 ≤ ((setS 1 0xC0000 base).ea at16.m 2).toNat
    ∧ ((setS 1 0xBFFFD base).ea at16.m 2).toNat + 2 ≤ 0xC0000 ∧ ((setS 1 0xBFFFD base).ea at16.m 2).toNat % 2 ≠ 0
    ∧ base.spadCauses [0xBFFFE] 2 none true = none ∧ base.spadTarget 0xBFFFE = .ok (0, 0xBFFFE)
    ∧ pooled.spadCauses [0xBFFFE] 2 none true = none ∧ pooled.spadTarget 0xBFFFE = .ok (0, 0xBFFFE) := by decide +kernel

/-- The addresses of a vector access's active lanes. -/
def laneAddrsOf (s : State) (o : VMArgs) (unit stride : Nat) : List Word64 :=
  ((List.range 128).filter (s.activeLanes o.gm o.q).getLsbD).map (s.laneAddr (s.ea o.m unit) o.ofs stride)
def lanes32 : VMArgs := ⟨1, ⟨2, 0, none⟩, 1, 0, .none, .i32⟩
theorem lanes32_noPair : ∀ b, lanes32.ofs ≠ .pair b := nofun
theorem test_meets_LocalVectorLoads : base.fr.judging = false
    ∧ (setS 2 0xBFFC0 base).spadCauses (laneAddrsOf (setS 2 0xBFFC0 base) lanes32 4 4) 4 none true = none
    ∧ (setS 2 0xBFFC4 base).spadCauses (laneAddrsOf (setS 2 0xBFFC4 base) lanes32 4 4) 4 none true ≠ none
    ∧ (setS 2 0xBFFD0 base).spadCauses (laneAddrsOf (setS 2 0xBFFD0 base) lanes32 4 3) 3 (some 0xBFFD0) true = none
    ∧ (setS 2 0xBFFD0 base).ea lanes32.m 4 = 0xBFFD0
    ∧ (setS 2 0xBFFD4 base).spadCauses (laneAddrsOf (setS 2 0xBFFD4 base) lanes32 4 3) 3 (some 0xBFFD4) true ≠ none := by
  decide +kernel
theorem test_meets_LocalVectorStores : base.fr.judging = false
    ∧ (setS 2 0xBFFC0 base).spadCauses (laneAddrsOf (setS 2 0xBFFC0 base) lanes32 4 4) 4 none false = none
    ∧ (setS 2 0xBFFD0 base).spadCauses (laneAddrsOf (setS 2 0xBFFD0 base) lanes32 4 3) 3 (some 0xBFFD0) true = none := by
  decide +kernel

theorem test_meets_CommitChangesItsBytes :
    let s := withFr (fun f => { f with deferred := [.spad 0 0xBFFFC [1, 2, 3, 4]] }) base
    let a : Access := .store 0x4000020000 0 0 0x320000 false [1, 2]
    let t := withFr (fun f => { f with deferred := [.access 0 a] }) base
    Safety.stateOk s = true ∧ Safety.stateOk t = true ∧ t.mustFollow t.coreIx t.fr.ctx 0 a = false
      ∧ linesBad t 0x320000 2 = false := by decide +kernel
/-- Two scratchpad writes that overlap, and two stores to local memory whose second overlaps the first. -/
def deferredTwice : State := withFr (fun f => { f with deferred := [.spad 0 0xBFFFC [1, 2, 3, 4], .spad 0 0xBFFFD [9],
  .access 0 (.store 0x400002FFFC 0 0 0x32FFFC false [1, 2]), .access 1 (.store 0x400002FFFD 0 0 0x32FFFD false [5, 6])] }) base
theorem test_meets_CommitChangesItsBytes_list : Safety.stateOk deferredTwice = true
    ∧ (∀ d, d ∈ deferredTwice.fr.deferred → (∃ core off data, d = .spad core off data)
        ∨ ∃ n va m pa data, d = .access n (.store va 0 m pa false data) ∧ pa + data.length ≤ hbmSize
          ∧ linesBad deferredTwice pa data.length = false
          ∧ deferredTwice.mustFollow deferredTwice.coreIx deferredTwice.fr.ctx n (.store va 0 m pa false data) = false)
    ∧ lastByte [(0xBFFFC, [1, 2, 3, 4]), (0xBFFFD, [9])] 7 0xBFFFD = 9 ∧ lastByte [(0xBFFFC, [1, 2, 3, 4])] 7 0xC0000 = 7 := by
  refine ⟨by decide +kernel, ?_, by decide, by decide⟩
  intro d hd
  rcases List.mem_cons.1 hd with rfl | hd
  · exact .inl ⟨_, _, _, rfl⟩
  rcases List.mem_cons.1 hd with rfl | hd
  · exact .inl ⟨_, _, _, rfl⟩
  rcases List.mem_cons.1 hd with rfl | hd
  · exact .inr ⟨0, _, 0, _, _, rfl, by decide, by decide +kernel, by decide +kernel⟩
  rcases List.mem_cons.1 hd with rfl | hd
  · exact .inr ⟨1, _, 0, _, _, rfl, by decide, by decide +kernel, by decide +kernel⟩
  · cases hd

/-- Two members of a launch group, of which the second has a given module id. -/
def grouped (m : Nat) (s : State) : State := s.modHub fun h => { h with groups := [⟨0, [(5, []), (m, [])], [], [], [], 2, []⟩] }
def peer (rank off : Nat) : Word64 := 0x4000000000000000 + BitVec.ofNat 64 (rank * 2 ^ 32 + off)
theorem test_meets_PeerStores : base.peerTarget (peer 0 0xBFFFC) 0xBFFFC = .ok (.here 0)
    ∧ base.peerTarget (peer 0 0xBFFFC) 0xBFFFF = .ok (.here 0) ∧ (0xBFFFC : Int) % 4 = 0 := by decide +kernel
/-- Where the second member is another module, the peer address of its rank leads there. -/
theorem peerTarget_there (m : Nat) (off : Int) (h : m ≠ Config.rackPosition.val) (ho : ¬ (off < 0 ∨ (spadSize : Int) ≤ off))
    (hm : (grouped m (under 7 2 2 base)).moduleOf 0 1 = m) (hc : (grouped m (under 7 2 2 base)).coreOfRank 0 1 = none)
    (hl : (grouped m (under 7 2 2 base)).tree = ⟨0, 2, [1, 2, 1], [7, 6, 2]⟩) :
    (grouped m (under 7 2 2 base)).peerTarget (peer 1 0) off = .ok (.there m) := by
  have f : bits (peer 1 0) 62 2 = 1 ∧ bits (peer 1 0) 20 12 = 0 ∧ (peer 1 0).extractLsb' 56 6 = 0 ∧ bits (peer 1 0) 32 24 = 1 := by
    decide +kernel
  have l : (⟨0, 2, [1, 2, 1], [7, 6, 2]⟩ : Tree).levelOk (0#6) false = true ∧ (⟨0, 2, [1, 2, 1], [7, 6, 2]⟩ : Tree).size 0 = 2 := by
    decide +kernel
  unfold State.peerTarget
  simp only [f, hl]
  simp [l, hc, hm, h, ho]
theorem test_meets_PeerStores_far : (∃ m, (m = 6 ∨ m = 7) ∧ (grouped m (under 7 2 2 base)).peerTarget (peer 1 0) 0 = .ok (.there m)
    ∧ (grouped m (under 7 2 2 base)).peerTarget (peer 1 0) 3 = .ok (.there m)) := by
  by_cases h : 6 = Config.rackPosition.val
  · exact ⟨7, .inr rfl, peerTarget_there 7 0 (by omega) (by decide) (by decide +kernel) (by decide +kernel) (by decide +kernel),
      peerTarget_there 7 3 (by omega) (by decide) (by decide +kernel) (by decide +kernel) (by decide +kernel)⟩
  · exact ⟨6, .inl rfl, peerTarget_there 6 0 h (by decide) (by decide +kernel) (by decide +kernel) (by decide +kernel),
      peerTarget_there 6 3 h (by decide) (by decide +kernel) (by decide +kernel) (by decide +kernel)⟩

def at64 : MArgs := ⟨5, ⟨1, 0, none⟩, .i64⟩
def lastWord : Word64 := 0x400002FFF8
/-- Pages of modules 5 and 6, of which one at least is another module. -/
def far5 : State := map 0 0xC828E00000000032 base
def far6 : State := map 0 0xC830E00000000032 base
theorem test_meets_far : (5 : Nat) ≠ Config.rackPosition.val ∨ (6 : Nat) ≠ Config.rackPosition.val := by omega
def lineOf : Line := ⟨0, 0x400002FF80, none, 0x32FF80, List.replicate 128 3, BitVec.allOnes 128, 0, 0⟩
def cachedLine : State := cachedPage.modCore fun k => { k with lines := [lineOf] }
def loadOf (tgt : BitVec 3) (m pa : Nat) (cached acq : Bool) : Access :=
  .load ⟨0, [(0, 0, 64, 0)], 8, true, lastWord.toNat, tgt, m, pa, cached, acq⟩
theorem test_meets_GlobalLoads : base.fr.judging = false ∧ base.fr.verdict = .proceed ∧ base.ctx.nextId = 0
    ∧ (setS 1 lastWord base).ea at64.m 8 = lastWord ∧ base.ctx.pend = []
    ∧ base.globCauses [0x4000020000] 8 .read ≠ none ∧ uncached.globCauses [lastWord] 8 .read = none
    ∧ uncached.translate lastWord .read = .ok 0 0 0x32FFF8 true ∧ uncached.hbmBad 0x32FFF8 8 = false
    ∧ uncached.mustFollow uncached.coreIx uncached.fr.ctx uncached.fabric.next (loadOf 0 0 0x32FFF8 false false) = false
    ∧ cachedLine.globCauses [lastWord] 8 .read = none
    ∧ cachedLine.translate lastWord .read = .ok 0 0 0x32FFF8 false
    ∧ cachedLine.core.lineAt cachedLine.ctx.bind.lslot lastWord.toNat = some lineOf
    ∧ lineOf.has (lastWord.toNat % 128) 8 = true
    ∧ cachedLine.mustFollow cachedLine.coreIx cachedLine.fr.ctx cachedLine.fabric.next (loadOf 0 0 0x32FFF8 true false) = false
    ∧ lineOf.bad = 0 ∧ (0x32FFF8 : Nat) + 8 ≤ hbmSize ∧ uncached.fabric.reqs = []
    ∧ far5.globCauses [lastWord] 8 .read = none ∧ far5.translate lastWord .read = .ok 1 5 0x32FFF8 true
    ∧ far5.mustFollow far5.coreIx far5.fr.ctx far5.fabric.next (loadOf 1 5 0x32FFF8 false false) = false
    ∧ far6.globCauses [lastWord] 8 .read = none ∧ far6.translate lastWord .read = .ok 1 6 0x32FFF8 true
    ∧ far6.mustFollow far6.coreIx far6.fr.ctx far6.fabric.next (loadOf 1 6 0x32FFF8 false false) = false
    ∧ uncached.core.lines = [] ∧ uncached.mustFollow uncached.coreIx uncached.fr.ctx uncached.fabric.next (loadOf 0 0 0x32FFF8 false true) = false := by
  decide +kernel

theorem test_meets_GlobalLoads_miss : cachedPage.globCauses [lastWord] 8 .read = none
    ∧ cachedPage.translate lastWord .read = .ok 0 0 0x32FFF8 false
    ∧ cachedPage.core.lineAt cachedPage.ctx.bind.lslot lastWord.toNat = none ∧ cachedPage.core.lines.length < 512
    ∧ linesBad cachedPage 0x32FFF8 8 = false ∧ 0x32FFF8 % 128 = lastWord.toNat % 128
    ∧ cachedPage.mustFollow cachedPage.coreIx cachedPage.fr.ctx cachedPage.fabric.next (loadOf 0 0 0x32FFF8 true false) = false
    ∧ cachedPage.fabric.reqs = [] ∧ cachedPage.fr.judging = false ∧ cachedPage.ctx.pend = [] := by decide +kernel
def lanes64 : VMArgs := ⟨1, ⟨2, 0, none⟩, 1, 0, .pair 3, .i64⟩
theorem test_meets_GlobalVectorLoads_pair :
    let s := setS 2 0x400002FF80 uncached
    laneWidth .i64 = 8 ∧ s.globCauses (laneAddrsOf s lanes64 8 8) 8 .read = none ∧ laneAddrsOf s lanes64 8 8 ≠ []
      ∧ ∀ p, p ∈ (List.range 128).filter (s.activeLanes 1 0).getLsbD →
        s.translate (s.laneAddr (s.ea lanes64.m 8) lanes64.ofs 8 p) .read = .ok 0 0 (0x32FF80 + 8 * p) true
          ∧ s.hbmBad (0x32FF80 + 8 * p) 8 = false := by decide +kernel
theorem test_meets_GlobalVectorLoads :
    let s := setS 2 0x400002FFC0 uncached
    let none_ : VMArgs := { lanes32 with gm := 1, q := 1 }
    s.fr.judging = false ∧ s.fr.verdict = .proceed
      ∧ base.globCauses [0x4000020000] 4 .read ≠ none
      ∧ laneAddrsOf s none_ 4 4 = [] ∧ s.globCauses [] 4 .read = none
      ∧ s.globCauses (laneAddrsOf s lanes32 4 4) 4 .read = none ∧ laneAddrsOf s lanes32 4 4 ≠ [] ∧ s.fabric.reqs = []
      ∧ s.ctx.fences = [] ∧ s.ctx.acquires = [] ∧ s.ctx.behind = [] ∧ s.ctx.releases = [] ∧ s.ctx.pend = []
      ∧ ∀ p, p ∈ (List.range 128).filter (s.activeLanes 1 0).getLsbD →
        s.translate (s.laneAddr (s.ea lanes32.m 4) .none 4 p) .read = .ok 0 0 (0x32FFC0 + 4 * p) true
          ∧ s.hbmBad (0x32FFC0 + 4 * p) 4 = false := by decide +kernel

theorem test_meets_GlobalStores :
    let s := setS 2 0x400002FFC0 uncached
    s.fr.judging = false ∧ s.fr.verdict = .proceed ∧ base.globCauses [lastWord] 8 .write ≠ none
      ∧ s.globCauses [lastWord] 8 .write = none ∧ s.translate lastWord .write = .ok 0 0 0x32FFF8 true
      ∧ cachedPage.translate lastWord .write = .ok 0 0 0x32FFF8 false
      ∧ (setS 2 0x400002FFC4 uncached).globCauses (laneAddrsOf (setS 2 0x400002FFC4 uncached) lanes32 4 4) 4 .write ≠ none
      ∧ s.globCauses (laneAddrsOf s lanes32 4 4) 4 .write = none := by decide +kernel

theorem test_meets_Atomics :
    let s := withCtx (fun c => { c with pend := [⟨7, [(.s 5, 0)], true, none, 1, 0, false, 0⟩] }) uncached
    base.fr.judging = false ∧ base.fr.verdict = .proceed ∧ base.globCauses [lastWord] 8 .atomic ≠ none
      ∧ uncached.globCauses [lastWord] 8 .atomic = none
      ∧ uncached.translate lastWord .atomic = .ok 0 0 0x32FFF8 true
      ∧ Safety.stateOk s = true ∧ linesBad s 0x32FFF8 8 = false ∧ s.core.lines = [] ∧ lineOf.dirty = 0
      ∧ cachedLine.core.lines = [lineOf] ∧ lineOf.va = lastWord.toNat / 128 * 128
      ∧ s.ctx.pend.map (fun q => (q.id, q.parts)) = [(7, [(.s 5, 0)])] := by decide +kernel

theorem test_meets_FencesAndLineInvalidation : base.tree.levelOk 0 true = true ∧ base.tree.levelOk 63 true = true
    ∧ base.tree.levelOk 1 true = false ∧ (base.rdS 3).toNat = 0 ∧ ((setS 3 1 base).rdS 3).toNat ≠ 0 := by decide +kernel

theorem test_meets_Atomics_types : (∀ op, atomicTakes op .i64) ∧ atomicTakes .add .bf16 ∧ atomicTakes .max .f32 := by
  unfold atomicTakes
  exact ⟨fun _ => .inr (.inl rfl), by decide, by decide⟩
/-- FP32: 1 + 1; the halves of a BF16 pair, 1 + 1 and −1 + 1; the larger of −0 and +0. -/
theorem test_float_atomics : atomicNew .add .f32 0x3F800000#32 0x3F800000 0 = 0x40000000
    ∧ atomicNew .add .bf16 0xBF803F80#32 0x3F803F80 0 = 0x00004000
    ∧ atomicNew .max .f32 0x80000000#32 0 0 = 0 ∧ atomicNew .min .f32 0x80000000#32 0 0 = 0x80000000 := by decide +kernel

def armed (cause : Option Nat) : WaitRec := ⟨false, .spad 0 0xBFFFC, 4, cause, 0, 0⟩
def watching (cause : Option Nat) : State :=
  withCtx (fun c => { c with waits := { c.waits with waita := [armed cause] } }) (setS 1 0xBFFFC base)
theorem test_meets_WaitForWord : base.fr.judging = false
    ∧ bad (base.watchTarget 0xC0000 4 false) ∧ base.watchTarget 0xBFFFC 4 false = .ok (.spad 0 0xBFFFC)
    ∧ (setS 1 0xBFFFC base).ea ⟨1, 0, none⟩ 4 = 0xBFFFC ∧ base.ctx.waits.waita = []
    ∧ littleEndian (readBytes (base.coreAt 0).spad 0xBFFFC 4) ≠ ((setS 5 1 base).rdS 5).toNat % 2 ^ 32
    ∧ littleEndian (readBytes (base.coreAt 0).spad 0xBFFFC 4) = (base.rdS 5).toNat % 2 ^ 32
    ∧ (watching none).watchTarget 0xBFFFC 4 false = .ok (.spad 0 0xBFFFC)
    ∧ (watching none).ctx.waits.waita.find? (fun r => r.m1 == (base.fr.slot == 7)) = some (armed none)
    ∧ (watching (some 2)).watchTarget 0xBFFFC 4 false = .ok (.spad 0 0xBFFFC)
    ∧ (watching (some 2)).ctx.waits.waita.find? (fun r => r.m1 == (base.fr.slot == 7)) = some (armed (some 2)) := by
  decide +kernel

theorem test_meets_BlockCommands :
    let s := setS 1 0xBFFA0 base
    base.fr.judging = false ∧ s.blockChecks (s.rdS 1) 96 true 2 4 = none ∧ s.blockChecks (s.rdS 1) 96 true 3 32 = none
      ∧ (setS 1 0xBFFB0 base).blockChecks ((setS 1 0xBFFB0 base).rdS 1) 96 true 2 4 ≠ none
      ∧ base.tree.levelOk 0 false = true ∧ base.tree.levelOk 63 false = false
      ∧ base.launch.info.profile = false ∧ base.core.badWords = [] := by decide +kernel

/-- Parameter register 4 names a completion word. -/
def withWord (x : Word64) : State := withCtx (fun c => { c with regs := c.regs.land (.m 4) (x.setWidth 512) }) base
def wordOf (p : Word64) : Word64 := (0#42 ++ p.extractLsb' 34 2) ++ p.extractLsb' 0 20
theorem test_meets_MatrixCommands : base.fr.judging = false ∧ (base.rdM 4).getLsbD 20 = false
    ∧ (withWord 0x1BFFFC).rdM 4 = 0x1BFFFC ∧ (0x1BFFFC : Word64).getLsbD 20 = true
    ∧ good ((withWord 0x1BFFFC).inSpace (wordOf 0x1BFFFC) 4) ∧ wordOf 0x1BFFFC % 4 = 0
    ∧ (withWord 0x1C0000).rdM 4 = 0x1C0000 ∧ bad ((withWord 0x1C0000).inSpace (wordOf 0x1C0000) 4)
    ∧ (withWord 0x1BFFF9).rdM 4 = 0x1BFFF9 ∧ good ((withWord 0x1BFFF9).inSpace (wordOf 0x1BFFF9) 4)
    ∧ wordOf 0x1BFFF9 % 4 ≠ 0
    ∧ good ((setS 1 0xBFFC0 base).inSpace 0xBFFC0 64) ∧ (0xBFFC0 : Word64) % 64 = 0
    ∧ bad ((setS 1 0xC0000 base).inSpace 0xC0000 64)
    ∧ good ((setS 1 0xBFFBF base).inSpace 0xBFFBF 64) ∧ (0xBFFBF : Word64) % 64 ≠ 0
    ∧ base.tree.levelOk 1 false = false ∧ base.tree.levelOk 0 false = true ∧ base.loadingGraph 3 = false
    ∧ base.graphNetOk none = true := by decide +kernel

/-- A reduction in a graph of a level whose participants share a module. -/
def reducing : Graph := ⟨0, 1, 0, [⟨2, 0, [], 0, 0, 0, false, 0, 0, 0, 0, false, 4, 0, 0⟩]⟩
/-- A graph whose own level the launch's tree does not have. -/
theorem test_meets_MatrixCommands_level :
    let s := base.modCore fun k => { k with graphs := k.graphs.set 3 (some { reducing with level := 9 }) }
    s.tree.levelOk 0 false = true ∧ s.tree.levelOk 9 false = false ∧ s.loadingGraph 3 = false
      ∧ s.core.graphs.get (ix4 ((3 : BitVec 2).setWidth 6)) = some { reducing with level := 9 } := by decide +kernel
theorem test_meets_MatrixCommands_graph :
    let s := (under 3 2 1 base).modCore fun k => { k with graphs := k.graphs.set 3 (some reducing) }
    s.tree.levelOk 0 false = true ∧ s.loadingGraph 3 = false
      ∧ s.graphNetOk (s.core.graphs.get (ix4 ((3 : BitVec 2).setWidth 6))) = false := by decide +kernel

def flowCmd : Cmd := { cmd .flowset .queued with args := [0xFFFF02] }
theorem test_meets_CommandStart : (onMatrix [flowCmd] base).startable .matrix 0 = some flowCmd
    ∧ (onMatrix [flowCmd] base).stopped 0 = false ∧ flowCmd.op.engine = .matrix ∧ flowCmd.op ≠ .cgrun
    ∧ (onMatrix [cmd .mcall .queued] base).startable .matrix 0 = some (cmd .mcall .queued)
    ∧ (cmd .mcall .queued).routine.started = false ∧ base.startable .matrix 0 = none
    ∧ (withCtx (fun c => { c with state := .preempted }) base).stopped 0 = true := by decide +kernel

/-- A bundle that is being judged, with queues that are full, a command that writes the block's first bytes, and a graph
that is being loaded. -/
def judging (s : State) : State := withFr (fun f => { f with judging := true }) s
def eight (op : CmdOp) : List Cmd := List.replicate 8 (cmd op .queued)
def rowBlock (src dst : Nat) : List Byte := List.replicate 12 0 ++ List.replicate 4 0xFF ++ natToBytes 8 src
  ++ natToBytes 8 dst ++ natToBytes 4 1 ++ natToBytes 4 16 ++ List.replicate 8 0 ++ [1, 0] ++ List.replicate 14 0
def copyTo (dst : Nat) : Cmd := { cmd .xcopy .running with block := rowBlock 0 dst }
theorem test_meets_FullQueuesFreeze :
    let s := judging (setS 1 0xBFFA0 base)
    s.blockChecks (s.rdS 1) 32 true 2 4 = none ∧ s.sbConflict (s.spadAccess false [s.rdS 1] 32) = false
      ∧ ((onCopy (eight .xcopy) s).queueOf .copy).length = 8
      ∧ ((onFabric (eight .repart) s).queueOf .fabric).length = 8
      ∧ ((onText (List.replicate 64 (cmd .txtEnc .queued)) s).queueOf .text).length = 64
      ∧ (((onText (List.replicate 64 (cmd .txtEnc .suspended)) s).queueOf .text).filter fun m => m.run != .suspended) = []
      ∧ good (s.inSpace (s.rdS 1) 32)
      ∧ (onCopy [copyTo 0xBFFA0] s).sbConflict ((onCopy [copyTo 0xBFFA0] s).spadAccess false [s.rdS 1] 32) = true
      ∧ s.tree.levelOk 0 false = true := by decide +kernel
theorem test_meets_MatrixQueuesFreeze :
    let s := judging (setS 1 0xBFFC0 base)
    (s.rdM 4).getLsbD 20 = false ∧ good (s.inSpace (s.rdS 1) 64) ∧ s.rdS 1 % 64 = 0
      ∧ ((onMatrix (eight .flowset) s).queueOf .matrix).length = 8 ∧ (s.queueOf .matrix).length = 0
      ∧ s.tree.levelOk 0 false = true ∧ s.loadingGraph 3 = false ∧ s.graphNetOk none = true
      ∧ (onFabric [{ cmd .cgload .queued with graph := 3 }] s).loadingGraph 3 = true
      ∧ s.blockChecks (s.rdS 1) 16 true 2 4 = none := by decide +kernel

/-- What distinguishes commands in a queue, in order. -/
def ids (l : List Cmd) : List Nat := l.map Cmd.id

def nestBlock : List Byte := [0, 0, 0, 0, 1, 1, 0, 0, 0, 0, 1, 0] ++ List.replicate 36 0
/-- XCOPY of one row of 16 bytes from 0xBFFF0 to 0xBFFE0. -/
def copyBlock : List Byte := rowBlock 0xBFFF0 0xBFFE0
def running (m : Cmd) : Cmd := { m with run := .running }
def copyCmd : Cmd := { cmd .xcopy .running with block := copyBlock }
def nestCmd : Cmd := { cmd .xwin .running with block := nestBlock }
theorem test_meets_CommandStart_regions :
    let m : Cmd := { copyCmd with run := .queued }
    let s := onCopy [m] base
    s.startable .copy 0 = some m ∧ ids (s.commands s.coreIx) = [m.id] ∧ s.heldRegions m ≠ [] := by decide +kernel
theorem test_meets_CommandFinished :
    let s := onMatrix [running flowCmd] base
    let d := { running flowCmd with dying := true }
    let x := onMatrix [nestCmd] base
    let y := onCopy [copyCmd] base
    Safety.stateOk s = true ∧ base.runningCmd .matrix 0 = none
      ∧ (onMatrix [d] base).runningCmd .matrix 0 = some d ∧ d.op.engine = .matrix ∧ d.dying = true
      ∧ s.runningCmd .matrix 0 = some (running flowCmd) ∧ (running flowCmd).dying = false
      ∧ (withCtx (fun c => { c with state := .preempted }) s).stopped 0 = true ∧ s.stopped 0 = false
      ∧ (0xFFFF02 : Word64) &&& 0xFFFFFFFFFF0000FC = 0
      ∧ Safety.stateOk x = true ∧ x.runningCmd .matrix 0 = some nestCmd ∧ nestOk nestCmd.block = true
      ∧ Safety.stateOk y = true ∧ y.runningCmd .copy 0 = some copyCmd ∧ copyCmd.op.engine = .copy ∧ copyCmd.prog = 0
      ∧ copyCmd.headerOk = true ∧ copyCmd.spare [(50, 14)] = true ∧ copyCmd.f 32 4 = 1 ∧ copyCmd.f 48 1 = 1
      ∧ copyCmd.f 49 1 = 0 ∧ y.core.badWords = [] ∧ (y.lslot (y.ctxAt 0).bind.lslot).info.profile = false
      ∧ copyCmd.completionWord = none ∧ copyCmd.f 36 4 = 16 ∧ copyCmd.f 16 8 + 16 ≤ 0xC0000
      ∧ copyCmd.f 24 8 + 16 ≤ copyCmd.f 16 8 := by decide +kernel

/-! Commands from their first unit: blocks, and the memories they find. -/

def hdr (w stat : Nat) : List Byte := natToBytes 4 w ++ List.replicate 8 0 ++ natToBytes 4 stat
def noStat : Nat := 0xFFFFFFFF
def unitOf (op : CmdOp) (block : List Byte) : Cmd := { cmd op .running with block := block }
/-- A core whose scratchpad, and a page of cached memory at 0x4000020000, hold some bytes. -/
def holding (spad : List (Nat × List Byte)) (page : List (Nat × List Byte)) : State :=
  let s : State := { cachedPage with hbm := page.foldl (fun h p => writeBytes h (0x320000 + p.1) p.2) cachedPage.hbm }
  s.modCore fun k => { k with spad := spad.foldl (fun h p => writeBytes h p.1 p.2) k.spad }

/-- What the statements ask of a page that is read, on numerals. -/
def pageHolds (u : State) (va n pa : Nat) (data : List Byte) : Bool :=
  decide (va % 65536 + n ≤ 65536 ∧ u.translate (BitVec.ofNat 64 va) .read = .ok 0 0 pa false ∧ pa + n ≤ hbmSize
    ∧ u.hbmBad pa n = false ∧ data = u.readHbm pa n)
theorem pageReads_of {u : State} {va n pa : Nat} {data : List Byte} (h : pageHolds u va n pa data = true) :
    pageReads u va n data := by
  obtain ⟨a, b, c, d, e⟩ := of_decide_eq_true h
  exact .inr ⟨a, 0, 0, pa, false, b, rfl, c, d, e⟩

def tileBlock (w : Nat) : List Byte := hdr w noStat ++ natToBytes 4 0xBFF04 ++ natToBytes 4 4 ++ [193, 255]
  ++ natToBytes 2 63 ++ natToBytes 2 1 ++ [0, 0]
theorem test_meets_TileCopies :
    let m := unitOf .tsld (tileBlock 0)
    let n := unitOf .tsst (tileBlock 0)
    runsFrom (onCopy [m] base) 0 m ∧ runsFrom (onCopy [n] base) 0 n ∧ m.headerOk = true ∧ m.spare [(30, 2)] = true
      ∧ m.f 16 4 = 0xBFF04 ∧ m.f 20 4 = 4 ∧ m.f 24 1 = 193 ∧ m.f 25 1 = 255 ∧ m.f 26 2 = 63 ∧ m.f 28 2 = 1
      ∧ base.core.badTile = [] := by
  unfold runsFrom
  decide +kernel
theorem test_meets_ReservedHeaderBits :
    let m := unitOf .tsld (tileBlock (2 ^ 22))
    let x := unitOf .txtMask (hdr (2 ^ 31 - 1) noStat ++ List.replicate 32 0)
    runsFrom (onCopy [m] base) 0 m ∧ m.f 0 4 % 2 ^ 31 = 2 ^ 22 ∧ runsFrom (onText [x] base) 0 x
      ∧ (base.ctxAt 0).state ≠ .idle := by
  unfold runsFrom
  decide +kernel

def gatherBlock (stat nidx : Nat) : List Byte := hdr 0 stat ++ natToBytes 8 0 ++ natToBytes 8 0x100 ++ natToBytes 8 0xBFF04
  ++ natToBytes 4 1 ++ natToBytes 4 nidx ++ natToBytes 4 4 ++ natToBytes 4 4 ++ natToBytes 4 4 ++ natToBytes 4 0
theorem test_meets_Gathers :
    let m := unitOf .xgather (gatherBlock 0x80 63)
    let s := onCopy [m] (holding [(0x104, [1])] [])
    runsFrom s 0 m ∧ m.headerOk = true ∧ m.spare [(60, 4)] = true ∧ m.f 44 4 = 63 ∧ m.f 48 4 = 4 ∧ m.f 52 4 = 4
      ∧ m.f 16 8 + (m.f 40 4 - 1) * m.f 56 4 + 4 ≤ 0xC0000 ∧ m.f 32 8 + (62 * 4 + 4) = 0xC0000
      ∧ m.f 24 8 + 4 * 63 ≤ m.f 32 8 ∧ statApart m 0xBFF04 252 4 ∧ m.f 12 4 ≠ noStat
      ∧ spadWord s 0x100 = 0 ∧ spadWord s 0x104 = 1 := by
  unfold runsFrom statApart
  decide +kernel

def poolBlock (mode : Nat) : List Byte := hdr 0 noStat ++ natToBytes 8 (0xC0 * 2 ^ 56 + 0x4000020000) ++ natToBytes 8 0x200
  ++ natToBytes 8 0x100 ++ natToBytes 8 0 ++ natToBytes 8 0xBFFFC ++ natToBytes 4 1 ++ natToBytes 4 1 ++ natToBytes 2 1 ++ [8]
  ++ natToBytes 1 mode ++ List.replicate 12 0
def oneRow : Nat → List Byte := fun _ => natToBytes 4 0x3F800000
theorem test_meets_PoolsBag :
    let m := unitOf .embpool (poolBlock 3)
    let s := onCopy [m] (holding [(0x104, [2]), (0x204, [1])] [(0, natToBytes 4 0x3F800000)])
    runsFrom s 0 m ∧ m.headerOk = true ∧ m.spare [(68, 12)] = true ∧ m.f 16 8 / 2 ^ 56 = 0xC0 ∧ m.f 60 4 = 1 ∧ m.f 64 2 = 1
      ∧ m.f 66 1 = 8 ∧ m.f 67 1 = 3 ∧ m.f 48 8 + 4 * m.f 64 2 = 0xC0000 ∧ spadWord s (m.f 32 8) = 0
      ∧ spadWord s (m.f 32 8 + 4) = 2 ∧ spadWord s (m.f 24 8) = 0 ∧ spadWord s (m.f 24 8 + 4) = 1 ∧ m.f 56 4 = 1
      ∧ pageHolds (s.forCmd m) (m.f 16 8 % 2 ^ 56 + 0 * 1 * 4) (1 * 4) 0x320000 (oneRow 0) = true
      ∧ finite .f32 0x3F800000 ∧ codeNumber .f32 0x3F800000 ≠ 0 := by
  unfold runsFrom finite
  decide +kernel

def cvtBlock (cap : Nat) : List Byte := hdr 0 noStat ++ natToBytes 8 0 ++ natToBytes 8 0x100 ++ natToBytes 8 0x200
  ++ natToBytes 8 0x300 ++ natToBytes 4 1 ++ natToBytes 4 2 ++ natToBytes 4 8 ++ natToBytes 4 cap ++ [8] ++ List.replicate 15 0
theorem test_meets_Compresses :
    let m := unitOf .xcvt (cvtBlock 1)
    let n := unitOf .xcvt (cvtBlock 0)
    let h := holding [(0, natToBytes 4 0x3F800000), (4, natToBytes 4 0x80000000)] []
    runsFrom (onCopy [m] h) 0 m ∧ runsFrom (onCopy [n] h) 0 n ∧ m.headerOk = true ∧ m.spare [(65, 15)] = true ∧ m.f 60 4 = 1
      ∧ n.f 60 4 = 0 ∧ m.f 64 1 = 8 ∧ m.f 48 4 = 1 ∧ m.f 52 4 = 2
      ∧ littleEndian (readBytes h.core.spad 0 4) % 2 ^ 31 ≠ 0 ∧ littleEndian (readBytes h.core.spad 4 4) % 2 ^ 31 = 0 := by
  unfold runsFrom
  decide +kernel

theorem test_meets_LoadsPrograms :
    let m (a f n : Word64) : Cmd := { cmd .cellld .running with args := [a, f, n] }
    let s := onMatrix [m 0xBFFC0 127 1] (holding [(0xBFFC0, natToBytes 4 0x800)] [])
    let ws := (List.range 16).map fun i => BitVec.ofNat 32 (spadWord s (0xBFFC0 + 4 * i))
    runsFrom s 0 (m 0xBFFC0 127 1) ∧ progRefusal ws = none ∧ runsFrom (onMatrix [m 0xBFFC0 128 0] s) 0 (m 0xBFFC0 128 0)
      ∧ progRefusal ((List.range 16).map fun i => BitVec.ofNat 32 (spadWord base (0 + 4 * i))) = some 1
      ∧ (base.ctxAt 0).state ≠ .idle := by
  unfold runsFrom
  decide +kernel

/-- MCALL of one row and one column of a slot, with m6 naming the last tile word. -/
def callOf (slot : Nat) : Cmd := { cmd .mcall .running with
  args := [1, 1, 1], params := [0, 0, 0, 0, 0, 0, 0xFFFF, 0], slot := BitVec.ofNat 8 slot }
def otherRows : Cmd := { callOf 62 with pod := true, core := 0, args := [128, 1, 1] }
theorem test_meets_MatrixCommandsFinish :
    let f : Cmd := { cmd .flowset .running with args := [4] }
    let w := unitOf .xwin (List.replicate 48 0xFF)
    let s (m : Cmd) : State := withCtx (fun c => { c with ctrl := { c.ctrl with fmtb := 0x4000020000 } })
      (onMatrix [m] cachedPage)
    runsFrom (s f) 0 f ∧ (4 : Word64) &&& 0xFFFFFFFFFF0000FC ≠ 0 ∧ runsFrom (s w) 0 w ∧ nestOk w.block = false
      ∧ runsFrom (s (callOf 64)) 0 (callOf 64) ∧ ((s (callOf 64)).forCmd (callOf 64)).mcallRefusal (callOf 64) = some 14
      ∧ runsFrom (s (callOf 62)) 0 (callOf 62) ∧ ((s (callOf 62)).forCmd (callOf 62)).mcallRefusal (callOf 62) = none
      ∧ (callOf 62).rows = 1 ∧ (callOf 62).cols = 1 ∧ nbits ((callOf 62).par 6) 8 8 = 255 ∧ nbits ((callOf 62).par 6) 0 8 = 255
      ∧ pageHolds ((s (callOf 62)).forCmd (callOf 62)) (0x4000020000 + 8 * (callOf 62).fmtIx) 8 0x320000 (List.replicate 8 0) = true
      ∧ (((s (callOf 62)).ctxAt 0).ctrl.fmtb).toNat = 0x4000020000 := by
  unfold runsFrom
  decide +kernel
/-- On the second core of the pod a routine of 128 rows has none: there the context's command has nothing to do. -/
theorem test_meets_MatrixCommandsFinish_rows : ({ otherRows with core := 1 } : Cmd).rows = 0 ∧ otherRows.rows = 128 := by decide

def loadBlock : List Byte := hdr 0 noStat ++ natToBytes 8 0x4000020000 ++ List.replicate 8 0
def graphBytes (w nop : Nat) : List Byte := natToBytes 8 w ++ List.replicate 24 0 ++ natToBytes 8 nop ++ List.replicate 24 0
def loading (w nop : Nat) : State := onFabric [unitOf .cgload loadBlock] (holding [] [(0, graphBytes w nop)])
def graphParts (w nop : Nat) : Bool :=
  pageHolds ((loading w nop).forCmd (unitOf .cgload loadBlock)) 0x4000020000 32 0x320000 ((graphBytes w nop).take 32)
    && pageHolds ((loading w nop).forCmd (unitOf .cgload loadBlock)) (0x4000020000 + 32) 32 0x320020 ((graphBytes w nop).drop 32)
theorem test_meets_LoadsGraph :
    let m := unitOf .cgload loadBlock
    let good := 2 ^ 48 + 2 ^ 24
    let nop := 3 * 2 ^ 60
    (∀ p, p ∈ [(good, nop), (0, nop), (2 ^ 48, nop), (good, nop + 2 ^ 48)] →
        runsFrom (loading p.1 p.2) 0 m ∧ graphParts p.1 p.2 = true ∧ (loading p.1 p.2).core.printing m.graph = false)
      ∧ m.headerOk = true ∧ m.spare [(24, 8)] = true ∧ m.f 16 8 = 0x4000020000
      ∧ graphRefusal ((graphBytes good nop).take 32) [(graphBytes good nop).drop 32] = none
      ∧ graphRefusal ((graphBytes good nop).take 32) [(graphBytes good (nop + 2 ^ 48)).drop 32] = some 6
      ∧ fieldOf (graphBytes good nop) 0 8 / 2 ^ 48 = 1 ∧ fieldOf (graphBytes (2 ^ 48) nop) 0 8 / 2 ^ 24 % 2 ^ 9 = 0
      ∧ (base.ctxAt 0).state ≠ .idle := by
  unfold runsFrom
  decide +kernel

/-! Exchanges: of two participants of which one has not declared, and of one. -/

def dispBlock : List Byte := hdr 0 noStat ++ natToBytes 8 0x4000020000 ++ natToBytes 8 0x4000020100 ++ natToBytes 8 0x4000020200
  ++ natToBytes 8 0x4000020300 ++ natToBytes 8 0x4000020400 ++ natToBytes 8 0x4000020500 ++ natToBytes 4 1 ++ natToBytes 4 1
  ++ natToBytes 4 4 ++ natToBytes 4 1 ++ [1, 1] ++ List.replicate 14 0
def combBlock : List Byte := hdr 0 noStat ++ natToBytes 8 0x4000020000 ++ natToBytes 8 0x4000020100 ++ natToBytes 8 0x4000020700
  ++ natToBytes 8 0x4000020300 ++ natToBytes 8 0x4000020400 ++ natToBytes 8 0x4000020500 ++ natToBytes 8 0x4000020600
  ++ natToBytes 4 1 ++ natToBytes 4 1 ++ natToBytes 4 4 ++ natToBytes 4 1 ++ [1, 1] ++ List.replicate 6 0
def repartBlock (n : Nat) : List Byte := hdr 0 0xBFFE0 ++ natToBytes 8 0x4000020000 ++ natToBytes 8 0x4000021000
  ++ natToBytes 8 0x4000022000 ++ natToBytes 4 n ++ natToBytes 4 1 ++ natToBytes 4 1 ++ natToBytes 2 16 ++ natToBytes 2 0
  ++ natToBytes 2 0xFFFF ++ [2, 0] ++ List.replicate 4 0
def oneOf (op : CmdOp) (block : List Byte) : State := onFabric [unitOf op block]
  (holding [] [(0, [7, 0, 0, 0]), (0x200, natToBytes 4 (2 ^ 24)), (0x700, [1])])
def twoOf (m : Cmd) : State := onFabric [m] ((under 3 2 1 (map 0 0xC000C00000000032 base)).modCtxAt 1 fun c =>
  { c with state := .ready, bind := { (under 3 2 1 base).ctx.bind with coords := [0, 1] } })
theorem test_meets_ExchangesWait : ∀ m, m ∈ [unitOf .a2aDisp dispBlock, unitOf .a2aComb combBlock, unitOf .repart (repartBlock 1)] →
    let s := twoOf m
    runsFrom s 0 m ∧ (s.forCmd m).tree.modules ≤ 1 ∧ 1 < (s.forCmd m).tree.size m.level.toNat
      ∧ (s.forCmd m).nodeCtx (s.ctxAt 0).bind.lslot m.level.toNat ((s.forCmd m).nodeAt m.level.toNat) 1 = some (0, 1)
      ∧ (s.forCmd m).declared 0 1 m.op m.level = none
      ∧ ((m.op = .a2aDisp ∧ m.dispFields = true) ∨ (m.op = .a2aComb ∧ m.combFields = true)
        ∨ (m.op = .repart ∧ m.repartFields = true ∧ m.repartOverlap = false)) := by
  unfold runsFrom
  decide +kernel
theorem test_meets_EmptyRepartition :
    let m := unitOf .repart (repartBlock 0)
    let s := oneOf .repart (repartBlock 0)
    runsFrom s 0 m ∧ m.repartFields = true ∧ m.f 40 4 = 0 ∧ m.f 12 4 + 32 = 0xC0000 ∧ s.fabric.reqs = []
      ∧ (s.forCmd m).nodeHere m = true ∧ (s.forCmd m).tree.size m.level.toNat = 1
      ∧ (s.forCmd m).nodeCtx (s.ctxAt 0).bind.lslot 0 ((s.forCmd m).nodeAt 0) 0 = some (0, 0)
      ∧ (s.forCmd m).declared 0 0 .repart 0 = some m := by
  unfold runsFrom
  decide +kernel
theorem test_meets_EmptyRepartition_participants (fits : Cmd → Bool) (h : fits (unitOf .repart (repartBlock 0)) = true) :
    ((oneOf .repart (repartBlock 0)).forCmd (unitOf .repart (repartBlock 0))).participants
      (unitOf .repart (repartBlock 0)) fits = [some (unitOf .repart (repartBlock 0))] := by
  have a : ((oneOf .repart (repartBlock 0)).forCmd (unitOf .repart (repartBlock 0))).tree.size 0 = 1 := by decide +kernel
  have b : ((oneOf .repart (repartBlock 0)).forCmd (unitOf .repart (repartBlock 0))).nodeCtx
      ((oneOf .repart (repartBlock 0)).forCmd (unitOf .repart (repartBlock 0))).ctx.bind.lslot 0
      (((oneOf .repart (repartBlock 0)).forCmd (unitOf .repart (repartBlock 0))).nodeAt 0) 0 = some (0, 0) := by decide +kernel
  have c : ((oneOf .repart (repartBlock 0)).forCmd (unitOf .repart (repartBlock 0))).declared 0 0 .repart 0
      = some (unitOf .repart (repartBlock 0)) := by decide +kernel
  simp only [State.participants, show (unitOf .repart (repartBlock 0)).level = 0 from rfl,
    show (0 : BitVec 6).toNat = 0 from rfl, a, b, List.range_one,
    List.map_cons, List.map_nil, show (unitOf .repart (repartBlock 0)).op = .repart from rfl,
    c, Option.filter, h, if_true]
theorem test_meets_Dispatches :
    let m := unitOf .a2aDisp dispBlock
    m.f 72 4 = 4 ∧ m.f 76 4 = 1 ∧ m.f 80 1 = 1
      ∧ (match eachPart (oneOf .a2aDisp dispBlock).dispIn [m] with
        | .inl x => x == [⟨[7, 0, 0, 0], [0, 0], [0, 0, 0, 1]⟩]
        | .inr _ => false) = true := by decide +kernel
theorem test_meets_Combines :
    let m := unitOf .a2aComb combBlock
    m.f 88 1 = 1 ∧ m.f 76 4 = 1
      ∧ (match eachPart (fun m => (oneOf .a2aComb combBlock).returns m (List.range (m.f 89 1))) [m] with
        | .inl x => x.length == 1
        | .inr _ => false) = true
      ∧ (match eachPart (oneOf .a2aComb combBlock).combIn [m] with
        | .inl x => x == [⟨[0, 0], [0, 0, 0, 0], [0]⟩]
        | .inr _ => false) = true := by decide +kernel
theorem test_meets_Repartitions :
    let m := unitOf .repart (repartBlock 1)
    let s := oneOf .repart (repartBlock 1)
    m.f 52 2 = 16 ∧ m.f 54 2 = 0 ∧ m.f 56 2 = 0xFFFF ∧ m.f 58 1 = 2 ∧ m.f 59 1 = 0
      ∧ (match eachPart (fun m => s.partRead m (m.f 16 8) (m.f 40 4 * m.f 52 2) 0) [m] with
        | .inl x => x == [7 :: List.replicate 15 0]
        | .inr _ => false) = true := by decide +kernel

/-! Text: a merge, a record and a vocabulary in memory, an automaton. -/

theorem test_meets_Merges :
    let ms : List Merge := [⟨3, 4, 5, 0, true⟩]
    (∀ x, x ∈ ms → ∀ y, y ∈ ms → x.left = y.left → x.right = y.right → x = y) ∧ ([3, 4] : List Nat)[0]? = some 3
      ∧ mergeLoop ms 6 1 [3, 4] = some [5] := by decide +kernel

def recordHead (dec open_ : Nat) : List Byte := [1, 0, BitVec.ofNat 8 dec, 0, BitVec.ofNat 8 open_, 0, 0, 0]
  ++ natToBytes 8 0x4000021000
def recordOf (dec open_ : Nat) : List Byte := recordHead dec open_ ++ List.replicate 2032 0
def vocabHeader : List Byte := natToBytes 4 0x42434F56 ++ natToBytes 2 1 ++ natToBytes 2 0 ++ natToBytes 4 257
  ++ natToBytes 4 0 ++ natToBytes 4 0 ++ natToBytes 4 0 ++ natToBytes 8 0x200 ++ natToBytes 8 0 ++ natToBytes 8 0x100
  ++ natToBytes 8 0x1000 ++ natToBytes 8 0x2000
def textBlock (n cap final : Nat) : List Byte := hdr 0 noStat ++ natToBytes 8 0x4000020000 ++ natToBytes 8 0x100
  ++ natToBytes 8 0x200 ++ natToBytes 4 n ++ natToBytes 4 cap ++ natToBytes 1 final ++ List.replicate 15 0
def textState (m : Cmd) (dec open_ : Nat) : State := onText [m] (holding [(0x100, [65, 0, 0, 0])]
  [(0, recordHead dec open_), (0x1000, vocabHeader), (0x1200 + 8 * 65, natToBytes 4 65 ++ natToBytes 2 1 ++ [0, 0]), (0x2041, [65])])
def encCmd : Cmd := unitOf .txtEnc (textBlock 1 1 1)
def decCmd : Cmd := unitOf .txtDec (textBlock 1 1 0)
def streamParts (m : Cmd) (dec open_ : Nat) : Bool :=
  let s := textState m dec open_
  let u := s.forCmd m
  m.headerOk && m.f 12 4 == 0xFFFFFFFF && m.spare [(49, 15)] && decide (m.f 48 1 ≤ 1) && m.f 16 8 == 0x4000020000
    && m.f 24 8 == 0x100 && m.f 32 8 == 0x200 && !m.spoilt && streamOk (recordOf dec open_) (dec == 1)
    && fieldOf (recordOf dec open_) 8 8 == 0x4000021000 && pageHolds u 0x4000021000 64 0x321000 vocabHeader
    && vocabOk vocabHeader && s.badHbm == []
    && decide (u.translate (BitVec.ofNat 64 (m.f 16 8)) .write = .ok 0 0 0x320000 false)
theorem test_meets_StreamsRun :
    runsFrom (textState encCmd 0 0) 0 encCmd ∧ streamParts encCmd 0 0 = true
      ∧ runsFrom (textState encCmd 0 3) 0 encCmd ∧ streamParts encCmd 0 3 = true
      ∧ runsFrom (textState decCmd 1 0) 0 decCmd ∧ streamParts decCmd 1 0 = true := by
  unfold runsFrom
  decide +kernel
/-- No register space and no saved image reaches into a range: it reads as memory stands. -/
def clearOf (u : State) (pa n : Nat) : Bool :=
  ((u.regSpaces.map fun (_, _, sp) => sp).filter (meetsSpace pa n)).isEmpty && u.hub.saved.isEmpty
theorem readHbm_of_clear {u : State} {pa n : Nat} (h : clearOf u pa n = true) : u.readHbm pa n = readBytes u.hbm pa n := by
  have l : (readBytes u.hbm pa n).length = n := readBytes_length u.hbm n pa
  unfold State.readHbm State.seenAs
  rw [l]
  exact if_pos h
theorem forCmd_hbm (s : State) (m : Cmd) : (s.forCmd m).hbm = s.hbm := rfl
theorem record_reads (m : Memory) (a : Nat) (hd : List Byte) (f : readBytes m a 16 = hd)
    (z : m.all (fun p => decide (p.1 < a + 16 ∨ a + 16 + 2032 ≤ p.1)) = true) :
    readBytes m a 2048 = hd ++ List.replicate 2032 0 := by
  rw [show (2048 : Nat) = 16 + 2032 from rfl, readBytes_append, f, readBytes_unlisted _ 2032 _ z]
theorem test_meets_StreamsRun_record (m : Cmd) (dec open_ : Nat)
    (h : (m, dec, open_) ∈ [(encCmd, 0, 0), (encCmd, 0, 3), (decCmd, 1, 0)]) :
    pageReads ((textState m dec open_).forCmd m) 0x4000020000 2048 (recordOf dec open_) := by
  have parts : readBytes (textState m dec open_).hbm 0x320000 16 = recordHead dec open_
      ∧ (textState m dec open_).hbm.all (fun p => decide (p.1 < 0x320010 ∨ 0x320010 + 2032 ≤ p.1)) = true
      ∧ ((textState m dec open_).forCmd m).translate 0x4000020000 .read = .ok 0 0 0x320000 false
      ∧ (textState m dec open_).badHbm = [] ∧ clearOf ((textState m dec open_).forCmd m) 0x320000 2048 = true := by
    simp only [List.mem_cons, Prod.mk.injEq, List.not_mem_nil, or_false] at h
    rcases h with ⟨rfl, rfl, rfl⟩ | ⟨rfl, rfl, rfl⟩ | ⟨rfl, rfl, rfl⟩ <;> decide +kernel
  obtain ⟨f, z, x, e, q⟩ := parts
  refine .inr ⟨by decide, 0, 0, 0x320000, false, x, rfl, by decide, ?_, ?_⟩
  · have e' : ((textState m dec open_).forCmd m).badHbm = [] := e
    simp [State.hbmBad, e']
  · rw [readHbm_of_clear q]
    rw [forCmd_hbm, record_reads _ _ _ f z, recordOf]
theorem test_meets_StreamsRun_enc :
    fieldOf (recordOf 0 0) 4 1 = 0 ∧ fieldOf (recordOf 0 3) 4 1 = 3 ∧ encCmd.f 48 1 = 1 ∧ fieldOf (recordOf 0 0) 20 2 = 0
      ∧ fieldOf (recordOf 0 0) 3 1 = 0 ∧ encCmd.f 40 4 = 1 ∧ encCmd.f 44 4 = 1
      ∧ memRead (textState encCmd 0 0).core.spad 0x100 = 65 ∧ fieldOf vocabHeader 16 4 = 0
      ∧ pageHolds ((textState encCmd 0 0).forCmd encCmd) (0x4000021000 + fieldOf vocabHeader 40 8) 256 0x321100
        (List.replicate 256 0) = true := by decide +kernel
theorem test_meets_StreamsRun_dec :
    decCmd.f 48 1 = 0 ∧ (List.range 1).map (fun i => spadWord (textState decCmd 1 0) (0x100 + 4 * i)) = [65]
      ∧ 65 < fieldOf vocabHeader 8 4 ∧ utf8Valid 1 [65] = true ∧ fieldOf vocabHeader 12 4 = 0
      ∧ [65] = [BitVec.ofNat 8 (65 - fieldOf vocabHeader 12 4)]
      ∧ pageHolds ((textState decCmd 1 0).forCmd decCmd) (0x4000021000 + (fieldOf vocabHeader 24 8 + 8 * 65)) 8 0x321408
        (natToBytes 4 65 ++ natToBytes 2 1 ++ [0, 0]) = true
      ∧ fieldOf vocabHeader 48 8 + 65 + 1 ≤ fieldOf vocabHeader 56 8
      ∧ pageHolds ((textState decCmd 1 0).forCmd decCmd) (0x4000021000 + (fieldOf vocabHeader 48 8 + 65)) 1 0x322041 [65] = true
      ∧ fieldOf (recordOf 1 0) 5 1 = 0 ∧ fieldOf (recordOf 1 0) 6 1 = 0 ∧ fieldOf (recordOf 1 0) 7 1 = 0 := by decide +kernel

def automatonBytes : List Byte := natToBytes 4 0x41544D47 ++ natToBytes 2 1 ++ natToBytes 2 0 ++ natToBytes 4 1 ++ natToBytes 4 33
  ++ natToBytes 8 64 ++ natToBytes 8 80 ++ natToBytes 8 92 ++ List.replicate 24 0
def stateBytes : List Byte := natToBytes 4 0 ++ natToBytes 4 1 ++ natToBytes 4 0 ++ natToBytes 4 0
def runBytes : List Byte := natToBytes 4 32 ++ natToBytes 4 1 ++ natToBytes 4 0
def maskBlock (st mode n : Nat) : List Byte := hdr 0 0xBFFF0 ++ natToBytes 8 0x4000020000 ++ natToBytes 4 st ++ natToBytes 1 mode
  ++ List.replicate 3 0 ++ natToBytes 8 0x200 ++ natToBytes 4 n ++ natToBytes 4 0
def maskCmd (st mode n : Nat) : Cmd := unitOf .txtMask (maskBlock st mode n)
def masking (m : Cmd) : State := onText [m] (holding [(0x200, natToBytes 4 32)]
  [(0, automatonBytes), (64, stateBytes), (80, runBytes)])
def theAutomaton : Automaton := ⟨0x4000020000, 1, 33, 64, 80, 92⟩
theorem test_meets_Masks :
    (∀ m, m ∈ [maskCmd 1 0 8, maskCmd 0 0 7, maskCmd 0 0 8, maskCmd 0 1 1] → runsFrom (masking m) 0 m ∧ m.headerOk = true
        ∧ m.spare [(29, 3), (44, 4)] = true ∧ m.f 16 8 = 0x4000020000
        ∧ pageHolds ((masking m).forCmd m) (m.f 16 8) 64 0x320000 automatonBytes = true
        ∧ statApart m 0x200 8 4)
      ∧ automatonOf 0x4000020000 automatonBytes = some theAutomaton ∧ (theAutomaton.ntok + 31) / 32 = 2
      ∧ (maskCmd 0 0 7).f 40 4 = 7 ∧ (maskCmd 1 0 8).f 24 4 = 1 ∧ (base.ctxAt 0).state ≠ .idle := by
  unfold runsFrom statApart
  decide +kernel
theorem test_meets_Masks_runs (m : Cmd) (hm : m = maskCmd 0 0 8 ∨ m = maskCmd 0 1 1) :
    hasRuns ((masking m).forCmd m) theAutomaton 0 [(32, 1, 0)] := by
  refine ⟨stateBytes, runBytes, pageReads_of (pa := 0x320040) ?_, by decide, by decide, by decide, pageReads_of (pa := 0x320050) ?_,
    by decide, by decide⟩
  all_goals rcases hm with rfl | rfl <;> decide +kernel

def faulted (s : State) : State := withCtx (fun c => { c with waits := { c.waits with faults := [⟨5, 0x40⟩] } }) s
theorem test_meets_EngineFaultDelivery :
    let s := faulted handled
    s.core.running = some 0 ∧ s.core.freeze = 0 ∧ s.core.tableRead = false ∧ (s.ctxAt 0).bubbles = 0
      ∧ (s.ctxAt 0).waits.entering = none ∧ (s.ctxAt 0).waits.faults = [⟨5, 0x40⟩] ∧ (s.ctxAt 0).hm = false
      ∧ ((faulted inHandler).ctxAt 0).hm = true ∧ (base.ctxAt 0).waits.faults = []
      ∧ base.core.running ≠ some 1 ∧ (s.ctxAt 0).ctrl.tvec ≠ 0 ∧ (s.ctxAt 0).pend = [] := by decide +kernel
theorem test_meets_EngineFaultDelivery_flight :
    let s := withCtx (fun c => { c with flight := List.replicate 64 ⟨.s 5, 1, 1, 0, 0, 0⟩ }) (faulted handled)
    (s.ctxAt 0).flight.length = 64 ∧ ∀ g, g ∈ (s.ctxAt 0).flight → g.dest = .s 5 := by decide +kernel

/-- Results in flight to s5, twice, to p3, to TVEC and to STATUS. -/
def landing : State := withCtx (fun c => { c with flight := [⟨.s 5, 1, 1, 0, 0, 0⟩, ⟨.s 5, 2, 1, 1, 0, 0⟩, ⟨.p 3, 1, 1, 1, 0, 0⟩,
  ⟨.cr 5, 0x40, 1, 1, 0, 0⟩, ⟨.cr 0, 8, 1, 1, 0, 0⟩, ⟨.s 6, 9, 2, 1, 0, 0⟩] }) base
def narrow (f : Flight) : Bool := match f.dest with
  | .p m => decide (m.toNat < 16)
  | _ => true
theorem test_meets_ResultsLand :
    let flagged : Flight := ⟨.cr 0, 8, 1, 1, 0, 0⟩
    (⟨.s 5, 2, 1, 1, 0, 0⟩ ∈ landing.ctx.flight ∧ (landing.ctx.flight.filter fun f => f.dest == .s 5).map Flight.seq = [0, 1])
      ∧ ⟨.p 3, 1, 1, 1, 0, 0⟩ ∈ landing.ctx.flight ∧ (landing.ctx.flight.filter fun f => f.dest == .p 3).length = 1
      ∧ ⟨.cr 5, 0x40, 1, 1, 0, 0⟩ ∈ landing.ctx.flight ∧ (landing.ctx.flight.filter fun f => f.dest == .cr 5).length = 1
      ∧ flagged ∈ landing.ctx.flight ∧ (landing.ctx.flight.filter fun f => f.dest == .cr 0) = [flagged]
      ∧ landing.ctx.flight.count flagged = 1 ∧ (∀ f, f ∈ landing.ctx.flight → narrow f = true)
      ∧ (∀ f, f ∈ landing.ctx.flight → f.dest = .s 6 → ¬ f.rem ≤ 1) ∧ landing.fr.arrived = []
      ∧ landing.ctx.resident.getLsbD 0 = true ∧ landing.ctx.resident.getLsbD 4 = true
      ∧ (withCtx (fun c => { c with resident := 0 }) landing).ctx.resident.getLsbD 0 = false := by decide +kernel
def arriving : Pending := ⟨3, [(.s 63, 9)], true, some 0, 0, 0x40, true, 0⟩
/-- Writes of SEQTB and BINDB whose tables have been read are about to land. -/
theorem test_meets_ResultsLand_tables :
    let s := withCtx (fun c => { c with flight := [⟨.cr 10, 0x40, 1, 1, 0, 0⟩, ⟨.cr 9, 0x41, 1, 1, 0, 0⟩]
                                        newSeq := some (List.replicate 128 5), newBind := some [] }) base
    ⟨.cr 10, 0x40, 1, 1, 0, 0⟩ ∈ s.ctx.flight ∧ ⟨.cr 9, 0x41, 1, 1, 0, 0⟩ ∈ s.ctx.flight ∧ s.ctx.newSeq ≠ none
      ∧ s.ctx.newBind = some [] ∧ s.fr.arrived = [] ∧ (∀ g, g ∈ landing.ctx.flight → g.dest ≠ .cr 10 ∧ g.dest ≠ .cr 9)
      := by decide +kernel
theorem test_meets_ResultsLand_arrivals :
    let s := withCtx (fun c => { c with pend := [arriving] }) base
    let f := base.modCore fun k => { k with fills := [(0, 68)] }
    let g := withCtx (fun c => { c with ctrl := { c.ctrl with rsb := 0x5000000000 } }) f
    let h := withCtx (fun c => { c with overlay := [(.s 63, 9)] }) (base.modCore fun k => { k with fills := [(0, 1)] })
    s.ctx.pend.find? (fun p => p.left == 0 && p.due.all (· == 0)) = some arriving
      ∧ base.ctx.pend.find? (fun p => p.left == 0 && p.due.all (· == 0)) = none
      ∧ (0, 68) ∈ f.core.fills ∧ (f.readLine 0 68).isLeft ∧ (0, 68) ∈ g.core.fills ∧ (g.readLine 0 68).isRight
      ∧ (0, 0) ∉ base.core.fills ∧ s.ctx.resident.getLsbD 1 = true
      ∧ (withCtx (fun c => { c with resident := 0 }) s).ctx.resident.getLsbD 1 = false
      ∧ (0, 1) ∈ h.core.fills ∧ (h.readLine 0 1).isLeft ∧ h.ctx.overlay.getLast? = some (.s 63, 9)
      ∧ f.ctx.overlay = [] := by decide +kernel

def waiting (h : Hold) (n : Nat) (s : State) : State :=
  withCtx (fun c => { c with state := .waiting, waits := { c.waits with hold := h, heldC := true, cycles := n } }) s
/-- The words of WAITC s5, t1, s2, s3, of QPUT s1, s2 and of QGET p3, s1, s2, each alone in its bundle at the pc. -/
def placedWaitc : State := setS 2 1 (setS 3 7 (State.reset.withFetchWord 64 0xD003014108300000))
def placedQput : State := queue [] [] [] 5 (State.reset.withFetchWord 64 0xD004000108000000)
def placedQget : State := queue [] [] [] 5 (State.reset.withFetchWord 64 0xD00410C108000000)
theorem test_meets_HoldsEnd :
    let f := faulted (waiting .barrier 0 base)
    let w := waiting .barrier 0 base
    (f.ctxAt 0).state = .waiting ∧ (f.ctxAt 0).waits.entering = none ∧ (f.ctxAt 0).waits.faults ≠ []
      ∧ (f.ctxAt 0).hm = false ∧ ((faulted (waiting .barrier 0 inHandler)).ctxAt 0).hm = true
      ∧ (w.ctxAt 0).state = .waiting ∧ (w.ctxAt 0).waits.entering = none ∧ w.stillHeld 0 = false
      ∧ (base.ctxAt 0).state ≠ .waiting
      ∧ ((waiting .waitc 7 placedWaitc).ctxAt 0).waits.heldC = true ∧ (waiting .waitc 7 placedWaitc).holdLimit 0 .waitc = 7
      ∧ (waiting .qput 5 placedQput).holdLimit 0 .qput = 5 ∧ (waiting .qget 5 placedQget).holdLimit 0 .qget = 5
      ∧ ((waiting .waita 0 (watching none)).ctxAt 0).waits.waita.any (fun r => r.cause.isNone) = true := by decide +kernel

def readySince (n : Nat) (now : Nat) (s : State) : State :=
  (s.modCtxAt 1 fun c => { c with state := .ready, readySince := n }).modCore fun k =>
    { k with counters := { k.counters with cycles := BitVec.ofNat 64 now } }
/-- NOP guarded by p1, which is false. -/
def skipped : State := State.reset.withFetchWord 64 0x8040100000000000
theorem test_meets_SlotChanges :
    let s := readySince 5 69 base
    s.core.running = some 0 ∧ (s.ctxAt 1).state = .ready ∧ (s.ctxAt 2).state ≠ .ready ∧ (s.ctxAt 3).state ≠ .ready
      ∧ (s.ctxAt 0).state ≠ .ready ∧ s.core.freeze = 0 ∧ s.core.tableRead = false ∧ (s.ctxAt 0).bubbles = 0
      ∧ (s.ctxAt 0).waits.entering = none ∧ (s.ctxAt 1).readySince + 64 ≤ s.core.now
      ∧ (readySince 5 68 base).core.now < ((readySince 5 68 base).ctxAt 1).readySince + 64
      ∧ ((((base.modCtxAt 0 Ctx.replay).landCycle).present 0 0).skipRun (base.ctxAt 0).pc 16).1 = 0
      ∧ ((((skipped.modCtxAt 0 Ctx.replay).landCycle).present 0 0).skipRun (skipped.ctxAt 0).pc 16).1 = 1 := by decide +kernel

def fence0 : Fence := ⟨7, 0x1F, 63, 0, 0, false⟩
def fenced : State := withCtx (fun c => { c with fences := [fence0], pend := [⟨7, [(.s 5, 0)], true, none, 1, 0, false, 0⟩] }) base
def release0 (es : List (BitVec 5 × Nat × Nat)) : Release :=
  ⟨7, lastWord.toNat, 0, 0, 0x32FFF8, none, 9, 0, 8, false, es, 0, 0, true⟩
def releasing (es : List (BitVec 5 × Nat × Nat)) : State :=
  withCtx (fun c => { c with releases := [release0 es], lost := [(0, 0x4000, 8)] }) uncached
theorem test_meets_FencesAndReleasesEnd :
    fenced.fabric.reqs = [] ∧ (fenced.ctxAt 0).behind = [] ∧ (fenced.ctxAt 0).fences = [fence0]
      ∧ (fenced.ctxAt 0).releases = [] ∧ (∀ p, p ∈ (fenced.ctxAt 0).pend → p.id < 7 → p.left = 0)
      ∧ fenced.commands fenced.coreIx = [] ∧ fenced.core.lines = [] ∧ fence0.paths.getLsbD 0 = true ∧ fence0.level = 63
      ∧ ((releasing []).ctxAt 0).fences = [] ∧ ((releasing []).ctxAt 0).releases = [release0 []]
      ∧ (release0 []).entries = [] ∧ (release0 []).atom = none ∧ (releasing []).core.lines = [] ∧ (release0 []).tgt = 0
      ∧ (release0 []).pa + (release0 []).width ≤ hbmSize
      ∧ linesBad (releasing []) (release0 []).pa (release0 []).width = false ∧ fence0.flushed = false ∧ Safety.stateOk (releasing []) = true
      ∧ ((releasing [(1, 0x3F80, 0x100)]).ctxAt 0).boundLost (release0 [(1, 0x3F80, 0x100)]) = true
      ∧ (releasing [(1, 0x3F80, 0x100)]).commands 0 = [] := by decide +kernel

def walked (x : XRes × Word64 × Nat) : Bool := match x.1 with
  | .ok _ _ _ _ => true
  | _ => false
def dirtyLine : Line := { lineOf with dirty := 5 }
theorem test_meets_WalksAndFailedWritebacks :
    let s := cachedPage.modCore fun k => { k with lines := [dirtyLine] }
    translateFrom base.hbm (base.lslot 0).info.ptroot 0x400001FFFF .write
        = (.ok 0 0 0x31FFFF false, 0xC000C00000000031, 65536)
      ∧ walked (translateFrom base.hbm (base.lslot 0).info.ptroot 0x4000020000 .write) = false
      ∧ s.core.lineAt 0 lastWord.toNat = some dirtyLine ∧ dirtyLine.dirty ≠ 0 ∧ base.core.lineAt 0 lastWord.toNat = none := by
  decide +kernel

/-! ### Prints -/

/-- A graph of a NOP, a PUT within the module, a PUT to another module and an INNET, each of 4 bytes. -/
def graphOf (level : Nat) : Graph := ⟨level, 2, 1, [
  ⟨3, 0, [1], 0, 0, 0, false, 0, 0, 0, 0, false, 0, 0, 0⟩,
  ⟨0, 0, [], 0, 0, 0, true, 0, 1, 0, 0, true, 4, 0, 0⟩,
  ⟨0, 0, [], 0, 0, 1, true, 0, 1, 0, 0, true, 4, 0, 0⟩,
  ⟨2, 0, [], 0, 0, 0, true, 0, 1, 0, 0, true, 4, 0, 0⟩]⟩
def putOp (peer : BitVec 16) : GraphOp := ⟨0, 0, [], 0, 0, peer, true, 0, 1, 0, 0, true, 4, 0, 0⟩
def innetOp : GraphOp := ⟨2, 0, [], 0, 0, 0, true, 0, 1, 0, 0, true, 4, 0, 0⟩
def runCmd (run : CmdRun) : Cmd := { cmd .cgrun run with args := [0, 0x100], block := List.replicate 16 0 }
def graphed (s : State) : State := s.modCore fun k => { k with graphs := k.graphs.set 0 (some (graphOf 0)) }
def printOf (st : OpState) : Print := ⟨runCmd .running, 1, [0, 0x100], [0, 0, 0, 0], List.replicate 4 st, [(3, [1, 2, 3, 4])]⟩
def announced (rank : Nat) : ReadyMsg := ⟨0, 0, 0, 0, 1, rank, [0, 0x100]⟩
/-- A print of one context of two, the other on another module; both are ready. -/
def printing (st : OpState) (ready : List ReadyMsg) : State :=
  ((graphed (under 7 2 2 base)).modCore fun k => { k with prints := [printOf st], fqueue := [runCmd .running] }).modFabric
    fun f => { f with ready := ready }
theorem test_meets_PrintsStart :
    let q := onFabric [runCmd .queued] (graphed base)
    let s := printing .waiting [announced 0, announced 1]
    let v := s.viewAs s.coreIx 0
    q.startable .fabric 0 = some (runCmd .queued) ∧ q.stopped 0 = false ∧ (runCmd .queued).headerOk = true
      ∧ q.core.graphs.get (ix4 (((0 : BitVec 2)).setWidth 6)) = some (graphOf 0)
      ∧ (graphOf 0).level = (runCmd .queued).level.toNat
      ∧ s.core.printOf 0 0 = some (printOf .waiting) ∧ (graphOf 0).ops.map some = (List.range 4).map (s.core.opOf 0)
      ∧ (printOf .waiting).ops[3]? = some .waiting ∧ (printOf .waiting).left[3]? = some 0 ∧ (s.ctxAt 0).state ≠ .preempted
      ∧ (printOf .started).ops[0]? ≠ some .waiting
      ∧ v.sourceData (printOf .waiting) innetOp = .inl [0, 0, 0, 0]
      ∧ v.peerRank (putOp 0) 0 = some 0 ∧ v.readyOf 0 0 1 0 = some (announced 0)
      ∧ ((printing .waiting []).viewAs 0 0).readyOf 0 0 1 0 = none
      ∧ v.nodeCtx v.ctx.bind.lslot 0 (v.nodeAt 0) 0 = some (0, 0)
      ∧ v.peerRank (putOp 1) 0 = some 1 ∧ v.readyOf 0 0 1 1 = some (announced 1)
      ∧ v.nodeCtx v.ctx.bind.lslot 0 (v.nodeAt 0) 1 = none
      ∧ v.sourceData (printOf .waiting) (putOp 1) = .inl [0, 0, 0, 0] := by decide +kernel

theorem test_meets_PrintsLand :
    let s := printing .started [announced 0, announced 1]
    let v := s.viewAs s.coreIx 0
    let one := graphed (under 7 1 1 base)
    let w := one.modCore fun k => { k with prints := [printOf .started] }
    let own : Contribution := ⟨0, 0, [1, 2, 3, 4]⟩
    let other : Contribution := ⟨0, 0, [1, 2, 3]⟩
    let u := w.viewAs w.coreIx 0
    s.core.printOf 0 0 = some (printOf .started) ∧ (printOf .waiting).ops[1]? ≠ some .started
      ∧ (printOf .started).ops[1]? = some .started ∧ (printOf .started).ops[0]? = some .started
      ∧ v.nodeCtx v.ctx.bind.lslot 0 (v.nodeAt 0) ((v.peerRank (putOp 1) 0).getD 0) = none ∧ 1 < v.tree.modules
      ∧ v.nodeCtx v.ctx.bind.lslot 0 (v.nodeAt 0) ((v.peerRank (putOp 0) 0).getD 0) = some (0, 0)
      ∧ v.readyOf 0 0 1 0 = some (announced 0) ∧ v.sourceData (printOf .started) (putOp 0) = .inl [0, 0, 0, 0]
      ∧ isOk (v.land 0 0 (putOp 0) [0, 0x100] 0 [0, 0, 0, 0]).2
      ∧ w.core.printOf 0 0 = some (printOf .started) ∧ w.core.opOf 0 3 = some innetOp ∧ u.tree.size 0 = 1 ∧ u.rankAt 0 = 0
      ∧ (3, own.data) ∈ (printOf .started).sent ∧ own.accop = innetOp.accop ∧ own.fmt = innetOp.fmt
      ∧ own.data.length = innetOp.len ∧ v.tree.size 0 = 2 ∧ v.rankAt 0 = 0 ∧ other.data.length ≠ innetOp.len
      ∧ (printOf .started).cmd.core = s.coreIx ∧ innetOp.opk = 2 ∧ (putOp 0).opk ≤ 1
      ∧ isOk (u.land 0 0 { innetOp with accop := 0 } [0, 0x100] 0 (switchResult innetOp [[1, 2, 3, 4]])).2
      ∧ innetOp.accop = 0 ∧ innetOp.len % 4 = 0 := by decide +kernel

/-- An announcement whose destination ends where the scratchpad does, or lies outside the scratchpad's space. -/
def landingAt (b : Word64) : ReadyMsg := ⟨0, 0, 0, 0, 1, 0, [0, b]⟩
def received (b : Word64) : State := (graphed (under 7 2 2 base)).modFabric fun f => { f with ready := [landingAt b] }
theorem test_meets_PrintsLand_data :
    let s := received 0xBFFFC
    let x := s.ctxAt 0
    let tree := (s.lslot x.bind.lslot).info.tree
    let mine (r : ReadyMsg) : Bool := r.lslot == x.bind.lslot && r.graph == 0 && r.seq == 1
      && r.rank == tree.rank x.bind.coords r.level && r.node == tree.node x.bind.coords r.level
    s.core.opOf 0 1 = some (putOp 0) ∧ x.state ≠ .free ∧ (putOp 0).opk ≤ 1 ∧ 0 + 4 ≤ (putOp 0).len ∧ (putOp 0).accop = 0
      ∧ (putOp 0).dstsp = 0 ∧ s.core.badWords = [] ∧ Safety.stateOk s = true
      ∧ (s.lslot x.bind.lslot).info.profile = false ∧ s.fabric.ready.find? mine = some (landingAt 0xBFFFC)
      ∧ (0xBFFFC : Word64) + (putOp 0).dstoff + BitVec.ofNat 64 0 = 0xBFFFC ∧ (0xBFFFC : Nat) + 4 ≤ 0xC0000
      ∧ (putOp 0).ctrv = true ∧ (received 0x400000).fabric.ready.find? mine = some (landingAt 0x400000) := by decide +kernel
/-- Every form completes: counts of LOOP, lanes without causes, an arrival, a fill, operations done at other modules and by
the switch, data for a READY that this context gave, and requests to local memory. -/
theorem test_meets_FormsComplete :
    let s := printing .started [announced 0, announced 1]
    let v := s.viewAs s.coreIx 0
    let two : Contribution := ⟨0, 0, [1, 2, 3, 4]⟩
    let st : Ctx → Ctx := fun c => { c with pend := [arriving] }
    let r := received 0xBFFFC
    let i := (r.modCtxAt 1 fun c => { c with state := .free })
    ((setS 3 7 base).rdS 3).setWidth 32 ≠ (0 : Word32) ∧ ((setS 3 0x100000000 base).rdS 3).setWidth 32 = (0 : Word32)
      ∧ base.fr.anyBranch = false ∧ (withFr (fun f => { f with anyBranch := true }) base).fr.anyBranch = true
      ∧ base.fr.judging = false ∧ base.fr.verdict = .proceed
      ∧ (withCtx st base).ctx.pend.find? Pending.ripe = some arriving
      ∧ s.core.printOf 0 0 = some (printOf .started) ∧ (printOf .started).ops[1]? = some .started
      ∧ (printOf .started).ops[2]? = some .started ∧ s.core.opOf 0 2 = some (putOp 1) ∧ (putOp 1).opk ≤ 1
      ∧ v.nodeCtx v.ctx.bind.lslot 0 (v.nodeAt 0) ((v.peerRank (putOp 1) 0).getD 0) = none ∧ 1 < v.tree.modules
      ∧ s.core.opOf 0 3 = some innetOp ∧ [two, two].length = v.tree.size 0 ∧ v.rankAt 0 = 0
      ∧ (printOf .started).contributes 3 innetOp two = true ∧ innetOp.agrees two = true
      ∧ isOk (v.land 0 0 { innetOp with accop := 0 } (printOf .started).bases 0 (switchResult innetOp [two.data, two.data])).2
      ∧ (i.ctxAt 0).bound = true ∧ (i.ctxAt 1).bound = false := by decide +kernel
theorem test_meets_FormsComplete_memory :
    let s := setS 2 0xBFE00 base
    let w := setS 2 0x400002FE00 uncached
    s.spadCauses (laneAddrsOf s lanes32 4 4) 4 none true = none
      ∧ s.spadCauses (laneAddrsOf s lanes32 3 3) 3 (some (s.ea lanes32.m 4)) true = none
      ∧ w.globCauses (laneAddrsOf w lanes32 4 4) 4 .read = none ∧ w.globCauses (laneAddrsOf w lanes32 4 4) 4 .write = none
      ∧ laneAddrsOf w lanes32 4 4 ≠ []
      ∧ (setS 1 lastWord uncached).globCauses [lastWord] 8 .read = none
      ∧ (setS 1 lastWord uncached).globCauses [lastWord] 8 .write = none
      ∧ base.duplicate 5 3 0x100 (.write [1, 2]) = none ∧ base.duplicate 5 3 0x100 (.atomic .swap .i32 1 0) = none
      ∧ base.hbmBad (0x100 / 128 * 128) 128 = false ∧ (0x100 : BitVec 56).toNat + 2 ≤ hbmSize := by decide +kernel

/-! The start of a launch writes 69 register lines, which the kernel does not write out: what it comes to is shown from
what a store does. -/

/-- The table entries of the page at 0x4000020000, which is the first page of memory. -/
def Mapped (m : Memory) : Prop := read64 m 0x100000 = 0x8000000000002000 ∧ read64 m 0x200800 = 0x8000000000002010
  ∧ read64 m 0x201000 = 0x8000000000002020 ∧ read64 m 0x202010 = 0xC000C00000000000

theorem mapped_write (m : Memory) (a : Nat) (bs : List Byte) (h : Mapped m) (ha : a + bs.length ≤ 0x100000) :
    Mapped (writeBytes m a bs) := by
  have r (x : Nat) (hx : 0x100000 ≤ x) : read64 (writeBytes m a bs) x = read64 m x := by
    simp only [read64, readNat, readBytes_writeBytes_other bs m a 8 x (by omega)]
  exact ⟨(r _ (by omega)).trans h.1, (r _ (by omega)).trans h.2.1, (r _ (by omega)).trans h.2.2.1,
    (r _ (by omega)).trans h.2.2.2⟩

/-- An address of that page. -/
def inPage (va : Word64) : Bool := bits va 56 8 == 0 && tableIndex va 3 == 0 && tableIndex va 2 == 256
  && tableIndex va 1 == 0 && tableIndex va 0 == 2

theorem mapped_translate (m : Memory) (va : Word64) (h : Mapped m) (hv : inPage va = true) :
    ∃ pa, pa < 65536 ∧ (translateFrom m 0x100000 va .write).1 = .ok 0 0 pa false := by
  obtain ⟨h3, h2, h1, h0⟩ := h
  simp only [inPage, Bool.and_eq_true, beq_iff_eq] at hv
  obtain ⟨⟨⟨⟨b, i3⟩, i2⟩, i1⟩, i0⟩ := hv
  refine ⟨va.toNat % 65536, Nat.mod_lt _ (by omega), ?_⟩
  have small : va.toNat % 65536 < 65536 := Nat.mod_lt _ (by omega)
  have leaf : leafResult 0xC000C00000000000 va .write 0 = .ok 0 0 (va.toNat % 65536) false := by
    have z : bits (0xC000C00000000000 : Word64) 48 3 = 0 ∧ bits (0xC000C00000000000 : Word64) 40 5 = 0
      ∧ bits (0xC000C00000000000 : Word64) 51 8 = 0 ∧ bits (0xC000C00000000000 : Word64) 0 40 = 0 := by decide +kernel
    have s : ¬ hbmSize ≤ va.toNat % 65536 := by simp only [hbmSize]; omega
    simp only [leafResult, z.1, z.2.1, z.2.2.1, z.2.2.2, show pageSize 0 = 65536 from rfl, Nat.zero_mul, Nat.zero_add]
    simp [s]
  have root : bits (0x100000 : Word64) 8 48 * 256 = 0x100000 := by decide +kernel
  have start : translateFrom m 0x100000 va .write = walk m va .write 3 0x100000 := by
    simp only [translateFrom, b, root, ne_eq, not_true_eq_false, if_false]
  rw [start]
  rw [walk_down m va 0x8000000000002000 _ 2 _ (by decide +kernel) (by rw [i3]; exact h3) (by decide +kernel),
    show bits (0x8000000000002000 : Word64) 0 48 * 256 = 0x200000 by decide +kernel]
  rw [walk_down m va 0x8000000000002010 _ 1 _ (by decide +kernel) (by rw [i2]; exact h2) (by decide +kernel),
    show bits (0x8000000000002010 : Word64) 0 48 * 256 = 0x201000 by decide +kernel]
  rw [walk_down m va 0x8000000000002020 _ 0 _ (by decide +kernel) (by rw [i1]; exact h1) (by decide +kernel),
    show bits (0x8000000000002020 : Word64) 0 48 * 256 = 0x202000 by decide +kernel]
  rw [walk_leaf m va 0xC000C00000000000 _ _ (by decide +kernel) (by rw [i0]; exact h0) (by decide +kernel), leaf]

/-- A line written there is written, and the tables and the absence of errors stay. -/
theorem mapped_hubWrite (s : State) (va : Word64) (data : List Byte) (hm : Mapped s.hbm) (hb : s.badHbm = [])
    (hv : inPage va = true) (hd : data.length ≤ 4096) :
    (s.hubWrite 0x100000 va data 1).2 = true ∧ Mapped (s.hubWrite 0x100000 va data 1).1.hbm
      ∧ (s.hubWrite 0x100000 va data 1).1.badHbm = [] := by
  obtain ⟨pa, hp, ht⟩ := mapped_translate s.hbm va hm hv
  by_cases he : data.isEmpty
  · simp [State.hubWrite, he, hm, hb]
  · have st := State.storeHbm_of_clean s pa (data.take 65536) hb
    have big : ¬ hbmSize < pa + min 65536 data.length := by simp only [hbmSize]; omega
    simp only [State.hubWrite, he, ht, State.homeWrite, localHbm, List.length_take]
    simp [st, big]
    exact mapped_write _ _ _ hm (by simp; omega)

/-- The register space of a context whose lines lie in that page is written. -/
theorem mapped_writeRegs (s : State) (info : LaunchInfo) (c : Ctx) (hr : info.ptroot = 0x100000) (hm : Mapped s.hbm)
    (hb : s.badHbm = []) (hv : ∀ n, n < 69 → inPage (c.lineAddr n) = true ∧ (c.regs.lineBytes n).length ≤ 4096) :
    (s.writeRegs info c).2 = true := by
  unfold State.writeRegs
  have go : ∀ (l : List Nat) (t : State), (∀ n, n ∈ l → n < 69) → Mapped t.hbm → t.badHbm = [] →
      (l.foldl (fun (x : State × Bool) n =>
        if x.2 then x.1.hubWrite info.ptroot (c.lineAddr n) (c.regs.lineBytes n) 1 else (x.1, false)) (t, true)).2 = true := by
    intro l
    induction l with
    | nil => intros; rfl
    | cons n l ih =>
      intro t hl ht hb
      have w := mapped_hubWrite t (c.lineAddr n) (c.regs.lineBytes n) ht hb (hv n (hl n (by simp))).1 (hv n (hl n (by simp))).2
      have e : t.hubWrite 0x100000 (c.lineAddr n) (c.regs.lineBytes n) 1
          = ((t.hubWrite 0x100000 (c.lineAddr n) (c.regs.lineBytes n) 1).1, true) := Prod.ext rfl w.1
      simp only [List.foldl_cons, if_true, hr] at ih ⊢
      rw [e]
      exact ih _ (fun k hk => hl k (by simp [hk])) w.2.1 w.2.2
  exact go _ s (by simp) hm hb

/-! ### The fabric -/

def servedWrite : Served := ⟨5, 17, 3, 0x100, .write [1, 2], .ok, []⟩
def repeated : State := base.modFabric fun f => { f with seen := [servedWrite] }
def broken : State := { base with badHbm := [8] }
theorem test_meets_FabricRequests : Safety.stateOk base = true ∧ Safety.stateOk broken = true
    ∧ Safety.stateOk repeated = true ∧ base.fabric.seen = []
    ∧ ((0xBFFFFFFFFE : BitVec 56).toNat + 2 ≤ hbmSize ∧ base.hbmBad 0xBFFFFFFFFE 2 = false)
    ∧ broken.hbmBad 0x11F 1 = true ∧ broken.hbmBad 0x120 1 = false
    ∧ hbmSize < (0xBFFFFFFFFF : BitVec 56).toNat + 2
    ∧ linesBad base 0xBFFFFFFFFE 2 = false ∧ linesBad base 0xBFFFFFFFFC 4 = false
    ∧ broken.hbmBad (0x100 / 128 * 128) 128 = true ∧ (0x100 : Nat) % 128 = 0
    ∧ repeated.fabric.seen.find? (fun y => y.src == 5 && y.tag == 3 && y.addr == 0x100 && y.kind == .write [1, 2])
      = some servedWrite := by decide +kernel
/-- Whether a request that matches an earlier one, by another port, is that one again is a free value: where it says so,
the home finds the earlier one; where the ports agree, or nothing matches, the request is new. -/
def fromAfar : State := repeated.modFabric fun f => { f with planes := [4] }
theorem test_meets_FabricRequests_again (h : Config.inFlight fromAfar.free 0 9 0 0 = true) :
    fromAfar.duplicate 5 3 0x100 (.write [1, 2]) = some servedWrite := by
  have p : fromAfar.arrivalPort = 4 := by
    have q : fromAfar.fabric.planes = [4] := rfl
    simp only [State.arrivalPort, q, List.length_singleton, Nat.mod_one]
    rfl
  have l : fromAfar.fabric.seen = [servedWrite] := rfl
  simp only [State.duplicate, l, p, h]
  rfl
theorem test_meets_FabricRequests_new :
    (repeated.modFabric fun f => { f with planes := [17] }).duplicate 5 3 0x100 (.write [1, 2]) = none
      ∧ repeated.duplicate 5 4 0x100 (.write [1, 2]) = none := by
  refine ⟨?_, rfl⟩
  have q : (repeated.modFabric fun f => { f with planes := [17] }).fabric.planes = [17] := rfl
  have p : (repeated.modFabric fun f => { f with planes := [17] }).arrivalPort = 17 := by
    simp only [State.arrivalPort, q, List.length_singleton, Nat.mod_one]
    rfl
  have l : (repeated.modFabric fun f => { f with planes := [17] }).fabric.seen = [servedWrite] := rfl
  simp only [State.duplicate, l, p]
  rfl
theorem test_meets_FabricRequests_places :
    let swap : ReqKind := .atomic .swap .i32 1 0
    let again := base.modFabric fun f => { f with seen := [⟨5, 17, 3, 0x100, swap, .ok, [7, 0, 0, 0]⟩] }
    base.peerPlace 5 0xBFFFFFFFFF 2 = none ∧ hbmSize < (0xBFFFFFFFFF : BitVec 56).toNat + 2
      ∧ base.peerPlace 5 0x800000000BFFFE 2 = some (0, 0xBFFFE) ∧ base.peerPlace 5 0x800000000BFFFE 3 = none
      ∧ hbmSize < (0x800000000BFFFE : BitVec 56).toNat + 2 ∧ (base.coreAt 0).badWords = []
      ∧ base.hbmBad (0xBFFFFFFFFC / 128 * 128) 128 = false ∧ (0xBFFFFFFFFC : BitVec 56).toNat + 4 ≤ hbmSize
      ∧ Safety.stateOk again = true
      ∧ again.fabric.seen.find? (fun w => w.src == 5 && w.tag == 3 && w.addr == 0x100 && w.kind == swap)
        = some ⟨5, 17, 3, 0x100, swap, .ok, [7, 0, 0, 0]⟩ := by decide +kernel

def requestOf (who : ReqFor) (kind : ReqKind) (tgt : BitVec 3) (plane : Nat) : Request :=
  ⟨tgt != 1, true, 3, plane, tgt, 5, 0x500, 0, kind, who, 0, false⟩
def asked (r : Request) : State :=
  (withCtx (fun c => { c with pend := [⟨7, [(.s 5, 0)], true, none, 1, 0, false, 0⟩] }) base).modFabric fun f => { f with reqs := [r] }
def loadLane : GLoad := ⟨7, [(0, 0, 64, 0)], 8, false, 0x500, 1, 5, 0x500, false, false⟩
theorem test_meets_FabricResponses :
    let l := requestOf (.load 0 0 loadLane) (.read 8) 1 0
    let w := requestOf (.store 0 0) (.write [1]) 1 0
    (asked l).fabric.withTag false 3 = some l ∧ (∀ p, p ∈ (asked l).fabric.reqs → p.sent = true)
      ∧ ((asked l).ctxAt 0).behind = [] ∧ l.who = .load (asked l).coreIx 0 loadLane ∧ loadLane.cached = false
      ∧ loadLane.acq = false ∧ loadLane.w ≤ 8
      ∧ (∀ p, p ∈ ((asked l).ctxAt 0).pend → p.id = loadLane.id → p.parts = [(.s 5, 0)] ∧ p.bad = false)
      ∧ (asked w).fabric.withTag false 3 = some w ∧ w.who = .store (asked w).coreIx 0
      ∧ base.fabric.withTag false 3 = none := by decide +kernel
theorem test_meets_FabricResponses_timeouts :
    let l := requestOf (.load 0 0 loadLane) (.read 8) 1 0
    let w := requestOf (.store 0 0) (.write [1]) 1 0
    let p := requestOf (.peerStore 0 0) (.write [1]) 1 0
    let a := requestOf (.atomic 0 0 7 false false) (.atomic .add .n64 1 0) 1 0
    (∀ r, r ∈ [l, w, p, a] → (asked r).fabric.withTag false 3 = some r ∧ (∀ q, q ∈ (asked r).fabric.reqs → q.sent = true)
        ∧ ((asked r).ctxAt 0).behind = []) ∧ l.stale = false
      ∧ (∀ q, q ∈ ((asked l).ctxAt 0).pend → q.id = loadLane.id → q.parts = [(.s 5, 0)]) := by decide +kernel

theorem test_meets_FabricFaults :
    let w := requestOf (.store 0 0) (.write [1]) 3 0
    base.fabric.planes.contains 17 ∧ 2 < base.fabric.lanes[17] ∧ (18 : Nat) ∉ base.fabric.planes
      ∧ (asked w).fabric.reqs.filter (fun q => q.sent && q.tgt.toNat == 2 + 1) = [w]
      ∧ (∀ p, p ∈ (asked w).fabric.reqs → p.sent = true) ∧ w.who = .store (asked w).coreIx 0
      ∧ ((asked w).ctxAt 0).behind = []
      ∧ base.fabric.reqs.filter (fun q => q.sent && q.tgt.toNat == 2 + 0) = [] := by decide +kernel

/-! ### Launches -/

/-- A record without waits and signals, and one with a wait word at 0x500100. -/
def plainRecord : List Byte := [1, 0] ++ List.replicate 254 0
def waitRecord : List Byte := [1, 0, 1, 0] ++ List.replicate 108 0 ++ natToBytes 8 0x500100 ++ List.replicate 136 0
/-- Queue 7 enabled with a record at 0x500000, on a device that has booted. -/
def head (r : List Byte) (f : LQueue → LQueue) (s : State) : State :=
  ({ s with hbm := writeBytes s.hbm 0x500000 r }.modHub fun h => { h with boot := { h.boot with phase := 2 } }).modLQueue 7
    fun _ => f ⟨0x500000, 0x8400, 1, 0, 0, .none, 0, []⟩
def fullSlots : State := (head plainRecord id base).modHub fun h =>
  { h with slots := (List.range 256).map fun n => (n, { LSlot.reset with state := .running }) }
/-- A launch that waits in slot 1. -/
def launching (st : HeadStage) (info : LaunchInfo) (s : State) : State :=
  (head plainRecord (fun x => { x with stage := st, slot := 1 }) s).modSlot 1 fun _ =>
    { LSlot.reset with state := .waiting, queue := 7, info := info }
def infoOf (r : List Byte) (code : Nat) : LaunchInfo := { recordInfo r with code := code }
/-- A code object of 64 bytes of code and a tree of one context. -/
def treeSection : List Byte := [1, 0, 1, 0, 1, 0] ++ List.replicate 10 0 ++ [1, 0, 0, 0, 2, 0, 0, 0]
def codeHeader (n : Nat) : List Byte := [0x41, 0x5A, 0x43, 0x48, 1, 0, 0, 0] ++ natToBytes 4 64 ++ natToBytes 4 64 ++ natToBytes 4 64
  ++ natToBytes 4 0 ++ natToBytes 4 128 ++ natToBytes 4 n ++ natToBytes 4 128 ++ natToBytes 4 0 ++ natToBytes 8 0
  ++ natToBytes 8 (128 + n) ++ natToBytes 8 0
def objectOf (n : Nat) (tree : List Byte) (s : State) : State :=
  { s with hbm := writeBytes (writeBytes s.hbm 0x600000 (codeHeader n)) 0x600080 tree }
def withObject (tree : List Byte) (s : State) : State := objectOf 24 tree s
/-- A tree over two modules: a level at rack, one of modules, one of contexts. -/
def groupSection : List Byte := [1, 0, 3, 1, 2, 0] ++ List.replicate 10 0 ++ [1, 0, 0, 0, 7, 0, 0, 0] ++ [2, 0, 0, 0, 6, 0, 0, 0]
  ++ [1, 0, 0, 0, 2, 0, 0, 0]
theorem test_meets_LaunchHeads_take :
    let s := head plainRecord id base
    let z := head [] id base
    Safety.stateOk s = true ∧ s.hub.boot.phase = 2 ∧ (s.queue 7).enabled = true ∧ (s.queue 7).head ≠ (s.queue 7).tail
      ∧ (s.queue 7).stage = .none ∧ s.freeSlot = some 1 ∧ recordFault (s.headRecord 7) = none
      ∧ Safety.stateOk z = true ∧ recordFault (z.headRecord 7) = some 0 ∧ recF (z.headRecord 7) 3 1 ≤ 4
      ∧ (base.queue 7).enabled = false ∧ (base.queue 7).stage ≠ .waitWords := by decide +kernel
theorem test_meets_LaunchHeads_noSlot : Safety.stateOk fullSlots = true ∧ fullSlots.hub.boot.phase = 2
    ∧ (fullSlots.queue 7).enabled = true ∧ (fullSlots.queue 7).stage = .none ∧ fullSlots.freeSlot = none := by decide +kernel
theorem test_meets_LaunchHeads_words :
    let info := infoOf waitRecord 0x600000
    let w := { launching .waitWords info base with hbm := writeBytes base.hbm 0x500100 [0, 0, 0, 0, 0, 0, 0, 3] }
    let m := withObject treeSection (launching .waitWords info base)
    let c := launching .waitWords info base
    let t := withObject [] (launching .waitWords info base)
    let full := m.withCode info (m.hubRead info.code 64)
    Safety.stateOk w = true ∧ (w.queue 7).stage = .waitWords ∧ depFail (w.waitStates 7) = some 3
      ∧ Safety.stateOk c = true ∧ (c.queue 7).stage = .waitWords ∧ c.waitStates 7 = [.met]
      ∧ codeFault info.code (c.hubRead info.code 64) = some 1
      ∧ Safety.stateOk t = true ∧ t.waitStates 7 = [.met] ∧ codeFault info.code (t.hubRead info.code 64) = none
      ∧ treeFault (t.withCode info (t.hubRead info.code 64)).section_ = some 1
      ∧ Safety.stateOk m = true ∧ m.waitStates 7 = [.met] ∧ codeFault info.code (m.hubRead info.code 64) = none
      ∧ treeFault full.section_ = none ∧ full.tree.modules = 1 ∧ (m.lslot (m.queue 7).slot).state ≠ .empty := by decide +kernel

/-- A head of group 9 whose words are met, with a tree over two modules; and with the group's two members, which have
announced themselves with its tree. -/
def grouping : State := objectOf 40 groupSection
  (launching .waitWords { infoOf waitRecord 0x600000 with group := 9 } base)
def closed : State := grouping.modHub fun h =>
  { h with groups := [⟨9, [(5, Config.shake256 groupSection 256), (6, Config.shake256 groupSection 256)], [], [], [], 2, []⟩] }
theorem test_meets_LaunchHeads_group :
    let info := (grouping.lslot 1).info
    let full := grouping.withCode info (grouping.hubRead info.code 64)
    Safety.stateOk grouping = true ∧ (grouping.queue 7).slot = 1 ∧ grouping.waitStates 7 = [.met]
      ∧ codeFault info.code (grouping.hubRead info.code 64) = none ∧ treeFault full.section_ = none
      ∧ full.tree.modules = 2 ∧ full.group = 9 ∧ full.section_ = groupSection ∧ spanFault full.tree full.group = false
      ∧ (grouping.lslot 1).state ≠ .empty ∧ grouping.group? 9 = none := by decide +kernel
theorem test_meets_LaunchHeads_closed :
    ∃ g, closed.group? 9 = some g ∧ 2 ≤ g.members.countP fun m => m.2 == Config.shake256 groupSection 256 := by
  refine ⟨_, rfl, ?_⟩
  simp

/-- The launch's tree, on a device of which only the pod of context 0 may be used. -/
def treeInfo (t : Tree) (avoid : Byte) (len : Word64) : LaunchInfo :=
  { LaunchInfo.none with ptroot := 0x100000, instArea := 0x4000000000, instLen := len, avoid := avoid, tree := t }
def binding (n : Nat) (avoid : Byte) (len : Word64) : State :=
  { launching .bind (treeInfo ⟨0, 1, [1, n], [6, 6]⟩ avoid len) base with
    pods := (List.range 27).map fun i => (i + 1, { Pod.reset (i + 1) with active := false }) }
def bindResult (n : Nat) (avoid : Byte) : Bound :=
  (binding n avoid 0).bindSingle (treeInfo ⟨0, 1, [1, n], [6, 6]⟩ avoid 0) 1
theorem test_meets_LaunchStarts_may :
    let s := binding 1 0xFE 0x10000
    Safety.stateOk s = true ∧ (s.queue 7).stage = .bind ∧ (s.queue 7).wait ≠ 2 ∧ s.heldBack 7 = false
      ∧ s.outranked 7 = false ∧ (s.lslot 1).info.tree.modules = 1 := by decide +kernel
theorem test_meets_LaunchStarts_outcomes : bindResult 1 0xFF = .refuse 8 ∧ bindResult 17 0xFE = .refuse 8
    ∧ bindResult 16 0xFE = .later ∧ bindResult 1 0xFE = .ok [(1, [0, 0])] := by decide +kernel
def startInfo : LaunchInfo := { treeInfo ⟨0, 1, [1, 1], [6, 6]⟩ 0xFE 0x10000 with instArea := 0x4000020000 }
def starting : State := (map 0 0xC000C00000000000 (binding 1 0xFE 0x10000)).modSlot 1 fun l => { l with info := startInfo }
theorem test_meets_LaunchStarts_start :
    let need := startInfo.tree.gangs * startInfo.instSize + 65536 * startInfo.tree.size 0
    (starting.lslot 1).info = startInfo ∧ (starting.queue 7).slot = 1 ∧ starting.bindSingle startInfo 1 = .ok [(1, [0, 0])]
      ∧ startInfo.instLen.toNat = need ∧ (0xFFFF : Word64).toNat < need
      ∧ Safety.stateOk starting = true := by decide +kernel
theorem test_meets_LaunchStarts_copies : (starting.copyInstances startInfo (gangPlaces startInfo.tree [(1, [0, 0])])).2 = none := by
  decide +kernel
theorem test_meets_LaunchStarts_copied : (starting.copyInstances startInfo (gangPlaces startInfo.tree [(1, [0, 0])])).1.badHbm = []
    ∧ Mapped (starting.copyInstances startInfo (gangPlaces startInfo.tree [(1, [0, 0])])).1.hbm := by
  unfold Mapped
  decide +kernel
theorem writeCtxs_single (s : State) (info : LaunchInfo) (slot k : Nat) (cs : List Nat)
    (h : (s.writeRegs info (Ctx.atStart info slot (info.tree.node cs info.tree.gang) 0 cs)).2 = true) :
    (s.writeCtxs info slot [(k, cs)]).2 = none := by
  simp only [State.writeCtxs, List.foldl_cons, List.foldl_nil, Option.isSome_none, Bool.false_eq_true, if_false, h, if_true]
theorem start_written (s : State) (info : LaunchInfo) (gs : List GangPlace) (slot k : Nat) (cs : List Nat)
    (hr : info.ptroot = 0x100000) (h : (s.copyInstances info gs).2 = none) (hb : (s.copyInstances info gs).1.badHbm = [])
    (hm : Mapped (s.copyInstances info gs).1.hbm)
    (c : Ctx) (hc : Ctx.atStart info slot (info.tree.node cs info.tree.gang) 0 cs = c)
    (hv : ∀ n, n < 69 → inPage (c.lineAddr n) = true ∧ (c.regs.lineBytes n).length ≤ 4096) :
    ∃ s1 s2, s.copyInstances info gs = (s1, none) ∧ s1.writeCtxs info slot [(k, cs)] = (s2, none) := by
  generalize s.copyInstances info gs = r at *
  obtain ⟨s1, f⟩ := r
  cases (show f = none from h)
  have w := mapped_writeRegs s1 info c hr hm hb hv
  rw [← hc] at w
  have e := writeCtxs_single s1 info slot k cs w
  generalize hx : s1.writeCtxs info slot [(k, cs)] = x at e
  obtain ⟨s2, g⟩ := x
  cases (show g = none from e)
  exact ⟨s1, s2, rfl, hx⟩
theorem startInfo_root : startInfo.ptroot = 0x100000 := rfl
def startCtx : Ctx := Ctx.atStart startInfo 1 (startInfo.tree.node [0, 0] startInfo.tree.gang) 0 [0, 0]
theorem startCtx_lines : ∀ n, n < 69 → inPage (startCtx.lineAddr n) = true ∧ (startCtx.regs.lineBytes n).length ≤ 4096 := by
  decide +kernel
theorem test_meets_LaunchStarts_written :
    ∃ s1 s2, starting.copyInstances startInfo (gangPlaces startInfo.tree [(1, [0, 0])]) = (s1, none)
      ∧ s1.writeCtxs startInfo 1 [(1, [0, 0])] = (s2, none) :=
  start_written starting startInfo (gangPlaces startInfo.tree [(1, [0, 0])]) 1 1 [0, 0] startInfo_root
    test_meets_LaunchStarts_copies test_meets_LaunchStarts_copied.1 test_meets_LaunchStarts_copied.2 startCtx rfl startCtx_lines

theorem test_meets_LaunchStarts_retry :
    let s := binding 1 0xFF 0
    let w := s.modLQueue 7 fun x => { x with wait := 2 }
    Safety.stateOk w = true ∧ (∀ p, p ∈ w.hub.slots → p.2.resuming = []) ∧ (w.queue 7).stage = .bind ∧ (w.queue 7).wait = 2
      ∧ w.heldBack 7 = false ∧ (∀ p : Fin 8, p ≠ 7 → (w.queue p).stage = .bind → (w.queue p).wait ≠ 2)
      ∧ (∀ p : Fin 8, (s.queue p).stage = .bind → (s.queue p).wait ≠ 2)
      ∧ w.bindSingle (treeInfo ⟨0, 1, [1, 1], [6, 6]⟩ 0xFF 0) 1 = .refuse 8 := by decide +kernel

/-- The same for a head that waits: the retry refuses, waits on, finds too little instance memory, or binds. -/
def retrying (s : State) : State := s.modLQueue 7 fun x => { x with wait := 2 }
theorem test_meets_LaunchStarts_retries :
    let later := retrying (binding 16 0xFE 0)
    let poor := retrying (binding 1 0xFE 0)
    let binds := retrying starting
    (later.queue 7).stage = .bind ∧ (later.queue 7).wait = 2 ∧ later.heldBack 7 = false
      ∧ (∀ p, p ∈ later.hub.slots → p.2.resuming = [])
      ∧ (∀ p : Fin 8, p ≠ 7 → (later.queue p).stage = .bind → (later.queue p).wait ≠ 2)
      ∧ later.bindSingle (treeInfo ⟨0, 1, [1, 16], [6, 6]⟩ 0xFE 0) 1 = .later
      ∧ poor.bindSingle (treeInfo ⟨0, 1, [1, 1], [6, 6]⟩ 0xFE 0) 1 = .ok [(1, [0, 0])]
      ∧ binds.bindSingle startInfo 1 = .ok [(1, [0, 0])] ∧ (binds.lslot 1).info = startInfo ∧ binds.heldBack 7 = false
      ∧ (binds.copyInstances startInfo (gangPlaces startInfo.tree [(1, [0, 0])])).2 = none := by decide +kernel
theorem test_meets_LaunchStarts_retries_copied :
    ((retrying starting).copyInstances startInfo (gangPlaces startInfo.tree [(1, [0, 0])])).1.badHbm = []
      ∧ Mapped ((retrying starting).copyInstances startInfo (gangPlaces startInfo.tree [(1, [0, 0])])).1.hbm := by
  unfold Mapped
  decide +kernel
theorem test_meets_LaunchStarts_retries_written :
    ∃ s1 s2, (retrying starting).copyInstances startInfo (gangPlaces startInfo.tree [(1, [0, 0])]) = (s1, none)
      ∧ s1.writeCtxs startInfo 1 [(1, [0, 0])] = (s2, none) :=
  start_written (retrying starting) startInfo (gangPlaces startInfo.tree [(1, [0, 0])]) 1 1 [0, 0] startInfo_root
    test_meets_LaunchStarts_retries.2.2.2.2.2.2.2.2.2.2 test_meets_LaunchStarts_retries_copied.1
    test_meets_LaunchStarts_retries_copied.2 startCtx rfl startCtx_lines

/-- Launch slot 1, held by a queue's head in a stage, or slot 0 with the running context, in a state. -/
def ending (n : Nat) (st : LaunchState) (s : State) : State := s.modSlot n fun l => { l with state := st }
theorem test_meets_LaunchEnds :
    let r := owned base
    let w := owned (launching .waitWords LaunchInfo.none base)
    let e := ending 0 .ending base
    Safety.stateOk r = true ∧ r.reaches 0 = true ∧ r.owns 0 = true ∧ (r.lslot 0).state = .running
      ∧ Safety.stateOk w = true ∧ w.reaches 0 = true ∧ w.owns 0 = true ∧ (w.lslot 1).state = .waiting
      ∧ w.queueOfSlot 1 = some 7 ∧ (r.lslot 255).state = .empty ∧ (base.lslot 0).state ≠ .ending
      ∧ Safety.stateOk e = true ∧ (e.lslot 0).state = .ending := by decide +kernel
theorem test_meets_LaunchEnds_halts :
    let e := ending 0 .ending base
    let r := withCtx (fun c => { c with state := .ready }) e
    r.haltable 0 = [(0, 0)] ∧ (r.lslot 0).state = .ending ∧ Safety.stateOk r = true
      ∧ (e.ctxAt 0).state = .running ∧ (e.ctxAt 0).bind.lslot = 0 ∧ (e.lslot 0).state = .ending
      ∧ e.movingData 0 (e.ctxAt 0).bind.gang = false ∧ e.core.freeze = 0 ∧ e.core.tableRead = false
      ∧ (e.ctxAt 0).bubbles = 0 ∧ (e.ctxAt 0).waits.entering = none := by decide +kernel
theorem test_meets_LaunchEnds_over :
    let e := ending 0 .ending base
    (∀ c, (e.ctxAt c).state ≠ .free → c = 0) ∧ (e.ctxAt 0).state ≠ .halted
      ∧ ((e.modCtxAt 0 fun x => { x with state := .halted }).ctxAt 0).state = .halted ∧ e.launchCmds 0 = [] ∧ e.accessesOver 0 = true ∧ e.writebacksOut 0 = false
      ∧ ∀ n, n ∈ e.coresOf 0 → ∀ x, x ∈ (e.coreAt n).lines → x.lslot = 0 → x.dirty = 0 := by decide +kernel

/-- A head of group 9 in a stage, this module's part of it, and a launch of the group that runs. -/
def member (st : HeadStage) (g : Group) : State :=
  (launching st { LaunchInfo.none with group := 9 } base).modHub fun h => { h with groups := [g] }
def group9 : Group := ⟨9, [(Config.rackPosition.val, []), (144, [7])], [3], [], [(1, [0])], 2, []⟩
def started : State := base.modSlot 2 fun l => { l with state := .running, info := { l.info with group := 9 } }
theorem test_meets_GroupMessages :
    let x : Group := ⟨9, [(5, [])], [3], [], [], 2, []⟩
    let s := member .bind x
    Safety.stateOk s = true ∧ s.group? 9 = some x ∧ (∀ p, p ∈ x.members → p.1 ≠ 144) ∧ (∃ p, p ∈ x.members ∧ p.1 = 5)
      ∧ 144 ∉ x.bound ∧ s.queueOfGroup 9 = some 7 ∧ (s.queue 7).stage ≠ .announced ∧ (s.queue 7).stage ≠ .bound
      ∧ base.group? 9 = none ∧ base.queueOfGroup 9 = none ∧ Safety.stateOk started = true
      ∧ started.slotOfGroup 9 = some 2 ∧ base.slotOfGroup 9 = none := by decide +kernel
theorem test_meets_GroupMessages_more :
    let full : Group := ⟨9, [(5, [])], [3], [], [], 1, []⟩
    let open_ : Group := ⟨9, [(5, [])], [3], [], [], 0, []⟩
    let held := (member .bound full).modLQueue 2 fun q => { q with ctl := 0xC400, wait := 2 }
    let early := (base.modHub fun h => { h with groups := [full] })
    full.members.length = full.modules ∧ open_.modules = 0 ∧ (member .going full).queueOfGroup 9 = some 7
      ∧ ((member .going full).queue 7).stage = .going ∧ ((member .announced full).queue 7).stage = .announced
      ∧ (∃ p, p ∈ full.members.take 1 ∧ p.1 = 5) ∧ Safety.stateOk held = true ∧ held.queueOfGroup 9 = some 7
      ∧ (held.queue 7).stage = .bound ∧ held.heldBack 7 = true ∧ (member .bound full).heldBack 7 = false
      ∧ early.slotOfGroup 9 = none ∧ early.group? 9 = some full ∧ Safety.stateOk early = true := by decide +kernel
/-- A refusal by another member: this module leads, and its tree is the leader's; or it has announced none, and the
leader's is another. -/
theorem test_meets_GroupMessages_refused :
    let one : Group := ⟨9, [(144, [7])], [3], [], [], 2, []⟩
    let mine : Group := { one with members := [(Config.rackPosition.val, [7])] }
    let digest (x : Group) (k : Nat) : Option (List Byte) := (x.members.find? (·.1 == k)).map Prod.snd
    (member .bind one).group? 9 = some one ∧ (member .bind one).queueOfGroup 9 = some 7
      ∧ digest one Config.rackPosition.val ≠ digest one one.leader
      ∧ (member .bind mine).group? 9 = some mine ∧ (member .bind mine).queueOfGroup 9 = some 7
      ∧ mine.leader = Config.rackPosition.val := by
  have r := Config.rackPosition.isLt
  refine ⟨rfl, rfl, ?_, rfl, rfl, ?_⟩
  · have n : ((144 : Nat) == Config.rackPosition.val) = false := by simp; omega
    simp [n, Group.leader, Group.counted]
  · simp only [Group.leader, Group.counted, List.take]
    simp
theorem test_meets_GroupMessages_other : (144 : Nat) ≠ Config.rackPosition.val := by omega
theorem test_meets_GroupMessages_leader : group9.leader = Config.rackPosition.val
    ∧ (member .bind group9).group? 9 = some group9 := by
  refine ⟨?_, rfl⟩
  have := Config.rackPosition.isLt
  simp only [group9, Group.leader, Group.counted, List.take]
  simp
/-- The device owned, and a stop in progress of launch slot 0's gangs; the running context stopped; a saved image. -/
def mine : State := owned base
def slots (n : Nat) (s : State) : State := s.modHub fun h => { h with psaven := BitVec.ofNat 64 n }
def stopping (s : State) : State := s.modHub fun h => { h with stop := some ⟨⟨0, .preempt 0⟩, [(0, 0)], 1, []⟩ }
def preempted (s : State) : State := s.modCtxAt 0 fun c => { c with state := .preempted }
def image : SavedImage := ⟨0, 0, ((preempted base).coreAt 0), [], [(0, 0)]⟩
def saved : State := (mine.modCtxAt 0 fun c => { c with state := .free }).modHub fun h =>
  { h with saved := [image], psaven := 1 }
theorem test_meets_GangRequests :
    Safety.stateOk mine = true ∧ mine.reaches 0 = true ∧ mine.owns 0 = true ∧ mine.hub.stop = none ∧ mine.hub.gangs = []
      ∧ mine.noGang 0 5 = true
      ∧ mine.noGang 3 0xFFFFFFFF = false ∧ named 3 0xFFFFFFFF mine.gangsHere = [] ∧ mine.imagesOf 3 0xFFFFFFFF = []
      ∧ mine.noGang 0 0 = false ∧ named 0 0 mine.gangsHere ≠ []
      ∧ mine.saveSlots.length < (mine.coresWith (closeOver mine.coreList mine.coreList.length
        (named 0 0 mine.gangsHere))).length := by decide +kernel
theorem test_meets_GangRequests_save :
    let s := slots 1 mine
    Safety.stateOk s = true ∧ s.reaches 0 = true ∧ s.owns 0 = true ∧ s.hub.stop = none ∧ s.hub.gangs = []
      ∧ s.noGang 0 0 = false ∧ named 0 0 s.gangsHere ≠ []
      ∧ (s.coresWith (closeOver s.coreList s.coreList.length (named 0 0 s.gangsHere))).length ≤ s.saveSlots.length := by
  decide +kernel
theorem test_meets_GangRequests_resume :
    Safety.stateOk saved = true ∧ saved.reaches 0 = true ∧ saved.owns 0 = true ∧ saved.hub.stop = none
      ∧ saved.hub.gangs = [] ∧ saved.noGang 0 0 = false ∧ saved.hub.saved = [image] ∧ saved.imagesOf 0 0 = [image]
      ∧ saved.coreOpen image false image.coreIx = true ∧ (image.image.ctxs.get 0).state = .preempted
      ∧ ∀ c, (image.image.ctxs.get c).bound = true → (saved.lslot (image.image.ctxs.get c).bind.lslot).state = .running := by
  decide +kernel

theorem test_meets_GangStops :
    let s := stopping (withCtx (fun c => { c with flight := [⟨.s 5, 1, 1, 0, 0, 0⟩] }) (waiting .barrier 0 base))
    Safety.stateOk s = true ∧ s.hub.gangs = [] ∧ s.hub.stop = some ⟨⟨0, .preempt 0⟩, [(0, 0)], 1, []⟩
      ∧ base.hub.stop = none ∧ s.canStop = [(s.coreIx, 0)] ∧ (s.ctxAt 0).flight.map Flight.dest = [.s 5] := by decide +kernel
/-- A set whose context is held, with a fault that waits for it and a handler. -/
theorem test_meets_GangStops_fault :
    let s := stopping (withCtx (fun c => { c with flight := List.replicate 64 ⟨.s 5, 1, 1, 0, 0, 0⟩ })
      (faulted (waiting .barrier 0 handled)))
    Safety.stateOk s = true ∧ s.hub.gangs = [] ∧ s.canStop = [(s.coreIx, 0)] ∧ (∀ g, g ∈ (s.ctxAt 0).flight → g.dest = .s 5)
      ∧ (s.ctxAt 0).hm = false ∧ (s.ctxAt 0).waits.faults = [⟨5, 0x40⟩] ∧ (s.ctxAt 0).state = .waiting
      ∧ (s.ctxAt 0).ctrl.tvec ≠ 0 ∧ (s.ctxAt 0).flight.length = 64 := by decide +kernel
theorem test_meets_GangStops_save :
    let s := slots 1 (stopping (preempted base))
    Safety.stateOk s = true ∧ s.hub.gangs = [] ∧ s.hub.stop = some ⟨⟨0, .preempt 0⟩, [(0, 0)], 1, []⟩ ∧ s.canStop = []
      ∧ s.stopCores ⟨⟨0, .preempt 0⟩, [(0, 0)], 1, []⟩ = [0]
      ∧ (∀ c, (s.ctxOf 0 c).state ≠ .free → (s.ctxOf 0 c).state = .preempted) ∧ (s.coreAt 0).lines = []
      ∧ s.coreQuiet 0 = true ∧ s.saveSlots.head? = some 0 := by decide +kernel
theorem test_meets_GangStops_slot :
    let s := slots 2 (stopping (preempted base))
    let t := s.modHub fun h => { h with saved := [image] }
    s.saveSlots = [0, 1] ∧ t.saveSlots.head? = some 1 ∧ t.hub.stop = some ⟨⟨0, .preempt 0⟩, [(0, 0)], 1, []⟩
      ∧ t.hub.psaveb.extractLsb' 0 56 = 0 := by decide +kernel
theorem test_meets_GangStops_pods :
    let f := base.modHub fun h => { h with ecc := { h.ecc with pods := [32 * 7 + 31] } }
    let failed := base.modHub fun h => { h with ecc := { h.ecc with pods := base.hub.ecc.pods ++ [32 * 1 + 0] } }
    let on (pod i : Nat) : Bool := (base.podAt (28 * 1 + i)).active && (base.podAt (28 * 1 + i)).phys == pod
    Safety.stateOk f = true ∧ (32 * 7 + 31) ∈ f.hub.ecc.pods ∧ (32 * 1 + 31) ∉ base.hub.ecc.pods
      ∧ (List.range 28).find? (on 31) = none ∧ (List.range 28).find? (on 0) = some 0
      ∧ (failed.spare 1).isSome = true ∧ base.pods.Pairwise (fun a b => a.1 < b.1)
      ∧ (∀ k, k < 4 → (base.coreAt (4 * 28 + k)).gangs = []) := by decide +kernel

theorem test_meets_OwnerOnly :
    let s := base.modHub fun h => { h with hosts := h.hosts.set 0 ⟨true, 16, 128, false⟩ }
    base.owns 0 = false ∧ base.reaches 0 = false ∧ base.hub.boot.phase ≠ 3 ∧ s.owns 0 = false ∧ s.reaches 0 = true
      ∧ base.owns 2 = false ∧ base.reaches 2 = true := by decide +kernel

def busyDump : State := mine.modCore fun k => { k with trace := { k.trace with dumpBusy := true, dumpBase := 0xBFFFFC0000 } }
theorem test_meets_OwnerWrites :
    Safety.stateOk mine = true ∧ mine.reaches 0 = true ∧ mine.owns 0 = true
      ∧ (16 : Word64) >>> 32 = 0 ∧ ((16 : Word32) - (mine.queue 7).head).toNat ≤ 2 ^ (mine.queue 7).log2n
      ∧ 2 ^ (mine.queue 7).log2n < ((17 : Word32) - (mine.queue 7).head).toNat ∧ (0x100000000 : Word64) >>> 32 ≠ 0
      ∧ (0x8000 : Word64).getLsbD 15 = true ∧ mine.hub.boot.phase ≠ 3
      ∧ ((0x1000 : Word64).getLsbD 15 = false ∧ (0x1000 : Word64) &&& 0xFFFFFFFFFFFF20FF = 0
        ∧ ((0x1000 : Word64).extractLsb' 8 5).toNat = 16 ∧ (mine.queue 7).enabled = false)
      ∧ ((0x300 : Word64).extractLsb' 8 5).toNat < 4 ∧ (1 : Word64) &&& 0xFFFFFFFFFFFF20FF ≠ 0 := by decide +kernel
/-- The head of queue 7 has its group's go. -/
def gone : State := mine.modLQueue 7 fun q => { q with stage := .going }
theorem test_meets_OwnerWrites_going :
    Safety.stateOk gone = true ∧ gone.reaches 0 = true ∧ gone.owns 0 = true ∧ gone.hub.boot.phase ≠ 3
      ∧ (gone.queue 7).stage = .going ∧ (mine.queue 7).stage ≠ .going ∧ (0x1000 : Word64).getLsbD 15 = false
      ∧ (0x1000 : Word64) &&& 0xFFFFFFFFFFFF20FF = 0 ∧ ((0x1000 : Word64).extractLsb' 8 5).toNat = 16
      ∧ (gone.queue 7).enabled = false := by decide +kernel
theorem test_meets_OwnerWrites_queues :
    let s := mine.modHub fun h => { h with hqueues := tset HQueue.reset h.hqueues 1 { HQueue.reset with cfg := 0x1400 } }
    Tab.wf HQueue.reset mine.hub.hqueues = true ∧ Tab.wf HQueue.reset s.hub.hqueues = true
      ∧ (mine.hqueue 4095).cfg &&& 0xFFFFFF007F00600F = 0 ∧ 4 ≤ ((mine.hqueue 4095).cfg.extractLsb' 8 5).toNat
      ∧ (s.hqueue 1).cfg &&& 0xFFFFFF007F00600F = 0 ∧ ((s.hqueue 1).cfg.extractLsb' 8 5).toNat = 20
      ∧ Safety.stateOk s = true ∧ s.owns 0 = true ∧ s.reaches 0 = true := by decide +kernel
theorem test_meets_OwnerWrites_rest :
    let x := mine.modHub fun h => { h with xlinv := { h.xlinv with busy := true } }
    mine.hub.xlinv.busy = false ∧ ((0xFFFFFFFFFF : Word64).extractLsb' 40 22).toNat = 0
      ∧ x.hub.xlinv.busy = true ∧ x.usesRemoved = false ∧ Safety.stateOk x = true
      ∧ (0xB0FF000000003FFF : Word64) &&& 0x4F00FFFFFFFFC000 = 0 ∧ (mine.coreAt 895).trace.dumpBusy = false
      ∧ (0xBFFFFC0000 : Word64) &&& 0x7F0000000003FFFF = 0
      ∧ ((0xBFFFFC0000 : Word64).setWidth 56).toNat + 0x40000 ≤ hbmSize
      ∧ (0xC000000000 : Word64) &&& 0x7F0000000003FFFF = 0
      ∧ hbmSize < ((0xC000000000 : Word64).setWidth 56).toNat + 0x40000
      ∧ Safety.stateOk busyDump = true ∧ busyDump.reaches 0 = true ∧ busyDump.owns 0 = true
      ∧ (busyDump.coreAt 0).trace.dumpBusy = true ∧ (busyDump.coreAt 0).trace.dumpBase.toNat % 128 = 0
      ∧ tget (0, 0) (busyDump.coreAt 0).trace.entries 16383 = tget (0, 0) (busyDump.coreAt 0).trace.atDump 16383 := by
  decide +kernel

theorem test_meets_StateWindow :
    let s := mine.modCtxAt 1 fun c => { c with state := .idle }
    s.reaches 0 = true ∧ s.owns 0 = true ∧ s.savesBusy = false ∧ (0xFFFFFFFFE00000 : Word64) &&& 0xFF000000001FFFFF = 0
      ∧ (1024 : Word64) ≤ 1024 ∧ 300 ≤ ((300 : Word64).setWidth 16 : BitVec 16).toNat
      ∧ ((640 : Word64).setWidth 16 : BitVec 16).toNat ≤ 640 ∧ 1 / 4 = s.coreIx ∧ (s.ctxNo 1).state = .idle
      ∧ (0xFFFFFFFFFFFFF8 : Word64) &&& 0xFF00000000000007 = 0 ∧ s.hub.boot.phase ≠ 3
      ∧ hbmSize < 0xBFFFFFFFFF + [(1 : Byte), 2].length ∧ 0xBFFFFFFFFE + [(1 : Byte), 2].length ≤ hbmSize
      ∧ Safety.stateOk s = true ∧ s.badHbm = [] ∧ (0x7FFF : Word64).getLsbD 15 = false := by decide +kernel

/-- A write of STATUS and of a loop entry in a context slot: every writable bit, a read-only bit beside them, a reserved one. -/
theorem test_meets_StateWindow_slots :
    let s := mine.modCtxAt 1 fun c => { c with state := .idle }
    let v : Word64 := 0xFFFFFFFF0000000A
    (s.ctxNo 1).state = .idle ∧ (s.ctxNo 1).waits.faults = [] ∧ v.extractLsb' 4 28 = 0 ∧ v &&& 5 = 0
      ∧ (1 : Word64).extractLsb' 4 28 = 0 ∧ (1 : Word64) &&& 5 ≠ 0 ∧ (1 : Word64) &&& 5 ≠ (s.ctxNo 1).ctrl.status &&& 5
      ∧ (0xE0FFFFFFFFFFFFF8 : Word64) &&& 0x1F00000000000007 = 0 ∧ (0x00FFFFFFFFFFFFF8 : Word64) &&& 0xFF00000000000007 = 0
      ∧ (1 : Word64) &&& 0x1F00000000000007 ≠ 0 := by decide +kernel

theorem test_meets_StateWindow_halves :
    let v : Word64 := 0x1F4
    let w : Word64 := 0x501F4
    mine.reaches 0 = true ∧ mine.owns 0 = true ∧ 300 ≤ (v.setWidth 16 : BitVec 16).toNat
      ∧ (v.setWidth 16 : BitVec 16).toNat ≤ 640 ∧ v.extractLsb' 16 16 = 0 ∧ w.extractLsb' 16 16 ≠ 0
      ∧ w.extractLsb' 16 16 ≠ mine.hub.power.meas ∧ 300 ≤ (w.setWidth 16 : BitVec 16).toNat
      ∧ (w.setWidth 16 : BitVec 16).toNat ≤ 640 ∧ 0x13FC < 0x1400 ∧ 0x13F8 % 8 = 0 ∧ 0x1800 % 8 = 0 := by decide +kernel

theorem test_meets_Ownership : base.reaches 2 = true ∧ mine.reaches 0 = true := by decide +kernel

theorem test_meets_Islands :
    let x := mine.modHub fun h => { h with power := { h.power with islands := [(3, { Island.reset with cause := 3 })] } }
    Tab.wf Island.reset mine.hub.power.islands = true ∧ mine.reaches 0 = true ∧ mine.owns 0 = true
      ∧ (0x00800000 : BitVec 32) &&& 0x00E0FF00 ≠ 0
      ∧ (0x00130000 : BitVec 32) &&& 0x00E0FF00 = 0 ∧ 18 < ((0x00130000 : BitVec 32).extractLsb' 16 5).toNat
      ∧ (0x80120000 : BitVec 32) &&& 0x00E0FF00 = 0 ∧ ((0x80120000 : BitVec 32).extractLsb' 16 5).toNat = 18
      ∧ (0 : BitVec 32) &&& 0x00E0FF00 = 0 ∧ ((0 : BitVec 32).extractLsb' 16 5).toNat < (mine.island 255).cur
      ∧ Tab.wf Island.reset x.hub.power.islands = true ∧ (x.island 3).cause = 3 ∧ (x.island 4).cause ≠ 3 := by
  decide +kernel
theorem test_meets_Islands_power :
    let low := mine.modHub fun h => { h with power := { h.power with islands := [(224, { Island.reset with cur := 5 })] } }
    let pin := mine.modHub fun h => { h with power := { h.power with islands := [(3, { Island.reset with pin := true })] } }
    let cap := mine.hub.power.cap.toNat
    Tab.wf Island.reset low.hub.power.islands = true ∧ (low.island 224).cur < 18 ∧ cap < (641 : BitVec 16).toNat
      ∧ Tab.wf Island.reset pin.hub.power.islands = true ∧ (pin.island 3).pin = true
      ∧ ¬ ((pin.island 4).pin = true ∨ (pin.island 4).cur = 0)
      ∧ 100 * (627 : BitVec 16).toNat < 98 * cap ∧ 98 * cap ≤ 100 * (628 : BitVec 16).toNat ∧ (640 : BitVec 16).toNat ≤ cap
      ∧ 3 ∉ mine.hub.power.hot ∧ mine.hub.own.state = .owned ∧ 1 < mine.hub.own.lease.toNat ∧ base.hub.own.state = .free
      := by decide +kernel
theorem test_meets_Islands_owner :
    let l (n : BitVec 16) (a : Nat) : State := mine.modHub fun h => { h with own := { h.own with state := .handover, lease := n, accept := a } }
    (l 1 5).hub.own.state ≠ .free ∧ (l 1 5).hub.own.lease.toNat ≤ 1
      ∧ (l 2 1).hub.own.state = .handover ∧ 1 < (l 2 1).hub.own.lease.toNat ∧ (l 2 1).hub.own.accept ≤ 1
      ∧ 1 < (l 2 2).hub.own.accept := by decide +kernel

/-- Islands with a change that falls due, and a running core that is frozen and so not at a bundle boundary. -/
theorem test_meets_Islands_due :
    let put (i : Nat) (x : Island) (s : State) : State := s.modHub fun h => { h with power := { h.power with islands := [(i, x)] } }
    let d := put 3 { Island.reset with due := some (17, 1) } mine
    let c := put 3 { Island.reset with cause := 3 } mine
    let hot := put 0 { Island.reset with cur := 5 } (mine.modCore fun k => { k with freeze := 2 })
    let low := put 224 { Island.reset with cur := 5 } mine
    let still (s : State) (i : Nat) : Bool := (List.range 4).all fun j =>
      (s.coreAt (4 * i + j)).running.all ((s.coreAt (4 * i + j)).atBoundary ·)
    Tab.wf Island.reset d.hub.power.islands = true ∧ still d 3 = true ∧ (d.island 3).due = some (17, 1)
      ∧ still c 3 = true ∧ (c.island 3).due = none ∧ (c.island 3).cause = 3
      ∧ Tab.wf Island.reset hot.hub.power.islands = true ∧ (hot.coreAt 0).running = some 0
      ∧ (hot.coreAt 0).atBoundary 0 = false ∧ still hot 0 = false ∧ (hot.island 0).due = none ∧ 0 < (hot.island 0).cur
      ∧ still mine 4 = true ∧ (mine.island 4).due = none ∧ (mine.island 4).cause ≠ 3
      ∧ (low.island 224).cur < ((0x00120000 : BitVec 32).extractLsb' 16 5).toNat
      ∧ (0x00120000 : BitVec 32) &&& 0x7F0000FF = 0 ∧ low.reaches 0 = true ∧ low.owns 0 = true := by decide +kernel
theorem test_meets_Islands_stuck :
    let s := mine.modHub fun h => { h with power := { h.power with
      islands := (List.range 224).map fun i => (i, { Island.reset with pin := true }) } }
    Tab.wf Island.reset s.hub.power.islands = true
      ∧ ((List.range 224).all fun j => (s.island j).pin || (s.island j).cur == 0) = true := by decide +kernel

theorem test_meets_ErrorsAndSpares_rows :
    let e : Ecc := { mine.hub.ecc with corrected := List.replicate 16 (0, .hbm 0) }
    mine.hub.ecc.rowErrors 5 < 16 ∧ mine.hub.ecc.now = 0 ∧ 16 ≤ e.rowErrors (0 + 12 * Config.rowOf 0) := by
  refine ⟨by decide, rfl, ?_⟩
  have h : mine.hub.ecc.now = 0 := rfl
  simp [Ecc.rowErrors, h, rowOfUnit, stackOf]
theorem test_meets_ErrorsAndSpares_stack : (11 : Nat) ≤ 11 ∧ (11 : Nat) < 12 ∧ 4 / 4 ∈ [1] ∧ 128 * (4 / 4) < hbmSize
    ∧ 128 * (4 / 4) / 2048 % 12 = 0 ∧ Config.channelOf (4 * (4 / 4)) = Config.channelOf 4 := by
  refine ⟨?_, ?_, ?_, ?_, ?_, rfl⟩ <;> decide
theorem test_meets_ErrorsAndSpares_places :
    let c : Ctx → Ctx := fun c =>
      { c with badRegs := [2207], latent := [⟨⟨.s 5, 1, 1, 0, 0, 0⟩, false, true, true⟩] }
    let s := (withCtx c broken).modCore fun k => { k with lines := [{ lineOf with bad := 0x8000 }], badWords := [1], badTile := [2] }
    let q := queue [badMsg] [] [] 5 base
    2207 ∈ (s.ctxAt 0).badRegs ∧ ((s.ctxAt 0).latent[0]?).map Latent.bad = some true
      ∧ s.core.lines.map (·.bad.getLsbD 15) = [true] ∧ 1 ∈ s.core.badWords ∧ 2 ∈ s.core.badTile ∧ 8 ∈ s.badHbm
      ∧ (q.hub.hqueues.map fun (n, h) => (n, h.onchip.map (·.bad.getLsbD 1))) = [(0, [true])] := by decide +kernel

theorem test_meets_BootAndAttestation :
    let three := base.modHub fun h => { h with boot := { h.boot with phase := 3 } }
    let y : BootImage := ⟨[], 0, [], [], false⟩
    mine.hub.boot.phase = 2 ∧ three.hub.boot.phase = 3 ∧ base.hub.boot.phase ≠ 2 ∧ base.hub.boot.phase ≠ 3
      ∧ y.wellFormed ≠ true ∧ base.transportUp .mctp = true ∧ base.transportUp .doeH0 = false := by decide +kernel
/-- An image that is well formed passes a later stage where the opaque signature check and the fused version say so. -/
theorem test_meets_BootAndAttestation_stages (key : List Byte) (stage : Nat) (h : Config.minVersion stage ≤ 7)
    (v : Config.slhDsaVerify key [] [] = true) (p : stage ≠ 1) :
    let y : BootImage := ⟨[], 7, [], key, true⟩
    y.wellFormed = true ∧ (stage = 1 → Config.shake256 y.key 512 = Config.fusedKeyHash)
      ∧ (stage ≠ 5 → Config.slhDsaVerify key y.bytes y.signature = true ∧ Config.minVersion stage ≤ y.version) :=
  ⟨rfl, fun q => absurd q p, fun _ => ⟨v, h⟩⟩
theorem test_meets_BootAndAttestation_held :
    let d := base.modHub fun h => { h with spdm := h.spdm.set 2 { h.spdm.get 2 with deferred := [1], chunks := [1, 2] } }
    let x (s : State) := s.hub.spdm.get (spdmIx .mctp)
    (x base).deferred = [] ∧ (x base).chunks = [] ∧ (x d).deferred ≠ [] ∧ (x d).chunks ≠ [] ∧ 0 = (x d).next
      ∧ 1 ≠ (x d).next := by decide +kernel

theorem test_meets_DecodeOfEncode : (⟨0, false, 3, .add false false ⟨5, 6, 7, .i64⟩⟩ : Syllable).wf = true := by decide +kernel

theorem test_meets_StepRunsEvents :
    let s : State := { base with agenda := [⟨0, .leaseExpiry⟩, ⟨0, .nop⟩] }
    s.agenda = ⟨0, .leaseExpiry⟩ :: [⟨0, .nop⟩] ∧ isEvent .leaseExpiry = true ∧ isEvent .nop = false := by decide +kernel

/-- Ownership events at the head of the agenda: the lease first, then the master of the lower id; not what stands behind
another event. -/
theorem test_meets_StepRunsEvents_order :
    let a : List Event := [⟨0, .ownRelease 1 0⟩, ⟨0, .ownClaim 0 0 10⟩, ⟨0, .xlatInvalidateDone⟩, ⟨0, .leaseExpiry⟩]
    let b : List Event := [⟨0, .ownRelease 1 0⟩, ⟨0, .leaseExpiry⟩, ⟨0, .handoverTimeout⟩]
    agendaPick a = 1 ∧ agendaPick b = 1 ∧ agendaPick [⟨0, .xlatInvalidateDone⟩, ⟨0, .leaseExpiry⟩] = 0
      ∧ ownRank (.ownRelease 1 0) = some 2 ∧ ownRank .leaseExpiry = some 0 ∧ ownRank .xlatInvalidateDone = none
      ∧ (base.flitOf (.readRequestReceive 5 3 0 8)).map Arrival.vc = some (some 0) ∧ base.flitOf .leaseExpiry = none := by decide +kernel

theorem test_meets_StepKeepsStateOk : Safety.stateOk base = true ∧ gives (step base) (fun _ => true) = true := by
  decide +kernel

/-- The premises of the statement of a syllable's step, for context 0. -/
def stepPremises (s : State) (y : Syllable) : Bool :=
  let s0 := ({ s with turn := true } : State).beginCycle
  let s1 := (((s0.modCtxAt 0 Ctx.replay).landCycle).present 0 0).modFr fun f => { f with preland := some (s0.ctxAt 0) }
  decide (s.agenda = []) && s.turn == false && decide (s0.core.freeze = 0) && s0.core.tableRead == false
    && s0.core.running == some 0 && s0.core.sliceDue == false && decide ((s0.ctxAt 0).waits.entering = none)
    && decide ((s0.ctxAt 0).bubbles = 0) && s0.mustStop 0 == false && decide (s1.ctx.waits.faults = [])
    && decide (s1.ctx.waits.lateErr = none) && s1.ctx.resident == BitVec.allOnes 69 && s1.ctx.badRegs == [] && decide (s1.ctx.pend = [])
    && decide (s1.ctx.poison = []) && y.wf && ((vecHdr y.instr).all fun h => !h.ch)
    && (match s1.fetchWords s1.fr.pc 16 with
      | .inl (ws, true) => ws == encode y true
      | _ => false)
/-- The state in which such a syllable is judged, and whether its guard is true. -/
def judgedIn (s : State) (y : Syllable) : State × Bool :=
  let s0 := ({ s with turn := true } : State).beginCycle
  let s1 := (((s0.modCtxAt 0 Ctx.replay).landCycle).present 0 0).modFr fun f => { f with preland := some (s0.ctxAt 0) }
  let ws := encode y true
  let s2 := s1.modFr fun f => { f with next := s1.fr.pc + BitVec.ofNat 64 (8 * ws.length) }
  let p : Placed := ⟨0, ws.headD 0, y⟩
  ((s2.onSyllable p).modFr fun f => { f with tags := 0, touched := [] }, s2.guardTrue p)
def nopIf (p : BitVec 4) (n : Bool) : Syllable := ⟨0, n, p, .nop⟩
/-- YIELD alone in its bundle. -/
def yielding : State := State.reset.withFetchWord 64 0xD002100000000000
def yieldS : Syllable := ⟨10, false, 0, .yield⟩
/-- XMPS.n32 x30, x1, s0, s31 alone in its bundle. -/
def stepping : State := State.reset.withFetchWord 64 0xC001378101F00060
def xmpsS : Syllable := ⟨8, false, 0, .xmps ⟨30, 1, 0, 31, .n32⟩⟩
theorem test_meets_StepRunsSyllable :
    stepPremises stepping xmpsS = true ∧ (judgedIn stepping xmpsS).2 = true ∧ alwaysProceeds xmpsS.slot = true
      ∧ stepPremises skipped (nopIf 1 false) = true ∧ (judgedIn skipped (nopIf 1 false)).2 = false
      ∧ (chainDest (nopIf 1 false).instr).isNone = true := by decide +kernel
theorem test_meets_StepRunsSyllable_judged :
    stepPremises yielding yieldS = true ∧ (judgedIn yielding yieldS).2 = true ∧ alwaysProceeds yieldS.slot = false
      ∧ gives (exec yieldS.instr (judgedIn yielding yieldS).1) (fun u => u.fr.verdict == .proceed) = true := by
  decide +kernel

/-- Two syllables at the pc: the premises of the statement of a bundle, whether they stand in slot order, and whether they
clash. -/
def bundleFacts (s : State) (y z : Syllable) : Bool × Bool × Bool :=
  let s0 := ({ s with turn := true } : State).beginCycle
  let s1 := (((s0.modCtxAt 0 Ctx.replay).landCycle).present 0 0).modFr fun f => { f with preland := some (s0.ctxAt 0) }
  let w1 := encode y false
  let w2 := encode z true
  let p : Placed := ⟨0, w1.headD 0, y⟩
  let q : Placed := ⟨w1.length, w2.headD 0, z⟩
  (decide (s.agenda = []) && s.turn == false && decide (s0.core.freeze = 0) && s0.core.tableRead == false
      && s0.core.running == some 0 && s0.core.sliceDue == false && decide ((s0.ctxAt 0).waits.entering = none)
      && decide ((s0.ctxAt 0).bubbles = 0) && s0.mustStop 0 == false && decide (s1.ctx.waits.faults = [])
      && decide (s1.ctx.waits.lateErr = none) && s1.ctx.resident == BitVec.allOnes 69 && decide (s1.ctx.badRegs = [])
      && decide (s1.ctx.pend = []) && decide (s1.ctx.poison = []) && y.wf && z.wf && ((vecHdr y.instr).all fun h => !h.ch)
      && ((vecHdr z.instr).all fun h => !h.ch)
      && (match s1.fetchWords s1.fr.pc 16 with
        | .inl (ws, true) => ws == w1 ++ w2
        | _ => false),
    decide (y.slot.toNat < z.slot.toNat ∨ (y.slot = z.slot ∧ 2 ≤ y.slot.toNat ∧ y.slot.toNat ≤ 4)),
    usesClash (sylUses y) (sylUses z) || decide (y.slot = z.slot ∧ p.gm &&& q.gm ≠ 0))
/-- How each of two syllables is judged, where both guards are true and the first of them changes no tag. -/
def bundleVerdicts (s : State) (y z : Syllable) : Bool × Option Verdict × Option Verdict :=
  let s0 := ({ s with turn := true } : State).beginCycle
  let s1 := (((s0.modCtxAt 0 Ctx.replay).landCycle).present 0 0).modFr fun f => { f with preland := some (s0.ctxAt 0) }
  let w1 := encode y false
  let w2 := encode z true
  let p : Placed := ⟨0, w1.headD 0, y⟩
  let q : Placed := ⟨w1.length, w2.headD 0, z⟩
  let s2 := s1.modFr fun f => { f with next := s1.fr.pc + BitVec.ofNat 64 (8 * (w1 ++ w2).length) }
  let verdict (x : Placed) : Option Verdict :=
    match exec x.syl.instr ((s2.onSyllable x).modFr fun f => { f with tags := 0, touched := [] }) with
    | .next u => some u.fr.verdict
    | .fault _ | .refused _ => none
  (s2.guardTrue p && s2.guardTrue q, verdict p, verdict q)
def pairAt (y z : Syllable) : State := { base with hbm := placeMemory State.reset.hbm (encode y false ++ encode z true) }
def addS (slot : BitVec 4) (d : Reg) : Syllable := ⟨slot, false, 0, .addi ⟨d, 1, 5, none⟩⟩
def loadS : Syllable := ⟨6, false, 0, .ldg ⟨5, ⟨1, 0, none⟩, .n32⟩⟩
theorem test_meets_StepRunsBundle :
    bundleFacts (pairAt (addS 0 5) yieldS) (addS 0 5) yieldS = (true, true, false)
      ∧ bundleVerdicts (pairAt (addS 0 5) yieldS) (addS 0 5) yieldS = (true, some .proceed, some .proceed)
      ∧ alwaysProceeds 0 = false ∧ alwaysProceeds 8 = true ∧ alwaysProceeds 6 = false ∧ alwaysProceeds 10 = false
      ∧ bundleFacts (pairAt (addS 1 5) (addS 0 6)) (addS 1 5) (addS 0 6) = (true, false, false)
      ∧ bundleFacts (pairAt (addS 0 5) (addS 1 5)) (addS 0 5) (addS 1 5) = (true, true, true)
      ∧ bundleFacts (pairAt (addS 0 6) loadS) (addS 0 6) loadS = (true, true, false)
      ∧ bundleVerdicts (pairAt (addS 0 6) loadS) (addS 0 6) loadS = (true, some .proceed, some .trapped)
      ∧ bundleFacts (pairAt loadS yieldS) loadS yieldS = (true, true, false)
      ∧ bundleVerdicts (pairAt loadS yieldS) loadS yieldS = (true, some .trapped, some .proceed) := by decide +kernel
/-- A load that its page keeps from its data, and a transfer command whose queue is full. -/
def copyAtPc : Syllable := ⟨9, false, 0, .xcopy 20 4⟩
theorem test_meets_StepRunsSyllable_trapped :
    stepPremises (State.reset.withFetchWord 64 ((encode loadS true).headD 0).toNat) loadS = true
      ∧ gives (exec loadS.instr (judgedIn (State.reset.withFetchWord 64 ((encode loadS true).headD 0).toNat) loadS).1)
        (fun u => u.fr.verdict == .trapped) = true := by decide +kernel
theorem test_meets_StepRunsSyllable_frozen :
    let s := onCopy (eight .xcopy) (State.reset.withFetchWord 64 ((encode copyAtPc true).headD 0).toNat)
    stepPremises s copyAtPc = true
      ∧ gives (exec copyAtPc.instr (judgedIn s copyAtPc).1)
        (fun u => u.fr.verdict == .frozen .scoreboard && u.core.fills == []) = true := by decide +kernel

end Sys2Proof.Tests
end

section
/-!
SUPPORT. What the state window and BAR2 do for a master (R56, R57, R63 to R67, R80): writes of a master that is not the
owner, the register at each offset, and the bytes that BAR2 writes.
-/

namespace Sys2Proof.Machine

/-! ## Masks and bit fields -/

/-- A field whose bits all lie in a mask is 0 where the masked word is. -/
theorem bits_eq_zero_of_and_eq_zero {v mask : Word64} {lo n : Nat} (h : v &&& mask = 0)
    (hm : ∀ i, i < n → mask.getLsbD (lo + i) = true) : bits v lo n = 0 := by
  have e : v.extractLsb' lo n = 0 := by
    apply BitVec.eq_of_getLsbD_eq
    intro i hi
    have hb : (v &&& mask).getLsbD (lo + i) = false := by rw [h]; simp
    simp only [BitVec.getLsbD_and, hm i hi, Bool.and_true] at hb
    simp [hi, hb]
  simp [bits, e]

/-- Two words agree under the mask of a field exactly where they agree in the field. -/
theorem and_eq_and_iff_extract {v w mask : Word64} {lo n : Nat}
    (hm : ∀ i, i < 64 → mask.getLsbD i = decide (lo ≤ i ∧ i < lo + n)) :
    v &&& mask = w &&& mask ↔ v.extractLsb' lo n = w.extractLsb' lo n := by
  constructor
  · intro h
    apply BitVec.eq_of_getLsbD_eq
    intro i hi
    have hb := congrArg (fun x => BitVec.getLsbD x (lo + i)) h
    by_cases hlt : lo + i < 64
    · simpa [hm (lo + i) hlt, hi] using hb
    · simp [BitVec.getLsbD_of_ge _ _ (Nat.le_of_not_lt hlt)]
  · intro h
    apply BitVec.eq_of_getLsbD_eq
    intro i hi
    simp only [BitVec.getLsbD_and, hm i hi]
    by_cases hin : lo ≤ i ∧ i < lo + n
    · have hb := congrArg (fun x => BitVec.getLsbD x (i - lo)) h
      have hlt : i - lo < n := by omega
      simp only [BitVec.getLsbD_extractLsb', hlt, decide_true, Bool.true_and, Nat.add_sub_cancel' hin.1] at hb
      rw [hb]
    · simp [hin]

/-! ## Writes that are dropped (R57, R66) -/

/-- The place in WSTAT of the count of a dropped write. -/
def Dropped.place : Dropped → Nat
  | .owner => 0
  | .state => 16
  | .malformed => 32

variable (s : State) (m : Nat)

/-- A dropped write changes the hub in its master's word of WSTAT only. -/
theorem State.drop_eq (why : Dropped) : s.drop m why =
    let t := s.modHub fun h => { h with own := { h.own with
      wstat := h.own.wstat.setIfInBounds m (bumpCount (h.own.wstat.toList.getD m 0) why.place) } }
    if m = 2 ∧ why = .owner then t.emit (.mctp 0x82) else t := by
  cases why <;> rfl

theorem State.drop_hub (why : Dropped) : (s.drop m why).hub = { s.hub with own := { s.hub.own with
    wstat := s.hub.own.wstat.setIfInBounds m (bumpCount (s.hub.own.wstat.toList.getD m 0) why.place) } } := by
  rw [State.drop_eq]; dsimp only; split <;> rfl

@[simp] theorem State.drop_core (why : Dropped) : (s.drop m why).core = s.core := by
  rw [State.drop_eq]; dsimp only; split <;> rfl
@[simp] theorem State.drop_coreIx (why : Dropped) : (s.drop m why).coreIx = s.coreIx := by
  rw [State.drop_eq]; dsimp only; split <;> rfl
@[simp] theorem State.drop_others (why : Dropped) : (s.drop m why).others = s.others := by
  rw [State.drop_eq]; dsimp only; split <;> rfl
@[simp] theorem State.drop_hbm (why : Dropped) : (s.drop m why).hbm = s.hbm := by
  rw [State.drop_eq]; dsimp only; split <;> rfl

/-- Only the management controller is told, and only of a write that it may not make (R66). -/
theorem State.drop_owner_out : (s.drop m .owner).fabric.out = s.fabric.out ++ (if m = 2 then [.mctp 0x82] else []) := by
  by_cases h : m = 2 <;> simp [State.drop_eq, h]

/-- A dropped write is counted for its master and for no other. -/
theorem State.drop_wstat (why : Dropped) (k : Fin 3) : (s.drop m why).hub.own.wstat.get k =
    if k.val = m then bumpCount (s.hub.own.wstat.get k) why.place else s.hub.own.wstat.get k := by
  rw [State.drop_hub]
  show (s.hub.own.wstat.setIfInBounds m (bumpCount (s.hub.own.wstat.toList.getD m 0) why.place))[k.val]
    = if k.val = m then bumpCount s.hub.own.wstat[k.val] why.place else s.hub.own.wstat[k.val]
  rw [Vector.getElem_setIfInBounds]
  by_cases h : k.val = m
  · subst h
    have entry : s.hub.own.wstat.toList.getD k.val 0 = s.hub.own.wstat[k.val] := by
      simp only [List.getD_eq_getElem?_getD, Vector.getElem?_toList, Vector.getElem?_eq_getElem k.isLt,
        Option.getD_some]
    rw [if_pos rfl, if_pos rfl, entry]
  · rw [if_neg (fun e => h e.symm), if_neg h]

theorem toNat_add_one_shiftLeft (w : Word64) (lo : Nat) :
    (w + ((1 <<< lo : Nat) : Word64)).toNat = (w.toNat + 2 ^ lo) % 2 ^ 64 := by
  rw [BitVec.toNat_add, BitVec.natCast_eq_ofNat, BitVec.toNat_ofNat, Nat.add_mod_mod, Nat.one_shiftLeft]

/-- A count of WSTAT rises by one up to 65535. -/
theorem bumpCount_count (w : Word64) (why : Dropped) : ((bumpCount w why.place).extractLsb' why.place 16).toNat
    = min ((w.extractLsb' why.place 16).toNat + 1) 65535 := by
  have hlo : why.place = 0 ∨ why.place = 16 ∨ why.place = 32 := by cases why <;> decide
  generalize why.place = lo at hlo ⊢
  unfold bumpCount bits
  by_cases full : (w.extractLsb' lo 16).toNat = 65535
  · rw [if_pos full]
    omega
  · rw [if_neg full]
    rw [BitVec.extractLsb'_toNat, Nat.shiftRight_eq_div_pow] at full ⊢
    rw [BitVec.extractLsb'_toNat, Nat.shiftRight_eq_div_pow, toNat_add_one_shiftLeft]
    obtain rfl | rfl | rfl := hlo <;> omega

/-- The count of the writes that lacked ownership does not run into the other two. -/
theorem bumpCount_owner_others (w : Word64) : (bumpCount w 0).extractLsb' 16 48 = w.extractLsb' 16 48 := by
  unfold bumpCount bits
  by_cases full : (w.extractLsb' 0 16).toNat = 65535
  · rw [if_pos full]
  · rw [if_neg full]
    apply BitVec.eq_of_toNat_eq
    rw [BitVec.extractLsb'_toNat, Nat.shiftRight_eq_div_pow] at full
    rw [BitVec.extractLsb'_toNat, BitVec.extractLsb'_toNat, Nat.shiftRight_eq_div_pow, Nat.shiftRight_eq_div_pow,
      toNat_add_one_shiftLeft]
    omega

/-! ## Writes that only the owner may make (R57) -/

theorem State.asOwner_of_not_reaches (f : State → Res) (h : s.reaches m = false) : s.asOwner m f = .next s := by
  simp [State.asOwner, h]

theorem State.asOwner_of_not_owns (f : State → Res) (hr : s.reaches m = true) (ho : s.owns m = false) :
    s.asOwner m f = .next (s.drop m .owner) := by
  simp [State.asOwner, hr, ho]

theorem State.asOwner_of_owns (f : State → Res) (hr : s.reaches m = true) (ho : s.owns m = true) :
    s.asOwner m f = f s := by
  simp [State.asOwner, hr, ho]

/-- Two writes that do the same for the owner are one write. -/
theorem State.asOwner_congr {f g : State → Res} (h : s.reaches m = true → s.owns m = true → f s = g s) :
    s.asOwner m f = s.asOwner m g := by
  unfold State.asOwner
  cases hr : s.reaches m
  · rfl
  · cases ho : s.owns m
    · rfl
    · simpa using h hr ho

/-! ## Writes to the state window -/

/-- A write beside OWNCLM is the owner's. -/
theorem exec_stateWindowWrite_of_not_claim (off : Nat) (w : WindowWord) (h : s.claimWord m off w = none) :
    exec (.stateWindowWrite m off w) s = s.asOwner m fun s => s.windowStore m off w := by
  show execStateWindowWrite m off w s = _
  simp [execStateWindowWrite, h]

theorem exec_windowWrite_eight {off : Nat} (v : Word64) (h : off ≠ 0x108) :
    exec (.stateWindowWrite m off (.eight v)) s = s.asOwner m fun s => s.windowWrite m off v :=
  exec_stateWindowWrite_of_not_claim s m off (.eight v) (by simp [State.claimWord, h])

theorem exec_windowWrite_four {off : Nat} (u : Word32) (h : off ≠ 0x108) (h' : off ≠ 0x10C) :
    exec (.stateWindowWrite m off (.four u)) s = s.asOwner m fun s => s.windowStore m off (.four u) := by
  apply exec_stateWindowWrite_of_not_claim
  have outside : ¬ (off % 4 = 0 ∧ windowUnit off = 0x108) := by
    unfold windowUnit
    omega
  simp [State.claimWord, outside]

/-- OWNCLM takes the writes of every master. -/
theorem exec_windowWrite_ownclm (v : Word64) :
    exec (.stateWindowWrite m 0x108 (.eight v)) s = .next (s.ownRequest m v) := rfl

/-! ## Which register stands at an offset (R63) -/

theorem State.windowWrite_global {off : Nat} (v : Word64) (h : off < 0x2000) (h8 : off % 8 = 0) :
    s.windowWrite m off v = .next (s.writeGlobal m off v) := by
  simp [State.windowWrite, h, h8]

theorem State.windowWrite_queue (q : Fin 8) (r : Nat) (v : Word64) (h : r < 64) (h8 : r % 8 = 0) :
    s.windowWrite m (0x2000 + 64 * q.val + r) v = .next (s.writeQueue m q r v) := by
  have hq := q.isLt
  have e : (0x2000 + 64 * q.val + r - 0x2000) / 64 % 8 = q.val := by omega
  have er : (0x2000 + 64 * q.val + r) % 64 = r := by omega
  unfold State.windowWrite
  rw [if_neg (by omega), if_neg (by omega), if_pos (by omega), er]
  simp only [e]

theorem State.windowWrite_lslot {slot r : Nat} (v : Word64) (hs : slot ≤ 255) (h : r < 256) (h8 : r % 8 = 0) :
    s.windowWrite m (0x10000 + 256 * slot + r) v = .next (s.writeLslot m slot r v) := by
  have e : (0x10000 + 256 * slot + r - 0x10000) / 256 = slot := by omega
  have er : (0x10000 + 256 * slot + r) % 256 = r := by omega
  unfold State.windowWrite
  rw [if_neg (by omega), if_neg (by omega), if_neg (by omega), if_neg (by omega), if_pos (by omega), e, er]

theorem State.windowWrite_slot {k r : Nat} (v : Word64) (hk : k < 3584) (h : r < 4096) (h8 : r % 8 = 0) :
    s.windowWrite m (0x100000 + 4096 * k + r) v = .next (s.writeSlot m k r v) := by
  have e : (0x100000 + 4096 * k + r - 0x100000) / 4096 = k := by omega
  have er : (0x100000 + 4096 * k + r) % 4096 = r := by omega
  unfold State.windowWrite
  rw [if_neg (by omega), if_neg (by omega), if_neg (by omega), if_neg (by omega), if_neg (by omega), if_neg (by omega),
    if_pos (by omega), e, er]

theorem State.windowWrite_counters {n r : Nat} (v : Word64) (hn : n ≤ 895) (h : r < 1024) (h8 : r % 8 = 0) :
    s.windowWrite m (0x1100000 + 1024 * n + r) v = s.writeCounters m n r v := by
  have e : (0x1100000 + 1024 * n + r - 0x1100000) / 1024 = n := by omega
  have er : (0x1100000 + 1024 * n + r) % 1024 = r := by omega
  unfold State.windowWrite
  rw [if_neg (by omega), if_neg (by omega), if_neg (by omega), if_neg (by omega), if_neg (by omega), if_neg (by omega),
    if_neg (by omega), if_neg (by omega), if_neg (by omega), if_neg (by omega), if_pos (by omega), e, er]

theorem State.writeCounters_trshut (n : Nat) (v : Word64) :
    s.writeCounters m n 0x80 v = .next (s.writeTrshut m n v) := by simp [State.writeCounters]

theorem State.writeCounters_trdump (n : Nat) (v : Word64) :
    s.writeCounters m n 0x98 v = s.writeTrdump m n v := by simp [State.writeCounters]

/-- From 0x1400 on, 8 bytes are the words of two islands. -/
theorem State.writeGlobal_islands {j : Nat} (v : Word64) (hj : j ≤ 127) : s.writeGlobal m (0x1400 + 8 * j) v
    = (s.writeIslctl m (2 * j) (v.setWidth 32)).writeIslctl m (2 * j + 1) (v.extractLsb' 32 32) := by
  have e : (0x1400 + 8 * j - 0x1400) / 4 = 2 * j := by omega
  have hin : 0x1400 ≤ 0x1400 + 8 * j ∧ 0x1400 + 8 * j < 0x1800 := by omega
  unfold State.writeGlobal
  split
  case h_14 => rw [if_pos hin, e]
  all_goals omega

/-! ## A register's write, at its offset -/

/-- An instruction that does something for the owner only (R57). -/
def OwnersAlone (s : State) (m : Nat) (i : Instr) : Prop := ∃ f, exec i s = s.asOwner m f

theorem OwnersAlone.of_not_reaches {i : Instr} (hi : OwnersAlone s m i) (h : s.reaches m = false) :
    exec i s = .next s := by
  obtain ⟨f, hf⟩ := hi
  rw [hf, State.asOwner_of_not_reaches s m f h]

theorem OwnersAlone.of_not_owns {i : Instr} (hi : OwnersAlone s m i) (hr : s.reaches m = true) (ho : s.owns m = false) :
    exec i s = .next (s.drop m .owner) := by
  obtain ⟨f, hf⟩ := hi
  rw [hf, State.asOwner_of_not_owns s m f hr ho]

theorem ownersAlone_xlinvcWrite (v : Word64) : OwnersAlone s m (.xlinvcWrite m v) := ⟨_, execXlinvcWrite.eq_1 m v s⟩
theorem ownersAlone_lqtailWrite (q : Fin 8) (v : Word64) : OwnersAlone s m (.lqtailWrite m q v) :=
  ⟨_, execLqtailWrite.eq_1 m q v s⟩
theorem ownersAlone_lqctlDisable (q : Fin 8) (v : Word64) : OwnersAlone s m (.lqctlDisable m q v) :=
  ⟨_, execLqctlDisable.eq_1 m q v s⟩
theorem ownersAlone_queueDisable (n : Nat) : OwnersAlone s m (.queueDisable m n) := ⟨_, execQueueDisable.eq_1 m n s⟩
theorem ownersAlone_trshutWrite (n : Nat) (v : Word64) : OwnersAlone s m (.trshutWrite m n v) :=
  ⟨_, execTrshutWrite.eq_1 m n v s⟩
theorem ownersAlone_trdumpWrite (n : Nat) (v : Word64) : OwnersAlone s m (.trdumpWrite m n v) :=
  ⟨_, execTrdumpWrite.eq_1 m n v s⟩
theorem ownersAlone_islctlWrite (n : Nat) (w : BitVec 32) : OwnersAlone s m (.islctlWrite m n w) :=
  ⟨_, execIslctlWrite.eq_1 m n w s⟩
theorem ownersAlone_launchAbort (n : Nat) : OwnersAlone s m (.launchAbort m n) := ⟨_, execLaunchAbort.eq_1 m n s⟩
theorem ownersAlone_gangPreempt (n : Nat) (w : BitVec 32) : OwnersAlone s m (.gangPreempt m n w) :=
  ⟨_, execGangPreempt.eq_1 m n w s⟩
theorem ownersAlone_gangResume (n : Nat) (w : BitVec 32) : OwnersAlone s m (.gangResume m n w) :=
  ⟨_, execGangResume.eq_1 m n w s⟩

/-- A write that is the owner's alone acts at an offset as it does by itself where it does so for the owner. -/
theorem exec_window_eq_of_owner {i : Instr} {off : Nat} {v : Word64} (h : off ≠ 0x108) (hi : OwnersAlone s m i)
    (hw : s.reaches m = true → s.owns m = true → s.windowWrite m off v = exec i s) :
    exec (.stateWindowWrite m off (.eight v)) s = exec i s := by
  obtain ⟨f, hf⟩ := hi
  rw [exec_windowWrite_eight s m v h, hf]
  refine State.asOwner_congr s m fun hr ho => ?_
  rw [hw hr ho, hf, State.asOwner_of_owns s m f hr ho]

/-- OWN_CLAIM is OWNCLM with OP 1 (R59). -/
theorem exec_window_ownClaim (epoch lease : BitVec 16) :
    exec (.stateWindowWrite m 0x108 (.eight (epoch ++ lease ++ 0#29 ++ 1#3))) s = exec (.ownClaim m epoch lease) s := by
  have e : epoch ++ lease ++ 0#29 ++ 1#3 = ownWord epoch lease 0 1 := by
    unfold ownWord
    apply BitVec.eq_of_toNat_eq
    show BitVec.toNat (w := 16 + 16 + 29 + 3) _ = BitVec.toNat (w := 16 + 16 + 20 + 2 + 7 + 3) _
    simp only [BitVec.toNat_append, Nat.shiftLeft_eq]
    simp [Nat.mul_assoc]
  rw [exec_windowWrite_ownclm, e]
  rfl

theorem State.writeLqtail_of_owns (q : Fin 8) (v : Word64) (hr : s.reaches m = true) (ho : s.owns m = true) :
    .next (s.writeLqtail m q v) = execLqtailWrite m q v s := by
  unfold State.writeLqtail execLqtailWrite
  rw [State.asOwner_of_owns s m _ hr ho]
  dsimp only
  by_cases h : bits v 32 32 ≠ 0 ∨ 2 ^ (s.queue q).log2n < (BitVec.setWidth 32 v - (s.queue q).head).toNat
  · rw [if_pos h]
  · rw [if_neg h]

theorem exec_window_lqtail (q : Fin 8) (v : Word64) :
    exec (.stateWindowWrite m (0x2010 + 64 * q.val) (.eight v)) s = exec (.lqtailWrite m q v) s := by
  refine exec_window_eq_of_owner s m (by omega) (ownersAlone_lqtailWrite s m q v) fun hr ho => ?_
  rw [show 0x2010 + 64 * q.val = 0x2000 + 64 * q.val + 16 by omega, s.windowWrite_queue m q 16 v (by omega) (by omega)]
  exact s.writeLqtail_of_owns m q v hr ho

theorem exec_window_lqctl (q : Fin 8) (v : Word64) (hv : v.getLsbD 15 = false) :
    exec (.stateWindowWrite m (0x2008 + 64 * q.val) (.eight v)) s = exec (.lqctlDisable m q v) s := by
  refine exec_window_eq_of_owner s m (by omega) (ownersAlone_lqctlDisable s m q v) fun hr ho => ?_
  rw [show 0x2008 + 64 * q.val = 0x2000 + 64 * q.val + 8 by omega, s.windowWrite_queue m q 8 v (by omega) (by omega)]
  show _ = execLqctlDisable m q v s
  unfold execLqctlDisable
  rw [State.asOwner_of_owns s m _ hr ho, hv, if_neg Bool.false_ne_true]
  rfl

theorem exec_window_xlinvc (v : Word64) :
    exec (.stateWindowWrite m 0x308 (.eight v)) s = exec (.xlinvcWrite m v) s := by
  refine exec_window_eq_of_owner s m (by omega) (ownersAlone_xlinvcWrite s m v) fun hr ho => ?_
  rw [s.windowWrite_global m v (by omega) (by omega)]
  show _ = execXlinvcWrite m v s
  unfold execXlinvcWrite
  rw [State.asOwner_of_owns s m _ hr ho]
  rfl

theorem exec_window_trshut {n : Nat} (v : Word64) (hn : n ≤ 895) :
    exec (.stateWindowWrite m (0x1100080 + 1024 * n) (.eight v)) s = exec (.trshutWrite m n v) s := by
  refine exec_window_eq_of_owner s m (by omega) (ownersAlone_trshutWrite s m n v) fun hr ho => ?_
  rw [show 0x1100080 + 1024 * n = 0x1100000 + 1024 * n + 0x80 by omega,
    s.windowWrite_counters m v hn (by omega) (by omega), s.writeCounters_trshut]
  show _ = execTrshutWrite m n v s
  rw [execTrshutWrite, State.asOwner_of_owns s m _ hr ho, if_neg (by omega)]

theorem exec_window_trdump {n : Nat} (v : Word64) (hn : n ≤ 895) :
    exec (.stateWindowWrite m (0x1100098 + 1024 * n) (.eight v)) s = exec (.trdumpWrite m n v) s := by
  refine exec_window_eq_of_owner s m (by omega) (ownersAlone_trdumpWrite s m n v) fun hr ho => ?_
  rw [show 0x1100098 + 1024 * n = 0x1100000 + 1024 * n + 0x98 by omega,
    s.windowWrite_counters m v hn (by omega) (by omega), s.writeCounters_trdump]
  show _ = execTrdumpWrite m n v s
  rw [execTrdumpWrite, State.asOwner_of_owns s m _ hr ho, if_neg (by omega)]

theorem exec_window_launchAbort {slot : Nat} (hs : slot ≤ 255) :
    exec (.stateWindowWrite m (0x10008 + 256 * slot) (.eight 1)) s = exec (.launchAbort m slot) s := by
  refine exec_window_eq_of_owner s m (by omega) (ownersAlone_launchAbort s m slot) fun hr ho => ?_
  rw [show 0x10008 + 256 * slot = 0x10000 + 256 * slot + 8 by omega,
    s.windowWrite_lslot m 1 hs (by omega) (by omega)]
  show _ = execLaunchAbort m slot s
  unfold execLaunchAbort
  rw [State.asOwner_of_owns s m _ hr ho, if_neg (by omega)]
  rfl

/-- A word of GANGCMD with its operation in bits 63:62 and zeros above its gang (R112). -/
theorem toNat_gangWord (op : BitVec 2) (gang : BitVec 32) :
    (op ++ 0#30 ++ gang : Word64).toNat = 2 ^ 62 * op.toNat + gang.toNat := by
  show BitVec.toNat (w := 2 + 30 + 32) _ = _
  rw [Nat.two_pow_add_eq_or_of_lt (by have := gang.isLt; omega), BitVec.toNat_append, BitVec.toNat_append,
    Nat.shiftLeft_eq, Nat.shiftLeft_eq]
  simp [Nat.mul_assoc, Nat.mul_comm]

/-- GANGCMD takes a gang with each of its two operations (R112). -/
theorem State.writeGangcmd_gangWord (slot : Nat) (op : BitVec 2) (gang : BitVec 32) (hop : op = 1#2 ∨ op = 2#2)
    (high : Word64) (hh : high.toNat = 2 ^ 62 * op.toNat) : s.writeGangcmd slot (op ++ 0#30 ++ gang)
      = s.gangCommand slot (if op = 1#2 then .preempt gang else .resume gang) (high ||| gang.setWidth 64) := by
  have hg := gang.isLt
  have e := toNat_gangWord op gang
  have word : (op ++ 0#30 ++ gang : Word64) = high ||| gang.setWidth 64 := by
    apply BitVec.eq_of_toNat_eq
    rw [e, Nat.two_pow_add_eq_or_of_lt (by omega), BitVec.toNat_or, hh, BitVec.toNat_setWidth,
      Nat.mod_eq_of_lt (by omega)]
  generalize (op ++ 0#30 ++ gang : Word64) = v at e word ⊢
  have opField : bits v 62 2 = op.toNat := by
    rw [bits, BitVec.extractLsb'_toNat, Nat.shiftRight_eq_div_pow, e]
    omega
  have zeros : bits v 32 30 = 0 := by
    rw [bits, BitVec.extractLsb'_toNat, Nat.shiftRight_eq_div_pow, e]
    omega
  have low : v.setWidth 32 = gang := by
    apply BitVec.eq_of_toNat_eq
    rw [BitVec.toNat_setWidth, e]
    omega
  unfold State.writeGangcmd
  rw [← word, low, opField, zeros]
  obtain rfl | rfl := hop <;> simp

theorem exec_window_gangPreempt {slot : Nat} (gang : BitVec 32) (hs : slot ≤ 255) :
    exec (.stateWindowWrite m (0x10018 + 256 * slot) (.eight (1#2 ++ 0#30 ++ gang))) s
      = exec (.gangPreempt m slot gang) s := by
  refine exec_window_eq_of_owner s m (by omega) (ownersAlone_gangPreempt s m slot gang) fun hr ho => ?_
  rw [show 0x10018 + 256 * slot = 0x10000 + 256 * slot + 24 by omega,
    s.windowWrite_lslot m _ hs (by omega) (by omega)]
  show .next (s.writeGangcmd slot (1#2 ++ 0#30 ++ gang)) = execGangPreempt m slot gang s
  rw [execGangPreempt, State.asOwner_of_owns s m _ hr ho,
    s.writeGangcmd_gangWord slot 1#2 gang (.inl rfl) 0x4000000000000000 (by decide), if_pos rfl]

theorem exec_window_gangResume {slot : Nat} (gang : BitVec 32) (hs : slot ≤ 255) :
    exec (.stateWindowWrite m (0x10018 + 256 * slot) (.eight (2#2 ++ 0#30 ++ gang))) s
      = exec (.gangResume m slot gang) s := by
  refine exec_window_eq_of_owner s m (by omega) (ownersAlone_gangResume s m slot gang) fun hr ho => ?_
  rw [show 0x10018 + 256 * slot = 0x10000 + 256 * slot + 24 by omega,
    s.windowWrite_lslot m _ hs (by omega) (by omega)]
  show .next (s.writeGangcmd slot (2#2 ++ 0#30 ++ gang)) = execGangResume m slot gang s
  rw [execGangResume, State.asOwner_of_owns s m _ hr ho,
    s.writeGangcmd_gangWord slot 2#2 gang (.inr rfl) 0x8000000000000000 (by decide), if_neg (by decide)]

/-! ## Islands, and registers written by halves -/

theorem exec_window_islctl {i : Nat} (u : BitVec 32) (hi : i ≤ 255) :
    exec (.stateWindowWrite m (0x1400 + 4 * i) (.four u)) s = exec (.islctlWrite m i u) s := by
  rw [exec_windowWrite_four s m u (by omega) (by omega)]
  show _ = execIslctlWrite m i u s
  unfold execIslctlWrite State.windowStore
  refine State.asOwner_congr s m fun _ _ => ?_
  dsimp only
  rw [if_neg (by omega), if_pos (by omega), show (0x1400 + 4 * i - 0x1400) / 4 = i by omega]

/-- Two states with the same trained ports and the same owner. -/
def SameMasters (s t : State) : Prop :=
  t.hub.hosts = s.hub.hosts ∧ t.hub.own.state = s.hub.own.state ∧ t.hub.own.owner = s.hub.own.owner

theorem SameMasters.reaches_eq {s t : State} (h : SameMasters s t) (m : Nat) : t.reaches m = s.reaches m := by
  unfold State.reaches
  rw [h.1]

theorem SameMasters.owns_eq {s t : State} (h : SameMasters s t) (m : Nat) : t.owns m = s.owns m := by
  obtain ⟨-, state, owner⟩ := h
  rw [State.owns, State.owns, state, owner]

theorem sameMasters_drop (why : Dropped) : SameMasters s (s.drop m why) := by
  unfold SameMasters
  rw [State.drop_hub]
  exact ⟨rfl, rfl, rfl⟩

/-- A write that meets read-only bits is counted as malformed or not at all (R66). -/
theorem State.countRo_cases (ro now v : Word64) :
    s.countRo m ro now v = s ∨ s.countRo m ro now v = s.drop m .malformed := by
  unfold State.countRo
  split
  · exact .inr rfl
  · exact .inl rfl

theorem sameMasters_countRo (ro now v : Word64) : SameMasters s (s.countRo m ro now v) := by
  obtain h | h := s.countRo_cases m ro now v
  · rw [h]
    exact ⟨rfl, rfl, rfl⟩
  · rw [h]
    exact sameMasters_drop s m .malformed

theorem sameMasters_writeIslctl (i : Nat) (v : BitVec 32) : SameMasters s (s.writeIslctl m i v) := by
  unfold State.writeIslctl
  dsimp only
  split
  · exact ⟨rfl, rfl, rfl⟩
  split
  · exact sameMasters_drop s m .malformed
  split
  · exact ⟨rfl, rfl, rfl⟩
  · exact sameMasters_countRo s m _ _ _

/-- 8 bytes of ISLCTL are two writes, of the lower island first. -/
theorem exec_window_two_islands {j : Nat} (v : Word64) (hr : s.reaches m = true) (ho : s.owns m = true) (hj : j ≤ 127) :
    ∃ t, exec (.islctlWrite m (2 * j) (v.setWidth 32)) s = .next t
      ∧ exec (.stateWindowWrite m (0x1400 + 8 * j) (.eight v)) s
        = exec (.islctlWrite m (2 * j + 1) (v.extractLsb' 32 32)) t := by
  have same := sameMasters_writeIslctl s m (2 * j) (v.setWidth 32)
  refine ⟨s.writeIslctl m (2 * j) (v.setWidth 32), ?_, ?_⟩
  · show execIslctlWrite m _ _ s = _
    rw [execIslctlWrite, State.asOwner_of_owns s m _ hr ho]
  · rw [exec_windowWrite_eight s m v (by omega), State.asOwner_of_owns s m _ hr ho,
      s.windowWrite_global m v (by omega) (by omega), s.writeGlobal_islands m v hj]
    show _ = execIslctlWrite m _ _ _
    rw [execIslctlWrite, State.asOwner_of_owns _ m _ ((same.reaches_eq m).trans hr) ((same.owns_eq m).trans ho)]

/-- Of a register of 8 bytes 4 are written with what the other 4 read as (log entry 69). -/
theorem exec_windowWrite_four_merges {off : Nat} (u : Word32) (h4 : off % 4 = 0) (h : off < 0x1400 ∨ 0x1800 ≤ off) :
    exec (.stateWindowWrite m off (.four u)) s
      = exec (.stateWindowWrite m (windowUnit off) (.eight (s.windowMerge m off u))) s := by
  by_cases claim : windowUnit off = 0x108
  · show execStateWindowWrite m _ _ s = execStateWindowWrite m _ _ s
    simp [execStateWindowWrite, State.claimWord, h4, claim]
  · rw [exec_windowWrite_eight s m _ claim, exec_stateWindowWrite_of_not_claim s m off (.four u)
      (by simp [State.claimWord, claim])]
    refine State.asOwner_congr s m fun _ _ => ?_
    unfold State.windowStore
    dsimp only
    rw [if_neg (by omega), if_neg (by omega)]

theorem exec_windowWrite_low_half {k : Nat} (u : Word32) (h : k < 0x1400 ∨ 0x1800 ≤ k) (h8 : k % 8 = 0) :
    exec (.stateWindowWrite m k (.four u)) s = exec (.stateWindowWrite m k
      (.eight ((s.windowRead m k &&& 0xFFFFFFFF00000000) ||| u.setWidth 64))) s := by
  have unit : windowUnit k = k := by unfold windowUnit; omega
  rw [exec_windowWrite_four_merges s m u (by omega) h, State.windowMerge, unit, if_pos h8]

theorem exec_windowWrite_high_half {k : Nat} (u : Word32) (h : k < 0x1400 ∨ 0x1800 ≤ k) (h8 : k % 8 = 0) :
    exec (.stateWindowWrite m (k + 4) (.four u)) s = exec (.stateWindowWrite m k
      (.eight ((s.windowRead m k &&& 0xFFFFFFFF) ||| (u.setWidth 64 <<< 32)))) s := by
  have unit : windowUnit (k + 4) = k := by unfold windowUnit; omega
  rw [exec_windowWrite_four_merges s m u (by omega) (by omega), State.windowMerge, unit, if_neg (by omega)]

/-! ## Registers of the first 8 KiB that the owner writes (R19, R113) -/

/-- The owner's write in the first 8 KiB. -/
theorem exec_window_global {off : Nat} (v : Word64) (hr : s.reaches m = true) (ho : s.owns m = true) (h : off < 0x2000)
    (h8 : off % 8 = 0) (hc : off ≠ 0x108) :
    exec (.stateWindowWrite m off (.eight v)) s = .next (s.writeGlobal m off v) := by
  rw [exec_windowWrite_eight s m v hc, State.asOwner_of_owns s m _ hr ho, s.windowWrite_global m v h h8]

theorem State.writeGlobal_psaveb (v : Word64) (hb : s.savesBusy = false) (hv : v &&& 0xFF000000001FFFFF = 0) :
    s.writeGlobal m 0x200 v = s.modHub fun h => { h with psaveb := v } := by
  have high : bits v 56 8 = 0 := bits_eq_zero_of_and_eq_zero hv (by decide)
  have low : bits v 0 21 = 0 := bits_eq_zero_of_and_eq_zero hv (by decide)
  simp [State.writeGlobal, high, low, hb]

theorem State.writeGlobal_psaven (v : Word64) (hb : s.savesBusy = false) (hv : v ≤ 1024) :
    s.writeGlobal m 0x208 v = s.modHub fun h => { h with psaven := v } := by
  have hn : ¬ 1024 < v.toNat := by
    have := BitVec.le_def.1 hv
    simpa using this
  simp [State.writeGlobal, hn, hb]

/-- A write that leaves the read-only bits 0 or as they are is not counted (R66). -/
theorem State.countRo_of_same {ro now v : Word64} (h : v &&& ro = 0 ∨ v &&& ro = now &&& ro) :
    s.countRo m ro now v = s :=
  if_neg fun ⟨hz, hn⟩ => h.elim hz hn

theorem State.countRo_of_changed {ro now v : Word64} (hz : v &&& ro ≠ 0) (hn : v &&& ro ≠ now &&& ro) :
    s.countRo m ro now v = s.drop m .malformed :=
  if_pos ⟨hz, hn⟩

/-- PWRCAP takes a cap that is in range; beside it stands MEAS, which is read only (R19). -/
theorem State.writePwrcap_of_in_range (v : Word64) (lo : 300 ≤ (v.setWidth 16).toNat)
    (hi : (v.setWidth 16).toNat ≤ 640) : s.writePwrcap m v
      = (s.countRo m 0xFFFF0000 (BitVec.ofNat 64 (s.hub.power.meas.toNat * 2 ^ 16)) v).modHub fun h =>
        { h with power := { h.power with cap := v.setWidth 16 } } := by
  have cap : bits v 0 16 = (v.setWidth 16).toNat := by simp [bits]
  unfold State.writePwrcap
  rw [cap]
  dsimp only
  rw [if_neg (by omega), BitVec.ofNat_toNat, BitVec.setWidth_eq]

theorem getLsbD_measMask (i : Nat) (hi : i < 64) :
    (0xFFFF0000 : Word64).getLsbD i = decide (16 ≤ i ∧ i < 16 + 16) := by
  revert i
  decide

/-- MEAS stands in bits 31:16 of PWRCAP. -/
theorem extract_meas (x : BitVec 16) : (BitVec.ofNat 64 (x.toNat * 2 ^ 16)).extractLsb' 16 16 = x := by
  have hx := x.isLt
  apply BitVec.eq_of_toNat_eq
  rw [BitVec.extractLsb'_toNat, Nat.shiftRight_eq_div_pow, BitVec.toNat_ofNat]
  omega

theorem and_meas_eq_zero_iff (v : Word64) : v &&& 0xFFFF0000 = 0 ↔ v.extractLsb' 16 16 = 0 := by
  have h := and_eq_and_iff_extract (v := v) (w := 0) getLsbD_measMask
  simpa using h

theorem and_meas_eq_iff (v : Word64) (x : BitVec 16) :
    v &&& 0xFFFF0000 = BitVec.ofNat 64 (x.toNat * 2 ^ 16) &&& 0xFFFF0000 ↔ v.extractLsb' 16 16 = x := by
  rw [and_eq_and_iff_extract getLsbD_measMask, extract_meas]

/-! ## Context slots (R64, R66) -/

/-- The place in its core of the context of a slot. -/
def ctxOfSlot (k : Nat) : CtxNo := ⟨k % 4, Nat.mod_lt _ (by decide)⟩

theorem State.ctxNo_of_selected {k : Nat} (hk : k / 4 = s.coreIx) : s.ctxNo k = s.ctxAt (ctxOfSlot k) := by
  unfold State.ctxNo State.ctxOf State.coreAt
  rw [if_pos hk]
  rfl

theorem State.select_self : s.select s.coreIx = s := if_pos rfl

/-- The owner writes to the slot of an idle context of the selected core. -/
structure OwnerAtSlot (s : State) (m k : Nat) : Prop where
  reaches : s.reaches m = true
  owns : s.owns m = true
  inRange : k < 3584
  selected : k / 4 = s.coreIx
  idle : (s.ctxNo k).state = .idle

/-- There a well-formed write is performed; a malformed one is dropped. -/
theorem exec_window_slot {k r : Nat} (v : Word64) (hk : OwnerAtSlot s m k) (h : r < 4096) (h8 : r % 8 = 0) :
    exec (.stateWindowWrite m (0x100000 + 4096 * k + r) (.eight v)) s
      = .next (((s.windowCtx m (ctxOfSlot k) r v).map (·.select s.coreIx)).getD (s.drop m .malformed)) := by
  have idle : (s.ctxOf s.coreIx ⟨k % 4, Nat.mod_lt _ (by decide)⟩).state = .idle := by
    rw [← hk.selected]
    exact hk.idle
  rw [exec_windowWrite_eight s m v (by omega), State.asOwner_of_owns s m _ hk.reaches hk.owns,
    s.windowWrite_slot m v hk.inRange h h8]
  unfold State.writeSlot ctxOfSlot
  simp only [hk.selected, idle, true_or, if_true, State.select_self]
  cases s.windowCtx m ⟨k % 4, Nat.mod_lt _ (by decide)⟩ r v <;> rfl

/-- A well-formed write changes the context in its core. -/
theorem exec_window_slot_some {k r : Nat} {v : Word64} {u : State} (f : Ctx → Ctx) (hk : OwnerAtSlot s m k)
    (h : r < 4096) (h8 : r % 8 = 0) (hu : u = s ∨ u = s.drop m .malformed)
    (hw : s.windowCtx m (ctxOfSlot k) r v = some (u.modCtxAt (ctxOfSlot k) f)) :
    ∃ t, exec (.stateWindowWrite m (0x100000 + 4096 * k + r) (.eight v)) s = .next t
      ∧ t.ctxNo k = f (s.ctxNo k) ∧ t.hbm = s.hbm ∧ t.hub = u.hub := by
  have core : u.core = s.core := by obtain rfl | rfl := hu <;> simp
  have ix : u.coreIx = s.coreIx := by obtain rfl | rfl := hu <;> simp
  have hbm : u.hbm = s.hbm := by obtain rfl | rfl := hu <;> simp
  have sel : (u.modCtxAt (ctxOfSlot k) f).select s.coreIx = u.modCtxAt (ctxOfSlot k) f := by
    rw [← ix]
    exact State.select_self _
  refine ⟨u.modCtxAt (ctxOfSlot k) f, ?_, ?_, hbm, rfl⟩
  · rw [exec_window_slot s m v hk h h8, hw, Option.map_some, Option.getD_some, sel]
  · rw [State.ctxNo_of_selected (u.modCtxAt (ctxOfSlot k) f) (hk.selected.trans ix.symm),
      State.ctxNo_of_selected s hk.selected, State.ctxAt_modCtxAt_self]
    unfold State.ctxAt
    rw [core]

/-- TVEC stands in bits 55:3 (R220). -/
theorem State.windowCtx_tvec (c : CtxNo) (v : Word64) (hv : v &&& 0xFF00000000000007 = 0) :
    s.windowCtx m c 40 v = some (s.modCtxAt c fun x => { x with ctrl := { x.ctrl with tvec := v } }) := by
  have high : bits v 56 8 = 0 := bits_eq_zero_of_and_eq_zero hv (by decide)
  have low : bits v 0 3 = 0 := bits_eq_zero_of_and_eq_zero hv (by decide)
  have ok : (s.modFr fun f => { f with ctx := c }).windowCrOk 5 v = true := by
    simp [State.windowCrOk, State.crOk, high, low]
  show (if (s.modFr fun f => { f with ctx := c }).windowCrOk 5 v = true then _ else _) = _
  rw [if_pos ok]
  rfl

/-- STATUS keeps HM and EPEND (R219). -/
theorem State.windowCtx_status (c : CtxNo) (v : Word64) (hv : v.extractLsb' 4 28 = 0) :
    s.windowCtx m c 0 v = some ((s.countRo m 5 (s.ctxAt c).statusWord v).modCtxAt c fun x =>
      { x with ctrl := { x.ctrl with status := statusWrite x.ctrl.status v } }) := by
  have ok : (s.modFr fun f => { f with ctx := c }).windowCrOk 0 v = true := by
    simp [State.windowCrOk, State.crOk, bits, hv]
  show (if (s.modFr fun f => { f with ctx := c }).windowCrOk 0 v = true then _ else _) = _
  rw [if_pos ok]
  rfl

/-- STATUS reads as it stands where no engine fault waits (R230). -/
theorem Ctx.statusWord_of_no_faults (x : Ctx) (h : x.waits.faults = []) : x.statusWord = x.ctrl.status := by
  simp [Ctx.statusWord, h]

/-- The words of the loop entries, from 0x8C0 on. -/
theorem State.windowCtx_loop (c : CtxNo) (i : Fin 4) (second : Bool) (v : Word64) :
    s.windowCtx m c (0x8C0 + 16 * i.val + 8 * second.toNat) v
      = if v &&& (if second then 0xFF00000000000007 else 0x1F00000000000007) ≠ 0 then none
        else some (s.windowLoop c i second v) := by
  have hi := i.isLt
  have hb : second.toNat ≤ 1 := Bool.toNat_le second
  have e : (0x8C0 + 16 * i.val + 8 * second.toNat - 0x8C0) / 16 % 4 = i.val := by omega
  have sec : ((0x8C0 + 16 * i.val + 8 * second.toNat) % 16 == 8) = second := by
    cases second <;> simp [Nat.add_mod]
  unfold State.windowCtx
  dsimp only
  rw [if_neg (by omega), if_neg (by omega), if_neg (by omega), if_neg (by omega), if_neg (by omega), if_pos (by omega),
    sec]
  simp only [e]

/-! ## Device memory through BAR2 (R56, R80) -/

theorem State.noteStream_keeps_hbm (mem : Nat) (r : Nat × Nat) :
    (s.noteStream mem r).hbm = s.hbm ∧ (s.noteStream mem r).badHbm = s.badHbm := by
  unfold State.noteStream
  split <;> exact ⟨rfl, rfl⟩

theorem writeBytes_append : ∀ (l r : List Byte) (mem : Memory) (a : Nat),
    writeBytes mem a (l ++ r) = writeBytes (writeBytes mem a l) (a + l.length) r
  | [], _, _, _ => rfl
  | b :: l, r, mem, a => by
    rw [List.cons_append, writeBytes, writeBytes, writeBytes_append l r, List.length_cons]
    congr 1
    omega

/-- Stored line by line, bytes change memory as one write of them all: the lines that are left for them suffice. -/
theorem State.storeLines_of_clean : ∀ (n : Nat) (s : State) (pa : Nat) (data : List Byte), s.badHbm = [] →
    pa % 128 + data.length ≤ 128 * n → (s.storeLines pa data n).hbm = writeBytes s.hbm pa data
  | 0, s, pa, data, _, h => by
    have e : data = [] := List.length_eq_zero_iff.1 (by omega)
    rw [e]
    rfl
  | n + 1, s, pa, data, hb, h => by
    unfold State.storeLines
    by_cases he : data = []
    · rw [he]
      rfl
    · have stored := s.storeHbm_of_clean pa (data.take (128 - pa % 128)) hb
      obtain ⟨-, hbm, clean⟩ := stored
      have rest : (pa + (128 - pa % 128)) % 128 + (data.drop (128 - pa % 128)).length ≤ 128 * n := by
        rw [List.length_drop]
        omega
      rw [if_neg (by simpa using he)]
      dsimp only
      rw [State.storeLines_of_clean n _ _ _ clean rest, hbm]
      by_cases whole : 128 - pa % 128 ≤ data.length
      · have cut := writeBytes_append (data.take (128 - pa % 128)) (data.drop (128 - pa % 128)) s.hbm pa
        rw [List.take_append_drop, List.length_take_of_le whole] at cut
        exact cut.symm
      · rw [List.take_of_length_le (by omega), List.drop_of_length_le (by omega)]
        rfl

theorem wf_hbm_of_stateOk (h : Safety.stateOk s = true) : Memory.wf s.hbm = true := by
  simp only [Safety.stateOk, Bool.and_eq_true] at h
  obtain ⟨⟨⟨⟨⟨⟨hbm, -⟩, -⟩, -⟩, -⟩, -⟩, -⟩ := h
  exact hbm

theorem execDeviceMemoryWrite_of_owns (pa : Nat) (data : List Byte) (hr : s.reaches m = true) (ho : s.owns m = true)
    (hm : m ≤ 1) (hp : s.hub.boot.phase ≠ 3) : execDeviceMemoryWrite m pa data s
      = if hbmSize < pa + data.length then .fault .beyondHbm
        else .next ((s.noteStream 0 (pa, data.length)).storeLines pa data (data.length / 128 + 2)) := by
  rw [execDeviceMemoryWrite, if_neg (not_or.2 ⟨by omega, hp⟩), State.asOwner_of_owns s m _ hr ho]

/-- Bytes written through BAR2 stand in memory, and no others change. -/
theorem execDeviceMemoryWrite_hbm (pa : Nat) (data : List Byte) (hr : s.reaches m = true) (ho : s.owns m = true)
    (hm : m ≤ 1) (hp : s.hub.boot.phase ≠ 3) (hin : pa + data.length ≤ hbmSize) (wf : Memory.wf s.hbm = true)
    (clean : s.badHbm = []) : ∃ t, execDeviceMemoryWrite m pa data s = .next t
      ∧ (∀ i, i < data.length → memRead t.hbm (pa + i) = data.getD i 0)
      ∧ ∀ a, a < pa ∨ pa + data.length ≤ a → memRead t.hbm a = memRead s.hbm a := by
  obtain ⟨hbm, bad⟩ := s.noteStream_keeps_hbm 0 (pa, data.length)
  have written := (s.noteStream 0 (pa, data.length)).storeLines_of_clean (data.length / 128 + 2) pa data
    (bad.trans clean) (by omega)
  rw [hbm] at written
  refine ⟨_, (execDeviceMemoryWrite_of_owns s m pa data hr ho hm hp).trans (if_neg (by omega)), ?_, ?_⟩
  · intro i hi
    rw [written, memRead_writeBytes data s.hbm pa (pa + i) wf, if_pos (by omega), Nat.add_sub_cancel_left]
  · intro a ha
    rw [written, memRead_writeBytes_outside data s.hbm pa a wf ha]

/-! ## Only the owner changes state -/

/-- What a write that lacks ownership leaves as it was, and where it is counted and told (R57, R66). -/
theorem State.drop_owner_effect : let t := s.drop m .owner
    t.core = s.core ∧ t.hbm = s.hbm ∧ t.others = s.others ∧ t.hub.slots = s.hub.slots ∧ t.hub.queues = s.hub.queues
      ∧ t.hub.hqueues = s.hub.hqueues ∧ t.hub.own.owner = s.hub.own.owner ∧ t.hub.own.epoch = s.hub.own.epoch
      ∧ (∀ k : Fin 3, let old := s.hub.own.wstat.get k
          let new := t.hub.own.wstat.get k
          if k.val = m then
            new.extractLsb' 16 48 = old.extractLsb' 16 48
              ∧ (new.extractLsb' 0 16).toNat = min ((old.extractLsb' 0 16).toNat + 1) 65535
          else new = old)
      ∧ t.fabric.out = s.fabric.out ++ (if m = 2 then [Out.mctp 0x82] else []) := by
  intro t
  have hub := s.drop_hub m .owner
  refine ⟨s.drop_core m _, s.drop_hbm m _, s.drop_others m _, by rw [hub], by rw [hub], by rw [hub], by rw [hub],
    by rw [hub], fun k => ?_, s.drop_owner_out m⟩
  have counted := s.drop_wstat m .owner k
  dsimp only
  by_cases hk : k.val = m
  · rw [if_pos hk] at counted ⊢
    rw [counted]
    exact ⟨bumpCount_owner_others _, bumpCount_count _ .owner⟩
  · rw [if_neg hk] at counted ⊢
    exact counted

theorem ownersAlone_window_eight {off : Nat} (v : Word64) (h : off ≠ 0x108) :
    OwnersAlone s m (.stateWindowWrite m off (.eight v)) := ⟨_, exec_windowWrite_eight s m v h⟩

theorem ownersAlone_window_four {off : Nat} (u : Word32) (h : off ≠ 0x108) (h' : off ≠ 0x10C) :
    OwnersAlone s m (.stateWindowWrite m off (.four u)) := ⟨_, exec_windowWrite_four s m u h h'⟩

theorem ownersAlone_deviceMemoryWrite (pa : Nat) (data : List Byte) (hm : m ≤ 1) (hp : s.hub.boot.phase ≠ 3) :
    OwnersAlone s m (.deviceMemoryWrite m pa data) :=
  ⟨_, (execDeviceMemoryWrite.eq_1 m pa data s).trans (if_neg (not_or.2 ⟨by omega, hp⟩))⟩

theorem ownerOnly : Claims.OwnerOnly := by
  intro s m n q v w data ho i hi
  have alone : OwnersAlone s m i := by
    simp only [List.mem_append, List.mem_cons, List.not_mem_nil, or_false] at hi
    obtain (((h | h) | h) | h) := hi
    · obtain rfl | rfl | rfl | rfl | rfl | rfl | rfl | rfl | rfl | rfl := h
      · exact ownersAlone_xlinvcWrite s m v
      · exact ownersAlone_lqtailWrite s m q v
      · exact ownersAlone_lqctlDisable s m q v
      · exact ownersAlone_queueDisable s m n
      · exact ownersAlone_trshutWrite s m n v
      · exact ownersAlone_trdumpWrite s m n v
      · exact ownersAlone_islctlWrite s m n w
      · exact ownersAlone_launchAbort s m n
      · exact ownersAlone_gangPreempt s m n w
      · exact ownersAlone_gangResume s m n w
    · split at h
      · simp at h
      · next hn =>
        rw [List.mem_singleton.1 h]
        exact ownersAlone_window_eight s m v hn
    · split at h
      · simp at h
      · next hn =>
        obtain ⟨h8, hC⟩ := not_or.1 hn
        rw [List.mem_singleton.1 h]
        exact ownersAlone_window_four s m w h8 hC
    · split at h
      · next hd =>
        rw [List.mem_singleton.1 h]
        exact ownersAlone_deviceMemoryWrite s m n data hd.1 hd.2
      · simp at h
  exact ⟨alone.of_not_reaches s m, fun hr => ⟨_, alone.of_not_owns s m hr ho, s.drop_owner_effect m⟩⟩

/-! ## Each offset is its register -/

/-- PWRCAP takes the cap, and counts a write that would change MEAS beside it (R19, R66). -/
theorem exec_window_pwrcap (v : Word64) (hr : s.reaches m = true) (ho : s.owns m = true)
    (lo : 300 ≤ (v.setWidth 16).toNat) (hi : (v.setWidth 16).toNat ≤ 640) :
    let capped (s : State) : State := s.modHub fun h => { h with power := { h.power with cap := v.setWidth 16 } }
    (v.extractLsb' 16 16 = 0 ∨ v.extractLsb' 16 16 = s.hub.power.meas →
      exec (.stateWindowWrite m 0x1000 (.eight v)) s = .next (capped s))
    ∧ (v.extractLsb' 16 16 ≠ 0 → v.extractLsb' 16 16 ≠ s.hub.power.meas →
      exec (.stateWindowWrite m 0x1000 (.eight v)) s = .next (capped (s.drop m .malformed))) := by
  have written : exec (.stateWindowWrite m 0x1000 (.eight v)) s = .next (s.writePwrcap m v) :=
    exec_window_global s m v hr ho (by omega) (by omega) (by omega)
  rw [written, s.writePwrcap_of_in_range m v lo hi]
  rw [Ne, Ne, ← and_meas_eq_zero_iff, ← and_meas_eq_iff]
  exact ⟨fun h => by rw [s.countRo_of_same m h], fun hz hn => by rw [s.countRo_of_changed m hz hn]⟩

theorem exec_window_tvec {k : Nat} (v : Word64) (hk : OwnerAtSlot s m k) (hv : v &&& 0xFF00000000000007 = 0) :
    ∃ t, exec (.stateWindowWrite m (0x100000 + 4096 * k + 8 * 5) (.eight v)) s = .next t ∧ (t.ctxNo k).ctrl.tvec = v
      ∧ (t.ctxNo k).regs = (s.ctxNo k).regs ∧ t.hbm = s.hbm := by
  obtain ⟨t, ht, ctx, hbm, -⟩ := exec_window_slot_some s m _ hk (by omega) (by omega) (.inl rfl)
    (s.windowCtx_tvec m (ctxOfSlot k) v hv)
  exact ⟨t, ht, by rw [ctx], by rw [ctx], hbm⟩

/-- A write of STATUS: of its read-only bits HM and EPEND a changed one is counted (R66, R219). -/
theorem exec_window_status {k : Nat} (v : Word64) (hk : OwnerAtSlot s m k) (hv : v.extractLsb' 4 28 = 0)
    (hf : (s.ctxNo k).waits.faults = []) :
    let status := (s.ctxNo k).ctrl.status
    ∃ t, exec (.stateWindowWrite m (0x100000 + 4096 * k + 0) (.eight v)) s = .next t
      ∧ (t.ctxNo k).ctrl = { (s.ctxNo k).ctrl with status := statusWrite status v }
      ∧ (v &&& 5 = 0 ∨ v &&& 5 = status &&& 5 → t.hub = s.hub)
      ∧ (v &&& 5 ≠ 0 → v &&& 5 ≠ status &&& 5 → t.hub = (s.drop m .malformed).hub) := by
  have word : (s.ctxAt (ctxOfSlot k)).statusWord = (s.ctxNo k).ctrl.status := by
    rw [s.ctxNo_of_selected hk.selected] at hf ⊢
    exact Ctx.statusWord_of_no_faults _ hf
  obtain ⟨t, ht, ctx, -, hub⟩ := exec_window_slot_some s m _ hk (by omega) (by omega)
    (s.countRo_cases m _ _ v) (s.windowCtx_status m (ctxOfSlot k) v hv)
  rw [word] at hub
  refine ⟨t, ht, by rw [ctx], fun h => ?_, fun hz hn => ?_⟩
  · rw [hub, s.countRo_of_same m h]
  · rw [hub, s.countRo_of_changed m hz hn]

/-- A write that is dropped for its form is counted in the third field of its master's word of WSTAT. -/
theorem State.drop_malformed_counted (j : Fin 3) : let old := s.hub.own.wstat.get j
    let new := (s.drop m .malformed).hub.own.wstat.get j
    (j.val ≠ m → new = old)
      ∧ (j.val = m → (new.extractLsb' 32 16).toNat = min ((old.extractLsb' 32 16).toNat + 1) 65535) := by
  dsimp only
  rw [State.drop_wstat]
  refine ⟨fun h => if_neg h, fun h => ?_⟩
  rw [if_pos h]
  exact bumpCount_count _ .malformed

theorem exec_window_loop {k : Nat} (i : Fin 4) (second : Bool) (v : Word64) (hk : OwnerAtSlot s m k)
    (hv : v &&& (if second then 0xFF00000000000007 else 0x1F00000000000007) = 0) {r : Nat}
    (hoff : r = 0x8C0 + 16 * i.val + 8 * second.toNat) :
    let e := (s.ctxNo k).loops.get i
    ∃ t, exec (.stateWindowWrite m (0x100000 + 4096 * k + r) (.eight v)) s = .next t
      ∧ (t.ctxNo k).loops = (s.ctxNo k).loops.set i.val (if second then { e with exit := bundleBits v }
          else { e with active := v.getLsbD 63, order := bits v 61 2, start := bundleBits v }) i.isLt
      ∧ (t.ctxNo k).regs = (s.ctxNo k).regs ∧ t.hbm = s.hbm := by
  have hb : second.toNat ≤ 1 := Bool.toNat_le second
  have hi4 := i.isLt
  have written := (s.windowCtx_loop m (ctxOfSlot k) i second v).trans (if_neg fun hn => hn hv)
  rw [← hoff] at written
  obtain ⟨t, ht, ctx, hbm, -⟩ := exec_window_slot_some s m _ hk (by omega) (by omega) (.inl rfl) written
  exact ⟨t, ht, by rw [ctx], by rw [ctx], hbm⟩

theorem exec_window_loop_malformed {k : Nat} (i : Fin 4) (v : Word64) (hk : OwnerAtSlot s m k)
    (hv : v &&& 0x1F00000000000007 ≠ 0) : exec (.stateWindowWrite m (0x100000 + 4096 * k + (0x8C0 + 16 * i.val)) (.eight v)) s
      = .next (s.drop m .malformed) := by
  have malformed : s.windowCtx m (ctxOfSlot k) (0x8C0 + 16 * i.val) v = none :=
    (s.windowCtx_loop m (ctxOfSlot k) i false v).trans (if_pos hv)
  rw [exec_window_slot s m v hk (by omega) (by omega), malformed]
  rfl

theorem stateWindow : Claims.StateWindow := by
  intro s m v w w4 owner
  refine ⟨exec_window_ownClaim s m,
    fun q => ⟨exec_window_lqtail s m q v, exec_window_lqctl s m q v⟩,
    exec_window_xlinvc s m v,
    fun n hn => ⟨exec_window_trshut s m v hn, exec_window_trdump s m v hn⟩,
    fun i u => exec_window_islctl s m u,
    fun ⟨hr, ho⟩ j => exec_window_two_islands s m v hr ho,
    fun k u hk h8 => ⟨exec_windowWrite_low_half s m u hk h8, exec_windowWrite_high_half s m u hk h8⟩,
    fun slot gang hs => ⟨exec_window_launchAbort s m hs, exec_window_gangPreempt s m gang hs,
      exec_window_gangResume s m gang hs⟩,
    fun hr ho => ⟨fun hb hv => ?psaveb, fun hb hv => ?psaven, exec_window_pwrcap s m v hr ho,
      fun k hk hs hi => exec_window_tvec s m v ⟨hr, ho, hk, hs, hi⟩,
      fun k hk hs hi => ⟨fun hv hf => ?status, fun i => ⟨fun hv => ?start, fun hv => ?exit,
        exec_window_loop_malformed s m i v ⟨hr, ho, hk, hs, hi⟩⟩⟩,
      fun hm hp pa data => ⟨fun h => ?beyond, fun h ok clean => ?within⟩⟩⟩
  case psaveb =>
    rw [← s.writeGlobal_psaveb m v hb hv]
    exact exec_window_global s m v hr ho (by omega) (by omega) (by omega)
  case psaven =>
    rw [← s.writeGlobal_psaven m v hb hv]
    exact exec_window_global s m v hr ho (by omega) (by omega) (by omega)
  case status =>
    obtain ⟨t, ht, ctrl, same, changed⟩ := exec_window_status s m v ⟨hr, ho, hk, hs, hi⟩ hv hf
    refine ⟨t, ht, ctrl, same, fun hz hn => ?_⟩
    rw [changed hz hn]
    exact ⟨fun j => (s.drop_malformed_counted m j).1, fun j => (s.drop_malformed_counted m j).2⟩
  case start => exact exec_window_loop s m i false v ⟨hr, ho, hk, hs, hi⟩ hv rfl
  case exit => exact exec_window_loop s m i true v ⟨hr, ho, hk, hs, hi⟩ hv (by rw [Bool.toNat_true]; omega)
  case beyond => exact (execDeviceMemoryWrite_of_owns s m pa data hr ho hm hp).trans (if_pos h)
  case within => exact execDeviceMemoryWrite_hbm s m pa data hr ho hm hp h (wf_hbm_of_stateOk s ok) clean

/-- Settles O51: every write of the owner's alone passes one gate, and each offset of the window falls to its register. -/
theorem ownerAndWindow : Obligations.OwnerAndWindow := ⟨ownerOnly, stateWindow⟩

end Sys2Proof.Machine
end
